-- ==== Sys2Proof/Word.lean ====
section
/-! DEFINITION. The word types of the EG-830: bytes, the 16-bit numbers of passages and reports,
part time and item identifiers. -/

namespace Sys2Proof

/-- One byte of a message or a bus frame. -/
abbrev Byte := BitVec 8

/-- A 16-bit field: passage numbers, report numbers, block numbers, the CRC. -/
abbrev Word16 := BitVec 16

/-- Part time, a count of milliseconds in 32 bits (R2). -/
abbrev Time := BitVec 32

/-- A 64-bit item identifier; 0 is never the identifier of an item (R26, R83). -/
abbrev Ident := BitVec 64

end Sys2Proof
end

