-- ==== Sys2Proof/Config.lean ====
section
/-! DEFINITION. What one made part fixes, and the free values: the factory serial number and the
order in which events that fall together are taken. -/

namespace Sys2Proof

/-- The factory serial number, "unique to each part" (R180): no value of it can be proved. -/
opaque Config.serialNumber : BitVec 64

/-- FREE VALUE. Which of several events that are due at one moment the part takes first, as the
manual leaves either order open (R26, R44, R54, R57, R72, R73, R143, R154, R171, R183 to R185).  The model applies it to a
counter (`State.choice`), so that every choice is a fresh one. -/
opaque Config.tieBreak : Nat → Nat

/-- The eight bytes of the serial number, most significant first (R172). -/
def Config.serialBytes : List Byte :=
  [Config.serialNumber.extractLsb' 56 8, Config.serialNumber.extractLsb' 48 8,
   Config.serialNumber.extractLsb' 40 8, Config.serialNumber.extractLsb' 32 8,
   Config.serialNumber.extractLsb' 24 8, Config.serialNumber.extractLsb' 16 8,
   Config.serialNumber.extractLsb' 8 8, Config.serialNumber.extractLsb' 0 8]

/-- The descriptor's vendor code, part code and revision (R180, offsets 0 to 5). -/
def Config.descriptorHead : List Byte := [0x4E, 0x17, 0x08, 0x30, 0x01, 0x00]

/-- The descriptor's capacities (R180, offsets 14 to 25). -/
def Config.descriptorCapacities : List Byte :=
  [8, 0x01, 0x00, 3, 10, 16, 64, 0x04, 0x00, 64, 16, 48]

/-- The 128 bytes of the descriptor (R180). -/
def Config.descriptor : List Byte :=
  Config.descriptorHead ++ Config.serialBytes ++ Config.descriptorCapacities
    ++ List.replicate 102 0x00

end Sys2Proof
end

