-- ==== Sys2Proof/Syntax.lean ====
section
/-! DEFINITION. The commands of the part: one constructor of `Instr` for each row of
spec/opcode_table.json.

A row that is a request on the host link carries the REF and the payload bytes of its good frame
(R173), because the dispatch of R159 judges the payload's length before any block sees the
request.  A row that is an answer on the pedestal bus carries the answer's fields (R181).  A row
that is a deadline, or the end of a filter's wait, carries what names the timer. -/

namespace Sys2Proof

/-- An aisle: index `i` is aisle `i + 1` of the manual (R1). -/
abbrev Aisle := Fin 8

/-- A pedestal, numbered as in the manual, 0 to 8 (R1). -/
abbrev Pedestal := Fin 9

/-- The two beams of an aisle (Chapter 4). -/
inductive Beam where
  | inner
  | outer
  deriving DecidableEq, Repr

/-- A sighting record of a SIGHTINGS answer (R181).  `face` is the two-bit face code, 01 LEFT and
10 RIGHT.  The record's unused bits and spare byte are ignored at intake (R182) and not held. -/
structure SightingRecord where
  ident : Ident
  face : BitVec 2
  guard : Bool
  strength : Byte
  deriving DecidableEq, Repr

/-- The commands, one constructor for each row of the table, in the table's order. -/
inductive Instr where
  | powerOn
  | restartFull (ref : Byte) (payload : List Byte)
  | restartDetection (ref : Byte) (payload : List Byte)
  | fullReset
  | detectionRestart
  | minuteTick
  | setSite (ref : Byte) (payload : List Byte)
  | setMode (ref : Byte) (payload : List Byte)
  | evacInputChange (asserted : Bool)
  | evacAssertAccepted
  | evacReleaseAccepted
  | sightingsAnswer (more : Bool) (records : List SightingRecord)
  | extendAnswer (n : Byte)
  | extendOnAnswer
  | badAnswer (frame : List Byte)
  | answerSlotGap
  | answerWindowClose
  | extensionWaitEnd
  | probeTimer
  | busTake (ref : Byte) (payload : List Byte)
  | busGrant
  | busGive (ref : Byte) (payload : List Byte)
  | readerPass (ref : Byte) (payload : List Byte)
  | readerPassAnswer (frame : List Byte)
  | readerPassTimeout
  | holdDeadline
  | decayStep
  | beamInputChange (aisle : Aisle) (beam : Beam) (broken : Bool)
  | breakEvent (aisle : Aisle) (beam : Beam)
  | clearEvent (aisle : Aisle) (beam : Beam)
  | transitDeadline (aisle : Aisle) (number : Word16)
  | graceDeadline (number : Word16)
  | durationDeadline (aisle : Aisle)
  | silence (ref : Byte) (payload : List Byte)
  | silenceKeyInputChange (pressed : Bool)
  | silenceKeyPress
  | silenceKeyRelease
  | issue (ref : Byte) (payload : List Byte)
  | beginIssue (ref : Byte) (payload : List Byte)
  | cancelIssue (ref : Byte) (payload : List Byte)
  | returnItem (ref : Byte) (payload : List Byte)
  | mark (ref : Byte) (payload : List Byte)
  | unmark (ref : Byte) (payload : List Byte)
  | lookup (ref : Byte) (payload : List Byte)
  | segBegin (ref : Byte) (payload : List Byte)
  | segBlock (ref : Byte) (payload : List Byte)
  | refreshIdleDeadline
  | trust (ref : Byte) (payload : List Byte)
  | supervise (ref : Byte) (payload : List Byte)
  | supervisorExpiry
  | answer (ref : Byte) (payload : List Byte)
  | queryDeadline (number : Byte)
  | transmitterTake
  | describe (ref : Byte) (payload : List Byte)
  | statusDevice (ref : Byte) (payload : List Byte)
  | statusAisle (ref : Byte) (payload : List Byte)
  | unknownKindFrame (kind : Byte) (ref : Byte) (payload : List Byte)
  | badFrame (bytes : List Byte)
  | frameGapTimeout (bytes : List Byte)
  | lineFree
  deriving DecidableEq, Repr

end Sys2Proof
end

