-- ==== Sys2Proof/Decode.lean ====
section
/-! DEFINITION. The decoder of the table's words.  Every row of spec/opcode_table.json carries an
empty list of fields and no fixed bits: the table gives no row a word, so no word spells a
command.  (The frames of the host link and of the pedestal bus are read in
Sys2Proof/Machine/Framing.lean and Sys2Proof/Machine/Operands.lean, from Chapter 11.) -/

namespace Sys2Proof

/-- The command that a word of the table spells: none, since the table gives no row any bits. -/
def decodeTableWord (_nbits _w : Nat) : Option Instr := none

end Sys2Proof
end

