-- ==== Sys2Proof/Machine/Codes.lean ====
section
/-! DEFINITION. The request kinds of the host link with their codes (R175), and the good frame that
a request command of the table stands for. -/

namespace Sys2Proof.Machine

/-- The twenty-one request kinds (R175). -/
inductive RequestKind where
  | describe | status | restart
  | setSite | setMode | silence
  | issue | beginIssue | cancelIssue | returnItem | mark | unmark | lookup
  | segBegin | segBlock | trust | supervise
  | answer
  | busTake | busGive | readerPass
  deriving DecidableEq, Repr

/-- The code of a request kind (R175). -/
def RequestKind.code : RequestKind → Byte
  | .describe => 0x10
  | .status => 0x11
  | .restart => 0x12
  | .setSite => 0x18
  | .setMode => 0x19
  | .silence => 0x1A
  | .issue => 0x20
  | .beginIssue => 0x21
  | .cancelIssue => 0x22
  | .returnItem => 0x23
  | .mark => 0x24
  | .unmark => 0x25
  | .lookup => 0x26
  | .segBegin => 0x28
  | .segBlock => 0x29
  | .trust => 0x2A
  | .supervise => 0x2B
  | .answer => 0x30
  | .busTake => 0x38
  | .busGive => 0x39
  | .readerPass => 0x3A

/-- Every request kind, in the order of R175. -/
def RequestKind.all : List RequestKind :=
  [.describe, .status, .restart, .setSite, .setMode, .silence, .issue, .beginIssue, .cancelIssue,
   .returnItem, .mark, .unmark, .lookup, .segBegin, .segBlock, .trust, .supervise, .answer,
   .busTake, .busGive, .readerPass]

/-- The request kind a code names, if it names one (R159, step 1). -/
def RequestKind.ofCode (c : Byte) : Option RequestKind :=
  RequestKind.all.find? (fun k => k.code == c)

/-- The reply kind of a request kind: the code of R175 plus 80h. -/
def RequestKind.replyCode (k : RequestKind) : Byte := k.code + 0x80

/-- What a good frame carries: its kind, its REF and its payload (R173). -/
structure Frame where
  kind : Byte
  ref : Byte
  payload : List Byte
  deriving DecidableEq, Repr

/-- The good frame that a request command stands for, if the command is a frame of the host. -/
def hostFrame : Instr → Option Frame
  | .restartFull ref p => some ⟨RequestKind.restart.code, ref, p⟩
  | .restartDetection ref p => some ⟨RequestKind.restart.code, ref, p⟩
  | .setSite ref p => some ⟨RequestKind.setSite.code, ref, p⟩
  | .setMode ref p => some ⟨RequestKind.setMode.code, ref, p⟩
  | .busTake ref p => some ⟨RequestKind.busTake.code, ref, p⟩
  | .busGive ref p => some ⟨RequestKind.busGive.code, ref, p⟩
  | .readerPass ref p => some ⟨RequestKind.readerPass.code, ref, p⟩
  | .silence ref p => some ⟨RequestKind.silence.code, ref, p⟩
  | .issue ref p => some ⟨RequestKind.issue.code, ref, p⟩
  | .beginIssue ref p => some ⟨RequestKind.beginIssue.code, ref, p⟩
  | .cancelIssue ref p => some ⟨RequestKind.cancelIssue.code, ref, p⟩
  | .returnItem ref p => some ⟨RequestKind.returnItem.code, ref, p⟩
  | .mark ref p => some ⟨RequestKind.mark.code, ref, p⟩
  | .unmark ref p => some ⟨RequestKind.unmark.code, ref, p⟩
  | .lookup ref p => some ⟨RequestKind.lookup.code, ref, p⟩
  | .segBegin ref p => some ⟨RequestKind.segBegin.code, ref, p⟩
  | .segBlock ref p => some ⟨RequestKind.segBlock.code, ref, p⟩
  | .trust ref p => some ⟨RequestKind.trust.code, ref, p⟩
  | .supervise ref p => some ⟨RequestKind.supervise.code, ref, p⟩
  | .answer ref p => some ⟨RequestKind.answer.code, ref, p⟩
  | .describe ref p => some ⟨RequestKind.describe.code, ref, p⟩
  | .statusDevice ref p => some ⟨RequestKind.status.code, ref, p⟩
  | .statusAisle ref p => some ⟨RequestKind.status.code, ref, p⟩
  | .unknownKindFrame kind ref p => some ⟨kind, ref, p⟩
  | .powerOn => none
  | .fullReset => none
  | .detectionRestart => none
  | .minuteTick => none
  | .evacInputChange _ => none
  | .evacAssertAccepted => none
  | .evacReleaseAccepted => none
  | .sightingsAnswer _ _ => none
  | .extendAnswer _ => none
  | .extendOnAnswer => none
  | .badAnswer _ => none
  | .answerSlotGap => none
  | .answerWindowClose => none
  | .extensionWaitEnd => none
  | .probeTimer => none
  | .busGrant => none
  | .readerPassAnswer _ => none
  | .readerPassTimeout => none
  | .holdDeadline => none
  | .decayStep => none
  | .beamInputChange _ _ _ => none
  | .breakEvent _ _ => none
  | .clearEvent _ _ => none
  | .transitDeadline _ _ => none
  | .graceDeadline _ => none
  | .durationDeadline _ => none
  | .silenceKeyInputChange _ => none
  | .silenceKeyPress => none
  | .silenceKeyRelease => none
  | .refreshIdleDeadline => none
  | .supervisorExpiry => none
  | .queryDeadline _ => none
  | .transmitterTake => none
  | .badFrame _ => none
  | .frameGapTimeout _ => none
  | .lineFree => none

end Sys2Proof.Machine
end

