-- ==== Sys2Proof/Machine/State.lean ====
section
/-! DEFINITION. The state of the part: plain data, one record for each block of the block plan
(00_scope, section 3), and the queue of the commands that wait. -/

namespace Sys2Proof.Machine

/-! ## Mode control and site settings (Chapter 1) -/

/-- A stored mode (R10). -/
inductive Mode where
  | off | watch | guard
  deriving DecidableEq, Repr

/-- An effective mode (R10). -/
inductive EffectiveMode where
  | off | watch | guard | free
  deriving DecidableEq, Repr

/-- Tone pattern, field 12 of R4. -/
inductive TonePattern where
  | steady | twoTone | pulsed
  deriving DecidableEq, Repr

/-- Tone pitch, field 13 of R4. -/
inductive TonePitch where
  | low | mid | high
  deriving DecidableEq, Repr

/-- The site settings record (R4).  Times are in ms but for `alarm` (s) and `expiry` (min). -/
structure SiteSettings where
  aisles : Nat
  floor : Nat
  threshold : Nat
  margin : Nat
  decay : Nat
  transit : Nat
  grace : Nat
  query : Nat
  alarm : Nat
  debounce : Nat
  expiry : Nat
  pattern : TonePattern
  pitch : TonePitch
  deriving DecidableEq, Repr

/-- The defaults of R4. -/
def SiteSettings.default : SiteSettings where
  aisles := 8
  floor := 40
  threshold := 600
  margin := 8
  decay := 100
  transit := 8000
  grace := 3000
  query := 400
  alarm := 5
  debounce := 10
  expiry := 120
  pattern := .twoTone
  pitch := .mid

/-- The time base: part time (R2) and the minute phase (R3).  The phase holds 60,000 only between
the moment it reaches it and the minute tick taken at that moment. -/
structure Clock where
  now : Time
  phase : Nat
  deriving DecidableEq, Repr

/-- A filtered input: a beam (R56), the SILENCE key (R152) or EVAC (R14).  `true` is broken,
pressed, asserted.  `since` stamps a pending change. -/
structure Filter where
  raw : Bool
  accepted : Bool
  since : Option Time
  deriving DecidableEq, Repr

/-- Mode control: the stored modes (R10) and the EVAC input (R14). -/
structure ModeControl where
  stored : Vector Mode 8
  evac : Filter
  deriving DecidableEq, Repr

/-- The beam input unit: the sixteen beams (R56) and the SILENCE key (R152). -/
structure BeamUnit where
  inner : Vector Filter 8
  outer : Vector Filter 8
  key : Filter
  deriving DecidableEq, Repr

/-! ## Pedestal bus controller (Chapter 2) -/

/-- A pedestal's health record (section 2.3, R22). -/
structure Health where
  faulted : Bool
  count : Nat
  deriving DecidableEq, Repr

/-- A turn in progress (R17 to R22): its pedestal, whether it opened with a probe, the extension
slots its present poll has used (R20), the extra polls made (R18), whether any poll of it was
answered (R22), and whether its pedestal left use during it, so that its record stays as it is (R9). -/
structure Turn where
  pedestal : Pedestal
  probe : Bool
  slots : Nat
  extra : Nat
  answered : Bool
  dropped : Bool
  deriving DecidableEq, Repr

/-- A READER-PASS in flight (R30).  `heard` says that the first frame has arrived and was not
accepted. -/
structure ReaderPass where
  pedestal : Pedestal
  ref : Byte
  deadline : Time
  heard : Bool
  deriving DecidableEq, Repr

/-- The hold record while HELD (section 2.6). -/
structure Hold where
  since : Time
  deadline : Time
  pass : Option ReaderPass
  deriving DecidableEq, Repr

/-- What the bus controller is doing: idle (R17); a POLL or REPOLL outstanding with no byte of an answer
yet, with the end of its answer window (R16); receiving an answer frame begun in that window, with
its bytes so far and the moment of the last of them (R16, R182); handing the records of a SIGHTINGS
answer to intake, with its MORE flag and the records still to be taken (R18, R26); waiting out an
extension (R19); a turn has ended and the grant is due (R28); held by the host. -/
inductive Activity where
  | idle
  | polling (turn : Turn) (window : Time)
  | receiving (turn : Turn) (bytes : List Byte) (last : Time)
  | delivering (turn : Turn) (more : Bool) (records : List SightingRecord)
  | waiting (turn : Turn) (resume : Time)
  | ended (pedestal : Pedestal)
  | held (hold : Hold)
  deriving DecidableEq, Repr

/-- The round in progress (R17): its phase, the place next reached, the pedestals FAULTED at its
start, and the pedestals probed in it. -/
structure Round where
  probePhase : Bool
  next : Nat
  faultedAtStart : List Pedestal
  probed : List Pedestal
  deriving DecidableEq, Repr

/-- The pedestal bus controller.  `grant` is the REF of an accepted BUS-TAKE whose reply is still
deferred (R28); `sent` is the frame last sent on the bus (R181). -/
structure BusController where
  health : Vector Health 9
  activity : Activity
  grant : Option Byte
  round : Round
  probeDue : Bool
  probeAt : Time
  sent : List Byte
  deriving DecidableEq, Repr

/-! ## Item table and refresh unit (Chapters 5 and 6) -/

/-- The class of an entry (R78). -/
inductive EntryClass where
  | issued | pending | barred | lost
  deriving DecidableEq, Repr

/-- An entry of the item table (R78). -/
structure Entry where
  ident : Ident
  cls : EntryClass
  expiry : Nat
  desk : Option Nat
  deriving DecidableEq, Repr

/-- The state of a segment (R79). -/
inductive SegmentState where
  | stale | fresh | suspect
  deriving DecidableEq, Repr

/-- A segment: its state and its entries, held in rising order of identifier. -/
structure Segment where
  state : SegmentState
  entries : List Entry
  deriving DecidableEq, Repr

/-- The result of a lookup (R81). -/
inductive LookupResult where
  | entry (cls : EntryClass)
  | absent
  | unknown
  deriving DecidableEq, Repr

/-- Which request made a change to an entry (R93, R102). -/
inductive ChangeKind where
  | issue | beginIssue | cancelIssue | returnItem | mark | unmark | answer
  deriving DecidableEq, Repr

/-- A recorded late change (R102): `entry` is the entry it left, or `none` for a removal. -/
structure LateChange where
  kind : ChangeKind
  ident : Ident
  entry : Option Entry
  deriving DecidableEq, Repr

/-- The refresh record (R97). -/
structure RefreshRecord where
  segment : Fin 64
  declared : Nat
  received : Nat
  skipped : Nat
  shadow : List Entry
  late : List LateChange
  expected : Word16
  idleAt : Time
  deriving DecidableEq, Repr

/-- The link supervisor (R109); the period is in seconds. -/
inductive Supervisor where
  | disarmed
  | running (period : Nat) (deadline : Time)
  | expired (period : Nat)
  deriving DecidableEq, Repr

/-! ## Tracks and queries (Chapters 3 and 7) -/

/-- A verdict, for an item or a passage (section 8.1). -/
inductive Verdict where
  | pass | note | soft | alarm
  deriving DecidableEq, Repr

/-- The basis of an item verdict (R127). -/
inductive Basis where
  | table | tag | answer | fallback | grace
  deriving DecidableEq, Repr

/-- A host answer: a class, or NONE (R35, R120). -/
inductive HostAnswer where
  | entry (cls : EntryClass)
  | noException
  deriving DecidableEq, Repr

/-- The query mark of a track (R118). -/
inductive QueryMark where
  | none | asked | lapsed | noQuery
  deriving DecidableEq, Repr

/-- The state of a track with the fields present in it (R35): the attributed aisle, the attribution
time, the passage number, and the item verdict with its basis. -/
inductive TrackState where
  | forming
  | attributed (aisle : Aisle) (since : Time)
  | bound (aisle : Aisle) (passage : Word16)
  | spent (aisle : Aisle) (passage : Word16) (verdict : Option (Verdict × Basis))
  deriving DecidableEq, Repr

/-- A track (R35). -/
structure Track where
  ident : Ident
  evidence : Vector Nat 8
  guard : Bool
  state : TrackState
  answer : Option HostAnswer
  mark : QueryMark
  firstSeen : Time
  lastSeen : Time
  deriving DecidableEq, Repr

/-- The track engine: the tracks, held in rising order of identifier, and the moment of the next
decay step (R34, R42). -/
structure TrackEngine where
  tracks : List Track
  decayAt : Time
  deriving DecidableEq, Repr

/-- An outstanding query (R114). -/
structure Query where
  number : Byte
  ident : Ident
  aisle : Aisle
  segment : SegmentState
  created : Time
  deadline : Time
  sent : Bool
  deriving DecidableEq, Repr

/-- The query unit: the query list, oldest first (R114), and the next-number counter (R115). -/
structure QueryUnit where
  list : List Query
  next : Byte
  deriving DecidableEq, Repr

/-! ## Passages and verdicts (Chapters 4 and 8) -/

/-- The direction of a passage (R58). -/
inductive Direction where
  | exit | entry
  deriving DecidableEq, Repr

/-- The phase of an open passage (R58). -/
inductive Phase where
  | opened | crossing
  deriving DecidableEq, Repr

/-- How a passage left the open list (R58). -/
inductive PassageOutcome where
  | completed | turnedBack | timedOut | dismissed
  deriving DecidableEq, Repr

/-- The flags of a passage (R58). -/
structure Flags where
  full : Bool
  crowded : Bool
  half : Bool
  blind : Bool
  forced : Bool
  deriving DecidableEq, Repr

/-- An open passage (R58).  Its aisle is that of the list that holds it, and its near and far beams
follow from its direction; its outcome and closed time are absent while it is open.  Of an item
record only the identifier is held until the passage completes (R58). -/
structure Passage where
  number : Word16
  direction : Direction
  phase : Phase
  farBroken : Bool
  openedAt : Time
  deadline : Time
  flags : Flags
  items : List Ident
  deriving DecidableEq, Repr

/-- An aisle's open-passage list, oldest first, and its CROWDED flag (R60). -/
structure AisleRecord where
  opens : List Passage
  crowded : Bool
  deriving DecidableEq, Repr

/-- The passage tracker: one record for each aisle (R60) and the passage number counter (R59). -/
structure PassageTracker where
  aisles : Vector AisleRecord 8
  next : Word16
  deriving DecidableEq, Repr

/-- What an undecided item waits for (R127). -/
inductive Wait where
  | grace | answer
  deriving DecidableEq, Repr

/-- The wait of an undecided item, or the verdict and basis of a decided one (R127). -/
inductive ItemStatus where
  | waiting (wait : Wait)
  | decided (verdict : Verdict) (basis : Basis)
  deriving DecidableEq, Repr

/-- An item record of a completed passage (R127). -/
structure ItemRecord where
  ident : Ident
  guard : Bool
  lookup : LookupResult
  answer : Option HostAnswer
  desk : Option Nat
  status : ItemStatus
  deriving DecidableEq, Repr

/-- A completed passage with its item records, its grace deadline and whether that has passed (R132). -/
structure Judging where
  number : Word16
  aisle : Aisle
  direction : Direction
  openedAt : Time
  closedAt : Time
  flags : Flags
  items : List ItemRecord
  grace : Time
  gracePassed : Bool
  deriving DecidableEq, Repr

/-! ## Annunciators (Chapter 9) -/

/-- An aisle's annunciator with the fields present in its state (R146). -/
inductive Annunciator where
  | quiet
  | sounding (deadline : Time) (pattern : TonePattern) (pitch : TonePitch) (start : Time)
  | showing (deadline : Time)
  deriving DecidableEq, Repr

/-! ## Link unit (Chapters 10 and 11) -/

/-- The line rate in baud (R156). -/
inductive LineRate where
  | b57600 | b115200 | b230400 | b460800
  deriving DecidableEq, Repr

/-- The status codes of replies (R175). -/
inductive Status where
  | ok | clamped | done | granted
  | busy | range | sequence | full | mismatch | notFound | noRefresh | count | unmatched
  | notHeld | cancelled | noAnswer
  | kind | format
  deriving DecidableEq, Repr

/-- A received byte with the time it arrived (R157). -/
structure RxByte where
  time : Time
  byte : Byte
  deriving DecidableEq, Repr

/-- A reply that waits for the transmitter: the code of its reply kind, the REF of its request, its
status, and the payload after the status byte (R160, R178). -/
structure Reply where
  kind : Byte
  ref : Byte
  status : Status
  body : List Byte
  deriving DecidableEq, Repr

/-- The kind of a restart as notice RESTARTED carries it (R165). -/
inductive RestartCause where
  | power | full | detection
  deriving DecidableEq, Repr

/-- Why a refresh aborted, where a notice tells it (R106). -/
inductive AbortReason where
  | overrun | idle | silent
  deriving DecidableEq, Repr

/-- A notice with its detail (R165). -/
inductive Notice where
  | restarted (cause : RestartCause)
  | pedestalFaulted (pedestal : Pedestal)
  | pedestalRestored (pedestal : Pedestal)
  | holdExpired
  | refreshAborted (reason : AbortReason) (segment : Fin 64)
  | linkSilent
  | linkRestored
  | evacOn
  | evacOff
  deriving DecidableEq, Repr

/-- What a PASSAGE report carries (R66, R140).  A closed passage has no verdict and no item records,
and its verdict time is its closed time (R179). -/
structure PassageReport where
  number : Word16
  aisle : Aisle
  direction : Direction
  outcome : PassageOutcome
  mode : EffectiveMode
  flags : Flags
  verdict : Option Verdict
  openedAt : Time
  closedAt : Time
  verdictAt : Time
  count : Nat
  items : List ItemRecord
  deriving DecidableEq, Repr

/-- What a report tells: a passage or a notice (section 10.6). -/
inductive ReportBody where
  | passage (p : PassageReport)
  | notice (n : Notice)
  deriving DecidableEq, Repr

/-- A report with its number and time stamp (R163).  Its class is the list that holds it. -/
structure Report where
  number : Word16
  stamp : Time
  body : ReportBody
  deriving DecidableEq, Repr

/-- The frame being sent on the host link (R162): its bytes, when it was taken, and whether it is the
OK reply of a RESTART (R169). -/
structure LineFrame where
  bytes : List Byte
  started : Time
  restartReply : Bool
  deriving DecidableEq, Repr

/-- The two kinds of restart a RESTART request may name (R169). -/
inductive RestartKind where
  | full | detection
  deriving DecidableEq, Repr

/-- A RESTART that has been taken, and whether its reply has left the line (R169). -/
structure RestartWait where
  kind : RestartKind
  left : Bool
  deriving DecidableEq, Repr

/-- The link unit.  `strap1` and `strap2` are the levels of the strap pins, `true` for tied low;
`rx` holds the bytes of the frame being collected from its start byte on, and is empty while the
receiver is HUNTING (R157). -/
structure LinkUnit where
  strap1 : Bool
  strap2 : Bool
  rate : LineRate
  rx : List RxByte
  replies : List Reply
  line : Option LineFrame
  urgent : List Report
  routine : List Report
  nextReport : Word16
  restart : Option RestartWait
  deriving DecidableEq, Repr

/-! ## The whole part -/

/-- The state of the part.  `choice` is the model's own field: the counter to which the free value
`Config.tieBreak` is applied.  `pending` is the queue of the commands that wait, first in first
out. -/
structure State where
  clock : Clock
  site : SiteSettings
  modes : ModeControl
  bus : BusController
  tracking : TrackEngine
  beams : BeamUnit
  passages : PassageTracker
  segments : Vector Segment 64
  refresh : Option RefreshRecord
  supervisor : Supervisor
  queries : QueryUnit
  judging : List Judging
  annunciators : Vector Annunciator 8
  link : LinkUnit
  choice : Nat
  pending : List Instr
  deriving DecidableEq, Repr

/-- The faults of the part: none.  The manual gives every command an effect, and describes nothing
that stops the part. -/
inductive Fault where
  deriving DecidableEq, Repr

/-- Why a command has no meaning. -/
inductive Refusal where
  /-- Raised only by an arm of `exec` whose command is not modelled yet (safe: the machine stops). -/
  | notModelled (mnemonic : String)
  deriving DecidableEq, Repr

/-! ## Field updates -/

def State.setClock (s : State) (v : Clock) : State := { s with clock := v }
def State.setSite (s : State) (v : SiteSettings) : State := { s with site := v }
def State.setModes (s : State) (v : ModeControl) : State := { s with modes := v }
def State.setBus (s : State) (v : BusController) : State := { s with bus := v }
def State.setTracking (s : State) (v : TrackEngine) : State := { s with tracking := v }
def State.setBeams (s : State) (v : BeamUnit) : State := { s with beams := v }
def State.setPassages (s : State) (v : PassageTracker) : State := { s with passages := v }
def State.setSegments (s : State) (v : Vector Segment 64) : State := { s with segments := v }
def State.setRefresh (s : State) (v : Option RefreshRecord) : State := { s with refresh := v }
def State.setSupervisor (s : State) (v : Supervisor) : State := { s with supervisor := v }
def State.setQueries (s : State) (v : QueryUnit) : State := { s with queries := v }
def State.setJudging (s : State) (v : List Judging) : State := { s with judging := v }
def State.setAnnunciators (s : State) (v : Vector Annunciator 8) : State :=
  { s with annunciators := v }
def State.setLink (s : State) (v : LinkUnit) : State := { s with link := v }
def State.setChoice (s : State) (v : Nat) : State := { s with choice := v }
def State.setPending (s : State) (v : List Instr) : State := { s with pending := v }

/-! ## Reset -/

/-- A filter at a reset: the accepted state is the raw level read then (R15, R76, R155). -/
def Filter.atReset (raw : Bool) : Filter := { raw := raw, accepted := raw, since := none }

/-- The state after power-on with every beam clear, EVAC clear, the key released and both straps
open (the levels of the pins are DESIGN CHOICE, log entry 3).  The bus controller has begun its
round with the POLL to pedestal 0 (R33), and notice RESTARTED of kind POWER is queued as report
0 (R170). -/
def State.reset : State where
  clock := { now := 0, phase := 0 }
  site := SiteSettings.default
  modes := { stored := Vector.replicate 8 .off, evac := Filter.atReset false }
  bus :=
    { health := Vector.replicate 9 { faulted := false, count := 0 }
      activity := .polling { pedestal := 0, probe := false, slots := 0, extra := 0,
                             answered := false, dropped := false } 2
      grant := none
      round := { probePhase := false, next := 1, faultedAtStart := [], probed := [] }
      probeDue := false
      probeAt := 1000
      sent := [0x00, 0x01, 0xFF] }
  tracking := { tracks := [], decayAt := 100 }
  beams :=
    { inner := Vector.replicate 8 (Filter.atReset false)
      outer := Vector.replicate 8 (Filter.atReset false)
      key := Filter.atReset false }
  passages := { aisles := Vector.replicate 8 { opens := [], crowded := false }, next := 1 }
  segments := Vector.replicate 64 { state := .stale, entries := [] }
  refresh := none
  supervisor := .disarmed
  queries := { list := [], next := 1 }
  judging := []
  annunciators := Vector.replicate 8 .quiet
  link :=
    { strap1 := false, strap2 := false, rate := .b115200, rx := [], replies := [], line := none
      urgent := [{ number := 0, stamp := 0, body := .notice (.restarted .power) }]
      routine := [], nextReport := 1, restart := none }
  choice := 0
  pending := []

end Sys2Proof.Machine
end

