-- ==== Sys2Proof/Machine/Ops.lean ====
section
/-! DEFINITION. The named operations the blocks share: deadlines and filters, keyed lists, choice by
lexicographic keys, the tracks, passages and segments of the state, the reply queue and the report queue. -/

namespace Sys2Proof.Machine

/-! ## Deadlines and filters -/

/-- The deadline `ms` milliseconds after `t`, modulo 2^32 (R2). -/
def after (t : Time) (ms : Nat) : Time := t + BitVec.ofNat 32 ms

/-- A deadline has passed when part time minus the deadline, modulo 2^32, is less than 2^31 (R2). -/
def passed (now deadline : Time) : Bool := (now - deadline).toNat < 2147483648

/-- Milliseconds left to a deadline, 0 once it has passed (R167, R168). -/
def msLeft (now deadline : Time) : Time := if passed now deadline then 0 else deadline - now

/-- How long ago a time was, modulo 2^32 (R38, R70). -/
def age (now t : Time) : Nat := (now - t).toNat

/-- A raw level of a filtered input: one that differs from the accepted state begins a pending change
or lets a begun one run on, and one that equals it discards the pending change (R14, R56, R152). -/
def Filter.input (now : Time) (level : Bool) (f : Filter) : Filter :=
  { f with
    raw := level
    since := if level = f.accepted then none else some (f.since.getD now) }

/-- The pending change to `level` has held for `ms`, so that it is accepted now (R14, R56, R152). -/
def Filter.due (now : Time) (ms : Nat) (level : Bool) (f : Filter) : Bool :=
  f.raw == level && f.accepted != level &&
    match f.since with
    | some t => passed now (after t ms)
    | none => false

/-- The pending change, to whichever level, has held for `ms` (R8, R56). -/
def Filter.ready (now : Time) (ms : Nat) (f : Filter) : Bool := f.due now ms true || f.due now ms false

/-- The accepted state becomes the raw level and the pending change ends (R56). -/
def Filter.accept (f : Filter) : Filter := { f with accepted := f.raw, since := none }

/-! ## Vectors, keyed lists and choice -/

/-- The vector of the values of `f`. -/
def mapVector {α β : Type} {n : Nat} (f : α → β) (v : Vector α n) : Vector β n :=
  Vector.ofFn fun i => f v[i]

/-- The aisles 1..8 in ascending order. -/
def allAisles : List Aisle := [0, 1, 2, 3, 4, 5, 6, 7]

/-- The pedestals 0..8 in ascending order. -/
def allPedestals : List Pedestal := [0, 1, 2, 3, 4, 5, 6, 7, 8]

/-- The segments 0..63 in ascending order. -/
def allSegments : List (Fin 64) := List.finRange 64

/-- Put `x` into a list held in rising order of its key, in place of an element with the same key. -/
def putKeyed {α : Type} (key : α → Nat) (x : α) : List α → List α
  | [] => [x]
  | y :: ys =>
    if key x < key y then x :: y :: ys
    else if key x = key y then x :: ys
    else y :: putKeyed key x ys

/-- Take the element with key `k` out of a keyed list. -/
def dropKeyed {α : Type} (key : α → Nat) (k : Nat) (l : List α) : List α :=
  l.filter fun x => key x != k

/-- The keys of a list rise strictly: the canonical form of a keyed list. -/
def risingKeys {α : Type} (key : α → Nat) : List α → Bool
  | [] => true
  | [_] => true
  | x :: y :: rest => decide (key x < key y) && risingKeys key (y :: rest)

/-- `a` comes before `b` in lexicographic order of lists of numbers of one length. -/
def lexBefore : List Nat → List Nat → Bool
  | [], _ => false
  | _ :: _, [] => false
  | x :: xs, y :: ys => x < y || (x == y && lexBefore xs ys)

/-- The first element whose key is least in lexicographic order. -/
def leastBy {α : Type} (key : α → List Nat) : List α → Option α
  | [] => none
  | x :: xs =>
    match leastBy key xs with
    | none => some x
    | some y => if lexBefore (key y) (key x) then some y else some x

/-- Insert into a list sorted by lexicographic key, after the elements it does not come before. -/
def insertBy {α : Type} (key : α → List Nat) (x : α) : List α → List α
  | [] => [x]
  | y :: ys => if lexBefore (key x) (key y) then x :: y :: ys else y :: insertBy key x ys

/-- Sort by lexicographic key. -/
def sortBy {α : Type} (key : α → List Nat) : List α → List α
  | [] => []
  | x :: xs => insertBy key x (sortBy key xs)

/-! ## Free choices -/

/-- A number below `n` that the manual leaves open: the free value at the counter's present place, and 0
where there is nothing to choose. -/
def State.drawn (s : State) (n : Nat) : Nat := if n ≤ 1 then 0 else Config.tieBreak s.choice % n

/-- The state after a choice among `n`: the counter moves on where there was something to choose. -/
def State.afterDraw (s : State) (n : Nat) : State :=
  if n ≤ 1 then s else s.setChoice (s.choice + 1)

/-- The one of `x` and the others that the manual leaves open to come first. -/
def State.pick {α : Type} (s : State) (x : α) (others : List α) : α :=
  (x :: others).getD (s.drawn (others.length + 1)) x

/-- The state after that choice. -/
def State.afterPick {α : Type} (s : State) (others : List α) : State :=
  s.afterDraw (others.length + 1)

/-! ## Numbers with a wrap -/

/-- The passage number after `n`: 65,535 is followed by 1 (R59). -/
def nextPassageNumber (n : Word16) : Word16 := if n = 65535 then 1 else n + 1

/-- The query number after `n`: 255 is followed by 1 (R115). -/
def nextQueryNumber (n : Byte) : Byte := if n = 255 then 1 else n + 1

/-! ## Tracks -/

/-- The key a track is found by (R34). -/
def Track.key (t : Track) : Nat := t.ident.toNat

/-- The track of an identifier (R34). -/
def State.track? (s : State) (id : Ident) : Option Track :=
  s.tracking.tracks.find? fun t => t.ident == id

/-- The state with these tracks. -/
def State.setTracks (s : State) (ts : List Track) : State :=
  s.setTracking { s.tracking with tracks := ts }

/-- Change the track of an identifier, where there is one. -/
def State.modifyTrack (s : State) (id : Ident) (f : Track → Track) : State :=
  s.setTracks (s.tracking.tracks.map fun t => if t.ident == id then f t else t)

/-! ## Aisle records -/

/-- The state with this open-passage list and CROWDED flag for an aisle (R60). -/
def State.setAisle (s : State) (a : Aisle) (r : AisleRecord) : State :=
  s.setPassages { s.passages with aisles := s.passages.aisles.set a r }

/-- The aisle's open passages, oldest first (R60). -/
def State.opens (s : State) (a : Aisle) : List Passage := s.passages.aisles[a].opens

/-- The state with this open-passage list for an aisle. -/
def State.setOpens (s : State) (a : Aisle) (ps : List Passage) : State :=
  s.setAisle a { s.passages.aisles[a] with opens := ps }

/-- The state with this annunciator for an aisle (R146). -/
def State.setAnnunciator (s : State) (a : Aisle) (x : Annunciator) : State :=
  s.setAnnunciators (s.annunciators.set a x)

/-! ## The item table -/

/-- The segment an identifier lies in: the value of its lowest six bits (R77). -/
def segmentOf (id : Ident) : Fin 64 := ⟨id.toNat % 64, Nat.mod_lt _ (by decide)⟩

/-- The key an entry is found by (R77). -/
def Entry.key (e : Entry) : Nat := e.ident.toNat

/-- The segment of the live table an identifier lies in. -/
def State.segment (s : State) (id : Ident) : Segment := s.segments[segmentOf id]

/-- The live entry of an identifier (R77). -/
def State.entry? (s : State) (id : Ident) : Option Entry :=
  (s.segment id).entries.find? fun e => e.ident == id

/-- The state with these entries in a segment of the live table. -/
def State.setEntries (s : State) (i : Fin 64) (es : List Entry) : State :=
  s.setSegments (s.segments.set i { s.segments[i] with entries := es })

/-- A lookup of an identifier in the live table (R81). -/
def State.lookup (s : State) (id : Ident) : LookupResult :=
  match s.entry? id with
  | some e => .entry e.cls
  | none => if (s.segment id).state = .fresh then .absent else .unknown

/-- The desk number a lookup gives, where there is an entry and it has one (R81). -/
def State.lookupDesk (s : State) (id : Ident) : Option Nat := (s.entry? id).bind (·.desk)

/-! ## The reply queue -/

/-- Place a reply at the end of the reply queue (R160, R161). -/
def placeReply (kind ref : Byte) (status : Status) (body : List Byte) (s : State) : State :=
  s.setLink { s.link with
    replies := s.link.replies ++ [{ kind := kind, ref := ref, status := status, body := body }] }

/-- Place the reply of a request of kind `k` (R160). -/
def reply (k : RequestKind) (ref : Byte) (status : Status) (body : List Byte) (s : State) : State :=
  placeReply k.replyCode ref status body s

/-- The READER-PASS in flight, if any (section 2.6). -/
def State.readerPass? (s : State) : Option ReaderPass :=
  match s.bus.activity with
  | .held h => h.pass
  | _ => none

/-- How many of the eight places of the reply queue are occupied (R161). -/
def placesUsed (s : State) : Nat :=
  s.link.replies.length + (if s.bus.grant.isSome then 1 else 0)
    + (if s.readerPass?.isSome then 1 else 0)

/-! ## The report queue -/

/-- Make room in a report queue that holds 48 reports: the oldest routine report is evicted, or the
oldest urgent one where there is no routine one (R164). -/
def evictReport (l : LinkUnit) : LinkUnit :=
  if l.urgent.length + l.routine.length < 48 then l
  else match l.routine with
    | _ :: rest => { l with routine := rest }
    | [] => { l with urgent := l.urgent.tail }

/-- Create a report: it takes the next report number and the present part time (R163) and joins the
list of its class (R164). -/
def createReport (urgent : Bool) (body : ReportBody) (s : State) : State :=
  let l := evictReport s.link
  let r : Report := { number := s.link.nextReport, stamp := s.clock.now, body := body }
  s.setLink { l with
    nextReport := s.link.nextReport + 1
    urgent := if urgent then l.urgent ++ [r] else l.urgent
    routine := if urgent then l.routine else l.routine ++ [r] }

/-- Queue a notice; every notice is urgent (R165). -/
def notice (n : Notice) (s : State) : State := createReport true (.notice n) s

end Sys2Proof.Machine
end

