-- ==== Sys2Proof/Machine/Flags.lean ====
section
/-! DEFINITION. The conditions other blocks read: effective modes (R10), faces and sight state (R1, R25),
the bus state (R21), and the flags a passage takes when it leaves the open list (R62, R64). -/

namespace Sys2Proof.Machine

/-! ## Modes and geometry -/

/-- The effective mode an aisle has by its stored mode alone (R10). -/
def Mode.effective : Mode → EffectiveMode
  | .off => .off
  | .watch => .watch
  | .guard => .guard

/-- The effective mode of an aisle: its stored mode, or FREE while EVAC is accepted as asserted (R10). -/
def State.effective (s : State) (a : Aisle) : EffectiveMode :=
  if s.modes.evac.accepted then .free else s.modes.stored[a].effective

/-- The aisles in use, 1..N, in ascending order (R1). -/
def aislesInUse (n : Nat) : List Aisle := allAisles.filter fun a => a.val < n

/-- The aisle a face serves, where the face exists (R1).  The face code is 01 for LEFT and 10 for
RIGHT (R181). -/
def servedAisle (n : Nat) (p : Pedestal) (face : BitVec 2) : Option Aisle :=
  if face = 1 then
    (if h : 1 ≤ p.val ∧ p.val ≤ n then some ⟨p.val - 1, by have := p.isLt; omega⟩ else none)
  else if face = 2 then
    (if h : p.val < n ∧ p.val < 8 then some ⟨p.val, h.2⟩ else none)
  else none

/-- The pedestal on the left of an aisle (R1). -/
def leftPedestal (a : Aisle) : Pedestal := a.castSucc

/-- The pedestal on the right of an aisle (R1). -/
def rightPedestal (a : Aisle) : Pedestal := a.succ

/-! ## Bus state and sight state -/

/-- The bus state as STATUS reports it (R21). -/
inductive BusState where
  | polling | extended | grantPending | held
  deriving DecidableEq, Repr

/-- The bus state, with the pedestal where R21 gives one. -/
def BusController.report (b : BusController) : BusState × Option Pedestal :=
  match b.activity with
  | .idle => (.polling, none)
  | .polling t _ => (if b.grant.isSome then .grantPending else .polling, some t.pedestal)
  | .receiving t _ _ => (if b.grant.isSome then .grantPending else .polling, some t.pedestal)
  | .delivering t _ _ => (if b.grant.isSome then .grantPending else .polling, some t.pedestal)
  | .waiting t _ => (if b.grant.isSome then .grantPending else .extended, some t.pedestal)
  | .ended p => (.grantPending, some p)
  | .held _ => (.held, none)

/-- The bus is HELD by the host. -/
def BusController.isHeld (b : BusController) : Bool :=
  match b.activity with
  | .held _ => true
  | _ => false

/-- The sight state of an aisle (R25). -/
inductive Sight where
  | sighted | half | blind
  deriving DecidableEq, Repr

/-- The sight state from the bus state and the health of the two pedestals that serve the aisle (R25). -/
def State.sight (s : State) (a : Aisle) : Sight :=
  if s.bus.isHeld then .blind
  else match s.bus.health[leftPedestal a].faulted, s.bus.health[rightPedestal a].faulted with
    | true, true => .blind
    | false, false => .sighted
    | _, _ => .half

/-! ## Passage flags -/

/-- No flag. -/
def Flags.none : Flags :=
  { full := false, crowded := false, half := false, blind := false, forced := false }

/-- The flags a passage holds when it leaves the open list of aisle `a`: CROWDED by the aisle's flag,
HALF or BLIND by its sight state, and what it held before (R64, R65). -/
def State.leavingFlags (s : State) (a : Aisle) (f : Flags) : Flags :=
  { f with
    crowded := f.crowded || s.passages.aisles[a].crowded
    half := f.half || s.sight a == .half
    blind := f.blind || s.sight a == .blind }

/-- The near beam of a passage: the beam whose break opened it (R58). -/
def Direction.near : Direction → Beam
  | .exit => .inner
  | .entry => .outer

/-- The far beam of a passage (R58). -/
def Direction.far : Direction → Beam
  | .exit => .outer
  | .entry => .inner

/-- The direction of a passage opened by a break of a beam (R58). -/
def openingDirection : Beam → Direction
  | .inner => .exit
  | .outer => .entry

end Sys2Proof.Machine
end

