-- ==== Sys2Proof/Machine/Operands.lean ====
section
/-! DEFINITION. The formats of Chapter 11: the bytes of fields, the codes of enumerated values (R176),
the request payloads with their reading (R177), the replies' payloads (R178), the unsolicited
messages (R179) and the STATUS views (R180). -/

namespace Sys2Proof.Machine

/-! ## Fields, most significant byte first (R172) -/

/-- The two bytes of a 16-bit field. -/
def bytes16 (v : Word16) : List Byte := [v.extractLsb' 8 8, v.extractLsb' 0 8]

/-- The four bytes of a part time. -/
def bytes32 (v : Time) : List Byte :=
  [v.extractLsb' 24 8, v.extractLsb' 16 8, v.extractLsb' 8 8, v.extractLsb' 0 8]

/-- The eight bytes of an identifier or a segment set. -/
def bytes64 (v : Ident) : List Byte :=
  [v.extractLsb' 56 8, v.extractLsb' 48 8, v.extractLsb' 40 8, v.extractLsb' 32 8,
   v.extractLsb' 24 8, v.extractLsb' 16 8, v.extractLsb' 8 8, v.extractLsb' 0 8]

/-- A count or a duration as a 16-bit field. -/
def count16 (n : Nat) : List Byte := bytes16 (BitVec.ofNat 16 n)

/-- A count as a one-byte field. -/
def count8 (n : Nat) : Byte := BitVec.ofNat 8 n

/-- The byte at an offset of a payload. -/
def byteAt (p : List Byte) (i : Nat) : Byte := p.getD i 0

/-- The 16-bit field at an offset of a payload. -/
def field16 (p : List Byte) (i : Nat) : Word16 := byteAt p i ++ byteAt p (i + 1)

/-- The 64-bit field at an offset of a payload. -/
def field64 (p : List Byte) (i : Nat) : Ident :=
  byteAt p i ++ byteAt p (i + 1) ++ byteAt p (i + 2) ++ byteAt p (i + 3)
    ++ byteAt p (i + 4) ++ byteAt p (i + 5) ++ byteAt p (i + 6) ++ byteAt p (i + 7)

/-- An expiry field of a request, absent where it holds FFFFh (R176). -/
def expiryField (w : Word16) : Option Nat := if w = 0xFFFF then none else some w.toNat

/-- A desk field of a request, absent where it holds FFh (R176). -/
def deskField (b : Byte) : Option Nat := if b = 0xFF then none else some b.toNat

/-! ## Codes (R175, R176) -/

def EntryClass.code : EntryClass → Byte
  | .issued => 0x01
  | .pending => 0x02
  | .barred => 0x03
  | .lost => 0x04

/-- The class a code names (R176). -/
def EntryClass.ofCode (b : Byte) : Option EntryClass :=
  if b = 0x01 then some .issued
  else if b = 0x02 then some .pending
  else if b = 0x03 then some .barred
  else if b = 0x04 then some .lost
  else none

def LookupResult.code : LookupResult → Byte
  | .entry c => c.code
  | .absent => 0x05
  | .unknown => 0x06

def HostAnswer.code : HostAnswer → Byte
  | .entry c => c.code
  | .noException => 0x00

/-- The result an ANSWER's result code names (R120, R176). -/
def HostAnswer.ofCode (b : Byte) : Option HostAnswer :=
  if b = 0x00 then some .noException else (EntryClass.ofCode b).map .entry

def SegmentState.code : SegmentState → Byte
  | .stale => 0x00
  | .fresh => 0x01
  | .suspect => 0x02

def Mode.code : Mode → Byte
  | .off => 0x00
  | .watch => 0x01
  | .guard => 0x02

/-- The stored mode a code names: FREE is undefined in a SET-MODE (R176). -/
def Mode.ofCode (b : Byte) : Option Mode :=
  if b = 0x00 then some .off
  else if b = 0x01 then some .watch
  else if b = 0x02 then some .guard
  else none

def EffectiveMode.code : EffectiveMode → Byte
  | .off => 0x00
  | .watch => 0x01
  | .guard => 0x02
  | .free => 0x03

/-- The code of an aisle, 01h to 08h (R176). -/
def aisleCode (a : Aisle) : Byte := BitVec.ofNat 8 (a.val + 1)

/-- The aisles an aisle field of SET-MODE or SILENCE names: one aisle 1..N, or ALL for 1..N (R11,
R151, R176). -/
def namedAisles (n : Nat) (b : Byte) : Option (List Aisle) :=
  if b = 0xFF then some (aislesInUse n)
  else if h : 1 ≤ b.toNat ∧ b.toNat ≤ n ∧ b.toNat ≤ 8 then
    some [⟨b.toNat - 1, by omega⟩]
  else none

def TonePattern.code : TonePattern → Byte
  | .steady => 0x00
  | .twoTone => 0x01
  | .pulsed => 0x02

def TonePattern.ofCode (b : Byte) : Option TonePattern :=
  if b = 0x00 then some .steady
  else if b = 0x01 then some .twoTone
  else if b = 0x02 then some .pulsed
  else none

def TonePitch.code : TonePitch → Byte
  | .low => 0x00
  | .mid => 0x01
  | .high => 0x02

def TonePitch.ofCode (b : Byte) : Option TonePitch :=
  if b = 0x00 then some .low
  else if b = 0x01 then some .mid
  else if b = 0x02 then some .high
  else none

def RestartKind.code : RestartKind → Byte
  | .full => 0x01
  | .detection => 0x02

def RestartKind.ofCode (b : Byte) : Option RestartKind :=
  if b = 0x01 then some .full else if b = 0x02 then some .detection else none

def Direction.code : Direction → Byte
  | .exit => 0x00
  | .entry => 0x01

def PassageOutcome.code : PassageOutcome → Byte
  | .completed => 0x00
  | .turnedBack => 0x01
  | .timedOut => 0x02
  | .dismissed => 0x03

def Verdict.code : Verdict → Byte
  | .pass => 0x00
  | .note => 0x01
  | .soft => 0x02
  | .alarm => 0x03

def Basis.code : Basis → Byte
  | .table => 0x00
  | .tag => 0x01
  | .answer => 0x02
  | .fallback => 0x03
  | .grace => 0x04

def Status.code : Status → Byte
  | .ok => 0x00
  | .clamped => 0x01
  | .done => 0x02
  | .granted => 0x03
  | .busy => 0x10
  | .range => 0x11
  | .sequence => 0x12
  | .full => 0x13
  | .mismatch => 0x14
  | .notFound => 0x15
  | .noRefresh => 0x16
  | .count => 0x17
  | .unmatched => 0x18
  | .notHeld => 0x19
  | .cancelled => 0x1A
  | .noAnswer => 0x1B
  | .kind => 0x20
  | .format => 0x21

/-- The flags of a passage in one byte (R179). -/
def Flags.code (f : Flags) : Byte :=
  (if f.full then 0x01 else 0) + (if f.crowded then 0x02 else 0) + (if f.half then 0x04 else 0)
    + (if f.blind then 0x08 else 0) + (if f.forced then 0x10 else 0)

def boolCode (b : Bool) : Byte := if b then 0x01 else 0x00

/-- What a change did to passages that waited on the item (R142). -/
inductive Effect where
  | none | resolved | late
  deriving DecidableEq, Repr

def Effect.code : Effect → Byte
  | .none => 0x00
  | .resolved => 0x01
  | .late => 0x02

/-! ## Request payloads (R177) -/

/-- The thirteen fields of a SET-SITE as carried (R4, R177). -/
structure SiteFields where
  aisles : Nat
  floor : Nat
  threshold : Nat
  margin : Nat
  decay : Nat
  transit : Nat
  grace : Nat
  query : Nat
  alarm : Nat
  debounce : Nat
  expiry : Nat
  pattern : Byte
  pitch : Byte
  deriving DecidableEq, Repr

/-- An entry of a SEG-BLOCK as carried (R177). -/
structure BlockEntry where
  ident : Ident
  cls : Byte
  expiry : Nat
  deriving DecidableEq, Repr

/-- A dispatched request with its fields as carried; no field value has been checked yet (R159). -/
inductive Request where
  | describe (offset : Byte)
  | status (view : Byte)
  | restart (kind : Byte)
  | setSite (fields : SiteFields)
  | setMode (aisle : Byte) (mode : Byte)
  | silence (aisle : Byte)
  | issue (id : Ident) (expiry : Option Nat) (desk : Option Nat)
  | beginIssue (id : Ident) (desk : Option Nat)
  | cancelIssue (id : Ident)
  | returnItem (id : Ident)
  | mark (id : Ident) (cls : Byte) (expiry : Option Nat) (desk : Option Nat)
  | unmark (id : Ident)
  | lookup (id : Ident)
  | segBegin (segment : Byte) (count : Nat)
  | segBlock (segment : Byte) (block : Word16) (last : Bool) (entries : List BlockEntry)
  | trust (set : BitVec 64)
  | supervise (period : Nat)
  | answer (number : Byte) (id : Ident) (result : Byte) (expiry : Option Nat)
  | busTake
  | busGive
  | readerPass (pedestal : Byte) (bytes : List Byte)
  deriving DecidableEq, Repr

/-- The SET-SITE payload, in field order (R177). -/
def readSite (p : List Byte) : SiteFields where
  aisles := (byteAt p 0).toNat
  floor := (byteAt p 1).toNat
  threshold := (field16 p 2).toNat
  margin := (byteAt p 4).toNat
  decay := (field16 p 5).toNat
  transit := (field16 p 7).toNat
  grace := (field16 p 9).toNat
  query := (field16 p 11).toNat
  alarm := (byteAt p 13).toNat
  debounce := (byteAt p 14).toNat
  expiry := (field16 p 15).toNat
  pattern := byteAt p 17
  pitch := byteAt p 18

/-- `n` entries of a SEG-BLOCK, 11 bytes each, from an offset on (R177). -/
def readEntries (p : List Byte) : Nat → Nat → List BlockEntry
  | 0, _ => []
  | n + 1, i =>
    { ident := field64 p i, cls := byteAt p (i + 8), expiry := (field16 p (i + 9)).toNat }
      :: readEntries p n (i + 11)

/-- A payload length is allowed for a request kind (R175, R177). -/
def lengthAllowed (k : RequestKind) (p : List Byte) : Bool :=
  match k with
  | .describe => p.length == 1
  | .status => p.length == 1
  | .restart => p.length == 1
  | .setSite => p.length == 19
  | .setMode => p.length == 2
  | .silence => p.length == 1
  | .issue => p.length == 11
  | .beginIssue => p.length == 9
  | .cancelIssue => p.length == 8
  | .returnItem => p.length == 8
  | .mark => p.length == 12
  | .unmark => p.length == 8
  | .lookup => p.length == 8
  | .segBegin => p.length == 3
  | .segBlock => 5 ≤ p.length && (byteAt p 4).toNat ≤ 16 && p.length == 5 + 11 * (byteAt p 4).toNat
  | .trust => p.length == 8
  | .supervise => p.length == 2
  | .answer => p.length == 12
  | .busTake => p.length == 0
  | .busGive => p.length == 0
  | .readerPass =>
    2 ≤ p.length && 1 ≤ (byteAt p 1).toNat && (byteAt p 1).toNat ≤ 64
      && p.length == 2 + (byteAt p 1).toNat

/-- The fields of a payload whose length is allowed (R177). -/
def readRequest (k : RequestKind) (p : List Byte) : Request :=
  match k with
  | .describe => .describe (byteAt p 0)
  | .status => .status (byteAt p 0)
  | .restart => .restart (byteAt p 0)
  | .setSite => .setSite (readSite p)
  | .setMode => .setMode (byteAt p 0) (byteAt p 1)
  | .silence => .silence (byteAt p 0)
  | .issue => .issue (field64 p 0) (expiryField (field16 p 8)) (deskField (byteAt p 10))
  | .beginIssue => .beginIssue (field64 p 0) (deskField (byteAt p 8))
  | .cancelIssue => .cancelIssue (field64 p 0)
  | .returnItem => .returnItem (field64 p 0)
  | .mark =>
    .mark (field64 p 0) (byteAt p 8) (expiryField (field16 p 9)) (deskField (byteAt p 11))
  | .unmark => .unmark (field64 p 0)
  | .lookup => .lookup (field64 p 0)
  | .segBegin => .segBegin (byteAt p 0) (field16 p 1).toNat
  | .segBlock =>
    .segBlock (byteAt p 0) (field16 p 1) (byteAt p 3 != 0) (readEntries p (byteAt p 4).toNat 5)
  | .trust => .trust (field64 p 0)
  | .supervise => .supervise (field16 p 0).toNat
  | .answer =>
    .answer (byteAt p 0) (field64 p 1) (byteAt p 9) (expiryField (field16 p 10))
  | .busTake => .busTake
  | .busGive => .busGive
  | .readerPass => .readerPass (byteAt p 0) (p.drop 2)

/-- What dispatch makes of a good frame's kind and payload (R159). -/
inductive Parsed where
  | unknownKind
  | badLength
  | request (k : RequestKind) (r : Request)
  deriving DecidableEq, Repr

/-- Steps 1 and 2 of dispatch: the kind, then the length (R159). -/
def parseFrame (f : Frame) : Parsed :=
  match RequestKind.ofCode f.kind with
  | none => .unknownKind
  | some k => if lengthAllowed k f.payload then .request k (readRequest k f.payload) else .badLength

/-! ### The host's side: the payload of a request -/

/-- An expiry field, FFFFh where the expiry is absent (R176). -/
def expiryBytes : Option Nat → List Byte
  | none => [0xFF, 0xFF]
  | some n => count16 n

/-- A desk field, FFh where the desk number is absent (R176). -/
def deskByte : Option Nat → Byte
  | none => 0xFF
  | some n => count8 n

def SiteFields.payload (f : SiteFields) : List Byte :=
  [count8 f.aisles, count8 f.floor] ++ count16 f.threshold ++ [count8 f.margin] ++ count16 f.decay
    ++ count16 f.transit ++ count16 f.grace ++ count16 f.query ++ [count8 f.alarm, count8 f.debounce]
    ++ count16 f.expiry ++ [f.pattern, f.pitch]

def BlockEntry.payload (e : BlockEntry) : List Byte := bytes64 e.ident ++ e.cls :: count16 e.expiry

/-- The kind of a request. -/
def Request.kind : Request → RequestKind
  | .describe _ => .describe
  | .status _ => .status
  | .restart _ => .restart
  | .setSite _ => .setSite
  | .setMode _ _ => .setMode
  | .silence _ => .silence
  | .issue _ _ _ => .issue
  | .beginIssue _ _ => .beginIssue
  | .cancelIssue _ => .cancelIssue
  | .returnItem _ => .returnItem
  | .mark _ _ _ _ => .mark
  | .unmark _ => .unmark
  | .lookup _ => .lookup
  | .segBegin _ _ => .segBegin
  | .segBlock _ _ _ _ => .segBlock
  | .trust _ => .trust
  | .supervise _ => .supervise
  | .answer _ _ _ _ => .answer
  | .busTake => .busTake
  | .busGive => .busGive
  | .readerPass _ _ => .readerPass

/-- The payload that carries a request, laid out by R177. -/
def Request.payload : Request → List Byte
  | .describe o => [o]
  | .status v => [v]
  | .restart k => [k]
  | .setSite f => f.payload
  | .setMode a m => [a, m]
  | .silence a => [a]
  | .issue id e d => bytes64 id ++ expiryBytes e ++ [deskByte d]
  | .beginIssue id d => bytes64 id ++ [deskByte d]
  | .cancelIssue id => bytes64 id
  | .returnItem id => bytes64 id
  | .mark id c e d => bytes64 id ++ c :: expiryBytes e ++ [deskByte d]
  | .unmark id => bytes64 id
  | .lookup id => bytes64 id
  | .segBegin i n => i :: count16 n
  | .segBlock i b l es =>
    i :: bytes16 b ++ [boolCode l, count8 es.length] ++ es.flatMap BlockEntry.payload
  | .trust set => bytes64 set
  | .supervise p => count16 p
  | .answer n id r e => n :: bytes64 id ++ r :: expiryBytes e
  | .busTake => []
  | .busGive => []
  | .readerPass p bs => p :: count8 bs.length :: bs

/-! ## Reply payloads after the status byte (R178) -/

/-- The body of an update request's reply: its effect and its clamp (R178). -/
def updateBody (e : Effect) (clamped : Bool) : List Byte := [e.code, boolCode clamped]

/-- The body of a LOOKUP reply (R90, R178). -/
def lookupBody (r : LookupResult) (state : SegmentState) (e : Option Entry) : List Byte :=
  [r.code, state.code]
    ++ (match e with
        | some e => count16 e.expiry ++ [match e.desk with
            | some d => count8 d
            | none => 0xFF]
        | none => [0xFF, 0xFF, 0xFF])

/-- The body of a SEG-BLOCK reply: declared, received, skipped and dropped counts (R178). -/
def countsBody (declared received skipped dropped : Nat) : List Byte :=
  count16 declared ++ count16 received ++ count16 skipped ++ count16 dropped

/-- The body of a SET-SITE reply: the clamped field numbers with their count (R178). -/
def clampedBody (fields : List Nat) : List Byte := count8 fields.length :: fields.map count8

/-- The body of a READER-PASS reply: the reader's data bytes with their count (R178). -/
def passBody (bytes : List Byte) : List Byte := count8 bytes.length :: bytes

/-- The payload of a reply. -/
def Reply.payload (r : Reply) : List Byte := r.status.code :: r.body

/-! ## Unsolicited messages (R179) -/

/-- The payload of a QUERY message. -/
def Query.payload (q : Query) : List Byte :=
  q.number :: bytes64 q.ident ++ [aisleCode q.aisle, q.segment.code] ++ bytes32 q.created

/-- The 16 bytes of an item record. -/
def ItemRecord.payload (r : ItemRecord) : List Byte :=
  bytes64 r.ident
    ++ [boolCode r.guard, r.lookup.code,
        (match r.answer with
         | some a => a.code
         | none => 0xFF),
        (match r.desk with
         | some d => count8 d
         | none => 0xFF)]
    ++ (match r.status with
        | .decided v b => [v.code, b.code]
        | .waiting _ => [0x00, 0x00])
    ++ [0x00, 0x00]

/-- The fields of a PASSAGE message after its report number and time stamp. -/
def PassageReport.payload (p : PassageReport) : List Byte :=
  bytes16 p.number
    ++ [aisleCode p.aisle, p.direction.code, p.outcome.code, p.mode.code, p.flags.code,
        match p.verdict with
        | some v => v.code
        | none => 0xFF]
    ++ bytes32 p.openedAt ++ bytes32 p.closedAt ++ bytes32 p.verdictAt
    ++ count8 p.count :: p.items.flatMap ItemRecord.payload

def RestartCause.code : RestartCause → Byte
  | .power => 0x00
  | .full => 0x01
  | .detection => 0x02

def AbortReason.code : AbortReason → Byte
  | .overrun => 0x01
  | .idle => 0x02
  | .silent => 0x03

/-- The notice kind and the two details of a NOTICE message. -/
def Notice.payload : Notice → List Byte
  | .restarted c => [0x01, c.code, 0x00]
  | .pedestalFaulted p => [0x02, count8 p.val, 0x00]
  | .pedestalRestored p => [0x03, count8 p.val, 0x00]
  | .holdExpired => [0x04, 0x00, 0x00]
  | .refreshAborted r i => [0x05, r.code, count8 i.val]
  | .linkSilent => [0x06, 0x00, 0x00]
  | .linkRestored => [0x07, 0x00, 0x00]
  | .evacOn => [0x08, 0x00, 0x00]
  | .evacOff => [0x09, 0x00, 0x00]

/-- The kind code of a report's message (R175). -/
def ReportBody.kind : ReportBody → Byte
  | .passage _ => 0xC1
  | .notice _ => 0xC2

/-- The payload of a report's message. -/
def Report.payload (r : Report) : List Byte :=
  bytes16 r.number ++ bytes32 r.stamp
    ++ match r.body with
       | .passage p => p.payload
       | .notice n => n.payload

/-! ## STATUS views (R180) -/

def BusState.code : BusState → Byte
  | .polling => 0x00
  | .extended => 0x01
  | .grantPending => 0x02
  | .held => 0x03

def Health.code (h : Health) : Byte := count8 h.count + (if h.faulted then 0x80 else 0)

/-- Four segment states in a byte, the first in its two least significant bits (R180). -/
def segmentByte (v : Vector Segment 64) (j : Fin 16) : Byte :=
  let code (k : Nat) (h : k < 4) : Byte :=
    (v[4 * j.val + k]'(by have := j.isLt; omega)).state.code
  code 0 (by decide) + (code 1 (by decide) <<< 2) + (code 2 (by decide) <<< 4)
    + (code 3 (by decide) <<< 6)

/-- The supervisor's fields of the device view: state, period and ms left (R167). -/
def Supervisor.view (now : Time) : Supervisor → List Byte
  | .disarmed => [0x00] ++ count16 0 ++ bytes32 0
  | .running p d => [0x01] ++ count16 p ++ bytes32 (msLeft now d)
  | .expired p => [0x02] ++ count16 p ++ bytes32 0

/-- The device view (R167, R180). -/
def State.deviceView (s : State) : List Byte :=
  [s.bus.report.1.code,
   match s.bus.report.2 with
   | some p => count8 p.val
   | none => 0xFF]
    ++ s.bus.health.toList.map Health.code
    ++ s.supervisor.view s.clock.now
    ++ (match s.refresh with
        | some r => count8 r.segment.val :: count16 r.received
        | none => 0xFF :: count16 0)
    ++ (List.finRange 16).map (segmentByte s.segments)
    ++ count16 s.tracking.tracks.length
    ++ [count8 s.queries.list.length, count8 s.judging.length,
        count8 (s.link.urgent.length + s.link.routine.length)]
    ++ bytes16 s.link.nextReport
    ++ boolCode s.modes.evac.accepted :: bytes32 s.clock.now

def Sight.code : Sight → Byte
  | .sighted => 0x00
  | .half => 0x01
  | .blind => 0x02

def Phase.code : Phase → Byte
  | .opened => 0x00
  | .crossing => 0x01

/-- An open passage's slot of the aisle view (R180). -/
def Passage.slot (p : Passage) : List Byte :=
  bytes16 p.number ++ [p.phase.code, count8 p.items.length]

/-- The annunciator's fields of the aisle view: state and ms left (R168). -/
def Annunciator.view (now : Time) : Annunciator → List Byte
  | .quiet => 0x00 :: bytes32 0
  | .sounding d _ _ _ => 0x01 :: bytes32 (msLeft now d)
  | .showing d => 0x02 :: bytes32 (msLeft now d)

/-- The aisle view (R168, R180). -/
def State.aisleView (s : State) (a : Aisle) : List Byte :=
  [aisleCode a, s.modes.stored[a].code, (s.effective a).code,
   boolCode s.beams.inner[a].accepted, boolCode s.beams.outer[a].accepted, (s.sight a).code,
   boolCode s.passages.aisles[a].crowded, count8 (s.opens a).length]
    ++ (((s.opens a).flatMap Passage.slot) ++ List.replicate 12 0x00).take 12
    ++ s.annunciators[a].view s.clock.now

end Sys2Proof.Machine
end

