-- ==== Sys2Proof/Machine/Framing.lean ====
section
/-! DEFINITION. The frames of the host link: the CRC (R174), the layout (R173), and the receiver (R157). -/

namespace Sys2Proof.Machine

/-! ## The CRC -/

/-- One shift of the CRC register (R174, step 3). -/
def crcShift (r : Word16) : Word16 := if r.msb then (r <<< 1) ^^^ 0x1021 else r <<< 1

/-- One byte taken by the CRC register (R174, steps 2 and 3). -/
def crcByte (r : Word16) (b : Byte) : Word16 :=
  let r0 := r ^^^ (b ++ (0 : Byte))
  crcShift (crcShift (crcShift (crcShift (crcShift (crcShift (crcShift (crcShift r0)))))))

/-- The CRC of a list of bytes (R174). -/
def crc16 (bs : List Byte) : Word16 := bs.foldl crcByte 0xFFFF

/-! ## Frames -/

/-- LEN, kind, REF and payload: the bytes the CRC is computed over (R174). -/
def Frame.covered (f : Frame) : List Byte :=
  count8 (f.payload.length + 2) :: f.kind :: f.ref :: f.payload

/-- The bytes of a frame on the line (R173). -/
def Frame.bytes (f : Frame) : List Byte := 0xA5 :: f.covered ++ bytes16 (crc16 f.covered)

/-! ## The receiver -/

/-- What the receiver makes of the bytes from a start byte on (R157). -/
inductive Collected where
  | partially
  | discarded
  | good (f : Frame)
  deriving DecidableEq, Repr

/-- No more than 20 ms pass between each of these bytes and the next (R157). -/
def noGap : List RxByte → Bool
  | [] => true
  | [_] => true
  | a :: b :: rest => age b.time a.time ≤ 20 && noGap (b :: rest)

/-- Judge a frame whose LEN is in range and all of whose bytes have arrived: `body` holds LEN + 2 bytes
from the kind to the last CRC byte (R157). -/
def judgeFrame (len : Byte) (body : List Byte) : Collected :=
  let n := len.toNat
  let covered := body.take n
  if body.drop n = bytes16 (crc16 (len :: covered)) then
    .good { kind := byteAt covered 0, ref := byteAt covered 1, payload := covered.drop 2 }
  else .discarded

/-- Judge the bytes after a start byte: LEN out of range, a gap, or a CRC mismatch discards the frame,
and a match makes it good (R157). -/
def collect (start : RxByte) (rest : List RxByte) : Collected :=
  match rest with
  | [] => .partially
  | l :: body =>
    let n := l.byte.toNat
    if n < 2 ∨ 249 < n then .discarded
    else if !noGap (start :: l :: body.take (n + 2)) then .discarded
    else if body.length < n + 2 then .partially
    else judgeFrame l.byte ((body.take (n + 2)).map (·.byte))

/-- The number of bytes of a frame after its start byte. -/
def Frame.tail (f : Frame) : Nat := f.payload.length + 5

/-- The receiver run over received bytes from HUNTING on (R157): the good frames found, in order, and
the bytes of the frame being collected.  `skip` counts bytes of a good frame still to pass over.
A discarded frame is hunted again from the byte after its start byte.  With `silent`, more than
20 ms have passed since the last byte, so that no frame is still being collected. -/
def hunt (silent : Bool) : Nat → List RxByte → List Frame × List RxByte
  | _, [] => ([], [])
  | skip + 1, _ :: rest => hunt silent skip rest
  | 0, b :: rest =>
    if b.byte = 0xA5 then
      match collect b rest with
      | .good f =>
        let r := hunt silent f.tail rest
        (f :: r.1, r.2)
      | .discarded => hunt silent 0 rest
      | .partially => if silent then hunt silent 0 rest else ([], b :: rest)
    else hunt silent 0 rest

end Sys2Proof.Machine
end

