-- ==== Sys2Proof/Machine/Annunciators.lean ====
section
/-! DEFINITION. The annunciator unit (Chapter 9): what verdicts, silencing, mode changes and the
duration deadline do to an aisle's annunciator, and the lamp and tone outputs. -/

namespace Sys2Proof.Machine

/-- The duration deadline a verdict taken now sets: now plus A × 1,000 ms (R148, R149). -/
def State.durationEnd (s : State) : Time := after s.clock.now (s.site.alarm * 1000)

/-- An ALARM verdict handed to an annunciator (R148). -/
def Annunciator.alarm (s : State) : Annunciator → Annunciator
  | .quiet => .sounding s.durationEnd s.site.pattern s.site.pitch s.clock.now
  | .showing _ => .sounding s.durationEnd s.site.pattern s.site.pitch s.clock.now
  | .sounding _ pattern pitch start => .sounding s.durationEnd pattern pitch start

/-- A SOFT verdict handed to an annunciator (R149). -/
def Annunciator.soft (s : State) : Annunciator → Annunciator
  | .quiet => .showing s.durationEnd
  | .showing _ => .showing s.durationEnd
  | .sounding d pattern pitch start => .sounding d pattern pitch start

/-- A passage verdict handed to the annunciator of an aisle (R146, R148, R149). -/
def handVerdict (a : Aisle) (v : Verdict) (s : State) : State :=
  match v with
  | .alarm => s.setAnnunciator a (s.annunciators[a].alarm s)
  | .soft => s.setAnnunciator a (s.annunciators[a].soft s)
  | .note => s
  | .pass => s

/-- Silencing an annunciator: SOUNDING becomes SHOWING with its deadline kept (R151, step 2). -/
def Annunciator.silenced : Annunciator → Annunciator
  | .sounding d _ _ _ => .showing d
  | .showing d => .showing d
  | .quiet => .quiet

/-- Silence the annunciators of these aisles, in the order given (R151, R152). -/
def silenceAisles (as : List Aisle) (s : State) : State :=
  as.foldl (fun s a => s.setAnnunciator a s.annunciators[a].silenced) s

/-- The aisle's effective mode leaves GUARD: its annunciator goes QUIET at once (R13, R153). -/
def quietAisle (a : Aisle) (s : State) : State := s.setAnnunciator a .quiet

/-- The duration deadline, when SOUNDING or SHOWING (R146). -/
def Annunciator.deadline? : Annunciator → Option Time
  | .quiet => none
  | .sounding d _ _ _ => some d
  | .showing d => some d

/-! ## Outputs -/

/-- What a tone output carries: silence, or a square wave of a frequency in Hz (R147). -/
inductive Tone where
  | silent
  | hertz (f : Nat)
  deriving DecidableEq, Repr

/-- The frequency of a pitch (R147). -/
def TonePitch.hertz : TonePitch → Nat
  | .low => 1600
  | .mid => 2400
  | .high => 3200

/-- The frequency of the next lower pitch (R147). -/
def TonePitch.lowerHertz : TonePitch → Nat
  | .low => 1200
  | .mid => 1600
  | .high => 2400

/-- In a first, third, ... period of 250 ms from the sounding start (R147).  The time since the start is
the difference of two part times modulo 2^32, so that the periods of one SOUNDING that outlasts 2^32 ms
are counted afresh from there, which R147 leaves open (DESIGN CHOICE, log entry 38). -/
def firstPeriod (now start : Time) : Bool := (age now start / 250) % 2 == 0

/-- The lamp output of an aisle: whether the lamp is on (R146, R147). -/
def State.lamp (s : State) (a : Aisle) : Bool :=
  match s.annunciators[a] with
  | .quiet => false
  | .showing _ => true
  | .sounding _ _ _ start => firstPeriod s.clock.now start

/-- The tone output of an aisle (R146, R147). -/
def State.tone (s : State) (a : Aisle) : Tone :=
  match s.annunciators[a] with
  | .quiet => .silent
  | .showing _ => .silent
  | .sounding _ .steady pitch _ => .hertz pitch.hertz
  | .sounding _ .twoTone pitch start =>
    if firstPeriod s.clock.now start then .hertz pitch.hertz else .hertz pitch.lowerHertz
  | .sounding _ .pulsed pitch start =>
    if firstPeriod s.clock.now start then .hertz pitch.hertz else .silent

/-! ## Commands -/

/-- DURATION_DEADLINE (R150): when the annunciator's duration deadline has passed it becomes QUIET. -/
def durationExpires (a : Aisle) (s : State) : State :=
  match s.annunciators[a].deadline? with
  | some d => if passed s.clock.now d then quietAisle a s else s
  | none => s

/-- DURATION_DEADLINE (R150). -/
def execDurationDeadline (a : Aisle) (s : State) : Host.Outcome State Fault Refusal :=
  .next (durationExpires a s)

/-- The key's pending change is accepted (R152). -/
def acceptKey (s : State) : State := s.setBeams { s.beams with key := s.beams.key.accept }

/-- The key's change to `level` has held for the beam debounce (R152). -/
def State.keyDue (s : State) (level : Bool) : Bool :=
  s.beams.key.due s.clock.now s.site.debounce level

/-- An accepted press silences all aisles 1..N, with no reply (R152). -/
def pressKey (s : State) : State := silenceAisles (aislesInUse s.site.aisles) (acceptKey s)

/-- The key's pending change that has held for the beam debounce is accepted now; a release has no
effect but on the accepted state (R8, R152). -/
def settleKey (s : State) : State :=
  if s.keyDue true then pressKey s else if s.keyDue false then acceptKey s else s

/-- SILENCE_KEY_INPUT_CHANGE (R152): the key's raw level, under the filter of R56, after a pending change
whose debounce time has passed has been accepted. -/
def execSilenceKeyInputChange (pressed : Bool) (s : State) : Host.Outcome State Fault Refusal :=
  let s1 := settleKey s
  .next (s1.setBeams { s1.beams with key := s1.beams.key.input s.clock.now pressed })

/-- SILENCE_KEY_PRESS (R152): an accepted press silences all aisles 1..N, with no reply. -/
def execSilenceKeyPress (s : State) : Host.Outcome State Fault Refusal :=
  if s.keyDue true then .next (pressKey s) else .next s

/-- SILENCE_KEY_RELEASE (R152): an accepted release has no effect but on the accepted state. -/
def execSilenceKeyRelease (s : State) : Host.Outcome State Fault Refusal :=
  if s.keyDue false then .next (acceptKey s) else .next s

end Sys2Proof.Machine
end

