-- ==== Sys2Proof/Machine/Verdicts.lean ====
section
/-! DEFINITION. The verdict unit (Chapter 8): item verdicts, passage verdicts, the verdict queue with
its watch, and the events that settle undecided items. -/

namespace Sys2Proof.Machine

/-! ## Deciding an item -/

/-- Decided on the guard flag where the table's absence, or the host's word that there is no
exception, is trusted: ON gives ALARM, OFF gives PASS (R128, R134, R136). -/
def byTag (guard : Bool) (b : Basis) : ItemStatus := .decided (if guard then .alarm else .pass) b

/-- Decided on the guard flag alone: ON gives SOFT, OFF gives PASS (R128, R133, R137). -/
def byFallback (guard : Bool) (b : Basis) : ItemStatus := .decided (if guard then .soft else .pass) b

/-- The decision at grace expiry, by the state of the item's segment at this moment (R138). -/
def graceStatus (guard : Bool) (state : SegmentState) : ItemStatus :=
  match state with
  | .fresh => byTag guard .grace
  | .stale => byFallback guard .grace
  | .suspect => byFallback guard .grace

/-- The status an entry of a class gives an EXIT item: the first three rows of R128. -/
def entryStatus : EntryClass → ItemStatus
  | .lost => .decided .alarm .table
  | .barred => .decided .alarm .table
  | .issued => .decided .pass .table
  | .pending => .waiting .grace

/-- The status a host answer gives an UNKNOWN item of an EXIT passage (R128, R136). -/
def answerStatus (guard : Bool) : HostAnswer → ItemStatus
  | .entry .lost => .decided .alarm .answer
  | .entry .barred => .decided .alarm .answer
  | .entry .issued => .decided .pass .answer
  | .entry .pending => .waiting .grace
  | .noException => byTag guard .answer

/-- An item of an EXIT passage at completion (R128).  `outstanding` says that the track's query mark
is ASKED and its query is outstanding; an item with mark ASKED and no outstanding query, for which R128
has no row, takes its last row (DESIGN CHOICE, log entry 15). -/
def exitStatus (guard : Bool) (l : LookupResult) (a : Option HostAnswer) (outstanding : Bool) :
    ItemStatus :=
  match l with
  | .entry c => entryStatus c
  | .absent => byTag guard .tag
  | .unknown =>
    match a with
    | some h => answerStatus guard h
    | none => if outstanding then .waiting .answer else byFallback guard .fallback

/-- An item of an ENTRY passage at completion (R129). -/
def entryPassageStatus (l : LookupResult) (a : Option HostAnswer) : ItemStatus :=
  match l with
  | .entry .lost => .decided .note .table
  | .entry _ => .decided .pass .table
  | .absent => .decided .pass .tag
  | .unknown =>
    match a with
    | some (.entry .lost) => .decided .note .answer
    | some _ => .decided .pass .answer
    | none => .decided .pass .fallback

/-! ## Item records and passages -/

/-- An outstanding query names the identifier (R114). -/
def State.queried (s : State) (id : Ident) : Bool := s.queries.list.any fun q => q.ident == id

/-- The item record of one item at completion (R127).  A bound item always has a track (R68); where a
state that no run reaches has none, the record is that of a guard-ON item never queried. -/
def fillItem (d : Direction) (s : State) (id : Ident) : ItemRecord :=
  let guard := match s.track? id with
    | some t => t.guard
    | none => true
  let ans := (s.track? id).bind (·.answer)
  let asked := match s.track? id with
    | some t => t.mark == .asked && s.queried id
    | none => false
  { ident := id
    guard := guard
    lookup := s.lookup id
    answer := ans
    desk := s.lookupDesk id
    status := match d with
      | .exit => exitStatus guard (s.lookup id) ans asked
      | .entry => entryPassageStatus (s.lookup id) ans }

/-- The item is still undecided. -/
def ItemRecord.undecided (r : ItemRecord) : Bool :=
  match r.status with
  | .waiting _ => true
  | .decided _ _ => false

/-- The passage still has an undecided item (R132). -/
def Judging.undecided (j : Judging) : Bool := j.items.any (·.undecided)

/-- Verdicts in rising order of strength (section 8.1). -/
def Verdict.strength : Verdict → Nat
  | .pass => 0
  | .note => 1
  | .soft => 2
  | .alarm => 3

/-- The stronger of two verdicts. -/
def Verdict.max (v w : Verdict) : Verdict := if v.strength < w.strength then w else v

/-- The verdict of a decided item; an undecided one adds nothing. -/
def ItemRecord.verdict (r : ItemRecord) : Verdict :=
  match r.status with
  | .decided v _ => v
  | .waiting _ => .pass

/-- The passage verdict: the strongest item verdict, raised to SOFT by the flag FULL (R130). -/
def Judging.verdict (j : Judging) : Verdict :=
  let v := j.items.foldl (fun v r => v.max r.verdict) .pass
  if j.flags.full then v.max .soft else v

/-! ## Giving a verdict -/

/-- Write an item's verdict and basis into its track, if that is SPENT in this passage (R52, R139). -/
def writeVerdict (number : Word16) (s : State) (r : ItemRecord) : State :=
  match r.status with
  | .waiting _ => s
  | .decided v b => s.modifyTrack r.ident fun t =>
      match t.state with
      | .spent a n _ => if n = number then { t with state := .spent a n (some (v, b)) } else t
      | _ => t

/-- The PASSAGE report of a judged passage (R140). -/
def Judging.report (j : Judging) (mode : EffectiveMode) (now : Time) : PassageReport where
  number := j.number
  aisle := j.aisle
  direction := j.direction
  outcome := .completed
  mode := mode
  flags := j.flags
  verdict := some j.verdict
  openedAt := j.openedAt
  closedAt := j.closedAt
  verdictAt := now
  count := j.items.length
  items := j.items

/-- Give a passage its verdict, once it has left the queue or has never joined it (R139): the item
verdicts are written into its SPENT tracks, the verdict is handed to the annunciator of an aisle
in effective mode GUARD, and the PASSAGE report is queued. -/
def giveVerdict (s : State) (j : Judging) : State :=
  let s1 := j.items.foldl (writeVerdict j.number) s
  let s2 := if s.effective j.aisle = .guard then handVerdict j.aisle j.verdict s1 else s1
  createReport (j.verdict != .pass) (.passage (j.report (s.effective j.aisle) s.clock.now)) s2

/-- Change the judging passages by `f`, which may decide items.  Each passage whose last undecided
item is decided leaves the queue and is given its verdict, oldest passage first (R132, R139). -/
def settle (f : Judging → Judging) (s : State) : State :=
  let js := s.judging.map f
  (js.filter fun j => !j.undecided).foldl giveVerdict
    (s.setJudging (js.filter fun j => j.undecided))

/-- Change the undecided items of a passage that satisfy `p`. -/
def Judging.mapUndecided (p : ItemRecord → Bool) (f : ItemRecord → ItemRecord) (j : Judging) :
    Judging :=
  { j with items := j.items.map fun r => if r.undecided && p r then f r else r }

/-- The status of an undecided item whose entry or answer is PENDING: it waits GRACE, or is decided
at once as at grace expiry where the grace deadline has passed (R134, R135, R136). -/
def Judging.pendingStatus (s : State) (j : Judging) (r : ItemRecord) : ItemStatus :=
  if j.gracePassed then graceStatus r.guard (s.segment r.ident).state else .waiting .grace

/-! ## Completion, the queue and forcing -/

/-- Decide every undecided item by its guard flag, basis FALLBACK, and set FORCED (R133). -/
def Judging.forced (j : Judging) : Judging :=
  { j.mapUndecided (fun _ => true) (fun r => { r with status := byFallback r.guard .fallback }) with
    flags := { j.flags with forced := true } }

/-- Force the oldest judging passage (R133). -/
def forceOldest (s : State) : State :=
  match s.judging with
  | [] => s
  | j :: rest => giveVerdict (s.setJudging rest) j.forced

/-- Take a completed passage whose items have been filled: it is given its verdict at once, or joins
the queue, forcing the oldest passage where the queue holds 16 (R131). -/
def judgePassage (j : Judging) (s : State) : State :=
  if j.undecided then
    let s1 := if s.judging.length < 16 then s else forceOldest s
    s1.setJudging (s1.judging ++ [j])
  else giveVerdict s j

/-! ## The watch -/

/-- An undecided item re-evaluated by a forwarded change of its identifier: `e` is the entry after
the change, or none for a removal (R134). -/
def reevaluate (s : State) (e : Option Entry) (j : Judging) (r : ItemRecord) : ItemRecord :=
  match e with
  | some e =>
    { r with
      lookup := .entry e.cls
      desk := if e.desk.isSome then e.desk else r.desk
      status := if e.cls = .pending then j.pendingStatus s r else entryStatus e.cls }
  | none =>
    if (s.segment r.ident).state = .fresh then
      { r with lookup := .absent, status := byTag r.guard .tag }
    else { r with lookup := .unknown, status := byFallback r.guard .fallback }

/-- What a forwarded change does to a judging passage (R134). -/
def watchChange (s : State) (id : Ident) (e : Option Entry) (j : Judging) : Judging :=
  j.mapUndecided (fun r => r.ident == id) (reevaluate s e j)

/-- A forwarded change is taken by the watch (R92, R134). -/
def forward (id : Ident) (e : Option Entry) (s : State) : State := settle (watchChange s id e) s

/-- The forwarded change decides at least one undecided item (R142). -/
def changeDecides (s : State) (id : Ident) (e : Option Entry) : Bool :=
  s.judging.any fun j => j.items.any fun r =>
    r.undecided && r.ident == id && !(reevaluate s e j r).undecided

/-- An undecided item looked up again after a swap (R135). -/
def relookup (s : State) (j : Judging) (r : ItemRecord) : ItemRecord :=
  { r with
    lookup := s.lookup r.ident
    desk := s.lookupDesk r.ident
    status := match s.lookup r.ident with
      | .entry .pending => j.pendingStatus s r
      | .entry c => entryStatus c
      | .absent => byTag r.guard .tag
      | .unknown => r.status }

/-- The lookups of a swap: each undecided item of the segment (R103, R135). -/
def swapLookup (i : Fin 64) (s : State) : State :=
  settle (fun j => j.mapUndecided (fun r => segmentOf r.ident == i) (relookup s j)) s

/-- A matched answer reaches an undecided item that waits ANSWER (R136). -/
def answerItem (s : State) (a : HostAnswer) (j : Judging) (r : ItemRecord) : ItemRecord :=
  { r with
    answer := some a
    status := if a = .entry .pending then j.pendingStatus s r else answerStatus r.guard a }

/-- A matched answer is handed to the verdict unit (R121, R136). -/
def handAnswer (id : Ident) (a : HostAnswer) (s : State) : State :=
  settle (fun j => j.mapUndecided (fun r => r.ident == id && r.status == .waiting .answer)
    (answerItem s a j)) s

/-- An identifier is handed over as lapsed: its items waiting ANSWER are decided by the guard flag
(R137). -/
def handLapse (id : Ident) (s : State) : State :=
  settle (fun j => j.mapUndecided (fun r => r.ident == id && r.status == .waiting .answer)
    (fun r => { r with status := byFallback r.guard .fallback })) s

/-! ## The grace deadline -/

/-- The passage is a judging passage of this number whose grace deadline passes now (R138). -/
def Judging.graceDue (now : Time) (number : Word16) (j : Judging) : Bool :=
  j.number == number && !j.gracePassed && passed now j.grace

/-- The items of a passage that wait GRACE are decided, and the deadline is marked passed (R138). -/
def Judging.graceExpires (s : State) (j : Judging) : Judging :=
  { j.mapUndecided (fun r => r.status == .waiting .grace)
      (fun r => { r with status := graceStatus r.guard (s.segment r.ident).state }) with
    gracePassed := true }

/-- The grace deadline of a judging passage passes (R138). -/
def graceExpiry (number : Word16) (s : State) : State :=
  settle (fun j => if j.graceDue s.clock.now number then j.graceExpires s else j) s

/-- GRACE_DEADLINE (R138): nothing happens unless the deadline of such a passage has passed. -/
def execGraceDeadline (number : Word16) (s : State) : Host.Outcome State Fault Refusal :=
  if s.judging.any (·.graceDue s.clock.now number) then .next (graceExpiry number s) else .next s

end Sys2Proof.Machine
end

