-- ==== Sys2Proof/Machine/Passages.lean ====
section
/-! DEFINITION. The beam input unit and the passage tracker (Chapter 4): beam changes, breaks, clears,
completion, closing, binding and the transit deadline. -/

namespace Sys2Proof.Machine

/-! ## Beams -/

/-- The filter of a beam (R56). -/
def State.beam (s : State) (a : Aisle) (b : Beam) : Filter :=
  match b with
  | .inner => s.beams.inner[a]
  | .outer => s.beams.outer[a]

/-- The state with this filter for a beam. -/
def State.setBeam (s : State) (a : Aisle) (b : Beam) (f : Filter) : State :=
  match b with
  | .inner => s.setBeams { s.beams with inner := s.beams.inner.set a f }
  | .outer => s.setBeams { s.beams with outer := s.beams.outer.set a f }

/-- Beam events of the aisle reach the passage tracker: the aisle is in use and its stored mode is
WATCH or GUARD (R57). -/
def State.detects (s : State) (a : Aisle) : Bool :=
  a.val < s.site.aisles && s.modes.stored[a] != .off

/-- Both beams of the aisle are in the accepted state clear (R63). -/
def State.bothClear (s : State) (a : Aisle) : Bool :=
  !s.beams.inner[a].accepted && !s.beams.outer[a].accepted

/-! ## Binding -/

/-- A passage has room for another item (R69). -/
def Passage.hasRoom (p : Passage) : Bool := p.items.length < 10

/-- Change the first passage of a list that satisfies `p`. -/
def changeFirst (p : Passage → Bool) (f : Passage → Passage) : List Passage → List Passage
  | [] => []
  | x :: xs => if p x then f x :: xs else x :: changeFirst p f xs

/-- A track becomes BOUND to a passage of its aisle (R49, R68). -/
def Track.bind (a : Aisle) (number : Word16) (t : Track) : Track :=
  { t with state := .bound a number }

/-- Bind a newly attributed track of an aisle (R69). -/
def bindAttributed (id : Ident) (a : Aisle) (s : State) : State :=
  match (s.opens a).find? Passage.hasRoom with
  | some p =>
    (s.setOpens a (changeFirst Passage.hasRoom (fun p => { p with items := p.items ++ [id] })
      (s.opens a))).modifyTrack id (Track.bind a p.number)
  | none =>
    s.setOpens a (changeFirst (fun _ => true)
      (fun p => { p with flags := { p.flags with full := true } }) (s.opens a))

/-- The track is loose in the aisle: ATTRIBUTED to it (R35, R70). -/
def Track.looseIn (a : Aisle) (t : Track) : Bool :=
  match t.state with
  | .attributed b _ => a == b
  | _ => false

/-- The order in which loose tracks bind at an opening: earliest attribution, then earliest
first-seen time, both judged by the greatest age, then smallest identifier (R70). -/
def Track.bindingKey (now : Time) (t : Track) : List Nat :=
  [4294967295 - (match t.state with
      | .attributed _ since => age now since
      | _ => 0),
   4294967295 - age now t.firstSeen, t.ident.toNat]

/-- The loose tracks of an aisle in the order of R70. -/
def State.looseTracks (s : State) (a : Aisle) : List Track :=
  sortBy (Track.bindingKey s.clock.now) (s.tracking.tracks.filter (Track.looseIn a))

/-- Open a passage with near beam `b`: it takes the next number, joins the end of the list, and binds
up to 10 loose tracks of the aisle, taking FULL if any are left (R58, R59, R61, R70). -/
def openPassage (a : Aisle) (b : Beam) (s : State) : State :=
  let number := s.passages.next
  let loose := (s.looseTracks a).map (·.ident)
  let p : Passage :=
    { number := number, direction := openingDirection b, phase := .opened, farBroken := false
      openedAt := s.clock.now, deadline := after s.clock.now s.site.transit
      flags := { Flags.none with full := 10 < loose.length }, items := loose.take 10 }
  let s1 := (s.setPassages { s.passages with next := nextPassageNumber number }).setOpens a
    (s.opens a ++ [p])
  (loose.take 10).foldl (fun s id => s.modifyTrack id (Track.bind a number)) s1

/-! ## Leaving the open list -/

/-- A passage leaves its aisle's open list; those behind it keep their order (R60). -/
def leaveList (a : Aisle) (p : Passage) (s : State) : State := s.setOpens a ((s.opens a).erase p)

/-- A BOUND track of a completed passage becomes SPENT (R51). -/
def Track.spend (t : Track) : Track :=
  match t.state with
  | .bound a n => { t with state := .spent a n none }
  | _ => t

/-- A BOUND track of a closed passage becomes loose, attributed now (R50). -/
def Track.unbind (now : Time) (t : Track) : Track :=
  match t.state with
  | .bound a _ => { t with state := .attributed a now }
  | _ => t

/-- The completed passage with its item records filled from the tracks and the table (R64, R127). -/
def Passage.completed (a : Aisle) (p : Passage) (flags : Flags) (s : State) : Judging where
  number := p.number
  aisle := a
  direction := p.direction
  openedAt := p.openedAt
  closedAt := s.clock.now
  flags := flags
  items := p.items.map (fillItem p.direction s)
  grace := after s.clock.now s.site.grace
  gracePassed := false

/-- A passage completes: it leaves the list, takes its flags, its tracks become SPENT, and it is
handed to the verdict unit (R64). -/
def completePassage (a : Aisle) (s : State) (p : Passage) : State :=
  let s1 := p.items.foldl (fun s id => s.modifyTrack id Track.spend) (leaveList a p s)
  judgePassage (p.completed a (s.leavingFlags a p.flags) s1) s1

/-- The routine report of a closed passage (R66). -/
def Passage.closedReport (a : Aisle) (p : Passage) (o : PassageOutcome) (s : State) : PassageReport where
  number := p.number
  aisle := a
  direction := p.direction
  outcome := o
  mode := s.effective a
  flags := s.leavingFlags a p.flags
  verdict := none
  openedAt := p.openedAt
  closedAt := s.clock.now
  verdictAt := s.clock.now
  count := p.items.length
  items := []

/-- A passage closes TURNED-BACK, TIMED-OUT or DISMISSED: it leaves the list, its tracks are unbound,
and a routine report is queued (R65). -/
def closePassage (a : Aisle) (o : PassageOutcome) (s : State) (p : Passage) : State :=
  createReport false (.passage (p.closedReport a o s))
    (p.items.foldl (fun x id => x.modifyTrack id (Track.unbind s.clock.now)) (leaveList a p s))

/-- Close every open passage of an aisle DISMISSED, oldest first, and clear CROWDED (R62, R74). -/
def dismissAisle (a : Aisle) (s : State) : State :=
  let s1 := (s.opens a).foldl (closePassage a .dismissed) s
  s1.setAisle a { s1.passages.aisles[a] with crowded := false }

/-! ## Breaks and clears -/

/-- The passage is OPENED with this far beam (R61, step 1). -/
def Passage.advances (b : Beam) (p : Passage) : Bool := p.direction.far == b && p.phase == .opened

/-- The passage is CROSSING with this far beam (R63, step 1). -/
def Passage.completes (b : Beam) (p : Passage) : Bool := p.direction.far == b && p.phase == .crossing

/-- The far beam broken field at a break of beam `b` (R61). -/
def Passage.sawBreak (b : Beam) (p : Passage) : Passage :=
  if p.direction.far == b then { p with farBroken := true } else p

/-- A break event of beam `b` in aisle `a` is taken by the passage tracker (R61). -/
def takeBreak (a : Aisle) (b : Beam) (s : State) : State :=
  let s1 := s.setOpens a ((s.opens a).map (Passage.sawBreak b))
  if (s1.opens a).any (Passage.advances b) then
    s1.setOpens a (changeFirst (Passage.advances b) (fun p => { p with phase := .crossing })
      (s1.opens a))
  else if (s1.opens a).length < 3 then openPassage a b s1
  else s1.setAisle a { s1.passages.aisles[a] with crowded := true }

/-- The single open passage that a clear of beam `b` turns back (R63, step 2). -/
def State.turnsBack (s : State) (a : Aisle) (b : Beam) : Option Passage :=
  match s.opens a with
  | [p] => if p.phase = .opened ∧ p.direction.near = b ∧ p.farBroken = false then some p else none
  | _ => none

/-- One passage taken by the sweep: a CROSSING one completes, an OPENED one turns back (R63, step 3). -/
def sweepPassage (a : Aisle) (s : State) (p : Passage) : State :=
  match p.phase with
  | .crossing => completePassage a s p
  | .opened => closePassage a .turnedBack s p

/-- The sweep of an aisle both of whose beams are clear (R62, R63, step 3). -/
def sweepAisle (a : Aisle) (s : State) : State :=
  let s1 := (s.opens a).foldl (sweepPassage a) s
  s1.setAisle a { s1.passages.aisles[a] with crowded := false }

/-- A clear event of beam `b` in aisle `a` is taken by the passage tracker (R63). -/
def takeClear (a : Aisle) (b : Beam) (s : State) : State :=
  let s1 := match (s.opens a).find? (Passage.completes b) with
    | some p => completePassage a s p
    | none =>
      match s.turnsBack a b with
      | some p => closePassage a .turnedBack s p
      | none => s
  if s1.bothClear a then sweepAisle a s1 else s1

/-- The beam's change to `level` has held for the beam debounce (R56). -/
def State.beamDue (s : State) (a : Aisle) (b : Beam) (level : Bool) : Bool :=
  (s.beam a b).due s.clock.now s.site.debounce level

/-- The beam's pending change is accepted (R56). -/
def acceptBeam (a : Aisle) (b : Beam) (s : State) : State := s.setBeam a b (s.beam a b).accept

/-- A beam's change to `level` is accepted: its break or clear event is taken by the passage tracker, or
goes nowhere (R56, R57). -/
def beamEvent (a : Aisle) (b : Beam) (level : Bool) (s : State) : State :=
  let s1 := acceptBeam a b s
  if s.detects a then (if level then takeBreak a b s1 else takeClear a b s1) else s1

/-- A beam's pending change that has held for the beam debounce is accepted now (R8, R56). -/
def settleBeam (a : Aisle) (b : Beam) (s : State) : State :=
  if s.beamDue a b true then beamEvent a b true s
  else if s.beamDue a b false then beamEvent a b false s
  else s

/-- BEAM_INPUT_CHANGE (R56).  A pending change whose debounce time has passed is accepted before the new
level is read: only a return "before the debounce time has passed" discards it. -/
def execBeamInputChange (a : Aisle) (b : Beam) (broken : Bool) (s : State) :
    Host.Outcome State Fault Refusal :=
  let s1 := settleBeam a b s
  .next (s1.setBeam a b ((s1.beam a b).input s.clock.now broken))

/-- BREAK_EVENT (R56, R57, R61): nothing happens unless the beam has been broken for the debounce time. -/
def execBreakEvent (a : Aisle) (b : Beam) (s : State) : Host.Outcome State Fault Refusal :=
  if s.beamDue a b true then .next (beamEvent a b true s) else .next s

/-- CLEAR_EVENT (R56, R57, R63): nothing happens unless the beam has been clear for the debounce time. -/
def execClearEvent (a : Aisle) (b : Beam) (s : State) : Host.Outcome State Fault Refusal :=
  if s.beamDue a b false then .next (beamEvent a b false s) else .next s

/-- The open passage of this number whose transit deadline has passed (R67). -/
def State.transitDue (s : State) (a : Aisle) (number : Word16) : Option Passage :=
  (s.opens a).find? fun p => p.number == number && passed s.clock.now p.deadline

/-- TRANSIT_DEADLINE (R67): nothing happens unless the deadline of such an open passage has passed. -/
def execTransitDeadline (a : Aisle) (number : Word16) (s : State) :
    Host.Outcome State Fault Refusal :=
  match s.transitDue a number with
  | some p => .next (closePassage a .timedOut s p)
  | none => .next s

end Sys2Proof.Machine
end

