-- ==== Sys2Proof/Machine/Queries.lean ====
section
/-! DEFINITION. The query unit (Chapter 7), but for ANSWER, whose storage needs the item table's updates
(Sys2Proof/Machine/Table.lean): query numbers, making a query, and its ends without an answer. -/

namespace Sys2Proof.Machine

/-- The first number from `n` on that no outstanding query carries (R115).  At most 15 of 255 numbers
are in use when a query is made, so the 255 tries of the search always find one. -/
def freeNumber (qs : List Query) : Nat → Byte → Byte
  | 0, n => n
  | k + 1, n =>
    if qs.any (fun q => q.number == n) then freeNumber qs k (nextQueryNumber n) else n

/-- The conditions 1 to 5 of R116 for a query about an identifier attributed to an aisle. -/
def State.queryDue (s : State) (id : Ident) (a : Aisle) : Bool :=
  s.modes.stored[a] != .off
    && (match s.track? id with
        | some t => t.answer.isNone && t.mark == .none
        | none => false)
    && !s.queried id
    && s.lookup id == .unknown

/-- The query record R114 and R115 give, at the end of the list, with the counter moved on. -/
def QueryUnit.create (s : State) (id : Ident) (a : Aisle) : QueryUnit :=
  let n := freeNumber s.queries.list 255 s.queries.next
  { list := s.queries.list ++
      [{ number := n, ident := id, aisle := a, segment := (s.segment id).state,
         created := s.clock.now, deadline := after s.clock.now s.site.query, sent := false }]
    next := nextQueryNumber n }

/-- The query unit takes an attribution event (R116, R117). -/
def makeQuery (id : Ident) (a : Aisle) (s : State) : State :=
  if s.queryDue id a then
    if s.queries.list.length < 16 then
      (s.setQueries (QueryUnit.create s id a)).modifyTrack id fun t => { t with mark := .asked }
    else s.modifyTrack id fun t => { t with mark := .noQuery }
  else s

/-- The state with these outstanding queries. -/
def State.setQueryList (s : State) (qs : List Query) : State :=
  s.setQueries { s.queries with list := qs }

/-- The query list without the query of an identifier. -/
def withoutQuery (id : Ident) (qs : List Query) : List Query := qs.filter fun q => q.ident != id

/-- The query unit is told that a track was freed or evicted: its outstanding query, if any, is
purged and handed over as lapsed (R53, R124). -/
def trackGone (id : Ident) (s : State) : State :=
  if s.queried id then handLapse id (s.setQueryList (withoutQuery id s.queries.list)) else s

/-- A query's deadline passes (R123): it leaves the list, its track is marked LAPSED, and its
identifier is handed over as lapsed. -/
def lapseQuery (q : Query) (s : State) : State :=
  handLapse q.ident
    ((s.setQueryList (withoutQuery q.ident s.queries.list)).modifyTrack q.ident
      fun t => { t with mark := .lapsed })

/-- QUERY_DEADLINE (R123): nothing happens unless an outstanding query carries the number and its
deadline has passed. -/
def execQueryDeadline (number : Byte) (s : State) : Host.Outcome State Fault Refusal :=
  match s.queries.list.find? (fun q => q.number == number) with
  | some q => if passed s.clock.now q.deadline then .next (lapseQuery q s) else .next s
  | none => .next s

end Sys2Proof.Machine
end

