-- ==== Sys2Proof/Machine/Tracks.lean ====
section
/-! DEFINITION. The track engine (Chapter 3): taking a sighting, eviction, decay, the attribution test
and the attribution event. -/

namespace Sys2Proof.Machine

/-! ## Evidence and the attribution test -/

/-- The greatest of the eight evidence values (R35). -/
def Track.peak (t : Track) : Nat := t.evidence.toList.foldl max 0

/-- The greatest evidence among the aisles other than `b` (R46). -/
def runnerUp (e : Vector Nat 8) (b : Aisle) : Nat :=
  allAisles.foldl (fun m a => if a = b then m else max m e[a]) 0

/-- The attribution test passes for aisle `b`: no other aisle holds its value or more, it is at least
T, and 16 times it is at least (16 + K) times the runner-up (R46). -/
def testPasses (threshold margin : Nat) (e : Vector Nat 8) (b : Aisle) : Bool :=
  allAisles.all (fun a => a == b || e[a] < e[b])
    && threshold ≤ e[b]
    && (16 + margin) * runnerUp e b ≤ 16 * e[b]

/-- The aisle the attribution test passes for, if any (R46). -/
def attributionTest (threshold margin : Nat) (e : Vector Nat 8) : Option Aisle :=
  allAisles.find? (testPasses threshold margin e)

/-- The evidence after a contribution, which stops at 4,095 (R40). -/
def addEvidence (e : Vector Nat 8) (a : Aisle) (c : Nat) : Vector Nat 8 :=
  e.set a (min 4095 (e[a] + c))

/-! ## Attribution -/

/-- An attribution event is handed to the passage tracker and to the query unit (R48). -/
def attributionEvent (id : Ident) (a : Aisle) (s : State) : State :=
  makeQuery id a (bindAttributed id a s)

/-- The track becomes ATTRIBUTED to an aisle now, with its attribution event (R47). -/
def attributeTrack (id : Ident) (a : Aisle) (s : State) : State :=
  attributionEvent id a
    (s.modifyTrack id fun t => { t with state := .attributed a s.clock.now })

/-- What a passing test for aisle `b` does to a track in a given state (R45, R47). -/
def testOutcome (id : Ident) (b : Aisle) (state : TrackState) (s : State) : State :=
  match state with
  | .forming => attributeTrack id b s
  | .attributed a _ => if a = b then s else attributeTrack id b s
  | .bound _ _ => s
  | .spent _ _ _ => s

/-! ## Taking a sighting -/

/-- A sighting taken by an existing track (R36): the contribution, the guard flag and last-seen time,
then the attribution test where the track is FORMING or ATTRIBUTED. -/
def hearTrack (t : Track) (a : Aisle) (c : Nat) (guard : Bool) (s : State) : State :=
  let e := addEvidence t.evidence a c
  let s1 := s.setTracks (putKeyed Track.key
    { t with evidence := e, guard := guard, lastSeen := s.clock.now } s.tracking.tracks)
  match attributionTest s.site.threshold s.site.margin e with
  | some b => testOutcome t.ident b t.state s1
  | none => s1

/-- The track a sighting creates, before its contribution (R35). -/
def newTrack (id : Ident) (guard : Bool) (now : Time) : Track where
  ident := id
  evidence := Vector.replicate 8 0
  guard := guard
  state := .forming
  answer := none
  mark := .none
  firstSeen := now
  lastSeen := now

/-- The order of eviction among tracks that are not BOUND (R38): SPENT, FORMING, ATTRIBUTED; then lowest
peak, oldest last-seen time, oldest first-seen time, smallest identifier. -/
def Track.evictionKey (now : Time) (t : Track) : List Nat :=
  [match t.state with
   | .spent _ _ _ => 0
   | .forming => 1
   | .attributed _ _ => 2
   | .bound _ _ => 3,
   t.peak, 4294967295 - age now t.lastSeen, 4294967295 - age now t.firstSeen, t.ident.toNat]

/-- The track is BOUND. -/
def Track.isBound (t : Track) : Bool :=
  match t.state with
  | .bound _ _ => true
  | _ => false

/-- The victim of an eviction (R38). -/
def State.victim (s : State) : Option Track :=
  leastBy (Track.evictionKey s.clock.now) (s.tracking.tracks.filter fun t => !t.isBound)

/-- A track leaves the table, and the query unit is told its identifier (R53). -/
def freeTrack (s : State) (id : Ident) : State :=
  trackGone id (s.setTracks (dropKeyed Track.key id.toNat s.tracking.tracks))

/-- Evict the victim of R38 (R39). -/
def evictTrack (s : State) : State :=
  match s.victim with
  | some t => freeTrack s t.ident
  | none => s

/-- A sighting of an identifier with no track creates one, evicting a track first where the table holds
256 (R37).  A table of 256 tracks always has a victim (R38); in a state that no run reaches,
where all 256 are BOUND, the sighting is dropped. -/
def hearNew (id : Ident) (a : Aisle) (c : Nat) (guard : Bool) (s : State) : State :=
  let s1 := if s.tracking.tracks.length < 256 then s else evictTrack s
  if s1.tracking.tracks.length < 256 then hearTrack (newTrack id guard s.clock.now) a c guard s1
  else s1

/-- The track engine takes a sighting of an aisle with contribution `c` (R36, R37). -/
def takeSighting (id : Ident) (a : Aisle) (c : Nat) (guard : Bool) (s : State) : State :=
  match s.track? id with
  | some t => hearTrack t a c guard s
  | none => hearNew id a c guard s

/-- Intake takes one record of an answer from a pedestal, or discards it (R26). -/
def intakeRecord (p : Pedestal) (s : State) (r : SightingRecord) : State :=
  if r.ident = 0 then s
  else match servedAisle s.site.aisles p r.face with
    | none => s
    | some a =>
      if s.modes.stored[a] = .off then s
      else if r.strength.toNat ≤ s.site.floor then s
      else takeSighting r.ident a (r.strength.toNat - s.site.floor) r.guard s

/-! ## Decay -/

/-- One decay step of a track's evidence: floor(3E/4) in every aisle (R43). -/
def Track.decayed (t : Track) : Track := { t with evidence := mapVector (fun e => 3 * e / 4) t.evidence }

/-- The track is freed by a decay step: it is not BOUND and has no evidence left (R43). -/
def Track.faded (t : Track) : Bool := !t.isBound && t.evidence.toList.all (· == 0)

/-- A decay step (R43): every evidence value decays, and the faded tracks are freed in ascending
identifier order (R53). -/
def decayTracks (s : State) : State :=
  let ts := s.tracking.tracks.map Track.decayed
  ((ts.filter Track.faded).map (·.ident)).foldl freeTrack (s.setTracks ts)

/-- DECAY_STEP (R42, R43): the decay timer has come due; the next step falls D ms later. -/
def execDecayStep (s : State) : Host.Outcome State Fault Refusal :=
  if passed s.clock.now s.tracking.decayAt then
    .next (decayTracks (s.setTracking
      { s.tracking with decayAt := after s.tracking.decayAt s.site.decay }))
  else .next s

end Sys2Proof.Machine
end

