-- ==== Sys2Proof/Machine/Bus.lean ====
section
/-! DEFINITION. The pedestal bus controller (Chapter 2): polls, turns, rounds, health, the answers of the
readers, the bus hold and READER-PASS. -/

namespace Sys2Proof.Machine

/-! ## Frames of the bus (R181, R182) -/

/-- The sum of the bytes of a frame, in 8 bits. -/
def byteSum (bs : List Byte) : Byte := bs.foldl (· + ·) 0

/-- A frame with its check byte, which makes the sum of its bytes 00h (R182). -/
def withCheck (bs : List Byte) : List Byte := bs ++ [-(byteSum bs)]

/-- The frame of a POLL (R181). -/
def pollFrame (p : Pedestal) : List Byte := withCheck [count8 p.val, 0x01]

/-- The frame of a REPOLL (R181). -/
def repollFrame (p : Pedestal) : List Byte := withCheck [count8 p.val, 0x02]

/-- An answer of a reader to a poll (R16). -/
inductive Answer where
  | sightings (more : Bool) (records : List SightingRecord)
  | extend (n : Nat)
  | extendOn
  deriving DecidableEq, Repr

/-- `n` sighting records of 11 bytes each, from an offset on (R181). -/
def readRecords (bs : List Byte) : Nat → Nat → List SightingRecord
  | 0, _ => []
  | n + 1, i =>
    { ident := field64 bs i
      face := (byteAt bs (i + 8)).extractLsb' 0 2
      guard := (byteAt bs (i + 8)).getLsbD 7
      strength := byteAt bs (i + 9) } :: readRecords bs n (i + 11)

/-- The record count of a SIGHTINGS answer, in the low seven bits of its count byte (R181). -/
def recordCount (bs : List Byte) : Nat := ((byteAt bs 2).extractLsb' 0 7).toNat

/-- The length of an answer, which follows from its kind and, for SIGHTINGS, from its count; none for
a kind byte or a count that makes the answer bad (R182). -/
def answerLength (bs : List Byte) : Option Nat :=
  if byteAt bs 1 = 0x81 then if recordCount bs ≤ 6 then some (4 + 11 * recordCount bs) else none
  else if byteAt bs 1 = 0x82 then some 4
  else if byteAt bs 1 = 0x83 then some 3
  else none

/-- What the bytes of an answer frame so far make of it: more are to come, it is bad, or it is an
answer (R16, R182). -/
inductive Received where
  | partially
  | bad
  | answer (a : Answer)
  deriving DecidableEq, Repr

/-- The fields of a complete answer (R181); an EXTEND answer asks for 1 to 3 slots (R16). -/
def answerFields (bs : List Byte) : Option Answer :=
  if byteAt bs 1 = 0x81 then
    some (.sightings ((byteAt bs 2).getLsbD 7) (readRecords bs (recordCount bs) 3))
  else if byteAt bs 1 = 0x82 then
    if 1 ≤ (byteAt bs 2).toNat ∧ (byteAt bs 2).toNat ≤ 3 then
      some (.extend (byteAt bs 2).toNat)
    else none
  else some .extendOn

/-- Judge the bytes so far of a frame begun in the answer window of a pedestal (R16, R182).  A kind or a
count that gives no length makes it bad as soon as it has arrived; the address, the n of an EXTEND
and the check are tested once as many bytes have arrived as the length says.  Bytes after those
are discarded (R16).  At which byte a frame is found bad is a DESIGN CHOICE (log entry 7). -/
def judgeAnswer (p : Pedestal) (bs : List Byte) : Received :=
  if bs.length < 2 then .partially
  else match answerLength bs with
    | none => .bad
    | some n =>
      if bs.length < n then .partially
      else if byteAt bs 0 ≠ count8 p.val ∨ byteSum (bs.take n) ≠ 0 then .bad
      else match answerFields bs with
        | some a => .answer a
        | none => .bad

/-! ## Turns and rounds -/

/-- A turn of a pedestal at its first poll. -/
def Turn.first (p : Pedestal) (probe : Bool) : Turn where
  pedestal := p
  probe := probe
  slots := 0
  extra := 0
  answered := false
  dropped := false

/-- Send a POLL for a turn and open its answer window of 2 slots (R16). -/
def sendPoll (now : Time) (t : Turn) (b : BusController) : BusController :=
  { b with activity := .polling t (after now 2), sent := pollFrame t.pedestal }

/-- Send a REPOLL for a turn and open its answer window (R19). -/
def sendRepoll (now : Time) (t : Turn) (b : BusController) : BusController :=
  { b with activity := .polling t (after now 2), sent := repollFrame t.pedestal }

/-- The next pedestal of the probe phase: in order, in use, and FAULTED at the start of the round (R9,
R17). -/
def Round.nextProbe (n : Nat) (r : Round) : Option Pedestal :=
  allPedestals.find? fun p => r.next ≤ p.val && p.val ≤ n && r.faultedAtStart.contains p

/-- The next pedestal of the ordinary phase: in order, in use, not FAULTED and not probed in this round
(R9, R17). -/
def nextOrdinary (n : Nat) (health : Vector Health 9) (r : Round) : Option Pedestal :=
  allPedestals.find? fun p =>
    r.next ≤ p.val && p.val ≤ n && !health[p].faulted && !r.probed.contains p

/-- Begin the next ordinary turn of a round, if it has one (R17). -/
def ordinaryTurn (now : Time) (n : Nat) (r : Round) (b : BusController) : Option BusController :=
  (nextOrdinary n b.health r).map fun p =>
    sendPoll now (Turn.first p false) { b with round := { r with next := p.val + 1 } }

/-- Begin the next turn of the round in progress, if it has one: a probe, or an ordinary turn (R17). -/
def roundTurn (now : Time) (n : Nat) (b : BusController) : Option BusController :=
  if b.round.probePhase then
    match b.round.nextProbe n with
    | some p =>
      some (sendPoll now (Turn.first p true)
        { b with round := { b.round with next := p.val + 1, probed := p :: b.round.probed } })
    | none => ordinaryTurn now n { b.round with probePhase := false, next := 0 } b
  else ordinaryTurn now n b.round b

/-- Start a new round: with the probe phase if a probe is due, which clears it, and otherwise at
pedestal 0; idle where it has nothing to poll (R17, R23). -/
def startRound (now : Time) (n : Nat) (b : BusController) : BusController :=
  let b1 := { b with
    probeDue := false
    round :=
      { probePhase := b.probeDue, next := 0
        faultedAtStart := allPedestals.filter fun p => b.health[p].faulted
        probed := [] } }
  (roundTurn now n b1).getD { b1 with activity := .idle }

/-- The turn after one that has ended: in this round, or in a new one (R17). -/
def nextTurn (now : Time) (n : Nat) (b : BusController) : BusController :=
  (roundTurn now n b).getD (startRound now n b)

/-- The state after a change of the bus controller that may read the time and N. -/
def State.changeBus (s : State) (f : Time → Nat → BusController → BusController) : State :=
  s.setBus (f s.clock.now s.site.aisles s.bus)

/-! ## Health -/

/-- The state with this health record of a pedestal. -/
def State.setHealth (s : State) (p : Pedestal) (h : Health) : State :=
  s.setBus { s.bus with health := s.bus.health.set p h }

/-- The health record of a pedestal after a turn (R22): `answered` is the turn result ANSWERED, and
otherwise the result is FAILED or MUTE. -/
def recordTurn (p : Pedestal) (answered : Bool) (s : State) : State :=
  let h := s.bus.health[p]
  if h.faulted then s
  else if answered then s.setHealth p { h with count := 0 }
  else if h.count < 2 then s.setHealth p { h with count := h.count + 1 }
  else notice (.pedestalFaulted p) (s.setHealth p { h with faulted := true })

/-- A turn ends (R22): the health record is updated, unless the pedestal left use during the turn
(R9), and then the next turn begins, or the grant is due where a BUS-TAKE waits (R28). -/
def endTurn (t : Turn) (mute : Bool) (s : State) : State :=
  let s1 := if t.dropped then s else recordTurn t.pedestal (t.answered && !mute) s
  if s1.bus.grant.isSome then s1.setBus { s1.bus with activity := .ended t.pedestal }
  else s1.changeBus nextTurn

/-- A probe that gets an answer restores its pedestal (R23). -/
def restoreProbed (t : Turn) (s : State) : State :=
  if t.probe && !t.dropped && s.bus.health[t.pedestal].faulted then
    notice (.pedestalRestored t.pedestal)
      (s.setHealth t.pedestal { faulted := false, count := 0 })
  else s

/-! ## Answers -/

/-- The records of a SIGHTINGS answer have all been taken (R18): MORE makes an extra poll where fewer than
3 have been made, else the turn ends. -/
def finishAnswer (t : Turn) (more : Bool) (s : State) : State :=
  if more && t.extra < 3 then
    s.setBus (sendPoll s.clock.now { t with slots := 0, extra := t.extra + 1 } s.bus)
  else endTurn t false s

/-- Records of a SIGHTINGS answer have been taken: the rest wait, or the answer is finished (R18, R26). -/
def deliver (t : Turn) (more : Bool) (rest : List SightingRecord) (s : State) : State :=
  match rest with
  | [] => finishAnswer t more s
  | r :: rs => s.setBus { s.bus with activity := .delivering t more (r :: rs) }

/-- A SIGHTINGS answer (R18): it ends its poll, and its records go to intake one by one.  How many of them
are taken before another event comes between is a free value (R26); the first is taken at once. -/
def takeSightings (t : Turn) (more : Bool) (rs : List SightingRecord) (s : State) : State :=
  let s1 := restoreProbed t s
  let k := s1.drawn rs.length + 1
  deliver { t with answered := true } more (rs.drop k)
    ((rs.take k).foldl (intakeRecord t.pedestal) (s1.afterDraw rs.length))

/-- Intake takes the next record of the answer being delivered (R26). -/
def takeRecord (s : State) : State :=
  match s.bus.activity with
  | .delivering t more [] => finishAnswer t more s
  | .delivering t more (r :: rs) => deliver t more rs (intakeRecord t.pedestal s r)
  | _ => s

/-- An answer that asks for `n` extension slots: followed while the poll's count stays at most 32, else
the pedestal is MUTE and its turn ends (R19, R20). -/
def takeExtension (t : Turn) (n : Nat) (s : State) : State :=
  let s1 := restoreProbed t s
  if t.slots + n ≤ 32 then
    s1.setBus { s1.bus with
      activity := .waiting { t with slots := t.slots + n, answered := true } (after s1.clock.now n) }
  else endTurn { t with answered := true } true s1

/-- A poll ends without an answer, and with it the turn (R16, R18, R19). -/
def pollUnanswered (t : Turn) (s : State) : State := endTurn t false s

/-- A good answer is taken (R16). -/
def takeReaderAnswer (t : Turn) (a : Answer) (s : State) : State :=
  match a with
  | .sightings more rs => takeSightings t more rs s
  | .extend n => takeExtension t n s
  | .extendOn => takeExtension t 1 s

/-- The turn whose poll is open and the bytes of an answer received so far: a poll is outstanding, or a
frame begun in its window holds it open (R16). -/
def State.hearing (s : State) : Option (Turn × List Byte) :=
  match s.bus.activity with
  | .polling t _ => some (t, [])
  | .receiving t bytes _ => some (t, bytes)
  | _ => none

/-- The turn whose poll is open, if one is. -/
def State.polled (s : State) : Option Turn := s.hearing.map (·.1)

/-- SIGHTINGS_ANSWER (R18).  With no poll outstanding the answer is discarded (R16); more than 6
records make it a bad answer (R182). -/
def execSightingsAnswer (more : Bool) (rs : List SightingRecord) (s : State) :
    Host.Outcome State Fault Refusal :=
  match s.polled with
  | some t =>
    if rs.length ≤ 6 then .next (takeReaderAnswer t (.sightings more rs) s)
    else .next (pollUnanswered t s)
  | none => .next s

/-- EXTEND_ANSWER (R19, R20).  An `n` of 0 or above 3 makes it a bad answer (R182). -/
def execExtendAnswer (n : Byte) (s : State) : Host.Outcome State Fault Refusal :=
  match s.polled with
  | some t =>
    if 1 ≤ n.toNat ∧ n.toNat ≤ 3 then .next (takeReaderAnswer t (.extend n.toNat) s)
    else .next (pollUnanswered t s)
  | none => .next s

/-- EXTEND_ON_ANSWER (R19, R20). -/
def execExtendOnAnswer (s : State) : Host.Outcome State Fault Refusal :=
  match s.polled with
  | some t => .next (takeReaderAnswer t .extendOn s)
  | none => .next s

/-- The bytes of an answer frame as they stand now: it is bad and ends the poll, it is taken as the
answer it carries, or it holds the poll open, even past the close of its window (R16, R182). -/
def takeBytes (t : Turn) (bytes : List Byte) (s : State) : State :=
  match judgeAnswer t.pedestal bytes with
  | .partially => s.setBus { s.bus with activity := .receiving t bytes s.clock.now }
  | .bad => pollUnanswered t s
  | .answer a => takeReaderAnswer t a s

/-- BAD_ANSWER (R16, R182): bytes arrive on the bus and join those of the frame begun in the window.  A
frame found bad ends the poll without an answer.  With no poll open they are discarded. -/
def execBadAnswer (frame : List Byte) (s : State) : Host.Outcome State Fault Refusal :=
  match s.hearing with
  | some (t, bytes) => if frame = [] then .next s else .next (takeBytes t (bytes ++ frame) s)
  | none => .next s

/-- ANSWER_SLOT_GAP (R182): a slot has passed with no byte before the frame begun in the window is
complete, so that it is bad.  On an open window that holds no bytes it ends the poll at once
(DESIGN CHOICE, log entry 5). -/
def execAnswerSlotGap (s : State) : Host.Outcome State Fault Refusal :=
  match s.bus.activity with
  | .polling t _ => .next (pollUnanswered t s)
  | .receiving t _ last =>
    if passed s.clock.now (after last 1) then .next (pollUnanswered t s) else .next s
  | _ => .next s

/-- ANSWER_WINDOW_CLOSE (R16): the 2 slots of the window have passed with no frame begun. -/
def execAnswerWindowClose (s : State) : Host.Outcome State Fault Refusal :=
  match s.bus.activity with
  | .polling t w => if passed s.clock.now w then .next (pollUnanswered t s) else .next s
  | _ => .next s

/-- EXTENSION_WAIT_END (R19): the wait has passed, and a REPOLL is sent. -/
def execExtensionWaitEnd (s : State) : Host.Outcome State Fault Refusal :=
  match s.bus.activity with
  | .waiting t w =>
    if passed s.clock.now w then .next (s.changeBus fun now _ b => sendRepoll now t b) else .next s
  | _ => .next s

/-- PROBE_TIMER (R23): the timer has come due; a probe is due, and an idle controller starts a round. -/
def execProbeTimer (s : State) : Host.Outcome State Fault Refusal :=
  if passed s.clock.now s.bus.probeAt then
    let s1 := s.setBus { s.bus with probeDue := true, probeAt := after s.bus.probeAt 1000 }
    if s.bus.activity = .idle then .next (s1.changeBus startRound) else .next s1
  else .next s

/-! ## The bus hold -/

/-- The bus becomes HELD, for 30,000 ms, and the BUS-TAKE is answered GRANTED (R28). -/
def grantBus (ref : Byte) (s : State) : State :=
  reply .busTake ref .granted []
    (s.setBus { s.bus with
      activity := .held
        { since := s.clock.now, deadline := after s.clock.now 30000, pass := none }
      grant := none })

/-- BUS-TAKE (R28). -/
def takeBusTake (ref : Byte) (s : State) : State :=
  if s.bus.grant.isSome then reply .busTake ref .busy [] s
  else match s.bus.activity with
    | .held _ => reply .busTake ref .busy [] s
    | .idle => grantBus ref s
    | .polling _ _ => s.setBus { s.bus with grant := some ref }
    | .receiving _ _ _ => s.setBus { s.bus with grant := some ref }
    | .delivering _ _ _ => s.setBus { s.bus with grant := some ref }
    | .waiting _ _ => s.setBus { s.bus with grant := some ref }
    | .ended _ => s.setBus { s.bus with grant := some ref }

/-- BUS_GRANT (R28): the turn under GRANT-PENDING has ended. -/
def execBusGrant (s : State) : Host.Outcome State Fault Refusal :=
  match s.bus.activity, s.bus.grant with
  | .ended _, some ref => .next (grantBus ref s)
  | _, _ => .next s

/-- Answer a READER-PASS in flight NO-ANSWER, if there is one (R29, R30, R31). -/
def failReaderPass (h : Hold) (s : State) : State :=
  match h.pass with
  | some p => reply .readerPass p.ref .noAnswer (passBody [])
      (s.setBus { s.bus with activity := .held { h with pass := none } })
  | none => s

/-- The hold ends and polling resumes with a new round (R29, R31). -/
def endHold (h : Hold) (s : State) : State := (failReaderPass h s).changeBus startRound

/-- Withdraw an accepted BUS-TAKE: its reply is CANCELLED, and the round goes on (R29). -/
def cancelGrant (ref : Byte) (s : State) : State :=
  let s1 := reply .busTake ref .cancelled [] (s.setBus { s.bus with grant := none })
  match s1.bus.activity with
  | .ended _ => s1.changeBus nextTurn
  | _ => s1

/-- BUS-GIVE (R29). -/
def takeBusGive (ref : Byte) (s : State) : State :=
  match s.bus.activity with
  | .held h => reply .busGive ref .ok [] (endHold h s)
  | _ =>
    match s.bus.grant with
    | some r => reply .busGive ref .ok [] (cancelGrant r s)
    | none => reply .busGive ref .notHeld [] s

/-- READER-PASS (R30). -/
def takeReaderPass (ref pedestal : Byte) (bytes : List Byte) (s : State) : State :=
  match s.bus.activity with
  | .held h =>
    if hp : pedestal.toNat ≤ 8 then
      if h.pass.isSome then reply .readerPass ref .busy (passBody []) s
      else s.setBus { s.bus with
        activity := .held { h with
          pass := some
            { pedestal := ⟨pedestal.toNat, by omega⟩, ref := ref
              deadline := after s.clock.now 20, heard := false } }
        sent := withCheck (pedestal :: bytes) }
    else reply .readerPass ref .range (passBody []) s
  | _ => reply .readerPass ref .notHeld (passBody []) s

/-- The data bytes of a reader's frame that R30 accepts: the pedestal's address, 1 to 64 data bytes and
a good check byte. -/
def readerData (p : Pedestal) (frame : List Byte) : Option (List Byte) :=
  if byteAt frame 0 = count8 p.val ∧ 3 ≤ frame.length ∧ frame.length ≤ 66 ∧ byteSum frame = 0 then
    some (frame.drop 1).dropLast
  else none

/-- READER_PASS_ANSWER (R30): the first frame that arrives ends; an accepted one answers the request
OK, and after a frame that is not accepted no later frame can be. -/
def execReaderPassAnswer (frame : List Byte) (s : State) : Host.Outcome State Fault Refusal :=
  match s.bus.activity with
  | .held h =>
    match h.pass with
    | some p =>
      if p.heard then .next s
      else match readerData p.pedestal frame with
        | some bytes =>
          .next (reply .readerPass p.ref .ok (passBody bytes)
            (s.setBus { s.bus with activity := .held { h with pass := none } }))
        | none =>
          .next (s.setBus { s.bus with
            activity := .held { h with pass := some { p with heard := true } } })
    | none => .next s
  | _ => .next s

/-- READER_PASS_TIMEOUT (R30): no frame has been accepted within 20 ms. -/
def execReaderPassTimeout (s : State) : Host.Outcome State Fault Refusal :=
  match s.bus.activity with
  | .held h =>
    match h.pass with
    | some p => if passed s.clock.now p.deadline then .next (failReaderPass h s) else .next s
    | none => .next s
  | _ => .next s

/-- HOLD_DEADLINE (R31): the hold ends as at a BUS-GIVE, and notice HOLD-EXPIRED is queued. -/
def execHoldDeadline (s : State) : Host.Outcome State Fault Refusal :=
  match s.bus.activity with
  | .held h =>
    if passed s.clock.now h.deadline then .next (notice .holdExpired (endHold h s)) else .next s
  | _ => .next s

end Sys2Proof.Machine
end

