-- ==== Sys2Proof/Machine/Modes.lean ====
section
/-! DEFINITION. Mode control (Chapter 1): SET-SITE, SET-MODE and the EVAC input. -/

namespace Sys2Proof.Machine

/-! ## SET-SITE -/

/-- A numeric field replaced by the nearer bound of its range where it lies outside (R7). -/
def clamp (lo hi v : Nat) : Nat := max lo (min hi v)

/-- The numeric fields of a SET-SITE with their numbers and ranges (R4): number, low bound, high bound,
value carried. -/
def SiteFields.numeric (f : SiteFields) : List (Nat × Nat × Nat × Nat) :=
  [(1, 1, 8, f.aisles), (2, 0, 200, f.floor), (3, 64, 4095, f.threshold), (4, 0, 48, f.margin),
   (5, 20, 1000, f.decay), (6, 2000, 30000, f.transit), (7, 500, 10000, f.grace),
   (8, 100, 2000, f.query), (9, 1, 60, f.alarm), (10, 2, 50, f.debounce), (11, 0, 1440, f.expiry)]

/-- The numbers of the fields that are clamped, in ascending order (R7). -/
def SiteFields.clampedFields (f : SiteFields) : List Nat :=
  (f.numeric.filter fun x => x.2.2.2 < x.2.1 || x.2.2.1 < x.2.2.2).map (·.1)

/-- The record a SET-SITE applies (R7). -/
def SiteFields.settings (f : SiteFields) (pattern : TonePattern) (pitch : TonePitch) :
    SiteSettings where
  aisles := clamp 1 8 f.aisles
  floor := clamp 0 200 f.floor
  threshold := clamp 64 4095 f.threshold
  margin := clamp 0 48 f.margin
  decay := clamp 20 1000 f.decay
  transit := clamp 2000 30000 f.transit
  grace := clamp 500 10000 f.grace
  query := clamp 100 2000 f.query
  alarm := clamp 1 60 f.alarm
  debounce := clamp 2 50 f.debounce
  expiry := clamp 0 1440 f.expiry
  pattern := pattern
  pitch := pitch

/-- Mark a turn whose pedestal is numbered above the new N: its end changes no record (R9, R24). -/
def Turn.dropAbove (n : Nat) (t : Turn) : Turn :=
  { t with dropped := t.dropped || n < t.pedestal.val }

/-- What a change of N does to the activity of the bus controller (R9). -/
def Activity.changeAisles (n : Nat) : Activity → Activity
  | .polling t w => .polling (t.dropAbove n) w
  | .receiving t bytes last => .receiving (t.dropAbove n) bytes last
  | .delivering t more rs => .delivering (t.dropAbove n) more rs
  | .waiting t w => .waiting (t.dropAbove n) w
  | .idle => .idle
  | .ended p => .ended p
  | .held h => .held h

/-- The health table after a change of N: the pedestals above it are HEALTHY with count 0 (R9, R24). -/
def healthWithin (n : Nat) (v : Vector Health 9) : Vector Health 9 :=
  Vector.ofFn fun p => if n < p.val then { faulted := false, count := 0 } else v[p]

/-- An applied SET-SITE has changed N: the health records above it are reset, the turn in progress is
marked where its pedestal has left use, and an idle controller starts a new round (R9). -/
def aislesChanged (s : State) : State :=
  let b := { s.bus with
    health := healthWithin s.site.aisles s.bus.health
    activity := s.bus.activity.changeAisles s.site.aisles }
  s.setBus (if s.bus.activity = .idle then startRound s.clock.now s.site.aisles b else b)

/-- An input filtered by the beam debounce: a beam (R56) or the SILENCE key (R152). -/
inductive DebouncedInput where
  | beam (aisle : Aisle) (beam : Beam)
  | key
  deriving DecidableEq, Repr

/-- The sixteen beams and the key. -/
def debouncedInputs : List DebouncedInput :=
  allAisles.flatMap (fun a => [.beam a .inner, .beam a .outer]) ++ [.key]

/-- The input's pending change has held for the beam debounce in force (R56, R152). -/
def State.inputReady (s : State) : DebouncedInput → Bool
  | .beam a b => (s.beam a b).ready s.clock.now s.site.debounce
  | .key => s.beams.key.ready s.clock.now s.site.debounce

/-- The inputs whose pending change has held for the beam debounce in force. -/
def State.readyInputs (s : State) : List DebouncedInput := debouncedInputs.filter s.inputReady

/-- An input's pending change is accepted, with its event. -/
def settleInput (i : DebouncedInput) (s : State) : State :=
  match i with
  | .beam a b => settleBeam a b s
  | .key => settleKey s

/-- Accept at most `n` pending changes that have held for the debounce in force.  Which of several comes
first is a free value (R57). -/
def settleInputs : Nat → State → State
  | 0, s => s
  | n + 1, s =>
    match s.readyInputs with
    | [] => s
    | i :: others => settleInputs n (settleInput (s.pick i others) (s.afterPick others))

/-- Apply a site settings record: it replaces the record in force, the decay timer restarts with the
new D (R8), and a changed N takes effect (R9). -/
def applyRecord (r : SiteSettings) (s : State) : State :=
  let s1 := (s.setSite r).setTracking
    { s.tracking with decayAt := after s.clock.now r.decay }
  if r.aisles = s.site.aisles then s1 else aislesChanged s1

/-- Apply a site settings record, and accept at this moment every raw change of the seventeen debounced
inputs that has already persisted for the new debounce time (R8). -/
def applySite (r : SiteSettings) (s : State) : State := settleInputs 17 (applyRecord r s)

/-- The aisle-count check (R6). -/
def State.aisleCountAllowed (s : State) (f : SiteFields) : Bool :=
  clamp 1 8 f.aisles == s.site.aisles || s.modes.stored.toList.all (· == .off)

/-- SET-SITE (R5, R6, R7). -/
def takeSetSite (ref : Byte) (f : SiteFields) (s : State) : State :=
  match TonePattern.ofCode f.pattern, TonePitch.ofCode f.pitch with
  | some pattern, some pitch =>
    if s.aisleCountAllowed f then
      reply .setSite ref (if f.clampedFields = [] then .ok else .clamped)
        (clampedBody f.clampedFields) (applySite (f.settings pattern pitch) s)
    else reply .setSite ref .busy (clampedBody []) s
  | _, _ => reply .setSite ref .range (clampedBody []) s

/-! ## SET-MODE -/

/-- How a transition of a stored mode is judged (R11). -/
inductive Transition where
  | unchanged | permitted | refused
  deriving DecidableEq, Repr

/-- The table of R11: only one step at a time. -/
def transition : Mode → Mode → Transition
  | .off, .off => .unchanged
  | .off, .watch => .permitted
  | .off, .guard => .refused
  | .watch, .off => .permitted
  | .watch, .watch => .unchanged
  | .watch, .guard => .permitted
  | .guard, .off => .refused
  | .guard, .watch => .permitted
  | .guard, .guard => .unchanged

/-- Make a permitted transition of an aisle's stored mode with its handovers (R12, R13): an aisle set
to OFF dismisses its open passages (R74), and one whose effective mode leaves GUARD goes QUIET
(R153). -/
def changeMode (m : Mode) (s : State) (a : Aisle) : State :=
  let s1 := s.setModes { s.modes with stored := s.modes.stored.set a m }
  let s2 := if s.effective a = .guard ∧ s1.effective a ≠ .guard then quietAisle a s1 else s1
  if s.modes.stored[a] = .watch ∧ m = .off then dismissAisle a s2 else s2

/-- The named aisles whose stored mode a request changes, in ascending order (R11). -/
def changedAisles (s : State) (m : Mode) (as : List Aisle) : List Aisle :=
  as.filter fun a => transition s.modes.stored[a] m == .permitted

/-- SET-MODE (R11). -/
def takeSetMode (ref aisle mode : Byte) (s : State) : State :=
  match namedAisles s.site.aisles aisle, Mode.ofCode mode with
  | some as, some m =>
    if as.any (fun a => transition s.modes.stored[a] m == .refused) then
      reply .setMode ref .sequence [] s
    else reply .setMode ref .ok [] ((changedAisles s m as).foldl (changeMode m) s)
  | _, _ => reply .setMode ref .range [] s

/-- SILENCE (R151). -/
def takeSilence (ref aisle : Byte) (s : State) : State :=
  match namedAisles s.site.aisles aisle with
  | some as => reply .silence ref .ok [] (silenceAisles as s)
  | none => reply .silence ref .range [] s

/-! ## EVAC -/

/-- EVAC's change to `level` has held for the fixed 50 ms (R14). -/
def State.evacDue (s : State) (level : Bool) : Bool := s.modes.evac.due s.clock.now 50 level

/-- The EVAC input's pending change is accepted (R14). -/
def acceptEvac (s : State) : State := s.setModes { s.modes with evac := s.modes.evac.accept }

/-- The aisles in effective mode GUARD, in ascending order. -/
def State.guardedAisles (s : State) : List Aisle :=
  allAisles.filter fun a => s.effective a == .guard

/-- An assertion is accepted (R14): every aisle takes effective mode FREE, those that were in GUARD go
QUIET, and notice EVAC-ON is queued. -/
def assertEvac (s : State) : State :=
  notice .evacOn (s.guardedAisles.foldl (fun s a => quietAisle a s) (acceptEvac s))

/-- A release is accepted (R14): effective modes return to the stored modes, annunciators stay as they
are, QUIET (R13), and notice EVAC-OFF is queued. -/
def releaseEvac (s : State) : State := notice .evacOff (acceptEvac s)

/-- EVAC's pending change that has held for 50 ms is accepted now (R14). -/
def settleEvac (s : State) : State :=
  if s.evacDue true then assertEvac s else if s.evacDue false then releaseEvac s else s

/-- EVAC_INPUT_CHANGE (R14).  A pending change that has held for 50 ms is accepted before the new level
is read: only a return "before 50 ms have passed" discards it. -/
def execEvacInputChange (asserted : Bool) (s : State) : Host.Outcome State Fault Refusal :=
  let s1 := settleEvac s
  .next (s1.setModes { s1.modes with evac := s1.modes.evac.input s.clock.now asserted })

/-- EVAC_ASSERT_ACCEPTED (R14). -/
def execEvacAssertAccepted (s : State) : Host.Outcome State Fault Refusal :=
  if s.evacDue true then .next (assertEvac s) else .next s

/-- EVAC_RELEASE_ACCEPTED (R14). -/
def execEvacReleaseAccepted (s : State) : Host.Outcome State Fault Refusal :=
  if s.evacDue false then .next (releaseEvac s) else .next s

end Sys2Proof.Machine
end

