-- ==== Sys2Proof/Machine/Table.lean ====
section
/-! DEFINITION. The item table (Chapter 5): the rules of the update requests and of stored answers, how
a change is applied, handed to the refresh unit and forwarded to the watch, LOOKUP, and aging;
and the requests ANSWER (R120 to R122) and LOOKUP (R90). -/

namespace Sys2Proof.Machine

/-! ## Applying a change -/

/-- An entry under the constraints of R78: an expiry of at most 1,440, one of 1 or more for PENDING,
and no desk number for BARRED and LOST. -/
def Entry.constrained (e : Entry) : Entry :=
  { e with
    expiry := if e.cls = .pending ∧ e.expiry = 0 then 10 else min e.expiry 1440
    desk := match e.cls with
      | .issued => e.desk
      | .pending => e.desk
      | .barred => none
      | .lost => none }

/-- The live table with an entry stored, or the identifier's entry removed (R77). -/
def writeEntry (id : Ident) (e : Option Entry) (s : State) : State :=
  match e with
  | some e => s.setEntries (segmentOf id) (putKeyed Entry.key e (s.segment id).entries)
  | none => s.setEntries (segmentOf id) (dropKeyed Entry.key id.toNat (s.segment id).entries)

/-- A refresh aborts with a reason that a notice tells: its record is discarded (R106). -/
def abortRefresh (reason : AbortReason) (r : RefreshRecord) (s : State) : State :=
  notice (.refreshAborted reason r.segment) (s.setRefresh none)

/-- A change to the segment of a refresh in flight joins the late change list, or aborts the refresh
with OVERRUN when that holds 64 (R93, R104). -/
def recordLate (kind : ChangeKind) (id : Ident) (e : Option Entry) (s : State) : State :=
  match s.refresh with
  | none => s
  | some r =>
    if r.segment = segmentOf id then
      if r.late.length < 64 then
        s.setRefresh (some { r with late := r.late ++ [{ kind := kind, ident := id, entry := e }] })
      else abortRefresh .overrun r s
    else s

/-- The identifier's track is SPENT and holds an item verdict of ALARM or SOFT (R142). -/
def State.stoppedTrack (s : State) (id : Ident) : Bool :=
  match s.track? id with
  | some t =>
    match t.state with
    | .spent _ _ (some (v, _)) => v == .alarm || v == .soft
    | _ => false
  | none => false

/-- The first three steps of R91: the change goes live, is handed to a refresh of its segment, and is
forwarded to the watch. -/
def applyChange (kind : ChangeKind) (id : Ident) (e : Option Entry) (s : State) : State :=
  forward id e (recordLate kind id e (writeEntry id e s))

/-- The effect of a change made in state `s` (R142).  LATE is judged after the change has been taken. -/
def changeEffect (kind : ChangeKind) (id : Ident) (e : Option Entry) (s : State) : Effect :=
  if changeDecides (recordLate kind id e (writeEntry id e s)) id e then .resolved
  else if kind = .issue ∧ (applyChange kind id e s).stoppedTrack id then .late
  else .none

/-! ## The rules of the writers -/

/-- What a writer's rule makes of an update: a refusal, an entry to store (with whether its carried
expiry was clamped), or a removal. -/
inductive Update where
  | refused (status : Status)
  | store (e : Entry) (clamped : Bool)
  | remove
  deriving DecidableEq, Repr

/-- An update names identifier 0 or a desk number above 31 (R83). -/
def badFields (id : Ident) (desk : Option Nat) : Bool :=
  id == 0 || (match desk with
    | some d => 31 < d
    | none => false)

/-- The segment of an identifier has a free place (R80). -/
def State.hasRoom (s : State) (id : Ident) : Bool := (s.segment id).entries.length < 1024

/-- A carried expiry is above 1,440 and is clamped (R84, R88, R122). -/
def expiryClamped (expiry : Option Nat) : Bool :=
  match expiry with
  | some n => 1440 < n
  | none => false

/-- Store an entry where the identifier has one or its segment has room, else refuse with FULL (R80). -/
def storeOrFull (s : State) (e : Entry) (expiry : Option Nat) : Update :=
  if (s.entry? e.ident).isSome || s.hasRoom e.ident then .store e.constrained (expiryClamped expiry)
  else .refused .full

/-- The desk number an existing ISSUED or PENDING entry keeps (R84, R122). -/
def State.keptDesk (s : State) (id : Ident) : Option Nat :=
  match s.entry? id with
  | some e =>
    match e.cls with
    | .issued => e.desk
    | .pending => e.desk
    | .barred => none
    | .lost => none
  | none => none

/-- ISSUE's rule (R84). -/
def issueRule (s : State) (id : Ident) (expiry desk : Option Nat) : Update :=
  storeOrFull s
    { ident := id, cls := .issued, expiry := expiry.getD s.site.expiry
      desk := if desk.isSome then desk else s.keptDesk id } expiry

/-- BEGIN-ISSUE's rule (R85). -/
def beginIssueRule (s : State) (id : Ident) (desk : Option Nat) : Update :=
  let e : Entry := { ident := id, cls := .pending, expiry := 10, desk := desk }
  match s.entry? id with
  | some old => if old.cls = .pending then .store e.constrained false else .refused .mismatch
  | none => storeOrFull s e none

/-- Remove the entry where its class satisfies `p` (R86, R87, R89). -/
def removeRule (p : EntryClass → Bool) (s : State) (id : Ident) : Update :=
  match s.entry? id with
  | some e => if p e.cls then .remove else .refused .mismatch
  | none => .refused .notFound

/-- MARK's rule (R88). -/
def markRule (s : State) (id : Ident) (cls : EntryClass) (expiry : Option Nat) : Update :=
  storeOrFull s { ident := id, cls := cls, expiry := expiry.getD 0, desk := none } expiry

/-- The rule by which a class result of an ANSWER is stored (R122). -/
def answerRule (s : State) (id : Ident) (cls : EntryClass) (expiry : Option Nat) : Update :=
  match cls with
  | .issued => issueRule s id expiry none
  | .pending =>
    storeOrFull s { ident := id, cls := .pending, expiry := expiry.getD 10, desk := s.keptDesk id }
      expiry
  | .barred => markRule s id .barred expiry
  | .lost => markRule s id .lost expiry

/-! ## The update requests -/

/-- Take an update request by its rule's result: a refusal is answered alone, and a change is applied
and answered with its effect (R91). -/
def runUpdate (k : RequestKind) (kind : ChangeKind) (ref : Byte) (id : Ident) (u : Update)
    (s : State) : State :=
  match u with
  | .refused st => reply k ref st (updateBody .none false) s
  | .store e c =>
    reply k ref (if c then .clamped else .ok) (updateBody (changeEffect kind id (some e) s) c)
      (applyChange kind id (some e) s)
  | .remove =>
    reply k ref .ok (updateBody (changeEffect kind id none s) false) (applyChange kind id none s)

/-- ISSUE (R83, R84). -/
def takeIssue (ref : Byte) (id : Ident) (expiry desk : Option Nat) (s : State) : State :=
  runUpdate .issue .issue ref id
    (if badFields id desk then .refused .range else issueRule s id expiry desk) s

/-- BEGIN-ISSUE (R83, R85). -/
def takeBeginIssue (ref : Byte) (id : Ident) (desk : Option Nat) (s : State) : State :=
  runUpdate .beginIssue .beginIssue ref id
    (if badFields id desk then .refused .range else beginIssueRule s id desk) s

/-- CANCEL-ISSUE (R83, R86). -/
def takeCancelIssue (ref : Byte) (id : Ident) (s : State) : State :=
  runUpdate .cancelIssue .cancelIssue ref id
    (if badFields id none then .refused .range else removeRule (· == .pending) s id) s

/-- RETURN (R83, R87). -/
def takeReturn (ref : Byte) (id : Ident) (s : State) : State :=
  runUpdate .returnItem .returnItem ref id
    (if badFields id none then .refused .range
     else removeRule (fun c => c == .issued || c == .pending) s id) s

/-- The class a MARK may set: BARRED or LOST (R83). -/
def markClass (b : Byte) : Option EntryClass :=
  match EntryClass.ofCode b with
  | some .barred => some .barred
  | some .lost => some .lost
  | some .issued => none
  | some .pending => none
  | none => none

/-- MARK (R83, R88). -/
def takeMark (ref : Byte) (id : Ident) (cls : Byte) (expiry desk : Option Nat) (s : State) : State :=
  runUpdate .mark .mark ref id
    (if badFields id desk then .refused .range
     else match markClass cls with
       | some c => markRule s id c expiry
       | none => .refused .range) s

/-- UNMARK (R83, R89). -/
def takeUnmark (ref : Byte) (id : Ident) (s : State) : State :=
  runUpdate .unmark .unmark ref id
    (if badFields id none then .refused .range
     else removeRule (fun c => c == .barred || c == .lost) s id) s

/-- LOOKUP (R83, R90): it changes nothing but the reply queue. -/
def takeLookup (ref : Byte) (id : Ident) (s : State) : State :=
  if badFields id none then reply .lookup ref .range [0, 0, 0, 0, 0] s
  else reply .lookup ref .ok (lookupBody (s.lookup id) (s.segment id).state (s.entry? id)) s

/-! ## Answers -/

/-- An outstanding query carries the number and the identifier (R120, step 2). -/
def State.answerMatches (s : State) (number : Byte) (id : Ident) : Bool :=
  number != 0 && s.queries.list.any fun q => q.number == number && q.ident == id

/-- The first three steps of a matched answer (R121): its query leaves the list, the track takes the
host answer, and the result is handed to the verdict unit. -/
def matchAnswer (id : Ident) (a : HostAnswer) (s : State) : State :=
  handAnswer id a
    ((s.setQueryList (withoutQuery id s.queries.list)).modifyTrack id
      fun t => { t with answer := some a })

/-- Store a class result by its rule (R122); a full segment stores nothing. -/
def storeAnswer (id : Ident) (u : Update) (s : State) : State :=
  match u with
  | .store e _ => applyChange .answer id (some e) s
  | .remove => s
  | .refused _ => s

/-- The status of an ANSWER that passed its checks, with its clamp (R120, step 4). -/
def answerStatusCode (matched : Bool) (u : Option Update) : Status × Bool :=
  if !matched then (.unmatched, match u with
    | some (.store _ true) => true
    | _ => false)
  else match u with
    | some (.refused st) => (st, false)
    | some (.store _ true) => (.clamped, true)
    | _ => (.ok, false)

/-- ANSWER with a result whose fields are good: matching, storage, reply (R120 to R122). -/
def settleAnswer (ref number : Byte) (id : Ident) (a : HostAnswer) (expiry : Option Nat)
    (s : State) : State :=
  let matched := s.answerMatches number id
  let s1 := if matched then matchAnswer id a s else s
  let u := match a with
    | .entry c => some (answerRule s1 id c expiry)
    | .noException => none
  let s2 := match u with
    | some u => storeAnswer id u s1
    | none => s1
  let code := answerStatusCode matched u
  reply .answer ref code.1 [boolCode code.2] s2

/-- ANSWER (R120). -/
def takeAnswer (ref number : Byte) (id : Ident) (result : Byte) (expiry : Option Nat)
    (s : State) : State :=
  if id = 0 then reply .answer ref .range [0] s
  else match HostAnswer.ofCode result with
    | some a => settleAnswer ref number id a expiry s
    | none => reply .answer ref .range [0] s

/-! ## Aging -/

/-- One minute of an entry's life: an expiry above 0 falls by 1, and an entry whose expiry thereby
reaches 0 is removed (R94). -/
def Entry.aged (e : Entry) : Option Entry :=
  if e.expiry = 0 then some e
  else if e.expiry = 1 then none
  else some { e with expiry := e.expiry - 1 }

/-- The identifiers aging removes, in ascending segment order and, within a segment, in ascending
identifier order (R94). -/
def agedOut (v : Vector Segment 64) : List Ident :=
  allSegments.flatMap fun i => (v[i].entries.filter fun e => e.expiry == 1).map (·.ident)

/-- Aging of every entry of every segment, with the removals forwarded (R94). -/
def ageTable (s : State) : State :=
  (agedOut s.segments).foldl (fun s id => forward id none s)
    (s.setSegments (mapVector (fun g => { g with entries := g.entries.filterMap Entry.aged })
      s.segments))

/-- MINUTE_TICK (R3, R94): the phase has reached 60,000 and becomes 0 again, and the table ages. -/
def execMinuteTick (s : State) : Host.Outcome State Fault Refusal :=
  if 60000 ≤ s.clock.phase then .next (ageTable (s.setClock { s.clock with phase := 0 }))
  else .next s

end Sys2Proof.Machine
end

