-- ==== Sys2Proof/Machine/Refresh.lean ====
section
/-! DEFINITION. The refresh unit, TRUST and the link supervisor (Chapter 6). -/

namespace Sys2Proof.Machine

/-! ## The refresh -/

/-- SEG-BEGIN (R98). -/
def takeSegBegin (ref : Byte) (segment : Byte) (count : Nat) (s : State) : State :=
  if s.refresh.isSome then reply .segBegin ref .busy [] s
  else if h : segment.toNat < 64 ∧ count ≤ 1024 then
    reply .segBegin ref .ok []
      (s.setRefresh (some
        { segment := ⟨segment.toNat, h.1⟩, declared := count, received := 0, skipped := 0
          shadow := [], late := [], expected := 0, idleAt := after s.clock.now 2000 }))
  else reply .segBegin ref .range [] s

/-- One entry of a block taken into the shadow, or skipped (R100). -/
def RefreshRecord.takeEntry (r : RefreshRecord) (b : BlockEntry) : RefreshRecord :=
  match EntryClass.ofCode b.cls with
  | none => { r with skipped := r.skipped + 1 }
  | some c =>
    if b.ident = 0 ∨ segmentOf b.ident ≠ r.segment then { r with skipped := r.skipped + 1 }
    else
      { r with
        shadow := putKeyed Entry.key
          (Entry.constrained { ident := b.ident, cls := c, expiry := b.expiry, desk := none })
          r.shadow }

/-- The entries of a block counted as received and taken one by one (R100), with the expected block
number moved on and the idle deadline reloaded (R99, step 3). -/
def RefreshRecord.takeBlock (r : RefreshRecord) (now : Time) (es : List BlockEntry) :
    RefreshRecord :=
  es.foldl RefreshRecord.takeEntry
    { r with
      received := r.received + es.length
      expected := r.expected + 1
      idleAt := after now 2000 }

/-- One late change replayed onto the new live content; the count is of the changes dropped for want
of a place (R102). -/
def replayChange (acc : List Entry × Nat) (c : LateChange) : List Entry × Nat :=
  match c.entry with
  | some e =>
    if acc.1.any (fun x => x.ident == e.ident) || acc.1.length < 1024 then
      (putKeyed Entry.key e acc.1, acc.2)
    else (acc.1, acc.2 + 1)
  | none => (dropKeyed Entry.key c.ident.toNat acc.1, acc.2)

/-- The new live content and the dropped count: the shadow with the late changes replayed (R101, R102). -/
def RefreshRecord.replayed (r : RefreshRecord) : List Entry × Nat :=
  r.late.foldl replayChange (r.shadow, 0)

/-- The swap (R101): the new content goes live under state FRESH, the record is discarded, and the
verdict unit looks up the segment's undecided items. -/
def swap (r : RefreshRecord) (s : State) : State :=
  swapLookup r.segment
    ((s.setSegments (s.segments.set r.segment { state := .fresh, entries := r.replayed.1 })).setRefresh
      none)

/-- A SEG-BLOCK whose segment and block number are right (R100, R101). -/
def takeGoodBlock (ref : Byte) (r : RefreshRecord) (last : Bool) (es : List BlockEntry)
    (s : State) : State :=
  if r.declared < r.received + es.length then
    reply .segBlock ref .count (countsBody r.declared r.received 0 0) (s.setRefresh none)
  else
    let r' := r.takeBlock s.clock.now es
    if !last then
      reply .segBlock ref .ok (countsBody r'.declared r'.received r'.skipped 0)
        (s.setRefresh (some r'))
    else if r'.received ≠ r'.declared then
      reply .segBlock ref .count (countsBody r'.declared r'.received 0 0) (s.setRefresh none)
    else
      reply .segBlock ref .done (countsBody r'.declared r'.received r'.skipped r'.replayed.2)
        (swap r' s)

/-- SEG-BLOCK (R99). -/
def takeSegBlock (ref : Byte) (segment : Byte) (block : Word16) (last : Bool)
    (es : List BlockEntry) (s : State) : State :=
  match s.refresh with
  | none => reply .segBlock ref .noRefresh (countsBody 0 0 0 0) s
  | some r =>
    if segment.toNat ≠ r.segment.val then reply .segBlock ref .noRefresh (countsBody 0 0 0 0) s
    else if block ≠ r.expected then
      reply .segBlock ref .sequence (countsBody r.declared r.received r.skipped 0)
        (s.setRefresh (some { r with idleAt := after s.clock.now 2000 }))
    else takeGoodBlock ref r last es s

/-- REFRESH_IDLE_DEADLINE (R105): the idle deadline of the refresh in flight has passed. -/
def execRefreshIdleDeadline (s : State) : Host.Outcome State Fault Refusal :=
  match s.refresh with
  | some r => if passed s.clock.now r.idleAt then .next (abortRefresh .idle r s) else .next s
  | none => .next s

/-! ## TRUST -/

/-- TRUST: each named segment becomes FRESH (R108). -/
def takeTrust (ref : Byte) (set : BitVec 64) (s : State) : State :=
  reply .trust ref .ok []
    (s.setSegments (Vector.ofFn fun i =>
      if set.getLsbD i.val then { s.segments[i] with state := .fresh } else s.segments[i]))

/-! ## The link supervisor -/

/-- The deadline a period in seconds sets from now (R109, R110). -/
def State.countdown (s : State) (period : Nat) : Time := after s.clock.now (period * 1000)

/-- SUPERVISE (R109). -/
def takeSupervise (ref : Byte) (period : Nat) (s : State) : State :=
  if period = 0 then reply .supervise ref .range [0] s
  else
    let p := min period 600
    reply .supervise ref (if 600 < period then .clamped else .ok) [boolCode (600 < period)]
      (s.setSupervisor (.running p (s.countdown p)))

/-- The supervisor is told of a good frame (R110). -/
def countGoodFrame (s : State) : State :=
  match s.supervisor with
  | .disarmed => s
  | .running p _ => s.setSupervisor (.running p (s.countdown p))
  | .expired p => notice .linkRestored (s.setSupervisor (.running p (s.countdown p)))

/-- FRESH becomes SUSPECT (R111, step 1). -/
def Segment.distrusted (g : Segment) : Segment :=
  { g with state := match g.state with
      | .fresh => .suspect
      | .stale => .stale
      | .suspect => .suspect }

/-- The supervisor expires (R111). -/
def supervisorExpires (period : Nat) (s : State) : State :=
  let s1 := s.setSegments (mapVector Segment.distrusted s.segments)
  let s2 := match s1.refresh with
    | some r => abortRefresh .silent r s1
    | none => s1
  (notice .linkSilent s2).setSupervisor (.expired period)

/-- SUPERVISOR_EXPIRY (R111): the countdown deadline has passed while RUNNING. -/
def execSupervisorExpiry (s : State) : Host.Outcome State Fault Refusal :=
  match s.supervisor with
  | .running p d => if passed s.clock.now d then .next (supervisorExpires p s) else .next s
  | .disarmed => .next s
  | .expired _ => .next s

end Sys2Proof.Machine
end

