-- ==== Sys2Proof/Machine/Link.lean ====
section
/-! DEFINITION. The link unit (Chapter 10): DESCRIBE, STATUS and RESTART, the dispatch of good frames, the
receiver's commands and the transmitter. -/

namespace Sys2Proof.Machine

/-! ## The link unit's own requests -/

/-- The 32 descriptor bytes from an offset on, with 127 followed by 0 (R166). -/
def descriptorFrom (offset : Nat) : List Byte :=
  ((Config.descriptor ++ Config.descriptor).drop offset).take 32

/-- DESCRIBE (R166).  A refused DESCRIBE holds 00h in each descriptor byte (R178). -/
def takeDescribe (ref offset : Byte) (s : State) : State :=
  if 127 < offset.toNat then reply .describe ref .range (List.replicate 32 0x00) s
  else reply .describe ref .ok (descriptorFrom offset.toNat) s

/-- STATUS (R167, R168): view 00h is the device view, 01h to 08h an aisle view, and any other view is
refused with RANGE. -/
def takeStatus (ref view : Byte) (s : State) : State :=
  if view = 0 then reply .status ref .ok s.deviceView s
  else if h : 1 ≤ view.toNat ∧ view.toNat ≤ 8 then
    reply .status ref .ok (s.aisleView ⟨view.toNat - 1, by omega⟩) s
  else reply .status ref .range [] s

/-- RESTART (R169, stage 1): the reply OK is placed, and the part begins to wait for it. -/
def takeRestart (ref kind : Byte) (s : State) : State :=
  match RestartKind.ofCode kind with
  | some k =>
    reply .restart ref .ok []
      (s.setLink { s.link with restart := some { kind := k, left := false } })
  | none => reply .restart ref .range [] s

/-! ## Dispatch -/

/-- A dispatched request is taken by its owning block (R159, step 3). -/
def takeRequest (ref : Byte) (r : Request) (s : State) : State :=
  match r with
  | .describe o => takeDescribe ref o s
  | .status v => takeStatus ref v s
  | .restart k => takeRestart ref k s
  | .setSite f => takeSetSite ref f s
  | .setMode a m => takeSetMode ref a m s
  | .silence a => takeSilence ref a s
  | .issue id e d => takeIssue ref id e d s
  | .beginIssue id d => takeBeginIssue ref id d s
  | .cancelIssue id => takeCancelIssue ref id s
  | .returnItem id => takeReturn ref id s
  | .mark id c e d => takeMark ref id c e d s
  | .unmark id => takeUnmark ref id s
  | .lookup id => takeLookup ref id s
  | .segBegin i n => takeSegBegin ref i n s
  | .segBlock i b l es => takeSegBlock ref i b l es s
  | .trust set => takeTrust ref set s
  | .supervise p => takeSupervise ref p s
  | .answer n id r e => takeAnswer ref n id r e s
  | .busTake => takeBusTake ref s
  | .busGive => takeBusGive ref s
  | .readerPass p bs => takeReaderPass ref p bs s

/-- A REJECT reply, which carries the kind code of the rejected request (R159, R178). -/
def rejectFrame (f : Frame) (status : Status) (s : State) : State :=
  placeReply 0xFF f.ref status [f.kind] s

/-- Dispatch of a good frame (R159). -/
def dispatch (f : Frame) (s : State) : State :=
  match parseFrame f with
  | .unknownKind => rejectFrame f .kind s
  | .badLength => rejectFrame f .format s
  | .request _ r => takeRequest f.ref r s

/-- A good frame is handed on (R158): the supervisor counts it, and then it is discarded while a RESTART
waits or all eight places of the reply queue are occupied, or is dispatched. -/
def handOn (s : State) (f : Frame) : State :=
  let s1 := countGoodFrame s
  if s1.link.restart.isSome then s1
  else if 8 ≤ placesUsed s1 then s1
  else dispatch f s1

/-- The receiver's bytes. -/
def State.setRx (s : State) (bs : List RxByte) : State := s.setLink { s.link with rx := bs }

/-- A frame has been found good: the receiver is HUNTING again (R157), and the frame is handed on. -/
def goodFrame (kind ref : Byte) (payload : List Byte) (s : State) : State :=
  handOn (s.setRx []) { kind := kind, ref := ref, payload := payload }

/-- Bytes arrive on the host link now: the receiver examines them after the bytes it is collecting, and
the good frames it finds are handed on in order (R157, R158). -/
def receive (silent : Bool) (bytes : List Byte) (s : State) : State :=
  let r := hunt silent 0 (s.link.rx ++ bytes.map fun b => { time := s.clock.now, byte := b })
  r.1.foldl handOn (s.setRx r.2)

/-- BAD_FRAME (R157): bytes that begin a frame the receiver discards arrive, and hunting resumes after
its start byte. -/
def execBadFrame (bytes : List Byte) (s : State) : Host.Outcome State Fault Refusal :=
  .next (receive false bytes s)

/-- FRAME_GAP_TIMEOUT (R157): bytes arrive and then none for more than 20 ms, so that the frame being
collected is discarded. -/
def execFrameGapTimeout (bytes : List Byte) (s : State) : Host.Outcome State Fault Refusal :=
  .next (receive true bytes s)

/-! ## The transmitter -/

/-- The frame of a reply (R160, R178). -/
def Reply.frame (r : Reply) : Frame := { kind := r.kind, ref := r.ref, payload := r.payload }

/-- The frame of a QUERY message (R119, R179). -/
def Query.frame (q : Query) : Frame := { kind := 0xC0, ref := 0, payload := q.payload }

/-- The frame of a report (R179). -/
def Report.frame (r : Report) : Frame := { kind := r.body.kind, ref := 0, payload := r.payload }

/-- A reply is the OK reply of a RESTART (R169). -/
def Reply.ofRestart (r : Reply) : Bool := r.kind == RequestKind.restart.replyCode && r.status == .ok

/-- The transmitter begins to send a frame (R162). -/
def State.send (s : State) (l : LinkUnit) (f : Frame) (restartReply : Bool) : State :=
  s.setLink { l with
    line := some { bytes := f.bytes, started := s.clock.now, restartReply := restartReply } }

/-- The query list with the oldest unsent query marked sent (R119). -/
def markSent : List Query → List Query
  | [] => []
  | q :: qs => if q.sent then q :: markSent qs else { q with sent := true } :: qs

/-- The oldest report by the arbiter's order is taken: urgent before routine (R162). -/
def sendReport (s : State) : State :=
  match s.link.urgent with
  | r :: rest => s.send { s.link with urgent := rest } r.frame false
  | [] =>
    match s.link.routine with
    | r :: rest => s.send { s.link with routine := rest } r.frame false
    | [] => s

/-- The arbiter takes one frame: the oldest reply, else the oldest unsent query, else the oldest urgent
report, else the oldest routine report (R162). -/
def arbitrate (s : State) : State :=
  match s.link.replies with
  | r :: rest => s.send { s.link with replies := rest } r.frame r.ofRestart
  | [] =>
    match s.queries.list.find? (fun q => !q.sent) with
    | some q => (s.setQueryList (markSent s.queries.list)).send s.link q.frame false
    | none => sendReport s

/-- The reply of a RESTART has left the line, so that the restart takes place before the transmitter
takes another frame (R169). -/
def LinkUnit.restartDue (l : LinkUnit) : Bool :=
  match l.restart with
  | some w => w.left
  | none => false

/-- TRANSMITTER_TAKE (R162): nothing happens unless the line is free. -/
def execTransmitterTake (s : State) : Host.Outcome State Fault Refusal :=
  if s.link.line.isNone && !s.link.restartDue then .next (arbitrate s) else .next s

/-- The RESTART that waits, once the frame on the line has left it (R169). -/
def RestartWait.after (line : LineFrame) (w : RestartWait) : RestartWait :=
  { w with left := w.left || line.restartReply }

/-- LINE_FREE (R162, R169): the last byte of the frame being sent has left the line. -/
def execLineFree (s : State) : Host.Outcome State Fault Refusal :=
  match s.link.line with
  | some f =>
    .next (s.setLink { s.link with
      line := none, restart := s.link.restart.map (RestartWait.after f) })
  | none => .next s

end Sys2Proof.Machine
end

