-- ==== Sys2Proof/Machine/Requests.lean ====
section
/-! DEFINITION. The request commands: each row of the table that is a request on the host link stands for
its good frame (R157), which the link unit counts, discards or dispatches (R158, R159).  What a
dispatched request does is said by the operation of its owning block, which `takeRequest` names. -/

namespace Sys2Proof.Machine

/-- RESTART FULL (R169, stage 1). -/
def execRestartFull (ref : Byte) (payload : List Byte) (s : State) : Host.Outcome State Fault Refusal :=
  .next (goodFrame RequestKind.restart.code ref payload s)

/-- RESTART DETECTION (R169, stage 1). -/
def execRestartDetection (ref : Byte) (payload : List Byte) (s : State) : Host.Outcome State Fault Refusal :=
  .next (goodFrame RequestKind.restart.code ref payload s)

/-- SET-SITE (R5 to R9). -/
def execSetSite (ref : Byte) (payload : List Byte) (s : State) : Host.Outcome State Fault Refusal :=
  .next (goodFrame RequestKind.setSite.code ref payload s)

/-- SET-MODE (R11 to R13). -/
def execSetMode (ref : Byte) (payload : List Byte) (s : State) : Host.Outcome State Fault Refusal :=
  .next (goodFrame RequestKind.setMode.code ref payload s)

/-- BUS-TAKE (R28). -/
def execBusTake (ref : Byte) (payload : List Byte) (s : State) : Host.Outcome State Fault Refusal :=
  .next (goodFrame RequestKind.busTake.code ref payload s)

/-- BUS-GIVE (R29). -/
def execBusGive (ref : Byte) (payload : List Byte) (s : State) : Host.Outcome State Fault Refusal :=
  .next (goodFrame RequestKind.busGive.code ref payload s)

/-- READER-PASS (R30). -/
def execReaderPass (ref : Byte) (payload : List Byte) (s : State) : Host.Outcome State Fault Refusal :=
  .next (goodFrame RequestKind.readerPass.code ref payload s)

/-- SILENCE (R151). -/
def execSilence (ref : Byte) (payload : List Byte) (s : State) : Host.Outcome State Fault Refusal :=
  .next (goodFrame RequestKind.silence.code ref payload s)

/-- ISSUE (R84, R91). -/
def execIssue (ref : Byte) (payload : List Byte) (s : State) : Host.Outcome State Fault Refusal :=
  .next (goodFrame RequestKind.issue.code ref payload s)

/-- BEGIN-ISSUE (R85, R91). -/
def execBeginIssue (ref : Byte) (payload : List Byte) (s : State) : Host.Outcome State Fault Refusal :=
  .next (goodFrame RequestKind.beginIssue.code ref payload s)

/-- CANCEL-ISSUE (R86, R91). -/
def execCancelIssue (ref : Byte) (payload : List Byte) (s : State) : Host.Outcome State Fault Refusal :=
  .next (goodFrame RequestKind.cancelIssue.code ref payload s)

/-- RETURN (R87, R91). -/
def execReturnItem (ref : Byte) (payload : List Byte) (s : State) : Host.Outcome State Fault Refusal :=
  .next (goodFrame RequestKind.returnItem.code ref payload s)

/-- MARK (R88, R91). -/
def execMark (ref : Byte) (payload : List Byte) (s : State) : Host.Outcome State Fault Refusal :=
  .next (goodFrame RequestKind.mark.code ref payload s)

/-- UNMARK (R89, R91). -/
def execUnmark (ref : Byte) (payload : List Byte) (s : State) : Host.Outcome State Fault Refusal :=
  .next (goodFrame RequestKind.unmark.code ref payload s)

/-- LOOKUP (R90). -/
def execLookup (ref : Byte) (payload : List Byte) (s : State) : Host.Outcome State Fault Refusal :=
  .next (goodFrame RequestKind.lookup.code ref payload s)

/-- SEG-BEGIN (R98). -/
def execSegBegin (ref : Byte) (payload : List Byte) (s : State) : Host.Outcome State Fault Refusal :=
  .next (goodFrame RequestKind.segBegin.code ref payload s)

/-- SEG-BLOCK (R99 to R103). -/
def execSegBlock (ref : Byte) (payload : List Byte) (s : State) : Host.Outcome State Fault Refusal :=
  .next (goodFrame RequestKind.segBlock.code ref payload s)

/-- TRUST (R108). -/
def execTrust (ref : Byte) (payload : List Byte) (s : State) : Host.Outcome State Fault Refusal :=
  .next (goodFrame RequestKind.trust.code ref payload s)

/-- SUPERVISE (R109). -/
def execSupervise (ref : Byte) (payload : List Byte) (s : State) : Host.Outcome State Fault Refusal :=
  .next (goodFrame RequestKind.supervise.code ref payload s)

/-- ANSWER (R120 to R122). -/
def execAnswer (ref : Byte) (payload : List Byte) (s : State) : Host.Outcome State Fault Refusal :=
  .next (goodFrame RequestKind.answer.code ref payload s)

/-- DESCRIBE (R166). -/
def execDescribe (ref : Byte) (payload : List Byte) (s : State) : Host.Outcome State Fault Refusal :=
  .next (goodFrame RequestKind.describe.code ref payload s)

/-- STATUS naming DEVICE (R167). -/
def execStatusDevice (ref : Byte) (payload : List Byte) (s : State) : Host.Outcome State Fault Refusal :=
  .next (goodFrame RequestKind.status.code ref payload s)

/-- STATUS naming an aisle (R168). -/
def execStatusAisle (ref : Byte) (payload : List Byte) (s : State) : Host.Outcome State Fault Refusal :=
  .next (goodFrame RequestKind.status.code ref payload s)

/-- A good frame whose kind is no request kind (R159, step 1). -/
def execUnknownKindFrame (kind ref : Byte) (payload : List Byte) (s : State) :
    Host.Outcome State Fault Refusal :=
  .next (goodFrame kind ref payload s)

end Sys2Proof.Machine
end

