-- ==== Sys2Proof/Machine/Restart.lean ====
section
/-! DEFINITION. The restarts (R15, R33, R55, R76, R96, R113, R126, R145, R155, R156, R170): power-on, the full
reset that follows a RESTART FULL, and the detection restart that follows a RESTART DETECTION. -/

namespace Sys2Proof.Machine

/-! ## What each block takes at a restart -/

/-- Read an input's raw level as its accepted state, with no pending change (R15, R76, R155). -/
def Filter.resample (f : Filter) : Filter := Filter.atReset f.raw

/-- The bus controller after either kind of restart at `now` with aisle count `n` (R33): every pedestal
HEALTHY, nothing pending, the probe timer due 1,000 ms later, and a new round begun at pedestal 0.
R33 discards an answer to the abandoned poll that arrives later.  A command does not say which poll it
answers, so that an answer which arrives in the new window is taken against the new POLL to pedestal 0
(DESIGN CHOICE, log entry 36).  Records of an answer that still wait for intake when the restart falls
between two of them are dropped with their turn: R26 lets events fall there, and R27 and R33 do not say
what becomes of the rest (DESIGN CHOICE, log entry 37). -/
def BusController.restarted (now : Time) (n : Nat) : BusController :=
  startRound now n
    { health := Vector.replicate 9 { faulted := false, count := 0 }
      activity := .idle
      grant := none
      round := { probePhase := false, next := 0, faultedAtStart := [], probed := [] }
      probeDue := false
      probeAt := after now 1000
      sent := [] }

/-- The track engine after either kind of restart, with decay interval `d` (R42, R55). -/
def TrackEngine.restarted (now : Time) (d : Nat) : TrackEngine :=
  { tracks := [], decayAt := after now d }

/-- The beam input unit after either kind of restart (R76, R155). -/
def BeamUnit.restarted (b : BeamUnit) : BeamUnit where
  inner := mapVector Filter.resample b.inner
  outer := mapVector Filter.resample b.outer
  key := b.key.resample

/-- The passage tracker after a restart with this number next (R76). -/
def PassageTracker.restarted (next : Word16) : PassageTracker :=
  { aisles := Vector.replicate 8 { opens := [], crowded := false }, next := next }

/-- The query unit after either kind of restart (R126). -/
def QueryUnit.restarted : QueryUnit := { list := [], next := 1 }

/-- The line rate the straps give, `true` for tied low (R156). -/
def LineRate.ofStraps (strap1 strap2 : Bool) : LineRate :=
  match strap1, strap2 with
  | false, false => .b115200
  | true, false => .b57600
  | false, true => .b230400
  | true, true => .b460800

/-- The link unit after a full reset, before the notice (R156, R170). -/
def LinkUnit.fullReset (l : LinkUnit) : LinkUnit :=
  { strap1 := l.strap1, strap2 := l.strap2, rate := LineRate.ofStraps l.strap1 l.strap2
    rx := [], replies := [], line := none, urgent := [], routine := [], nextReport := 0
    restart := none }

/-- The link unit after a detection restart, before the notice (R170). -/
def LinkUnit.detectionRestart (l : LinkUnit) : LinkUnit :=
  { l with rx := [], replies := [], line := none, restart := none }

/-! ## The restarts -/

/-- A full reset (R15, R170): every block takes its full-reset value, and notice RESTARTED is queued as
report 0.  The levels of the pins are read, not set. -/
def fullReset (cause : RestartCause) (s : State) : State :=
  notice (.restarted cause)
    { clock := { now := 0, phase := 0 }
      site := SiteSettings.default
      modes := { stored := Vector.replicate 8 .off, evac := s.modes.evac.resample }
      bus := BusController.restarted 0 SiteSettings.default.aisles
      tracking := TrackEngine.restarted 0 SiteSettings.default.decay
      beams := s.beams.restarted
      passages := PassageTracker.restarted 1
      segments := Vector.replicate 64 { state := .stale, entries := [] }
      refresh := none
      supervisor := .disarmed
      queries := QueryUnit.restarted
      judging := []
      annunciators := Vector.replicate 8 .quiet
      link := s.link.fullReset
      choice := s.choice
      pending := s.pending }

/-- A detection restart (R15, R170): the detection work starts afresh, the configuration, the table, the
supervisor and the reports are kept, and notice RESTARTED is queued. -/
def detectionRestart (s : State) : State :=
  notice (.restarted .detection)
    { s with
      bus := BusController.restarted s.clock.now s.site.aisles
      tracking := TrackEngine.restarted s.clock.now s.site.decay
      beams := s.beams.restarted
      passages := PassageTracker.restarted s.passages.next
      refresh := none
      queries := QueryUnit.restarted
      judging := []
      annunciators := Vector.replicate 8 .quiet
      link := s.link.detectionRestart }

/-- A restart of this kind has been taken, and the last byte of its reply leaves the line now or has
left it (R169, stage 3). -/
def State.restartReady (s : State) (kind : RestartKind) : Bool :=
  match s.link.restart with
  | none => false
  | some w =>
    w.kind == kind &&
      (w.left || (match s.link.line with
        | some f => f.restartReply
        | none => false))

/-! ## Commands -/

/-- POWER_ON (R170): power-on is a full reset with notice RESTARTED of kind POWER. -/
def execPowerOn (s : State) : Host.Outcome State Fault Refusal := .next (fullReset .power s)

/-- FULL_RESET (R169, R170): nothing happens unless a RESTART FULL waits whose reply leaves the line. -/
def execFullReset (s : State) : Host.Outcome State Fault Refusal :=
  if s.restartReady .full then .next (fullReset .full s) else .next s

/-- DETECTION_RESTART (R169, R170): nothing happens unless a RESTART DETECTION waits whose reply leaves
the line. -/
def execDetectionRestart (s : State) : Host.Outcome State Fault Refusal :=
  if s.restartReady .detection then .next (detectionRestart s) else .next s

end Sys2Proof.Machine
end

