-- ==== Sys2Proof/Machine/Idle.lean ====
section
/-! DEFINITION. What the part does while no command waits: the time base counts a millisecond (R2), or an
event that the part makes by itself has come due and is put into the queue. -/

namespace Sys2Proof.Machine

/-! ## One millisecond -/

/-- Part time and the minute phase advance by 1 ms (R2, R3). -/
def tick (s : State) : State := s.setClock { now := s.clock.now + 1, phase := s.clock.phase + 1 }

/-! ## The events that have come due -/

/-- A list of one event where a condition holds. -/
def dueIf (c : Bool) (i : Instr) : List Instr := if c then [i] else []

/-- The timers of the time base, the probe timer and the decay timer (R3, R23, R42). -/
def dueTimers (s : State) : List Instr :=
  dueIf (60000 ≤ s.clock.phase) .minuteTick
    ++ dueIf (passed s.clock.now s.bus.probeAt) .probeTimer
    ++ dueIf (passed s.clock.now s.tracking.decayAt) .decayStep

/-- The break and clear events of one beam (R56). -/
def dueBeam (s : State) (a : Aisle) (b : Beam) : List Instr :=
  dueIf (s.beamDue a b true) (.breakEvent a b) ++ dueIf (s.beamDue a b false) (.clearEvent a b)

/-- The filtered inputs whose pending change has held for its time (R14, R56, R152). -/
def dueInputs (s : State) : List Instr :=
  allAisles.flatMap (fun a => dueBeam s a .inner ++ dueBeam s a .outer)
    ++ dueIf (s.evacDue true) .evacAssertAccepted
    ++ dueIf (s.evacDue false) .evacReleaseAccepted
    ++ dueIf (s.keyDue true) .silenceKeyPress
    ++ dueIf (s.keyDue false) .silenceKeyRelease

/-- The deadlines of a hold and of the READER-PASS in it (R30, R31). -/
def dueHold (now : Time) (h : Hold) : List Instr :=
  dueIf (passed now h.deadline) .holdDeadline
    ++ (match h.pass with
        | some p => dueIf (passed now p.deadline) .readerPassTimeout
        | none => [])

/-- The end of an answer window, of a frame that falls silent or of an extension wait, a grant, and the
deadlines of a hold (R16, R19, R28, R30, R31, R182). -/
def dueBus (s : State) : List Instr :=
  match s.bus.activity with
  | .idle => []
  | .polling _ w => dueIf (passed s.clock.now w) .answerWindowClose
  | .receiving _ _ last => dueIf (passed s.clock.now (after last 1)) .answerSlotGap
  | .delivering _ _ _ => []
  | .waiting _ w => dueIf (passed s.clock.now w) .extensionWaitEnd
  | .ended _ => dueIf s.bus.grant.isSome .busGrant
  | .held h => dueHold s.clock.now h

/-- The transit deadlines of an aisle's open passages (R67). -/
def dueTransits (s : State) (a : Aisle) : List Instr :=
  ((s.opens a).filter fun p => passed s.clock.now p.deadline).map fun p =>
    .transitDeadline a p.number

/-- The grace deadlines of the judging passages (R138). -/
def dueGraces (s : State) : List Instr :=
  (s.judging.filter fun j => j.graceDue s.clock.now j.number).map fun j => .graceDeadline j.number

/-- The duration deadline of an aisle's annunciator (R150). -/
def dueDuration (s : State) (a : Aisle) : List Instr :=
  match s.annunciators[a].deadline? with
  | some d => dueIf (passed s.clock.now d) (.durationDeadline a)
  | none => []

/-- The deadlines of the outstanding queries (R123). -/
def dueQueries (s : State) : List Instr :=
  (s.queries.list.filter fun q => passed s.clock.now q.deadline).map fun q => .queryDeadline q.number

/-- The idle deadline of a refresh in flight (R105). -/
def dueRefresh (s : State) : List Instr :=
  match s.refresh with
  | some r => dueIf (passed s.clock.now r.idleAt) .refreshIdleDeadline
  | none => []

/-- The supervisor's countdown deadline (R111). -/
def dueSupervisor (s : State) : List Instr :=
  match s.supervisor with
  | .running _ d => dueIf (passed s.clock.now d) .supervisorExpiry
  | .disarmed => []
  | .expired _ => []

/-- The baud of a line rate (R156). -/
def LineRate.baud : LineRate → Nat
  | .b57600 => 57600
  | .b115200 => 115200
  | .b230400 => 230400
  | .b460800 => 460800

/-- The bytes of a frame, of ten bits each and sent back to back, have left the line (R156). -/
def LineFrame.gone (now : Time) (rate : LineRate) (f : LineFrame) : Bool :=
  10000 * f.bytes.length ≤ age now f.started * rate.baud

/-- A frame waits for the transmitter (R162). -/
def State.frameWaits (s : State) : Bool :=
  !s.link.replies.isEmpty || s.queries.list.any (fun q => !q.sent)
    || !s.link.urgent.isEmpty || !s.link.routine.isEmpty

/-- More than 20 ms have passed since the last byte of the frame being collected (R157). -/
def LinkUnit.gapOver (now : Time) (l : LinkUnit) : Bool :=
  match l.rx.getLast? with
  | some b => 20 < age now b.time
  | none => false

/-- A restart whose reply has left the line (R169). -/
def dueRestart (l : LinkUnit) : List Instr :=
  match l.restart with
  | none => []
  | some w =>
    dueIf w.left (match w.kind with
      | .full => .fullReset
      | .detection => .detectionRestart)

/-- The link unit's own events (R157, R162, R169). -/
def dueLink (s : State) : List Instr :=
  (match s.link.line with
   | some f => dueIf (f.gone s.clock.now s.link.rate) .lineFree
   | none => dueIf (!s.link.restartDue && s.frameWaits) .transmitterTake)
    ++ dueRestart s.link
    ++ dueIf (s.link.gapOver s.clock.now) (.frameGapTimeout [])

/-- Every event the part makes by itself that is due now. -/
def dueEvents (s : State) : List Instr :=
  dueTimers s ++ dueInputs s ++ dueBus s ++ allAisles.flatMap (dueTransits s) ++ dueGraces s
    ++ allAisles.flatMap (dueDuration s) ++ dueQueries s ++ dueRefresh s ++ dueSupervisor s ++ dueLink s

/-! ## The idle step -/

/-- Records of a SIGHTINGS answer wait for intake (R26). -/
def State.delivering (s : State) : Bool :=
  match s.bus.activity with
  | .delivering _ _ _ => true
  | _ => false

/-- What the part may do next by itself: raise an event that is due, or (`none`) take the next record of
the answer being delivered (R26). -/
def idleChoices (s : State) : List (Option Instr) :=
  (dueEvents s).map some ++ (if s.delivering then [none] else [])

/-- What the part does with no command waiting.  With nothing due and no record to take, a millisecond
passes.  An event that is due is put into the queue; a record is taken by intake.  Which of several
comes first is a free value, as the manual leaves the order of what falls together open. -/
def idle (s : State) : State :=
  match idleChoices s with
  | [] => tick s
  | c :: others =>
    match s.pick c others with
    | some i => (s.afterPick others).setPending [i]
    | none => takeRecord (s.afterPick others)

end Sys2Proof.Machine
end

