-- ==== Sys2Proof/Machine/Dispatch.lean ====
section
/-! DEFINITION. The commands' meanings, one arm for each constructor of `Instr`. -/

namespace Sys2Proof.Machine

/-- The effect of a command on everything but the queue. -/
def exec (i : Instr) (s : State) : Host.Outcome State Fault Refusal :=
  match i with
  | .powerOn => Sys2Proof.Machine.execPowerOn s
  | .restartFull ref payload => Sys2Proof.Machine.execRestartFull ref payload s
  | .restartDetection ref payload => Sys2Proof.Machine.execRestartDetection ref payload s
  | .fullReset => Sys2Proof.Machine.execFullReset s
  | .detectionRestart => Sys2Proof.Machine.execDetectionRestart s
  | .minuteTick => Sys2Proof.Machine.execMinuteTick s
  | .setSite ref payload => Sys2Proof.Machine.execSetSite ref payload s
  | .setMode ref payload => Sys2Proof.Machine.execSetMode ref payload s
  | .evacInputChange asserted => Sys2Proof.Machine.execEvacInputChange asserted s
  | .evacAssertAccepted => Sys2Proof.Machine.execEvacAssertAccepted s
  | .evacReleaseAccepted => Sys2Proof.Machine.execEvacReleaseAccepted s
  | .sightingsAnswer more records => Sys2Proof.Machine.execSightingsAnswer more records s
  | .extendAnswer n => Sys2Proof.Machine.execExtendAnswer n s
  | .extendOnAnswer => Sys2Proof.Machine.execExtendOnAnswer s
  | .badAnswer frame => Sys2Proof.Machine.execBadAnswer frame s
  | .answerSlotGap => Sys2Proof.Machine.execAnswerSlotGap s
  | .answerWindowClose => Sys2Proof.Machine.execAnswerWindowClose s
  | .extensionWaitEnd => Sys2Proof.Machine.execExtensionWaitEnd s
  | .probeTimer => Sys2Proof.Machine.execProbeTimer s
  | .busTake ref payload => Sys2Proof.Machine.execBusTake ref payload s
  | .busGrant => Sys2Proof.Machine.execBusGrant s
  | .busGive ref payload => Sys2Proof.Machine.execBusGive ref payload s
  | .readerPass ref payload => Sys2Proof.Machine.execReaderPass ref payload s
  | .readerPassAnswer frame => Sys2Proof.Machine.execReaderPassAnswer frame s
  | .readerPassTimeout => Sys2Proof.Machine.execReaderPassTimeout s
  | .holdDeadline => Sys2Proof.Machine.execHoldDeadline s
  | .decayStep => Sys2Proof.Machine.execDecayStep s
  | .beamInputChange aisle beam broken => Sys2Proof.Machine.execBeamInputChange aisle beam broken s
  | .breakEvent aisle beam => Sys2Proof.Machine.execBreakEvent aisle beam s
  | .clearEvent aisle beam => Sys2Proof.Machine.execClearEvent aisle beam s
  | .transitDeadline aisle number => Sys2Proof.Machine.execTransitDeadline aisle number s
  | .graceDeadline number => Sys2Proof.Machine.execGraceDeadline number s
  | .durationDeadline aisle => Sys2Proof.Machine.execDurationDeadline aisle s
  | .silence ref payload => Sys2Proof.Machine.execSilence ref payload s
  | .silenceKeyInputChange pressed => Sys2Proof.Machine.execSilenceKeyInputChange pressed s
  | .silenceKeyPress => Sys2Proof.Machine.execSilenceKeyPress s
  | .silenceKeyRelease => Sys2Proof.Machine.execSilenceKeyRelease s
  | .issue ref payload => Sys2Proof.Machine.execIssue ref payload s
  | .beginIssue ref payload => Sys2Proof.Machine.execBeginIssue ref payload s
  | .cancelIssue ref payload => Sys2Proof.Machine.execCancelIssue ref payload s
  | .returnItem ref payload => Sys2Proof.Machine.execReturnItem ref payload s
  | .mark ref payload => Sys2Proof.Machine.execMark ref payload s
  | .unmark ref payload => Sys2Proof.Machine.execUnmark ref payload s
  | .lookup ref payload => Sys2Proof.Machine.execLookup ref payload s
  | .segBegin ref payload => Sys2Proof.Machine.execSegBegin ref payload s
  | .segBlock ref payload => Sys2Proof.Machine.execSegBlock ref payload s
  | .refreshIdleDeadline => Sys2Proof.Machine.execRefreshIdleDeadline s
  | .trust ref payload => Sys2Proof.Machine.execTrust ref payload s
  | .supervise ref payload => Sys2Proof.Machine.execSupervise ref payload s
  | .supervisorExpiry => Sys2Proof.Machine.execSupervisorExpiry s
  | .answer ref payload => Sys2Proof.Machine.execAnswer ref payload s
  | .queryDeadline number => Sys2Proof.Machine.execQueryDeadline number s
  | .transmitterTake => Sys2Proof.Machine.execTransmitterTake s
  | .describe ref payload => Sys2Proof.Machine.execDescribe ref payload s
  | .statusDevice ref payload => Sys2Proof.Machine.execStatusDevice ref payload s
  | .statusAisle ref payload => Sys2Proof.Machine.execStatusAisle ref payload s
  | .unknownKindFrame kind ref payload => Sys2Proof.Machine.execUnknownKindFrame kind ref payload s
  | .badFrame bytes => Sys2Proof.Machine.execBadFrame bytes s
  | .frameGapTimeout bytes => Sys2Proof.Machine.execFrameGapTimeout bytes s
  | .lineFree => Sys2Proof.Machine.execLineFree s

end Sys2Proof.Machine
end

