-- ==== Sys2Proof/Safety.lean ====
section
/-! DEFINITION. The terms the statements use: which parts of the state may change, when a good frame is
dispatched, and the conditions that every step keeps. -/

namespace Sys2Proof.Machine

/-! ## What may change -/

/-- The components of the state, one for each field of `State`. -/
inductive Component where
  | clock | site | modes | bus | tracking | beams | passages | segments
  | refresh | supervisor | queries | judging | annunciators | link | choice | pending
  deriving DecidableEq, Repr

/-- State `t` has the component as state `s` has it. -/
def State.agrees (s t : State) : Component → Prop
  | .clock => t.clock = s.clock
  | .site => t.site = s.site
  | .modes => t.modes = s.modes
  | .bus => t.bus = s.bus
  | .tracking => t.tracking = s.tracking
  | .beams => t.beams = s.beams
  | .passages => t.passages = s.passages
  | .segments => t.segments = s.segments
  | .refresh => t.refresh = s.refresh
  | .supervisor => t.supervisor = s.supervisor
  | .queries => t.queries = s.queries
  | .judging => t.judging = s.judging
  | .annunciators => t.annunciators = s.annunciators
  | .link => t.link = s.link
  | .choice => t.choice = s.choice
  | .pending => t.pending = s.pending

/-- `t` differs from `s` at most in these components. -/
structure Only (cs : List Component) (s t : State) : Prop where
  agree : ∀ c, c ∉ cs → s.agrees t c

/-! ## Good frames and replies -/

/-- A good frame that arrives now is dispatched: no RESTART waits and a place of the reply queue is
free (R158). -/
def State.dispatches (s : State) : Prop := s.link.restart = none ∧ placesUsed s < 8

/-- The state once a good frame has been found and counted by the supervisor, before it is
dispatched or discarded (R157, R158). -/
def State.counted (s : State) : State := countGoodFrame (s.setRx [])

/-- What a change to the refresh in flight makes of its record (R93, R104): with fewer than 64 changes
in the list the change joins its end, and with 64 the refresh is aborted. -/
def lateRecord (k : ChangeKind) (id : Ident) (e : Option Entry) :
    Option RefreshRecord → Option RefreshRecord
  | none => none
  | some r =>
    if r.segment ≠ segmentOf id then some r
    else if r.late.length < 64 then
      some { r with late := r.late ++ [{ kind := k, ident := id, entry := e }] }
    else none

/-! ## Faces and sight, in the words of R1 and R25 -/

/-- With aisle count `n`, pedestal `p` has this face (code 01 LEFT, 10 RIGHT, R181), and it serves aisle
`a` (R1): aisle `a` is served by the RIGHT face of the pedestal before it and the LEFT face of its own. -/
def Serves (n : Nat) (p : Pedestal) (face : BitVec 2) (a : Aisle) : Prop :=
  (face = 2 ∧ p.val = a.val ∧ p.val < n) ∨ (face = 1 ∧ p.val = a.val + 1 ∧ p.val ≤ n)

/-- The pedestals `q` and `q'` that serve aisle `a` (R1). -/
def Between (q : Pedestal) (a : Aisle) (q' : Pedestal) : Prop := q.val = a.val ∧ q'.val = a.val + 1

/-- The sight state is BLIND (R25): the bus is HELD, or both pedestals of the aisle are FAULTED. -/
def State.Blind (s : State) (a : Aisle) : Prop :=
  (∃ h, s.bus.activity = .held h)
    ∨ ∀ q q', Between q a q' → s.bus.health[q].faulted = true ∧ s.bus.health[q'].faulted = true

/-- The sight state is HALF (R25): the bus is not HELD, and exactly one of the two is FAULTED. -/
def State.Half (s : State) (a : Aisle) : Prop :=
  (∀ h, s.bus.activity ≠ .held h)
    ∧ ∀ q q', Between q a q' → s.bus.health[q].faulted ≠ s.bus.health[q'].faulted

/-! ## Turns and rounds, in the words of R17 and R22 -/

/-- The poll of turn `t` is open, with these bytes of an answer received so far (R16): its window is open
with no frame begun, or a frame begun in it is being received. -/
def State.Hears (s : State) (t : Turn) (bytes : List Byte) : Prop :=
  (bytes = [] ∧ ∃ w, s.bus.activity = .polling t w) ∨ ∃ last, s.bus.activity = .receiving t bytes last

/-- The turn in progress, if there is one: its poll is open, its records are being delivered, or an
extension of it is waited out (R21). -/
def Activity.turn? : Activity → Option Turn
  | .idle => none
  | .polling t _ => some t
  | .receiving t _ _ => some t
  | .delivering t _ _ => some t
  | .waiting t _ => some t
  | .ended _ => none
  | .held _ => none

/-- The first pedestal in ascending order that meets a condition. -/
def FirstPedestal (cond : Pedestal → Prop) (p : Pedestal) : Prop :=
  cond p ∧ ∀ q : Pedestal, q.val < p.val → ¬ cond q

/-- The controller has begun a turn of pedestal `p` with a POLL, a probe or an ordinary one: the frame
has been sent, the window of 2 slots is open, and the round has reached `p` (R16, R17). -/
structure OpensTurn (now : Time) (p : Pedestal) (probe : Bool) (b : BusController) : Prop where
  poll : b.activity = .polling { pedestal := p, probe := probe, slots := 0, extra := 0
                                 answered := false, dropped := false } (now + 2)
  sent : b.sent = [BitVec.ofNat 8 p.val, 0x01, 0xFF - BitVec.ofNat 8 p.val]
  phase : b.round.probePhase = probe
  place : b.round.next = p.val + 1

/-- `u` is controller `b` after the start of a new round with aisle count `n` (R17, R23): a due probe
opens the round with the FAULTED pedestals in use; otherwise, or with none of those, the first
HEALTHY pedestal in use is polled; with neither the controller is idle.  No probe is due after it. -/
structure NewRound (now : Time) (n : Nat) (b u : BusController) : Prop where
  probe : ∀ p, b.probeDue = true →
    FirstPedestal (fun q => q.val ≤ n ∧ b.health[q].faulted = true) p →
    OpensTurn now p true u ∧ u.round.probed = [p]
  ordinary : ∀ p, (b.probeDue = false ∨ ∀ q : Pedestal, q.val ≤ n → b.health[q].faulted = false) →
    FirstPedestal (fun q => q.val ≤ n ∧ b.health[q].faulted = false) p →
    OpensTurn now p false u ∧ u.round.probed = []
  nothing : b.probeDue = false → (∀ q : Pedestal, q.val ≤ n → b.health[q].faulted = true) →
    u.activity = .idle
  cleared : u.probeDue = false
  faulted : ∀ q : Pedestal, q ∈ u.round.faultedAtStart ↔ b.health[q].faulted = true
  records : u.health = b.health ∧ u.grant = b.grant ∧ u.probeAt = b.probeAt

/-- A pedestal that the probe phase of the round in progress has still to reach: in use, and FAULTED at
the start of the round (R9, R17). -/
def ProbeAhead (n : Nat) (b : BusController) (q : Pedestal) : Prop :=
  b.round.probePhase = true ∧ b.round.next ≤ q.val ∧ q.val ≤ n ∧ q ∈ b.round.faultedAtStart

/-- A pedestal that the ordinary phase of the round in progress has still to poll: in use, not FAULTED,
and not probed in this round (R9, R17).  After the probe phase it begins again at pedestal 0. -/
def OrdinaryAhead (n : Nat) (b : BusController) (q : Pedestal) : Prop :=
  (b.round.probePhase = false → b.round.next ≤ q.val) ∧ q.val ≤ n
    ∧ b.health[q].faulted = false ∧ q ∉ b.round.probed

/-- `u` is controller `b` after the turn that follows one that has ended (R17): the next probe of the
round, else its next ordinary turn, else a new round. -/
structure NextTurn (now : Time) (n : Nat) (b u : BusController) : Prop where
  probe : ∀ p, FirstPedestal (ProbeAhead n b) p →
    OpensTurn now p true u ∧ u.round.probed = p :: b.round.probed
      ∧ u.round.faultedAtStart = b.round.faultedAtStart ∧ u.probeDue = b.probeDue
  ordinary : ∀ p, (∀ q, ¬ ProbeAhead n b q) → FirstPedestal (OrdinaryAhead n b) p →
    OpensTurn now p false u ∧ u.round.probed = b.round.probed
      ∧ u.round.faultedAtStart = b.round.faultedAtStart ∧ u.probeDue = b.probeDue
  newRound : (∀ q, ¬ ProbeAhead n b q) → (∀ q, ¬ OrdinaryAhead n b q) → NewRound now n b u
  records : u.health = b.health ∧ u.grant = b.grant ∧ u.probeAt = b.probeAt

/-- The health table after a turn (R22): the record of a HEALTHY pedestal, unless it left use during the
turn (R9), has count 0 after an ANSWERED turn; after a FAILED or MUTE one its count rises, or, where
it was 2, the pedestal becomes FAULTED. -/
def healthAfterTurn (t : Turn) (answered : Bool) (h : Vector Health 9) : Vector Health 9 :=
  Vector.ofFn fun q =>
    if q = t.pedestal ∧ t.dropped = false ∧ h[q].faulted = false then
      if answered then { faulted := false, count := 0 }
      else if h[q].count < 2 then { faulted := false, count := h[q].count + 1 }
      else { faulted := true, count := h[q].count }
    else h[q]

/-- `u` is state `s` after the end of turn `t` with result ANSWERED or not (R22): the pedestal's record
is updated, with notice PEDESTAL-FAULTED where it becomes FAULTED; then the grant is due where a
BUS-TAKE waits (R28), and otherwise the next turn of R17 begins. -/
structure TurnEnds (s : State) (t : Turn) (answered : Bool) (u : State) : Prop where
  granted : s.bus.grant ≠ none →
    u.bus = { s.bus with health := healthAfterTurn t answered s.bus.health
                         activity := .ended t.pedestal }
  goesOn : s.bus.grant = none →
    NextTurn s.clock.now s.site.aisles
      { s.bus with health := healthAfterTurn t answered s.bus.health } u.bus
  notices : u.link =
    if t.dropped = false ∧ answered = false ∧ s.bus.health[t.pedestal].faulted = false
        ∧ 2 ≤ s.bus.health[t.pedestal].count then
      (notice (.pedestalFaulted t.pedestal) s).link
    else s.link
  frame : Only [.bus, .link] s u

/-- `u` is state `s` at the moment an answer to turn `t` is taken (R23): a probe makes its FAULTED
pedestal HEALTHY with count 0 and queues PEDESTAL-RESTORED; any other turn changes nothing. -/
structure Restored (s : State) (t : Turn) (u : State) : Prop where
  probe : t.probe = true → t.dropped = false → s.bus.health[t.pedestal].faulted = true →
    u = notice (.pedestalRestored t.pedestal) (s.setBus { s.bus with
      health := s.bus.health.set t.pedestal { faulted := false, count := 0 } })
  other : t.probe = false ∨ t.dropped = true ∨ s.bus.health[t.pedestal].faulted = false → u = s

/-- `u` is state `v` after intake has taken records of a SIGHTINGS answer to turn `t`, with `rest` still
to come (R18, R26): they wait, or, with none left, MORE makes an extra poll with a fresh extension
count where fewer than 3 have been made, and otherwise the turn ends ANSWERED. -/
structure AnswerGoesOn (v : State) (t : Turn) (more : Bool) (rest : List SightingRecord)
    (u : State) : Prop where
  waits : rest ≠ [] → u = v.setBus { v.bus with activity := .delivering t more rest }
  extraPoll : rest = [] → more = true → t.extra < 3 →
    u = v.setBus { v.bus with
      activity := .polling { t with slots := 0, extra := t.extra + 1 } (v.clock.now + 2)
      sent := [BitVec.ofNat 8 t.pedestal.val, 0x01, 0xFF - BitVec.ofNat 8 t.pedestal.val] }
  turnEnds : rest = [] → more = false ∨ 3 ≤ t.extra → TurnEnds v t t.answered u

/-- Bytes of an answer frame to pedestal `p` by which it is bad (R16, R182): a kind other than 81h, 82h
and 83h, a count above 6, or, once as many bytes have come as kind and count say, another address, a
sum other than 00h, or an n that is not 1 to 3. -/
def BadAnswerBytes (p : Pedestal) (bs : List Byte) : Prop :=
  2 ≤ bs.length ∧
    ((byteAt bs 1 ≠ 0x81 ∧ byteAt bs 1 ≠ 0x82 ∧ byteAt bs 1 ≠ 0x83)
      ∨ (byteAt bs 1 = 0x81 ∧ 6 < (byteAt bs 2).toNat % 128)
      ∨ ∃ n, (byteAt bs 1 = 0x81 ∧ n = 4 + 11 * ((byteAt bs 2).toNat % 128)
              ∨ byteAt bs 1 = 0x82 ∧ n = 4 ∨ byteAt bs 1 = 0x83 ∧ n = 3)
          ∧ n ≤ bs.length
          ∧ (byteAt bs 0 ≠ BitVec.ofNat 8 p.val ∨ (bs.take n).foldl (· + ·) 0 ≠ 0
              ∨ byteAt bs 1 = 0x82 ∧ ((byteAt bs 2).toNat = 0 ∨ 3 < (byteAt bs 2).toNat)))

/-- Bytes of an answer frame that is neither bad yet nor complete (R16, R182). -/
def PartialAnswerBytes (bs : List Byte) : Prop :=
  bs.length < 2 ∨ (byteAt bs 1 = 0x82 ∧ bs.length < 4) ∨ (byteAt bs 1 = 0x83 ∧ bs.length < 3)
    ∨ (byteAt bs 1 = 0x81 ∧ (byteAt bs 2).toNat % 128 ≤ 6
        ∧ bs.length < 4 + 11 * ((byteAt bs 2).toNat % 128))

/-! ## Debounced inputs, in the words of R8 and R56 -/

/-- `c` is the event of a debounced input whose pending change has held for the debounce in force. -/
def State.inputEvent (s : State) (c : Instr) : Prop :=
  (∃ a b, c = .breakEvent a b ∧ s.beamDue a b true = true)
    ∨ (∃ a b, c = .clearEvent a b ∧ s.beamDue a b false = true)
    ∨ (c = .silenceKeyPress ∧ s.keyDue true = true)
    ∨ (c = .silenceKeyRelease ∧ s.keyDue false = true)

/-- `t` is state `s` after every debounced input whose change has held for the debounce in force has been
accepted, one after another in an order that is left open, each with its event (R8, R57). -/
inductive InputsAccepted : State → State → Prop
  | done {s : State} (h : ∀ c, ¬ s.inputEvent c) : InputsAccepted s s
  | accept {s m t : State} {c : Instr} (n : Nat) (h : s.inputEvent c)
      (hm : exec c (s.setChoice n) = .next m) (ht : InputsAccepted m t) : InputsAccepted s t

/-! ## Taking a sighting, in the words of R36, R47, R69 and R116 -/

/-- `n` is the greatest of the eight evidence values (R35). -/
def Track.Peak (t : Track) (n : Nat) : Prop :=
  (∀ a : Aisle, t.evidence[a] ≤ n) ∧ ∃ a : Aisle, t.evidence[a] = n

/-- `k` is the first number from the counter on that no outstanding query carries (R115). -/
def FirstFree (q : QueryUnit) (k : Byte) : Prop :=
  ∃ n, k = nextQueryNumber^[n] q.next ∧ (∀ x ∈ q.list, x.number ≠ k)
    ∧ ∀ i, i < n → ∃ x ∈ q.list, x.number = nextQueryNumber^[i] q.next

/-- Conditions 1 to 5 of R116 for track `x` attributed to aisle `b`. -/
def State.asks (s : State) (x : Track) (b : Aisle) : Prop :=
  s.modes.stored[b] ≠ .off ∧ x.answer = none ∧ x.mark = .none
    ∧ (∀ q ∈ s.queries.list, q.ident ≠ x.ident)
    ∧ s.entry? x.ident = none ∧ s.segments[segmentOf x.ident].state ≠ .fresh

/-- `u` is state `s` after track `x`, which became `new`, has been attributed to aisle `b` (R47, R48): it
binds to the oldest open passage of the aisle with room, or else marks the oldest one FULL (R69,
R71), and the query unit creates its query, marks it NO-QUERY, or does neither (R116, R117). -/
structure Attributed (s : State) (x : Track) (b : Aisle) (new : Track) (u : State) : Prop where
  binds : ∀ l q m, s.opens b = l ++ q :: m → (∀ y ∈ l, 10 ≤ y.items.length) → q.items.length < 10 →
    new.state = .bound b q.number
      ∧ u.opens b = l ++ { q with items := q.items ++ [x.ident] } :: m
  loose : (∀ q ∈ s.opens b, 10 ≤ q.items.length) →
    new.state = .attributed b s.clock.now
      ∧ u.opens b = match s.opens b with
        | [] => []
        | q :: m => { q with flags := { q.flags with full := true } } :: m
  passages : u.passages.next = s.passages.next
    ∧ u.passages.aisles[b].crowded = s.passages.aisles[b].crowded
    ∧ ∀ a : Aisle, a ≠ b → u.passages.aisles[a] = s.passages.aisles[a]
  query : s.asks x b → s.queries.list.length < 16 →
    new.mark = .asked ∧ ∃ k, FirstFree s.queries k ∧ u.queries =
      { list := s.queries.list ++
          [{ number := k, ident := x.ident, aisle := b
             segment := s.segments[segmentOf x.ident].state, created := s.clock.now
             deadline := after s.clock.now s.site.query, sent := false }]
        next := if k = 255 then 1 else k + 1 }
  noQuery : s.asks x b → 16 ≤ s.queries.list.length →
    new.mark = .noQuery ∧ u.queries = s.queries
  quiet : ¬ s.asks x b → new.mark = x.mark ∧ u.queries = s.queries

/-- `u` is state `s` after track `x` has taken a sighting of aisle `a` with contribution `c` and a guard
flag (R36): the contribution is added (R40), flag and last-seen time are set (R41), and a FORMING or
ATTRIBUTED track is tested and, where that changes its attribution, attributed (R45 to R48). -/
structure Heard (s : State) (x : Track) (a : Aisle) (c : Nat) (guard : Bool) (u : State) : Prop where
  track : ∃ new, u.track? x.ident = some new
    ∧ (∀ y : Aisle, new.evidence[y] =
        if y = a then min 4095 (x.evidence[a] + c) else x.evidence[y])
    ∧ new.guard = guard ∧ new.lastSeen = s.clock.now ∧ new.firstSeen = x.firstSeen
    ∧ new.answer = x.answer
    ∧ ((attributionTest s.site.threshold s.site.margin new.evidence = none
          ∨ (∃ b n, x.state = .bound b n) ∨ (∃ b n v, x.state = .spent b n v)
          ∨ (∃ b n, x.state = .attributed b n
              ∧ attributionTest s.site.threshold s.site.margin new.evidence = some b)) →
        new.state = x.state ∧ new.mark = x.mark ∧ u.passages = s.passages ∧ u.queries = s.queries)
    ∧ (∀ b, attributionTest s.site.threshold s.site.margin new.evidence = some b →
        (x.state = .forming ∨ ∃ d n, x.state = .attributed d n ∧ d ≠ b) →
        Attributed s x b new u)
  others : ∀ i, i ≠ x.ident → u.track? i = s.track? i
  frame : Only [.tracking, .passages, .queries] s u

/-- The order of the states in which victims are sought: SPENT, FORMING, ATTRIBUTED (R38, step 1). -/
def TrackState.turnToGo : TrackState → Nat
  | .spent _ _ _ => 0
  | .forming => 1
  | .attributed _ _ => 2
  | .bound _ _ => 3

/-- Track `v` goes no later than `u` by R38: its state comes first; in the same state it has the lower
peak; at equal peaks it was last heard longer ago; then it was first heard longer ago; then it has the
smaller identifier. -/
def GoesFirst (now : Time) (v u : Track) : Prop :=
  v.state.turnToGo ≤ u.state.turnToGo
    ∧ (v.state.turnToGo = u.state.turnToGo → ∀ m n, v.Peak m → u.Peak n →
      m ≤ n ∧ (m = n →
        age now u.lastSeen ≤ age now v.lastSeen ∧ (age now u.lastSeen = age now v.lastSeen →
          age now u.firstSeen ≤ age now v.firstSeen ∧ (age now u.firstSeen = age now v.firstSeen →
            v.ident.toNat ≤ u.ident.toNat))))

/-- A track at its creation by a sighting, before its contribution (R35, R37). -/
def freshTrack (id : Ident) (guard : Bool) (now : Time) : Track where
  ident := id
  evidence := Vector.replicate 8 0
  guard := guard
  state := .forming
  answer := none
  mark := .none
  firstSeen := now
  lastSeen := now

/-! ## Passages that leave the open list, in the words of R64 and R65 -/

/-- A track whose passage has completed (R51). -/
def spentTrack (x : Track) : Track :=
  match x.state with
  | .bound b n => { x with state := .spent b n none }
  | _ => x

/-- A track whose passage has closed now (R50). -/
def unboundTrack (now : Time) (x : Track) : Track :=
  match x.state with
  | .bound b _ => { x with state := .attributed b now }
  | _ => x

/-- `m` is state `s` after passage `p` has left the open list of aisle `a` and `f` has been done to each
track of its item list. -/
structure LeftOpenList (a : Aisle) (p : Passage) (f : Track → Track) (s m : State) : Prop where
  opens : m.opens a = (s.opens a).erase p
  rest : m.passages.next = s.passages.next
    ∧ m.passages.aisles[a].crowded = s.passages.aisles[a].crowded
    ∧ ∀ b : Aisle, b ≠ a → m.passages.aisles[b] = s.passages.aisles[b]
  tracks : ∀ i, m.track? i = (s.track? i).map fun x => if i ∈ p.items then f x else x
  frame : Only [.passages, .tracking] s m

/-- Passage `p` of aisle `a` completes (R64): it leaves the list, takes its flags, its tracks become
SPENT, and it is handed to the verdict unit with its item records filled (R127). -/
def Completes (a : Aisle) (p : Passage) (s t : State) : Prop :=
  ∃ m, LeftOpenList a p spentTrack s m
    ∧ t = judgePassage
        { number := p.number, aisle := a, direction := p.direction, openedAt := p.openedAt
          closedAt := s.clock.now, flags := s.leavingFlags a p.flags
          items := p.items.map (fillItem p.direction m)
          grace := after s.clock.now s.site.grace, gracePassed := false } m

/-- The routine report of a passage of aisle `a` that closes now with this outcome (R66). -/
def closingReport (a : Aisle) (p : Passage) (o : PassageOutcome) (mode : EffectiveMode)
    (s : State) : PassageReport where
  number := p.number
  aisle := a
  direction := p.direction
  outcome := o
  mode := mode
  flags := s.leavingFlags a p.flags
  verdict := none
  openedAt := p.openedAt
  closedAt := s.clock.now
  verdictAt := s.clock.now
  count := p.items.length
  items := []

/-- Passage `p` of aisle `a` closes with this outcome (R65): it leaves the list, its tracks are unbound,
and a routine report is queued. -/
def Closes (a : Aisle) (o : PassageOutcome) (p : Passage) (s t : State) : Prop :=
  ∃ m, LeftOpenList a p (unboundTrack s.clock.now) s m
    ∧ t = createReport false (.passage (closingReport a p o (s.effective a) s)) m

/-- The sweep takes the passages of a list in order (R63, step 3): CROSSING ones complete, OPENED ones
turn back. -/
inductive Swept (a : Aisle) : List Passage → State → State → Prop
  | done {s : State} : Swept a [] s s
  | crossing {p : Passage} {ps : List Passage} {s m t : State} (h : p.phase = .crossing)
      (hm : Completes a p s m) (ht : Swept a ps m t) : Swept a (p :: ps) s t
  | opened {p : Passage} {ps : List Passage} {s m t : State} (h : p.phase = .opened)
      (hm : Closes a .turnedBack p s m) (ht : Swept a ps m t) : Swept a (p :: ps) s t

/-- Loose track `t` binds no later than `u` (R70): an earlier attribution, at equal ones an earlier
first-seen time, at equal ones the smaller identifier. -/
def BindsFirst (now : Time) (t u : Track) : Prop :=
  ∀ a b m n, t.state = .attributed a m → u.state = .attributed b n →
    age now n < age now m ∨ age now m = age now n
      ∧ (age now u.firstSeen < age now t.firstSeen ∨ age now t.firstSeen = age now u.firstSeen
          ∧ t.ident.toNat ≤ u.ident.toNat)

/-! ## Settling undecided items, in the words of R132 to R139 -/

/-- `f` has been done to every judging passage, and each with no undecided item left has left the queue
and has been given its verdict, oldest first (R132, R139); `b` is the state in which that began. -/
structure Judged (f : Judging → Judging) (b t : State) : Prop where
  judging : t.judging = (b.judging.map f).filter fun j => j.undecided
  given : ∃ g, g = ((b.judging.map f).filter fun j => !j.undecided).foldl giveVerdict b
    ∧ t.tracking = g.tracking ∧ t.annunciators = g.annunciators
    ∧ t.link.urgent = g.link.urgent ∧ t.link.routine = g.link.routine
    ∧ t.link.nextReport = g.link.nextReport

/-- Passage `j` has been given its verdict in state `s` (R139): the item verdicts stand in its SPENT
tracks, the annunciator of an aisle in effective GUARD has been handed the passage verdict, and the
report of R140 is queued, urgent unless the verdict is PASS. -/
structure Given (s : State) (j : Judging) (t : State) : Prop where
  written : ∀ l r m v b x n d, j.items = l ++ r :: m → (∀ y ∈ m, y.ident ≠ r.ident) →
    r.status = .decided v b → s.track? r.ident = some x → x.state = .spent d j.number n →
    t.track? r.ident = some { x with state := .spent d j.number (some (v, b)) }
  unwritten : ∀ i x, s.track? i = some x →
    (∀ r ∈ j.items, r.ident ≠ i) ∨ (∀ d n, x.state ≠ .spent d j.number n) → t.track? i = some x
  annunciators : t.annunciators =
    if s.effective j.aisle = .guard then (handVerdict j.aisle j.verdict s).annunciators
    else s.annunciators
  report : t.link = (createReport (j.verdict != .pass) (.passage
    { number := j.number, aisle := j.aisle, direction := j.direction, outcome := .completed
      mode := s.effective j.aisle, flags := j.flags, verdict := some j.verdict
      openedAt := j.openedAt, closedAt := j.closedAt, verdictAt := s.clock.now
      count := j.items.length, items := j.items }) s).link
  frame : Only [.tracking, .annunciators, .link] s t

/-- The items of a passage that meet a condition, changed. -/
def Judging.change (j : Judging) (which : ItemRecord → Bool) (g : ItemRecord → ItemRecord) :
    Judging :=
  { j with items := j.items.map fun r => if which r then g r else r }

/-- The decision by the guard flag: this verdict for ON, PASS for OFF. -/
def onGuard (r : ItemRecord) (on : Verdict) (b : Basis) : ItemStatus :=
  .decided (if r.guard then on else .pass) b

/-- The decision at grace expiry (R138): ALARM for ON in a FRESH segment, SOFT in another. -/
def atGrace (r : ItemRecord) (fresh : Bool) : ItemStatus :=
  onGuard r (if fresh then .alarm else .soft) .grace

/-- What an EXIT item of a passage becomes by a class (the first four rows of R128): `basis` is TABLE or
ANSWER; PENDING waits GRACE, or is decided at once where the grace deadline has passed. -/
def byClass (j : Judging) (r : ItemRecord) (fresh : Bool) (b : Basis) : EntryClass → ItemStatus
  | .lost => .decided .alarm b
  | .barred => .decided .alarm b
  | .issued => .decided .pass b
  | .pending => if j.gracePassed then atGrace r fresh else .waiting .grace

/-- R134: a forwarded change re-evaluates the undecided items of its identifier. -/
def reevaluated (id : Ident) (e : Option Entry) (fresh : Bool) (j : Judging) : Judging :=
  j.change (fun r => r.undecided && r.ident == id) fun r =>
    match e with
    | some x => { r with lookup := .entry x.cls, desk := if x.desk.isSome then x.desk else r.desk
                         status := byClass j r fresh .table x.cls }
    | none =>
      if fresh then { r with lookup := .absent, status := onGuard r .alarm .tag }
      else { r with lookup := .unknown, status := onGuard r .soft .fallback }

/-- R135: after a swap the undecided items of the segment are looked up in its new content. -/
def relookedUp (i : Fin 64) (es : List Entry) (j : Judging) : Judging :=
  j.change (fun r => r.undecided && segmentOf r.ident == i) fun r =>
    match es.find? fun x => x.ident == r.ident with
    | some x => { r with lookup := .entry x.cls, desk := x.desk, status := byClass j r true .table x.cls }
    | none => { r with lookup := .absent, desk := none, status := onGuard r .alarm .tag }

/-- R136: a matched answer decides the items of its identifier that wait ANSWER. -/
def answered (id : Ident) (a : HostAnswer) (fresh : Bool) (j : Judging) : Judging :=
  j.change (fun r => r.ident == id && r.status == .waiting .answer) fun r =>
    { r with answer := some a
             status := match a with
               | .entry c => byClass j r fresh .answer c
               | .noException => onGuard r .alarm .answer }

/-- R137: a lapse decides the items of its identifier that wait ANSWER by their guard flag. -/
def lapsed (id : Ident) (j : Judging) : Judging :=
  j.change (fun r => r.ident == id && r.status == .waiting .answer) fun r =>
    { r with status := onGuard r .soft .fallback }

/-- R138: a grace deadline that passes decides the items that wait GRACE, by the state of their segment. -/
def graceRunOut (s : State) (j : Judging) : Judging :=
  { j.change (fun r => r.status == .waiting .grace) (fun r =>
      { r with status := atGrace r (s.segments[segmentOf r.ident].state == .fresh) }) with
    gracePassed := true }

/-- R133: a forced passage, its undecided items decided by their guard flags, flag FORCED set. -/
def forcedOut (j : Judging) : Judging :=
  { j.change (fun r => r.undecided) (fun r => { r with status := onGuard r .soft .fallback }) with
    flags := { j.flags with forced := true } }

/-- `t` is state `s` after the track of an identifier has been freed or evicted (R53, R124): the track has
left, its outstanding query, if any, has been purged, and with a query purged the identifier has been
handed over as lapsed. -/
structure Freed (s : State) (id : Ident) (t : State) : Prop where
  gone : ∃ b, b.track? id = none ∧ (∀ i, i ≠ id → b.track? i = s.track? i)
    ∧ b.queries = { s.queries with list := s.queries.list.filter fun q => q.ident != id }
    ∧ Only [.tracking, .queries] s b
    ∧ ((∀ q ∈ s.queries.list, q.ident ≠ id) → t = b)
    ∧ ((∃ q ∈ s.queries.list, q.ident = id) →
        Judged (lapsed id) b t ∧ t.link.replies = s.link.replies
          ∧ Only [.tracking, .judging, .annunciators, .link] b t)

/-! ## Updates of the item table -/

/-- The state whose verdicts a change of identifier `id` settles: a refresh of its segment that already
holds 64 late changes has been aborted OVERRUN, with its notice (R93, R104). -/
def lateBase (id : Ident) (s : State) : State :=
  match s.refresh with
  | some r =>
    if r.segment = segmentOf id ∧ 64 ≤ r.late.length then
      notice (.refreshAborted .overrun r.segment) s
    else s
  | none => s

/-- The change decides an undecided item (R134, R142): any class but PENDING does, a removal does, and
PENDING does where the passage's grace deadline has passed. -/
def DecidesItem (s : State) (id : Ident) (e : Option Entry) : Prop :=
  ∃ j ∈ s.judging, ∃ r ∈ j.items, r.undecided = true ∧ r.ident = id
    ∧ ∀ x, e = some x → x.cls = .pending → j.gracePassed = true

/-- The identifier's track is SPENT and holds an item verdict of ALARM or SOFT (R142). -/
def StoppedTrack (t : State) (id : Ident) : Prop :=
  ∃ x a n v b, t.track? id = some x ∧ x.state = .spent a n (some (v, b)) ∧ (v = .alarm ∨ v = .soft)

/-- An update of identifier `id` has been applied and answered (R91): its entry is `e` (`none` for a
removal), every other entry and every segment state stands, a refresh of the segment has recorded
the change, the undecided items of the identifier have been re-evaluated (R134), and the reply
carries the effect of R142 and the clamp. -/
structure Updated (s t : State) (k : RequestKind) (c : ChangeKind) (ref : Byte) (id : Ident)
    (e : Option Entry) (clamped : Bool) : Prop where
  entry : t.entry? id = e
  others : ∀ i, i ≠ id → t.entry? i = s.entry? i
  states : ∀ i : Fin 64, t.segments[i].state = s.segments[i].state
  refresh : t.refresh = lateRecord c id e s.refresh
  judged : Judged (reevaluated id e (s.segments[segmentOf id].state == .fresh))
    (lateBase id s.counted) t
  reply : ∃ effect : Byte,
    (DecidesItem s id e → effect = 0x01)
    ∧ (¬ DecidesItem s id e → c = .issue → StoppedTrack t id → effect = 0x02)
    ∧ (¬ DecidesItem s id e → c ≠ .issue ∨ ¬ StoppedTrack t id → effect = 0x00)
    ∧ t.link.replies = s.link.replies ++
      [{ kind := k.replyCode, ref := ref, status := if clamped then .clamped else .ok
         body := [effect, if clamped then 0x01 else 0x00] }]
  frame : Only [.segments, .refresh, .supervisor, .tracking, .judging, .annunciators, .link] s t

/-! ## What every step keeps -/

/-- A good turn: at most 32 extension slots used by its present poll (R20) and at most 3 extra polls
(R18). -/
def Turn.fits (t : Turn) : Prop := t.slots ≤ 32 ∧ t.extra ≤ 3

/-- What the bus controller is doing agrees with the grant: a grant is pending only while a turn is in
progress or has just ended, and a turn waits to be followed by the grant only if one is pending
(R21, R28). -/
def Activity.fits (grant : Bool) : Activity → Prop
  | .idle => grant = false
  | .polling t _ => t.fits
  | .receiving t bytes _ => t.fits ∧ bytes ≠ [] ∧ bytes.length < 70
  | .delivering t _ rs => t.fits ∧ rs ≠ [] ∧ rs.length ≤ 5
  | .waiting t _ => t.fits
  | .ended _ => grant = true
  | .held _ => grant = false

/-- The health records hold what section 2.3 allows, and the activity agrees with the grant. -/
def BusFits (b : BusController) : Prop :=
  (∀ p : Pedestal, b.health[p].count ≤ 2 ∧ (b.health[p].faulted = true → b.health[p].count = 2))
    ∧ b.activity.fits b.grant.isSome

/-- The report queue never holds more than 48 reports (R164), and the reply queue does not overfill
its 8 places (R161). -/
def LinkFits (s : State) : Prop :=
  s.link.urgent.length + s.link.routine.length ≤ 48 ∧ placesUsed s ≤ 8

/-- The track table: at most 256 tracks in rising order of identifier, at most one for an identifier
(R34), none for identifier 0, and every evidence value at most 4,095 (R40). -/
def TracksFit (s : State) : Prop :=
  s.tracking.tracks.length ≤ 256 ∧ risingKeys Track.key s.tracking.tracks = true
    ∧ ∀ t ∈ s.tracking.tracks, t.ident ≠ 0 ∧ ∀ a : Aisle, t.evidence[a] ≤ 4095

/-- An entry that segment `i` may hold (R77, R78). -/
def EntryFits (i : Fin 64) (e : Entry) : Prop :=
  e.ident ≠ 0 ∧ segmentOf e.ident = i ∧ e.expiry ≤ 1440 ∧ (e.cls = .pending → 1 ≤ e.expiry)
    ∧ ∀ d, e.desk = some d → d ≤ 31 ∧ (e.cls = .issued ∨ e.cls = .pending)

/-- A keyed list of entries that segment `i` may hold: at most 1,024 of them, one for an identifier, in
rising order (R77, R80). -/
def EntriesFit (i : Fin 64) (es : List Entry) : Prop :=
  es.length ≤ 1024 ∧ risingKeys Entry.key es = true ∧ ∀ e ∈ es, EntryFits i e

/-- A refresh record within the bounds of R97: its shadow never overfills (R100), and its late changes
are of its own segment (R93). -/
def RefreshFits (r : RefreshRecord) : Prop :=
  r.declared ≤ 1024 ∧ r.received ≤ r.declared ∧ r.skipped ≤ r.received
    ∧ r.shadow.length ≤ r.received ∧ EntriesFit r.segment r.shadow
    ∧ r.late.length ≤ 64
    ∧ ∀ c ∈ r.late, segmentOf c.ident = r.segment
        ∧ ∀ e, c.entry = some e → e.ident = c.ident ∧ EntryFits r.segment e

/-- The item table and the refresh record (R77, R78, R80, R97). -/
def TableFits (s : State) : Prop :=
  (∀ i : Fin 64, EntriesFit i s.segments[i].entries) ∧ ∀ r, s.refresh = some r → RefreshFits r

/-- The open passages of every aisle: at most 3 (R60), of at most 10 items (R68), none and no CROWDED
flag where the stored mode is OFF (R10, R74) or both beams are accepted as clear (R62, R63), and
stored mode OFF above N (R11). -/
def PassagesFit (s : State) : Prop :=
  ∀ a : Aisle,
    (s.opens a).length ≤ 3 ∧ (∀ p ∈ s.opens a, p.items.length ≤ 10)
      ∧ (s.modes.stored[a] = .off → s.opens a = [] ∧ s.passages.aisles[a].crowded = false)
      ∧ (s.bothClear a = true → s.opens a = [] ∧ s.passages.aisles[a].crowded = false)
      ∧ (s.site.aisles ≤ a.val → s.modes.stored[a] = .off)

/-- Tracks and passages agree (R34, R35, R68): no item stands twice in the lists of the open passages,
each stands for a track BOUND to its passage, and each BOUND track stands in the list of a passage of
its aisle and number.  At most 240 tracks are BOUND. -/
def BindingFits (s : State) : Prop :=
  (allAisles.flatMap fun a => (s.opens a).flatMap (·.items)).Nodup
    ∧ (∀ a : Aisle, ∀ p ∈ s.opens a, ∀ i ∈ p.items,
        ∃ x, s.track? i = some x ∧ x.state = .bound a p.number)
    ∧ (∀ x ∈ s.tracking.tracks, ∀ a n, x.state = .bound a n →
        ∃ p ∈ s.opens a, p.number = n ∧ x.ident ∈ p.items)
    ∧ (s.tracking.tracks.filter fun x => x.isBound).length ≤ 240

/-- The query list: at most 16 queries, no two of one identifier (R114), no two of one number, and no
number 0 (R115). -/
def QueriesFit (s : State) : Prop :=
  s.queries.list.length ≤ 16 ∧ (s.queries.list.map (·.ident)).Nodup
    ∧ (s.queries.list.map (·.number)).Nodup ∧ (∀ q ∈ s.queries.list, q.number ≠ 0)
    ∧ s.queries.next ≠ 0

/-- The verdict queue: at most 16 passages (R132), each of direction EXIT (R129), with an undecided
item (R132) and at most 10 items (R58). -/
def JudgingFits (s : State) : Prop :=
  s.judging.length ≤ 16
    ∧ ∀ j ∈ s.judging, j.direction = .exit ∧ j.undecided = true ∧ j.items.length ≤ 10

/-- An annunciator is SOUNDING or SHOWING only while its aisle's effective mode is GUARD (R146). -/
def AnnunciatorsFit (s : State) : Prop :=
  ∀ a : Aisle, s.annunciators[a] ≠ .quiet → s.effective a = .guard

end Sys2Proof.Machine
end

