-- ==== Sys2Proof/WellFormed.lean ====
section
/-! DEFINITION. Which commands can come from outside the part: the bounds the formats of Chapter 11
put on a command's operands.  `exec` gives ill-formed commands a meaning too (an overlong answer
is a bad answer, an overlong payload is answered FORMAT). -/

namespace Sys2Proof

/-- A payload fits a host link frame: 0 to 247 bytes (R173). -/
def payloadFits (p : List Byte) : Bool := p.length ≤ 247

/-- The command is one the manual's formats allow:
a request's payload fits a frame, and the rows that share a kind code are told apart by the
payload (RESTART by its kind, STATUS by its view); the kind of an unknown frame is no request
kind (R159); a SIGHTINGS answer has at most 6 records and an EXTEND answer asks for 1 to 3 slots
(R16); a timer is named by a passage or query number, which is never 0 (R58, R114); a bad frame
begins with the start byte (R157). -/
def Instr.wellFormed : Instr → Bool
  | .restartFull _ p => payloadFits p && p != [0x02]
  | .restartDetection _ p => payloadFits p && p != [0x01]
  | .statusDevice _ p => payloadFits p && (p.length != 1 || p == [0x00])
  | .statusAisle _ p => payloadFits p && p != [0x00]
  | .unknownKindFrame k _ p => payloadFits p && (Machine.RequestKind.ofCode k).isNone
  | .sightingsAnswer _ rs => rs.length ≤ 6
  | .extendAnswer n => 1 ≤ n.toNat && n.toNat ≤ 3
  | .transitDeadline _ n => n != 0
  | .graceDeadline n => n != 0
  | .queryDeadline n => n != 0
  | .badFrame bytes => bytes.head? == some 0xA5
  | i => match Machine.hostFrame i with
    | some f => payloadFits f.payload
    | none => true

end Sys2Proof
end

