-- ==== Sys2Proof/Certificates/Slice0/Obligations.lean ====
section
/-! DEFINITION. The statements for the provers, chapter by chapter of the manual. -/

open Sys2Proof Sys2Proof.Machine

/-! ## The step -/

/-- A step runs the command at the front of the queue with the queue's rest. -/
def Obligations.StepRunsTheFrontCommand : Prop :=
  ∀ (c : Instr) (rest : List Instr) (s : State),
    step (s.setPending (c :: rest)) = exec c (s.setPending rest)

/-- With no command waiting, one of the events that have come due is put into the queue, or intake takes
the next record of a SIGHTINGS answer being delivered (R26), or, where there is neither, part time and
the minute phase advance by 1 ms (R2, R3).  That the part makes its own events so is the model's choice
(log entry 1); which of several comes first, and so what falls between two records, is free (log
entries 2 and 8). -/
def Obligations.IdleStepRaisesAnEventOrCounts : Prop :=
  ∀ s : State, s.pending = [] →
    ∃ t, step s = .next t
      ∧ (dueEvents s = [] → (∀ tn more rs, s.bus.activity ≠ .delivering tn more rs) →
          t.clock.now = s.clock.now + 1 ∧ t.clock.phase = s.clock.phase + 1 ∧ Only [.clock] s t)
      ∧ ((dueEvents s ≠ [] ∨ ∃ tn more rs, s.bus.activity = .delivering tn more rs) →
          (∃ i ∈ dueEvents s, t.pending = [i] ∧ Only [.choice, .pending] s t)
          ∨ ∃ tn more rs c, s.bus.activity = .delivering tn more rs
              ∧ AnswerGoesOn ((rs.take 1).foldl (intakeRecord tn.pedestal) (s.setChoice c)) tn more
                  (rs.drop 1) t)

/-- No command touches the queue of commands that wait. -/
def Obligations.CommandsKeepTheQueue : Prop :=
  ∀ (c : Instr) (s t : State), exec c s = .next t → t.pending = s.pending

/-! ## Restarts -/

/-- Power-on, and the full reset that follows a RESTART FULL, give every block its full-reset value,
read the inputs and the straps, and queue notice RESTARTED as report 0.  Records of an answer that still
waited for intake are dropped (the model's choice, log entry 37), the input levels are those the state
holds (log entry 27), the POLL that opens the new round is held as the frame last sent (log entry 24),
and its window is measured from the moment it is sent (log entry 30). -/
def Obligations.FullResetGivesFullResetValues : Prop :=
  ∀ (s : State) (c : Instr) (cause : RestartCause),
    (c = .powerOn ∧ cause = .power)
      ∨ (c = .fullReset ∧ cause = .full ∧ s.restartReady .full = true) →
    ∃ t, exec c s = .next t
      ∧ t.clock = { now := 0, phase := 0 }
      ∧ t.site = SiteSettings.default
      ∧ (∀ a : Aisle, t.modes.stored[a] = .off)
      ∧ t.modes.evac = { raw := s.modes.evac.raw, accepted := s.modes.evac.raw, since := none }
      ∧ (∀ p : Pedestal, t.bus.health[p] = { faulted := false, count := 0 })
      ∧ t.bus.activity = .polling (Turn.first 0 false) 2
      ∧ t.bus.sent = [0x00, 0x01, 0xFF] ∧ t.bus.grant = none
      ∧ t.bus.probeDue = false ∧ t.bus.probeAt = 1000
      ∧ t.tracking = { tracks := [], decayAt := 100 }
      ∧ (∀ a : Aisle, t.beams.inner[a] = Filter.atReset s.beams.inner[a].raw
          ∧ t.beams.outer[a] = Filter.atReset s.beams.outer[a].raw)
      ∧ t.beams.key = Filter.atReset s.beams.key.raw
      ∧ (∀ a : Aisle, t.passages.aisles[a] = { opens := [], crowded := false })
      ∧ t.passages.next = 1
      ∧ (∀ i : Fin 64, t.segments[i] = { state := .stale, entries := [] })
      ∧ t.refresh = none ∧ t.supervisor = .disarmed
      ∧ t.queries = { list := [], next := 1 } ∧ t.judging = []
      ∧ (∀ a : Aisle, t.annunciators[a] = .quiet)
      ∧ t.link =
        { strap1 := s.link.strap1, strap2 := s.link.strap2
          rate := if s.link.strap1 then (if s.link.strap2 then .b460800 else .b57600)
                  else (if s.link.strap2 then .b230400 else .b115200)
          rx := [], replies := [], line := none
          urgent := [{ number := 0, stamp := 0, body := .notice (.restarted cause) }]
          routine := [], nextReport := 1, restart := none }

/-- A detection restart starts the detection work afresh, keeps the clock, the settings, the modes, the
table, the supervisor, the passage number counter and the report queue, and queues notice RESTARTED, for
which a queue of 48 reports gives up its oldest routine one, or else its oldest urgent one.  Records of
an answer that still waited for intake are dropped (the model's choice, log entry 37), the input levels
are those the state holds (log entry 27), and the window of the new POLL is measured from the moment it
is sent (log entry 30). -/
def Obligations.DetectionRestartKeepsTheConfiguration : Prop :=
  ∀ s : State, s.restartReady .detection = true →
    ∃ t, exec .detectionRestart s = .next t
      ∧ Only [.bus, .tracking, .beams, .passages, .refresh, .queries, .judging, .annunciators, .link]
          s t
      ∧ (∀ p : Pedestal, t.bus.health[p] = { faulted := false, count := 0 })
      ∧ t.bus.activity = .polling (Turn.first 0 false) (s.clock.now + 2)
      ∧ t.bus.grant = none ∧ t.bus.probeDue = false ∧ t.bus.probeAt = s.clock.now + 1000
      ∧ t.tracking = { tracks := [], decayAt := after s.clock.now s.site.decay }
      ∧ (∀ a : Aisle, t.beams.inner[a] = Filter.atReset s.beams.inner[a].raw
          ∧ t.beams.outer[a] = Filter.atReset s.beams.outer[a].raw)
      ∧ t.beams.key = Filter.atReset s.beams.key.raw
      ∧ (∀ a : Aisle, t.passages.aisles[a] = { opens := [], crowded := false })
      ∧ t.passages.next = s.passages.next
      ∧ t.refresh = none ∧ t.queries = { list := [], next := 1 } ∧ t.judging = []
      ∧ (∀ a : Aisle, t.annunciators[a] = .quiet)
      ∧ t.link.rate = s.link.rate ∧ t.link.rx = [] ∧ t.link.replies = [] ∧ t.link.line = none
      ∧ t.link.restart = none ∧ t.link.nextReport = s.link.nextReport + 1
      ∧ (s.link.urgent.length + s.link.routine.length < 48 →
          t.link.urgent = s.link.urgent
            ++ [{ number := s.link.nextReport, stamp := s.clock.now
                  body := .notice (.restarted .detection) }]
          ∧ t.link.routine = s.link.routine)
      ∧ (48 ≤ s.link.urgent.length + s.link.routine.length →
          t.link.urgent = (if s.link.routine = [] then s.link.urgent.tail else s.link.urgent)
            ++ [{ number := s.link.nextReport, stamp := s.clock.now
                  body := .notice (.restarted .detection) }]
          ∧ t.link.routine = s.link.routine.tail)

/-- The machine after reset meets every condition that the invariants below keep. -/
def Obligations.ResetMeetsTheInvariants : Prop :=
  BusFits State.reset.bus ∧ LinkFits State.reset ∧ TracksFit State.reset ∧ TableFits State.reset
    ∧ PassagesFit State.reset ∧ QueriesFit State.reset ∧ JudgingFits State.reset
    ∧ AnnunciatorsFit State.reset ∧ BindingFits State.reset

/-- An event whose timer has not come due, whose input has not held, or which has nothing to act on
changes nothing (the model's choice for such a command, log entries 4 and 5). -/
def Obligations.EventsBeforeTheirTimeChangeNothing : Prop :=
  ∀ s : State,
    (s.clock.phase < 60000 → exec .minuteTick s = .next s)
    ∧ (s.evacDue true = false → exec .evacAssertAccepted s = .next s)
    ∧ (s.evacDue false = false → exec .evacReleaseAccepted s = .next s)
    ∧ (∀ t w, s.bus.activity = .polling t w → passed s.clock.now w = false →
        exec .answerWindowClose s = .next s)
    ∧ (∀ t bytes last, s.bus.activity = .receiving t bytes last →
        passed s.clock.now (last + 1) = false → exec .answerSlotGap s = .next s)
    ∧ (∀ t w, s.bus.activity = .waiting t w → passed s.clock.now w = false →
        exec .extensionWaitEnd s = .next s)
    ∧ (passed s.clock.now s.bus.probeAt = false → exec .probeTimer s = .next s)
    ∧ (s.bus.grant = none ∨ (∀ p, s.bus.activity ≠ .ended p) → exec .busGrant s = .next s)
    ∧ ((∀ h, s.bus.activity ≠ .held h) → exec .holdDeadline s = .next s
        ∧ exec .readerPassTimeout s = .next s ∧ ∀ f, exec (.readerPassAnswer f) s = .next s)
    ∧ (∀ h, s.bus.activity = .held h →
        (passed s.clock.now h.deadline = false → exec .holdDeadline s = .next s)
        ∧ (h.pass = none → exec .readerPassTimeout s = .next s
            ∧ ∀ f, exec (.readerPassAnswer f) s = .next s)
        ∧ ∀ x, h.pass = some x →
            (passed s.clock.now x.deadline = false → exec .readerPassTimeout s = .next s)
            ∧ (x.heard = true → ∀ f, exec (.readerPassAnswer f) s = .next s))
    ∧ (passed s.clock.now s.tracking.decayAt = false → exec .decayStep s = .next s)
    ∧ (∀ a b, s.beamDue a b true = false → exec (.breakEvent a b) s = .next s)
    ∧ (∀ a b, s.beamDue a b false = false → exec (.clearEvent a b) s = .next s)
    ∧ (s.keyDue true = false → exec .silenceKeyPress s = .next s)
    ∧ (s.keyDue false = false → exec .silenceKeyRelease s = .next s)
    ∧ (∀ a n, s.transitDue a n = none → exec (.transitDeadline a n) s = .next s)
    ∧ (∀ n, s.judging.any (·.graceDue s.clock.now n) = false → exec (.graceDeadline n) s = .next s)
    ∧ (∀ a d, s.annunciators[a].deadline? = some d → passed s.clock.now d = false →
        exec (.durationDeadline a) s = .next s)
    ∧ (∀ n, (∀ q ∈ s.queries.list, q.number = n → passed s.clock.now q.deadline = false) →
        exec (.queryDeadline n) s = .next s)
    ∧ (∀ r, s.refresh = some r → passed s.clock.now r.idleAt = false →
        exec .refreshIdleDeadline s = .next s)
    ∧ (∀ p d, s.supervisor = .running p d → passed s.clock.now d = false →
        exec .supervisorExpiry s = .next s)
    ∧ (∀ l, s.link.line = some l → exec .transmitterTake s = .next s)
    ∧ (s.link.line = none → exec .lineFree s = .next s)
    ∧ (s.restartReady .full = false → exec .fullReset s = .next s)
    ∧ (s.restartReady .detection = false → exec .detectionRestart s = .next s)

/-! ## Chapter 1: settings, modes and EVAC -/

/-- A SET-SITE whose codes are defined and whose aisle count passes replaces the whole record by the
clamped values, names in ascending order the fields that lie outside their ranges, and restarts the
decay timer.  Where N changes, the pedestals above it get a clean health record, a turn in progress of
such a pedestal will change no record, and an idle controller starts a new round (R9).  Then every raw
change of a beam or of the key that has already persisted for the new debounce is accepted with its
event (R8); in which order several are is open, and free in the model (log entry 22).  That such a turn
keeps the record untouched to its end, even if N rises again, is log entry 18, and the window of the new
POLL is measured from the moment it is sent (log entry 30). -/
def Obligations.SetSiteAppliesTheClampedRecord : Prop :=
  ∀ (s : State) (ref : Byte) (p : List Byte) (pattern : TonePattern) (pitch : TonePitch),
    s.dispatches → p.length = 19 →
    TonePattern.ofCode (readSite p).pattern = some pattern →
    TonePitch.ofCode (readSite p).pitch = some pitch →
    (max 1 (min 8 (readSite p).aisles) = s.site.aisles ∨ ∀ a : Aisle, s.modes.stored[a] = .off) →
    ∃ (m t : State) (l : List Nat),
      exec (.setSite ref p) s = .next (placeReply 0x98 ref (if l = [] then .ok else .clamped)
        (count8 l.length :: l.map count8) t)
      ∧ l.Pairwise (· < ·)
      ∧ (∀ n, n ∈ l ↔
          (n = 1 ∧ ((readSite p).aisles < 1 ∨ 8 < (readSite p).aisles))
          ∨ (n = 2 ∧ 200 < (readSite p).floor)
          ∨ (n = 3 ∧ ((readSite p).threshold < 64 ∨ 4095 < (readSite p).threshold))
          ∨ (n = 4 ∧ 48 < (readSite p).margin)
          ∨ (n = 5 ∧ ((readSite p).decay < 20 ∨ 1000 < (readSite p).decay))
          ∨ (n = 6 ∧ ((readSite p).transit < 2000 ∨ 30000 < (readSite p).transit))
          ∨ (n = 7 ∧ ((readSite p).grace < 500 ∨ 10000 < (readSite p).grace))
          ∨ (n = 8 ∧ ((readSite p).query < 100 ∨ 2000 < (readSite p).query))
          ∨ (n = 9 ∧ ((readSite p).alarm < 1 ∨ 60 < (readSite p).alarm))
          ∨ (n = 10 ∧ ((readSite p).debounce < 2 ∨ 50 < (readSite p).debounce))
          ∨ (n = 11 ∧ 1440 < (readSite p).expiry))
      ∧ m.site =
        { aisles := max 1 (min 8 (readSite p).aisles), floor := min 200 (readSite p).floor
          threshold := max 64 (min 4095 (readSite p).threshold)
          margin := min 48 (readSite p).margin, decay := max 20 (min 1000 (readSite p).decay)
          transit := max 2000 (min 30000 (readSite p).transit)
          grace := max 500 (min 10000 (readSite p).grace)
          query := max 100 (min 2000 (readSite p).query)
          alarm := max 1 (min 60 (readSite p).alarm)
          debounce := max 2 (min 50 (readSite p).debounce)
          expiry := min 1440 (readSite p).expiry, pattern := pattern, pitch := pitch }
      ∧ m.tracking = { s.tracking with decayAt := after s.clock.now m.site.decay }
      ∧ (m.site.aisles = s.site.aisles → m.bus = s.bus)
      ∧ (m.site.aisles ≠ s.site.aisles →
          (∀ q : Pedestal, m.bus.health[q] =
            if m.site.aisles < q.val then { faulted := false, count := 0 } else s.bus.health[q])
          ∧ (s.bus.activity = .idle →
              NewRound s.clock.now m.site.aisles { s.bus with health := m.bus.health } m.bus)
          ∧ (s.bus.activity ≠ .idle →
              m.bus = { s.bus with health := m.bus.health, activity := m.bus.activity })
          ∧ ∀ tn tn' : Turn, tn' = { tn with
                dropped := tn.dropped || decide (m.site.aisles < tn.pedestal.val) } →
              (∀ w, s.bus.activity = .polling tn w → m.bus.activity = .polling tn' w)
              ∧ (∀ bs w, s.bus.activity = .receiving tn bs w → m.bus.activity = .receiving tn' bs w)
              ∧ (∀ b rs, s.bus.activity = .delivering tn b rs → m.bus.activity = .delivering tn' b rs)
              ∧ (∀ w, s.bus.activity = .waiting tn w → m.bus.activity = .waiting tn' w)
              ∧ (∀ q, s.bus.activity = .ended q → m.bus.activity = .ended q)
              ∧ (∀ h, s.bus.activity = .held h → m.bus.activity = .held h))
      ∧ m.link = s.counted.link ∧ m.supervisor = s.counted.supervisor
      ∧ Only [.site, .tracking, .bus, .supervisor, .link] s m
      ∧ InputsAccepted m t

/-- A SET-SITE with an undefined tone code is refused with RANGE, and one that changes N while an aisle
is not OFF with BUSY: no field is applied and no clamped field is listed. -/
def Obligations.SetSiteRefusalsApplyNothing : Prop :=
  ∀ (s : State) (ref : Byte) (p : List Byte), s.dispatches → p.length = 19 →
    ((2 < ((readSite p).pattern).toNat ∨ 2 < ((readSite p).pitch).toNat) →
      exec (.setSite ref p) s = .next (placeReply 0x98 ref .range [0x00] s.counted))
    ∧ (((readSite p).pattern).toNat ≤ 2 → ((readSite p).pitch).toNat ≤ 2 →
        max 1 (min 8 (readSite p).aisles) ≠ s.site.aisles → (∃ a : Aisle, s.modes.stored[a] ≠ .off) →
        exec (.setSite ref p) s = .next (placeReply 0x98 ref .busy [0x00] s.counted))

/-- SET-MODE moves the stored modes of the named aisles one step at a time, all of them or none.  An aisle
set to OFF has its open passages dismissed: their tracks are unbound, attributed now, and a routine
report of outcome DISMISSED is queued for each, aisles ascending and passages oldest first, with the
flags each holds as it leaves.  An aisle that leaves effective GUARD goes QUIET. -/
def Obligations.SetModeStepsEveryNamedAisleOrNone : Prop :=
  ∀ (s : State) (ref : Byte) (p : List Byte), s.dispatches → p.length = 2 →
    (namedAisles s.site.aisles (byteAt p 0) = none ∨ Mode.ofCode (byteAt p 1) = none →
      exec (.setMode ref p) s = .next (placeReply 0x99 ref .range [] s.counted))
    ∧ (∀ as m, namedAisles s.site.aisles (byteAt p 0) = some as →
        Mode.ofCode (byteAt p 1) = some m →
        ((∃ a ∈ as, (s.modes.stored[a] = .off ∧ m = .guard)
            ∨ (s.modes.stored[a] = .guard ∧ m = .off)) →
          exec (.setMode ref p) s = .next (placeReply 0x99 ref .sequence [] s.counted))
        ∧ ((∀ a ∈ as, ¬ (s.modes.stored[a] = .off ∧ m = .guard)
            ∧ ¬ (s.modes.stored[a] = .guard ∧ m = .off)) →
          ∃ t, exec (.setMode ref p) s = .next t
            ∧ (∀ a : Aisle, t.modes.stored[a] = if a ∈ as then m else s.modes.stored[a])
            ∧ t.modes.evac = s.modes.evac
            ∧ (∀ a ∈ as, s.modes.stored[a] = .watch → m = .off →
                t.opens a = [] ∧ t.passages.aisles[a].crowded = false)
            ∧ (∀ a : Aisle, ¬ (a ∈ as ∧ s.modes.stored[a] = .watch ∧ m = .off) →
                t.passages.aisles[a] = s.passages.aisles[a])
            ∧ t.passages.next = s.passages.next
            ∧ (∀ i, t.track? i = (s.track? i).map fun x =>
                if m = .off ∧ ∃ a ∈ as, s.modes.stored[a] = .watch ∧ ∃ q ∈ s.opens a, i ∈ q.items then
                  unboundTrack s.clock.now x
                else x)
            ∧ (∀ a : Aisle, t.annunciators[a] =
                if s.effective a = .guard ∧ t.effective a ≠ .guard then .quiet
                else s.annunciators[a])
            ∧ t.link = (placeReply 0x99 ref .ok []
                ((if m = .off then
                    (as.filter fun a => s.modes.stored[a] == .watch).flatMap fun a =>
                      (s.opens a).map fun q => closingReport a q .dismissed
                        (if s.modes.evac.accepted then .free else .off) s
                  else []).foldl (fun u r => createReport false (.passage r) u) s.counted)).link
            ∧ Only [.modes, .annunciators, .passages, .tracking, .supervisor, .link] s t))

/-- A raw level of EVAC, of a beam or of the SILENCE key that differs from the accepted state begins a
pending change stamped now, or lets a begun one run on; a level that equals it discards the pending
change, and no accepted state changes.  Where the pending change has held for its time already, it is
accepted first, with its event: only a return before that time discards it (R14, R56, R152).  That a
repeated level leaves the stamp is log entry 31. -/
def Obligations.RawLevelsStartOrDiscardPendingChanges : Prop :=
  ∀ (s : State) (level : Bool),
    (s.evacDue true = false → s.evacDue false = false →
      ∃ t, exec (.evacInputChange level) s = .next t
        ∧ t.modes.evac =
          { raw := level, accepted := s.modes.evac.accepted
            since := if level = s.modes.evac.accepted then none
                     else some (s.modes.evac.since.getD s.clock.now) }
        ∧ t.modes.stored = s.modes.stored ∧ Only [.modes] s t)
    ∧ (∀ l, s.evacDue l = true →
        ∃ m, exec (if l then .evacAssertAccepted else .evacReleaseAccepted) s = .next m
          ∧ exec (.evacInputChange level) s = exec (.evacInputChange level) m)
    ∧ (∀ a b, s.beamDue a b true = false → s.beamDue a b false = false →
        ∃ t, exec (.beamInputChange a b level) s = .next t
          ∧ t.beam a b =
            { raw := level, accepted := (s.beam a b).accepted
              since := if level = (s.beam a b).accepted then none
                       else some ((s.beam a b).since.getD s.clock.now) }
          ∧ (∀ a' b', (a', b') ≠ (a, b) → t.beam a' b' = s.beam a' b')
          ∧ t.beams.key = s.beams.key ∧ Only [.beams] s t)
    ∧ (∀ a b l, s.beamDue a b l = true →
        ∃ m, exec (if l then .breakEvent a b else .clearEvent a b) s = .next m
          ∧ exec (.beamInputChange a b level) s = exec (.beamInputChange a b level) m)
    ∧ (s.keyDue true = false → s.keyDue false = false →
        ∃ t, exec (.silenceKeyInputChange level) s = .next t
          ∧ t.beams.key =
            { raw := level, accepted := s.beams.key.accepted
              since := if level = s.beams.key.accepted then none
                       else some (s.beams.key.since.getD s.clock.now) }
          ∧ t.beams.inner = s.beams.inner ∧ t.beams.outer = s.beams.outer ∧ Only [.beams] s t)
    ∧ (∀ l, s.keyDue l = true →
        ∃ m, exec (if l then .silenceKeyPress else .silenceKeyRelease) s = .next m
          ∧ exec (.silenceKeyInputChange level) s = exec (.silenceKeyInputChange level) m)

/-- An EVAC level that has held for 50 ms is accepted.  At an assertion every aisle becomes FREE, the
aisles that were in GUARD go QUIET and EVAC-ON is queued; at a release every effective mode returns to
the stored mode, the annunciators stay as they are and EVAC-OFF is queued. -/
def Obligations.AcceptedEvacFreesOrReturnsEveryAisle : Prop :=
  ∀ s : State,
    (s.evacDue true = true →
      ∃ t, exec .evacAssertAccepted s = .next t
        ∧ (∀ a : Aisle, t.effective a = .free)
        ∧ t.modes.stored = s.modes.stored
        ∧ t.modes.evac = { raw := true, accepted := true, since := none }
        ∧ (∀ a : Aisle, t.annunciators[a] =
            if s.effective a = .guard then .quiet else s.annunciators[a])
        ∧ t.link = (notice .evacOn s).link ∧ Only [.modes, .annunciators, .link] s t)
    ∧ (s.evacDue false = true →
      ∃ t, exec .evacReleaseAccepted s = .next t
        ∧ (∀ a : Aisle, t.effective a = s.modes.stored[a].effective)
        ∧ t.modes.stored = s.modes.stored
        ∧ t.modes.evac = { raw := false, accepted := false, since := none }
        ∧ t.link = (notice .evacOff s).link ∧ Only [.modes, .link] s t)

/-! ## Chapter 2: the pedestal bus -/

/-- A SIGHTINGS answer of at most 6 records to an open poll restores a probed pedestal (R23) and ends
its poll: its records go to intake in order, at least the first at once, and those not yet taken wait,
since other events may fall between two records (R26).  How many are taken at once is free (log entry
8).  Once none is left, MORE set with fewer than 3 extra polls made sends a new POLL with a fresh
extension count; otherwise the turn ends ANSWERED, with the grant where one is pending and else the next
turn of R17 (R18, R22, R28).  That the command is the whole frame, or the rest of one begun, is log
entry 7; that the turn of a pedestal that left use changes no record, log entry 18; the wait for the
grant, log entry 19; the window measured from the moment the POLL is sent, log entry 30. -/
def Obligations.SightingsAnswerEndsItsPoll : Prop :=
  ∀ (s : State) (t : Turn) (bytes : List Byte) (more : Bool) (rs : List SightingRecord),
    s.Hears t bytes → rs.length ≤ 6 →
    ∃ r u c k, exec (.sightingsAnswer more rs) s = .next u
      ∧ Restored s t r ∧ 1 ≤ k ∧ k ≤ max 1 rs.length
      ∧ AnswerGoesOn ((rs.take k).foldl (intakeRecord t.pedestal) (r.setChoice c))
          { t with answered := true } more (rs.drop k) u
      ∧ Only [.bus, .tracking, .passages, .queries, .judging, .annunciators, .link, .choice] s u

/-- An EXTEND answer of 1 to 3 slots, or EXTEND-ON, for one, to an open poll restores a probed pedestal
(R23).  Where it keeps the poll's count at 32 or less it is waited out; one that would pass 32 makes the
pedestal MUTE: its turn ends as failed, which counts a failed round, from 0 for a pedestal just restored
and FAULTED with a notice at the third, and the round moves on to the next pedestal (R17, R20, R22).
That the command is the whole frame, or the rest of one begun, is log entry 7; that the turn of a
pedestal that left use changes no record, log entry 18; the wait for the grant, log entry 19; the window
measured from the moment a POLL is sent, log entry 30. -/
def Obligations.ExtensionsAreWaitedOutWithinTheBudget : Prop :=
  ∀ (s : State) (t : Turn) (bytes : List Byte) (c : Instr) (n : Nat),
    s.Hears t bytes →
    (c = .extendAnswer (BitVec.ofNat 8 n) ∧ 1 ≤ n ∧ n ≤ 3) ∨ (c = .extendOnAnswer ∧ n = 1) →
    ∃ r u, exec c s = .next u ∧ Restored s t r
      ∧ (t.slots + n ≤ 32 →
          u = r.setBus { r.bus with
            activity := .waiting { t with slots := t.slots + n, answered := true }
              (after s.clock.now n) })
      ∧ (32 < t.slots + n → TurnEnds r t false u)
      ∧ Only [.bus, .link] s u

/-- A poll ends without an answer, and with it the turn, by bytes that are found bad (R182), by a slot
with no byte inside a frame, by an answer with more than 6 records or an n outside 1 to 3, and by a
window that closes with no frame begun; the turn counts as ANSWERED only if an earlier poll of it was
answered (R22), and the next turn of R17, or the grant, follows.  Bytes neither bad nor complete hold
the poll open, even past the close of the window (R16); complete ones are the answer their fields give
(R181).  With no poll open, answers and bytes are discarded.  The model's choices in this: a kind or a
count is found bad at its byte, but the address, the n and the sum only when the frame is complete, so
that the bytes before that hold the poll open, and an answer command is the whole frame or the rest of
one begun (log entry 7); ANSWER_SLOT_GAP on an open window that holds no bytes ends it at once (log
entry 5); the wait for the grant (log entry 19); the window measured from the moment a POLL is sent (log
entry 30).  That the turn of a pedestal that left use changes no record to its end is log entry 18. -/
def Obligations.UnansweredPollsEndTheTurnAsFailed : Prop :=
  ∀ (s : State) (c : Instr),
    ((∀ t bytes, ¬ s.Hears t bytes) →
      (∃ more rs, c = .sightingsAnswer more rs) ∨ (∃ n, c = .extendAnswer n) ∨ c = .extendOnAnswer
        ∨ (∃ bs, c = .badAnswer bs) ∨ c = .answerSlotGap ∨ c = .answerWindowClose →
      exec c s = .next s)
    ∧ ∀ (t : Turn) (bytes : List Byte), s.Hears t bytes →
      ((∃ more rs, c = .sightingsAnswer more rs ∧ 6 < rs.length)
          ∨ (∃ n : Byte, c = .extendAnswer n ∧ (n.toNat = 0 ∨ 3 < n.toNat))
          ∨ (∃ bs, c = .badAnswer bs ∧ bs ≠ [] ∧ BadAnswerBytes t.pedestal (bytes ++ bs))
          ∨ (c = .answerSlotGap ∧ ∀ last, s.bus.activity = .receiving t bytes last →
              passed s.clock.now (last + 1) = true)
          ∨ (c = .answerWindowClose
              ∧ ∃ w, s.bus.activity = .polling t w ∧ passed s.clock.now w = true) →
        ∃ u, exec c s = .next u ∧ TurnEnds s t t.answered u)
      ∧ ((∃ last, s.bus.activity = .receiving t bytes last) →
          exec .answerWindowClose s = .next s)
      ∧ exec (.badAnswer []) s = .next s
      ∧ ∀ bs all : List Byte, bs ≠ [] → all = bytes ++ bs →
        (PartialAnswerBytes all → exec (.badAnswer bs) s =
          .next (s.setBus { s.bus with activity := .receiving t all s.clock.now }))
        ∧ (¬ PartialAnswerBytes all → ¬ BadAnswerBytes t.pedestal all →
          (byteAt all 1 = 0x81 → ∀ rs : List SightingRecord,
            rs.length = (byteAt all 2).toNat % 128 →
            (∀ k, k < rs.length → rs[k]? = some
              { ident := field64 all (3 + 11 * k)
                face := (byteAt all (11 + 11 * k)).extractLsb' 0 2
                guard := (byteAt all (11 + 11 * k)).getLsbD 7
                strength := byteAt all (12 + 11 * k) }) →
            exec (.badAnswer bs) s
              = exec (.sightingsAnswer ((byteAt all 2).getLsbD 7) rs) s)
          ∧ (byteAt all 1 = 0x82 →
              exec (.badAnswer bs) s = exec (.extendAnswer (byteAt all 2)) s)
          ∧ (byteAt all 1 = 0x83 → exec (.badAnswer bs) s = exec .extendOnAnswer s))

/-- The end of an extension wait sends a REPOLL to the same pedestal with its own window of 2 slots; the
probe timer comes due every 1,000 ms and makes a probe due, and where the controller is idle and a
pedestal in use is FAULTED a round begins with the probe of the lowest such pedestal.  The next probe is
counted from the last one due (log entry 29), and a window from the moment its frame is sent (log entry
30). -/
def Obligations.BusTimersRepollAndProbe : Prop :=
  ∀ s : State,
    (∀ t w, s.bus.activity = .waiting t w → passed s.clock.now w = true →
      ∃ u, exec .extensionWaitEnd s = .next u
        ∧ u.bus = { s.bus with activity := .polling t (s.clock.now + 2)
                               sent := repollFrame t.pedestal }
        ∧ Only [.bus] s u)
    ∧ (passed s.clock.now s.bus.probeAt = true →
      ∃ u, exec .probeTimer s = .next u
        ∧ u.bus.probeAt = s.bus.probeAt + 1000
        ∧ u.bus.health = s.bus.health ∧ u.bus.grant = s.bus.grant
        ∧ (s.bus.activity ≠ .idle → u.bus.probeDue = true ∧ u.bus.activity = s.bus.activity)
        ∧ (s.bus.activity = .idle → u.bus.probeDue = false
            ∧ ∀ p : Pedestal, p.val ≤ s.site.aisles → s.bus.health[p].faulted = true →
                (∀ q : Pedestal, q.val < p.val → s.bus.health[q].faulted = false) →
                u.bus.activity = .polling (Turn.first p true) (s.clock.now + 2))
        ∧ Only [.bus] s u)

/-- BUS-TAKE is granted at once on an idle bus, accepted with its reply deferred while a turn is in
progress, and refused with BUSY while a grant is pending or the bus is HELD. -/
def Obligations.BusTakeByBusState : Prop :=
  ∀ (s : State) (ref : Byte), s.dispatches →
    (s.bus.grant.isSome = true ∨ s.bus.isHeld = true →
      exec (.busTake ref []) s = .next (placeReply 0xB8 ref .busy [] s.counted))
    ∧ (s.bus.grant = none → s.bus.activity = .idle →
        exec (.busTake ref []) s = .next (placeReply 0xB8 ref .granted []
          (s.counted.setBus { s.bus with
            activity := .held { since := s.clock.now, deadline := after s.clock.now 30000
                                pass := none }
            grant := none })))
    ∧ (∀ t, s.bus.grant = none → s.bus.activity.turn? = some t →
        exec (.busTake ref []) s = .next (s.counted.setBus { s.bus with grant := some ref }))

/-- When the turn under a pending grant has ended, the bus becomes HELD for 30,000 ms and the deferred
reply is GRANTED.  BUS-GIVE ends a hold with a new round: the probe phase if a probe is due, else
pedestal 0, else idle (R17, R23, R29); first it answers a READER-PASS in flight NO-ANSWER.  It withdraws
a pending grant, whose reply is CANCELLED: a turn in progress goes on, and after a turn that has ended
the next turn begins.  With neither it is refused with NOT-HELD.  That the grant is a step after the
turn's end is log entry 19, and the window measured from the moment the POLL is sent log entry 30. -/
def Obligations.BusGrantAndBusGive : Prop :=
  ∀ (s : State) (ref : Byte),
    (∀ p r, s.bus.activity = .ended p → s.bus.grant = some r →
      exec .busGrant s = .next (placeReply 0xB8 r .granted []
        (s.setBus { s.bus with
          activity := .held { since := s.clock.now, deadline := after s.clock.now 30000, pass := none }
          grant := none })))
    ∧ (s.dispatches →
      (∀ h, s.bus.activity = .held h →
        ∃ u, exec (.busGive ref []) s = .next u
          ∧ u.link.replies = s.link.replies
              ++ (match h.pass with
                  | some x => [{ kind := 0xBA, ref := x.ref, status := .noAnswer, body := [0x00] }]
                  | none => [])
              ++ [{ kind := 0xB9, ref := ref, status := .ok, body := [] }]
          ∧ NewRound s.clock.now s.site.aisles s.bus u.bus
          ∧ Only [.bus, .supervisor, .link] s u)
      ∧ (∀ r, s.bus.grant = some r →
          ((∃ t, s.bus.activity.turn? = some t) ∨ ∃ p, s.bus.activity = .ended p) →
          ∃ u, exec (.busGive ref []) s = .next u
            ∧ u.link.replies = s.link.replies
                ++ [{ kind := 0xB8, ref := r, status := .cancelled, body := [] },
                    { kind := 0xB9, ref := ref, status := .ok, body := [] }]
            ∧ (∀ t, s.bus.activity.turn? = some t → u.bus = { s.bus with grant := none })
            ∧ (∀ p, s.bus.activity = .ended p →
                NextTurn s.clock.now s.site.aisles { s.bus with grant := none } u.bus)
            ∧ Only [.bus, .supervisor, .link] s u)
      ∧ (s.bus.isHeld = false → s.bus.grant = none →
          exec (.busGive ref []) s = .next (placeReply 0xB9 ref .notHeld [] s.counted)))

/-- READER-PASS is refused with NOT-HELD, then RANGE, then BUSY, in that order; otherwise its bytes are
sent between the pedestal's address and a check byte, and it waits 20 ms for the reader.  The 20 ms are
measured from the moment the frame is sent (log entry 30), and the frame is held as the last one sent
(log entry 24). -/
def Obligations.ReaderPassIsCheckedAndSent : Prop :=
  ∀ (s : State) (ref : Byte) (p : List Byte), s.dispatches →
    1 ≤ (byteAt p 1).toNat → (byteAt p 1).toNat ≤ 64 → p.length = 2 + (byteAt p 1).toNat →
    (s.bus.isHeld = false →
      exec (.readerPass ref p) s = .next (placeReply 0xBA ref .notHeld [0x00] s.counted))
    ∧ (∀ h, s.bus.activity = .held h →
        (8 < (byteAt p 0).toNat →
          exec (.readerPass ref p) s = .next (placeReply 0xBA ref .range [0x00] s.counted))
        ∧ ((byteAt p 0).toNat ≤ 8 → h.pass ≠ none →
          exec (.readerPass ref p) s = .next (placeReply 0xBA ref .busy [0x00] s.counted))
        ∧ (∀ q : Pedestal, q.val = (byteAt p 0).toNat → h.pass = none →
          exec (.readerPass ref p) s = .next (s.counted.setBus { s.bus with
            activity := .held { h with
              pass := some { pedestal := q, ref := ref, deadline := after s.clock.now 20
                             heard := false } }
            sent := byteAt p 0 :: p.drop 2 ++ [-(byteAt p 0 + byteSum (p.drop 2))] })))

/-- The reader's first frame answers a READER-PASS with its data bytes if it carries the pedestal's
address, 1 to 64 data bytes and a good check byte; a frame that does not leaves no later frame to be
accepted (that clause is log entry 11, DEDUCED), and 20 ms without an accepted one lead to NO-ANSWER.  A
hold that reaches its deadline ends with NO-ANSWER for a READER-PASS in flight, notice HOLD-EXPIRED and
a new round: the probe phase if a probe is due, else pedestal 0, else idle (R17, R23, R31).  The window
of the new POLL is measured from the moment it is sent (log entry 30). -/
def Obligations.ReaderPassEndsAndHoldExpires : Prop :=
  ∀ (s : State) (h : Hold), s.bus.activity = .held h →
    (∀ x data check, h.pass = some x → x.heard = false → 1 ≤ data.length → data.length ≤ 64 →
      byteSum (count8 x.pedestal.val :: data ++ [check]) = 0 →
      exec (.readerPassAnswer (count8 x.pedestal.val :: data ++ [check])) s =
        .next (placeReply 0xBA x.ref .ok (count8 data.length :: data)
          (s.setBus { s.bus with activity := .held { h with pass := none } })))
    ∧ (∀ x frame, h.pass = some x → x.heard = false →
        (byteAt frame 0 ≠ count8 x.pedestal.val ∨ frame.length < 3 ∨ 66 < frame.length
          ∨ byteSum frame ≠ 0) →
        exec (.readerPassAnswer frame) s = .next (s.setBus { s.bus with
          activity := .held { h with pass := some { x with heard := true } } }))
    ∧ (∀ x, h.pass = some x → passed s.clock.now x.deadline = true →
        exec .readerPassTimeout s = .next (placeReply 0xBA x.ref .noAnswer [0x00]
          (s.setBus { s.bus with activity := .held { h with pass := none } })))
    ∧ (passed s.clock.now h.deadline = true →
        ∃ u, exec .holdDeadline s = .next u
          ∧ NewRound s.clock.now s.site.aisles s.bus u.bus
          ∧ u.link.replies = s.link.replies
              ++ (match h.pass with
                  | some x => [{ kind := 0xBA, ref := x.ref, status := .noAnswer, body := [0x00] }]
                  | none => [])
          ∧ u.link.urgent = (notice .holdExpired s).link.urgent
          ∧ u.link.routine = (notice .holdExpired s).link.routine
          ∧ u.link.nextReport = s.link.nextReport + 1
          ∧ Only [.bus, .link] s u)

/-! ## Chapter 3: tracks -/

/-- The attribution test passes for aisle `b` exactly when no other aisle holds its value or more, its
value is at least T, and 16 times its value is at least (16 + K) times every other aisle's. -/
def Obligations.AttributionTestNamesTheClearLeader : Prop :=
  ∀ (threshold margin : Nat) (e : Vector Nat 8) (b : Aisle),
    attributionTest threshold margin e = some b ↔
      (∀ a : Aisle, a ≠ b → e[a] < e[b]) ∧ threshold ≤ e[b]
        ∧ ∀ a : Aisle, a ≠ b → (16 + margin) * e[a] ≤ 16 * e[b]

/-- A record with a good identifier from a face that exists (R1), of an aisle whose stored mode is not OFF
and with a strength above F, adds its contribution to the track of its identifier, which it creates
where there is none and a place is free (R36, R37).  A FORMING track, or one ATTRIBUTED to another
aisle, whose test passes is attributed, bound where a passage has room, and asked about by R116, or
marked NO-QUERY where 16 queries are outstanding; one ATTRIBUTED to the aisle that passes, a failing
test, and a BOUND or SPENT track keep state and mark (R45 to R48).  Every other record is discarded. -/
def Obligations.SightingAddsItsContribution : Prop :=
  ∀ (s : State) (p : Pedestal) (r : SightingRecord),
    ((r.ident = 0 ∨ (∀ a, ¬ Serves s.site.aisles p r.face a)
        ∨ (∃ a, Serves s.site.aisles p r.face a ∧ s.modes.stored[a] = .off)
        ∨ r.strength.toNat ≤ s.site.floor) → intakeRecord p s r = s)
    ∧ (∀ a : Aisle, r.ident ≠ 0 → Serves s.site.aisles p r.face a →
        s.modes.stored[a] ≠ .off → s.site.floor < r.strength.toNat →
        (∀ old, s.track? r.ident = some old →
          Heard s old a (r.strength.toNat - s.site.floor) r.guard (intakeRecord p s r))
        ∧ (s.track? r.ident = none → s.tracking.tracks.length < 256 →
          Heard s (freshTrack r.ident r.guard s.clock.now) a (r.strength.toNat - s.site.floor)
            r.guard (intakeRecord p s r)))

/-- A decay step sets every evidence value to floor(3E/4) and frees the tracks, other than BOUND ones,
that have none left; every other track stays, with its flag, times and host answer, and the next step
falls D ms after this one.  The query of a freed track is purged, every other query stays in its place,
and no item of an identifier whose query is purged still waits ANSWER (R43, R53, R124).  That D is
counted from the moment this step was due is log entry 29. -/
def Obligations.DecayStepReducesEvidenceAndFrees : Prop :=
  ∀ s : State, risingKeys Track.key s.tracking.tracks = true →
    passed s.clock.now s.tracking.decayAt = true →
    ∃ t, exec .decayStep s = .next t
      ∧ t.tracking.decayAt = after s.tracking.decayAt s.site.decay
      ∧ (∀ i, s.track? i = none → t.track? i = none)
      ∧ (∀ i old, s.track? i = some old →
          ((∀ b n, old.state ≠ .bound b n) → (∀ a : Aisle, 3 * old.evidence[a] / 4 = 0) →
            t.track? i = none)
          ∧ ((∃ b n, old.state = .bound b n) ∨ (∃ a : Aisle, 3 * old.evidence[a] / 4 ≠ 0) →
            ∃ new, t.track? i = some new
              ∧ (∀ a : Aisle, new.evidence[a] = 3 * old.evidence[a] / 4)
              ∧ new.guard = old.guard ∧ new.answer = old.answer ∧ new.mark = old.mark
              ∧ new.firstSeen = old.firstSeen ∧ new.lastSeen = old.lastSeen
              ∧ ((∀ b n v, old.state ≠ .spent b n v) → new.state = old.state)))
      ∧ t.queries.list.Sublist s.queries.list ∧ t.queries.next = s.queries.next
      ∧ (∀ q ∈ s.queries.list, q ∈ t.queries.list ↔
          ¬ ((s.track? q.ident).isSome = true ∧ t.track? q.ident = none))
      ∧ (∀ q ∈ s.queries.list, q ∉ t.queries.list →
          ∀ j ∈ t.judging, ∀ r ∈ j.items, r.ident = q.ident → r.status ≠ .waiting .answer)
      ∧ Only [.tracking, .queries, .judging, .annunciators, .link] s t

/-- The victim of an eviction is not BOUND and goes no later than any other such track by the order of
R38: SPENT before FORMING before ATTRIBUTED, then the lowest peak, the longest unheard, the longest
known, the smallest identifier; wherever a track is not BOUND there is a victim.  A sighting that
creates a track in a table of 256 first frees it, its query purged with it, and then runs on the
fresh track (R37, R39, R53). -/
def Obligations.EvictionVictimComesFirst : Prop :=
  ∀ s : State,
    (∀ v, s.victim = some v →
      v ∈ s.tracking.tracks ∧ (∀ b n, v.state ≠ .bound b n)
        ∧ ∀ u ∈ s.tracking.tracks, (∀ b n, u.state ≠ .bound b n) → GoesFirst s.clock.now v u)
    ∧ ((∃ u ∈ s.tracking.tracks, ∀ b n, u.state ≠ .bound b n) → ∃ v, s.victim = some v)
    ∧ (∀ (p : Pedestal) (r : SightingRecord) (a : Aisle) (v : Track), r.ident ≠ 0 →
        Serves s.site.aisles p r.face a → s.modes.stored[a] ≠ .off →
        s.site.floor < r.strength.toNat → s.track? r.ident = none →
        s.tracking.tracks.length = 256 → s.victim = some v →
        ∃ m, Freed s v.ident m
          ∧ Heard m (freshTrack r.ident r.guard s.clock.now) a (r.strength.toNat - s.site.floor)
              r.guard (intakeRecord p s r))

/-- INVARIANT. Every step keeps the track table within its bounds and in its canonical form. -/
def Obligations.StepsKeepTheTrackTable : Prop :=
  ∀ s t : State, TracksFit s → step s = .next t → TracksFit t

/-! ## Chapter 4: beams and passages -/

/-- An accepted break of beam `b` marks the far beam of the passages that have it as far beam, and then
advances the oldest OPENED one of them, or opens a passage where fewer than 3 are open, or sets the
CROWDED flag.  A passage that opens binds up to 10 loose tracks of its aisle in the order of R70: the
earliest attributed, then the earliest first seen, then the smallest identifier; with more it is FULL. -/
def Obligations.BreakEventAdvancesOpensOrCrowds : Prop :=
  ∀ (s : State) (a : Aisle) (b : Beam),
    s.beamDue a b true = true → s.detects a = true →
    ∃ t, exec (.breakEvent a b) s = .next t
      ∧ (t.beam a b) = { raw := true, accepted := true, since := none }
      ∧ ((∃ p ∈ s.opens a, p.direction.far = b ∧ p.phase = .opened) →
          ∃ l p r, s.opens a = l ++ p :: r ∧ p.direction.far = b ∧ p.phase = .opened
            ∧ (∀ q ∈ l, ¬ (q.direction.far = b ∧ q.phase = .opened))
            ∧ t.opens a = l.map (Passage.sawBreak b)
                ++ { p with farBroken := true, phase := .crossing } :: r.map (Passage.sawBreak b)
            ∧ t.passages.next = s.passages.next ∧ t.tracking = s.tracking
            ∧ t.passages.aisles[a].crowded = s.passages.aisles[a].crowded)
      ∧ ((∀ p ∈ s.opens a, ¬ (p.direction.far = b ∧ p.phase = .opened)) →
          ((s.opens a).length < 3 →
            t.opens a = (s.opens a).map (Passage.sawBreak b)
              ++ [{ number := s.passages.next, direction := openingDirection b, phase := .opened
                    farBroken := false, openedAt := s.clock.now
                    deadline := after s.clock.now s.site.transit
                    flags := { Flags.none with full := 10 < (s.looseTracks a).length }
                    items := ((s.looseTracks a).map (·.ident)).take 10 }]
            ∧ t.passages.next = nextPassageNumber s.passages.next
            ∧ t.passages.aisles[a].crowded = s.passages.aisles[a].crowded
            ∧ ∀ i ∈ ((s.looseTracks a).map (·.ident)).take 10, ∀ x, t.track? i = some x →
                x.state = .bound a s.passages.next)
          ∧ (3 ≤ (s.opens a).length →
            t.opens a = (s.opens a).map (Passage.sawBreak b)
              ∧ t.passages.aisles[a].crowded = true ∧ t.passages.next = s.passages.next
              ∧ t.tracking = s.tracking))
      ∧ (s.looseTracks a).Perm (s.tracking.tracks.filter fun x =>
          match x.state with
          | .attributed b _ => a == b
          | _ => false)
      ∧ (s.looseTracks a).Pairwise (BindsFirst s.clock.now)
      ∧ (∀ a' : Aisle, a' ≠ a → t.passages.aisles[a'] = s.passages.aisles[a'])
      ∧ Only [.beams, .passages, .tracking] s t

/-- An accepted clear of beam `b` completes the oldest passage CROSSING with far beam `b`: its tracks become
SPENT, it takes its flags, and it is handed to the verdict unit with its items filled (R64, R127).  Else
it turns back the lone OPENED passage whose near beam it is and whose far beam has not broken: its tracks
are unbound and a TURNED-BACK report is queued (R65, R66).  Then, where both beams are clear, the sweep
takes every passage left in order, CROSSING ones completing and OPENED ones turning back, and clears
CROWDED (R63). -/
def Obligations.ClearEventCompletesTurnsBackAndSweeps : Prop :=
  ∀ (s : State) (a : Aisle) (b : Beam),
    s.beamDue a b false = true → s.detects a = true →
    ∃ c d t, exec (.clearEvent a b) s = .next t
      ∧ c.beam a b = { raw := false, accepted := false, since := none }
      ∧ (∀ a' b', (a', b') ≠ (a, b) → c.beam a' b' = s.beam a' b') ∧ c.beams.key = s.beams.key
      ∧ Only [.beams] s c
      ∧ (∀ l p r, s.opens a = l ++ p :: r → p.direction.far = b → p.phase = .crossing →
          (∀ q ∈ l, ¬ (q.direction.far = b ∧ q.phase = .crossing)) → Completes a p c d)
      ∧ ((∀ p ∈ s.opens a, ¬ (p.direction.far = b ∧ p.phase = .crossing)) →
          (∀ p, s.opens a = [p] → p.phase = .opened → p.direction.near = b →
            p.farBroken = false → Closes a .turnedBack p c d)
          ∧ ((∀ p, s.opens a = [p] →
                ¬ (p.phase = .opened ∧ p.direction.near = b ∧ p.farBroken = false)) → d = c))
      ∧ ((∃ b', (c.beam a b').accepted = true) → t = d)
      ∧ ((∀ b', (c.beam a b').accepted = false) →
          ∃ m, Swept a (d.opens a) d m
            ∧ t.passages.aisles[a] = { opens := [], crowded := false }
            ∧ (∀ a' : Aisle, a' ≠ a → t.passages.aisles[a'] = m.passages.aisles[a'])
            ∧ t.passages.next = m.passages.next ∧ Only [.passages] m t)
      ∧ (∀ a' : Aisle, a' ≠ a → t.passages.aisles[a'] = s.passages.aisles[a'])
      ∧ t.passages.next = s.passages.next
      ∧ Only [.beams, .passages, .tracking, .judging, .annunciators, .link] s t

/-- Beam events of an aisle above N, or with stored mode OFF, go nowhere: only the accepted state
changes. -/
def Obligations.BeamEventsOfUnusedAislesGoNowhere : Prop :=
  ∀ (s : State) (a : Aisle) (b : Beam) (level : Bool),
    s.beamDue a b level = true → (s.site.aisles ≤ a.val ∨ s.modes.stored[a] = .off) →
    ∃ t, exec (if level then .breakEvent a b else .clearEvent a b) s = .next t
      ∧ (t.beam a b) = { raw := level, accepted := level, since := none }
      ∧ (∀ a' b', (a', b') ≠ (a, b) → t.beam a' b' = s.beam a' b')
      ∧ t.beams.key = s.beams.key ∧ Only [.beams] s t

/-- An open passage whose transit deadline passes closes TIMED-OUT: it leaves the list, its items become
loose tracks of the aisle attributed now, and a routine report without verdict or records is queued.
Its flags, as those of every passage that leaves, keep what it held, take CROWDED from the aisle's flag,
BLIND where the bus is HELD or both pedestals of the aisle are FAULTED, and HALF where the bus is not
HELD and exactly one of them is (R25, R64, R65). -/
def Obligations.TransitDeadlineClosesThePassage : Prop :=
  ∀ (s : State) (a : Aisle),
    (∀ n p, s.transitDue a n = some p →
      ∃ t, exec (.transitDeadline a n) s = .next t
        ∧ p ∈ s.opens a ∧ p.number = n ∧ passed s.clock.now p.deadline = true
        ∧ t.opens a = (s.opens a).erase p
        ∧ (∀ a' : Aisle, a' ≠ a → t.passages.aisles[a'] = s.passages.aisles[a'])
        ∧ t.passages.aisles[a].crowded = s.passages.aisles[a].crowded
        ∧ t.passages.next = s.passages.next
        ∧ (∀ i x, s.track? i = some x →
            t.track? i = some
              (match x.state with
               | .bound b _ => if i ∈ p.items then { x with state := .attributed b s.clock.now } else x
               | _ => x))
        ∧ t.link = (createReport false
            (.passage
              { number := n, aisle := a, direction := p.direction, outcome := .timedOut
                mode := s.effective a, flags := s.leavingFlags a p.flags, verdict := none
                openedAt := p.openedAt, closedAt := s.clock.now, verdictAt := s.clock.now
                count := p.items.length, items := [] }) s).link
        ∧ Only [.passages, .tracking, .link] s t)
    ∧ (∀ f : Flags,
        (s.leavingFlags a f).full = f.full ∧ (s.leavingFlags a f).forced = f.forced
        ∧ ((s.leavingFlags a f).crowded = true ↔
            f.crowded = true ∨ s.passages.aisles[a].crowded = true)
        ∧ ((s.leavingFlags a f).half = true ↔ f.half = true ∨ s.Half a)
        ∧ ((s.leavingFlags a f).blind = true ↔ f.blind = true ∨ s.Blind a))
    ∧ (s.sight a = .blind ↔ s.Blind a) ∧ (s.sight a = .half ↔ s.Half a)

/-- INVARIANT. Every step keeps the open passages within their bounds: none in an aisle that is OFF or
whose beams are both accepted as clear.  With the track table and the open passages within their
bounds, every step keeps tracks and passages in agreement: each BOUND track stands once in the item list
of exactly one open passage of its aisle, no item of an open passage is without its BOUND track, and at
most 240 tracks are BOUND (R34, R68). -/
def Obligations.StepsKeepTheOpenPassages : Prop :=
  (∀ s t : State, PassagesFit s → step s = .next t → PassagesFit t)
  ∧ ∀ s t : State, PassagesFit s → TracksFit s → BindingFits s → step s = .next t → BindingFits t

/-! ## Chapter 5: the item table -/

/-- LOOKUP answers with the entry's class, or ABSENT in a FRESH segment and UNKNOWN in another, with the
segment's state and the entry's expiry and desk, and changes nothing else. -/
def Obligations.LookupAnswersFromTheTable : Prop :=
  ∀ (s : State) (ref : Byte) (p : List Byte), s.dispatches → p.length = 8 → field64 p 0 ≠ 0 →
    (∀ e, s.entry? (field64 p 0) = some e →
      exec (.lookup ref p) s = .next (placeReply 0xA6 ref .ok
        ([e.cls.code, s.segments[segmentOf (field64 p 0)].state.code] ++ count16 e.expiry
          ++ [match e.desk with
              | some d => count8 d
              | none => 0xFF]) s.counted))
    ∧ (s.entry? (field64 p 0) = none →
        exec (.lookup ref p) s = .next (placeReply 0xA6 ref .ok
          [if s.segments[segmentOf (field64 p 0)].state = .fresh then 0x05 else 0x06,
           s.segments[segmentOf (field64 p 0)].state.code, 0xFF, 0xFF, 0xFF] s.counted))

/-- ISSUE creates an ISSUED entry or makes an entry of any class ISSUED; BEGIN-ISSUE creates a PENDING
entry of 10 minutes or restarts one; MARK creates or replaces an entry as BARRED or LOST, without a
desk.  Each names its expiry and desk by its own rule, and leaves every other entry as it is.  The
undecided items of the identifier are re-evaluated, and those decided complete their passages (R134);
the reply carries RESOLVED where an item was decided, LATE where none was and an ISSUE finds a SPENT
track that was stopped, and NONE else (R142).  That an item keeps its desk number where the change
carries none is log entry 14. -/
def Obligations.IssueBeginIssueAndMarkStoreTheirEntry : Prop :=
  ∀ (s : State) (ref : Byte) (p : List Byte), s.dispatches → field64 p 0 ≠ 0 →
    ((s.entry? (field64 p 0)).isSome = true
      ∨ s.segments[segmentOf (field64 p 0)].entries.length < 1024) →
    (p.length = 11 → (byteAt p 10 = 0xFF ∨ (byteAt p 10).toNat ≤ 31) →
      ∃ t, exec (.issue ref p) s = .next t
        ∧ Updated s t .issue .issue ref (field64 p 0)
            (some
              { ident := field64 p 0, cls := .issued
                expiry := if field16 p 8 = 0xFFFF then min s.site.expiry 1440
                          else min (field16 p 8).toNat 1440
                desk := if byteAt p 10 ≠ 0xFF then some (byteAt p 10).toNat
                        else match s.entry? (field64 p 0) with
                          | some e => if e.cls = .issued ∨ e.cls = .pending then e.desk else none
                          | none => none })
            (field16 p 8 ≠ 0xFFFF ∧ 1440 < (field16 p 8).toNat))
    ∧ (p.length = 9 → (byteAt p 8 = 0xFF ∨ (byteAt p 8).toNat ≤ 31) →
        (∀ e, s.entry? (field64 p 0) = some e → e.cls = .pending) →
        ∃ t, exec (.beginIssue ref p) s = .next t
          ∧ Updated s t .beginIssue .beginIssue ref (field64 p 0)
              (some
                { ident := field64 p 0, cls := .pending, expiry := 10
                  desk := if byteAt p 8 = 0xFF then none else some (byteAt p 8).toNat })
              false)
    ∧ (∀ cls, p.length = 12 → (byteAt p 11 = 0xFF ∨ (byteAt p 11).toNat ≤ 31) →
        (byteAt p 8 = 0x03 ∧ cls = .barred) ∨ (byteAt p 8 = 0x04 ∧ cls = .lost) →
        ∃ t, exec (.mark ref p) s = .next t
          ∧ Updated s t .mark .mark ref (field64 p 0)
              (some
                { ident := field64 p 0, cls := cls
                  expiry := if field16 p 9 = 0xFFFF then 0 else min (field16 p 9).toNat 1440
                  desk := none })
              (field16 p 9 ≠ 0xFFFF ∧ 1440 < (field16 p 9).toNat))

/-- CANCEL-ISSUE removes a PENDING entry, RETURN an ISSUED or PENDING one, UNMARK a BARRED or LOST one;
each is refused with MISMATCH for an entry of another class and with NOT-FOUND for none, and then the
table stands.  A removal re-evaluates the undecided items of the identifier as ABSENT or UNKNOWN (R134),
and its reply carries RESOLVED or NONE (R142).  That an item keeps its desk number is log entry 14. -/
def Obligations.CancelReturnAndUnmarkRemoveTheirEntry : Prop :=
  ∀ (s : State) (ref : Byte) (p : List Byte) (c : Instr) (k : RequestKind) (kind : ChangeKind)
    (takes : EntryClass → Prop),
    s.dispatches → p.length = 8 → field64 p 0 ≠ 0 →
    (c = .cancelIssue ref p ∧ k = .cancelIssue ∧ kind = .cancelIssue
        ∧ takes = fun x => x = .pending)
      ∨ (c = .returnItem ref p ∧ k = .returnItem ∧ kind = .returnItem
        ∧ takes = fun x => x = .issued ∨ x = .pending)
      ∨ (c = .unmark ref p ∧ k = .unmark ∧ kind = .unmark
        ∧ takes = fun x => x = .barred ∨ x = .lost) →
    (∀ e, s.entry? (field64 p 0) = some e → takes e.cls →
      ∃ t, exec c s = .next t ∧ Updated s t k kind ref (field64 p 0) none false)
    ∧ (∀ e, s.entry? (field64 p 0) = some e → ¬ takes e.cls →
      exec c s = .next (placeReply k.replyCode ref .mismatch [0x00, 0x00] s.counted))
    ∧ (s.entry? (field64 p 0) = none →
      exec c s = .next (placeReply k.replyCode ref .notFound [0x00, 0x00] s.counted))

/-- An update request or LOOKUP of identifier 0, an update with a desk number above 31, and a MARK with a
class other than BARRED or LOST are refused with RANGE: no entry changes and the effect is NONE.
ISSUE, BEGIN-ISSUE and MARK of an identifier without an entry are refused with FULL where its segment
holds 1,024, and BEGIN-ISSUE of an entry that is not PENDING with MISMATCH. -/
def Obligations.RefusedUpdatesChangeNoEntry : Prop :=
  ∀ (s : State) (ref : Byte) (p : List Byte), s.dispatches →
    (p.length = 11 → (field64 p 0 = 0 ∨ (byteAt p 10 ≠ 0xFF ∧ 31 < (byteAt p 10).toNat)) →
      exec (.issue ref p) s = .next (placeReply 0xA0 ref .range [0x00, 0x00] s.counted))
    ∧ (p.length = 9 → (field64 p 0 = 0 ∨ (byteAt p 8 ≠ 0xFF ∧ 31 < (byteAt p 8).toNat)) →
      exec (.beginIssue ref p) s = .next (placeReply 0xA1 ref .range [0x00, 0x00] s.counted))
    ∧ (p.length = 12 → (field64 p 0 = 0 ∨ (byteAt p 11 ≠ 0xFF ∧ 31 < (byteAt p 11).toNat)
          ∨ (byteAt p 8 ≠ 0x03 ∧ byteAt p 8 ≠ 0x04)) →
      exec (.mark ref p) s = .next (placeReply 0xA4 ref .range [0x00, 0x00] s.counted))
    ∧ (p.length = 8 → field64 p 0 = 0 →
      exec (.cancelIssue ref p) s = .next (placeReply 0xA2 ref .range [0x00, 0x00] s.counted)
      ∧ exec (.returnItem ref p) s = .next (placeReply 0xA3 ref .range [0x00, 0x00] s.counted)
      ∧ exec (.unmark ref p) s = .next (placeReply 0xA5 ref .range [0x00, 0x00] s.counted)
      ∧ exec (.lookup ref p) s
          = .next (placeReply 0xA6 ref .range [0x00, 0x00, 0x00, 0x00, 0x00] s.counted))
    ∧ (field64 p 0 ≠ 0 → s.entry? (field64 p 0) = none →
      1024 ≤ s.segments[segmentOf (field64 p 0)].entries.length →
      (p.length = 11 → (byteAt p 10 = 0xFF ∨ (byteAt p 10).toNat ≤ 31) →
        exec (.issue ref p) s = .next (placeReply 0xA0 ref .full [0x00, 0x00] s.counted))
      ∧ (p.length = 9 → (byteAt p 8 = 0xFF ∨ (byteAt p 8).toNat ≤ 31) →
        exec (.beginIssue ref p) s = .next (placeReply 0xA1 ref .full [0x00, 0x00] s.counted))
      ∧ (p.length = 12 → (byteAt p 11 = 0xFF ∨ (byteAt p 11).toNat ≤ 31) →
        (byteAt p 8 = 0x03 ∨ byteAt p 8 = 0x04) →
        exec (.mark ref p) s = .next (placeReply 0xA4 ref .full [0x00, 0x00] s.counted)))
    ∧ (∀ e, p.length = 9 → field64 p 0 ≠ 0 → (byteAt p 8 = 0xFF ∨ (byteAt p 8).toNat ≤ 31) →
      s.entry? (field64 p 0) = some e → e.cls ≠ .pending →
      exec (.beginIssue ref p) s = .next (placeReply 0xA1 ref .mismatch [0x00, 0x00] s.counted))

/-- The minute tick starts the phase again and ages every entry: one with an expiry above 1 loses a
minute, one with expiry 1 is removed, and one with expiry 0 stands.  No segment state changes. -/
def Obligations.MinuteTickAgesEveryEntry : Prop :=
  ∀ s : State, (∀ i : Fin 64, risingKeys Entry.key s.segments[i].entries = true) →
    60000 ≤ s.clock.phase →
    ∃ t, exec .minuteTick s = .next t
      ∧ t.clock = { now := s.clock.now, phase := 0 }
      ∧ (∀ i, s.entry? i = none → t.entry? i = none)
      ∧ (∀ i e, s.entry? i = some e →
          (e.expiry = 0 → t.entry? i = some e) ∧ (e.expiry = 1 → t.entry? i = none)
          ∧ (1 < e.expiry → t.entry? i = some { e with expiry := e.expiry - 1 }))
      ∧ (∀ i : Fin 64, t.segments[i].state = s.segments[i].state)
      ∧ Only [.clock, .segments, .tracking, .judging, .annunciators, .link] s t

/-- INVARIANT. Every step keeps every segment, and the record of a refresh in flight, within the bounds
and in the canonical form of the table: each entry in its own segment, one for an identifier, at most
1,024, each under the constraints of R78. -/
def Obligations.StepsKeepTheItemTable : Prop :=
  ∀ s t : State, TableFits s → step s = .next t → TableFits t

/-! ## Chapter 6: refresh, trust and link silence -/

/-- SEG-BEGIN is refused with BUSY while a refresh is in flight, and then with RANGE for a segment above
63 or a count above 1,024; otherwise it creates the refresh record. -/
def Obligations.SegBeginStartsARefresh : Prop :=
  ∀ (s : State) (ref : Byte) (p : List Byte), s.dispatches → p.length = 3 →
    (s.refresh ≠ none →
      exec (.segBegin ref p) s = .next (placeReply 0xA8 ref .busy [] s.counted))
    ∧ (s.refresh = none → (63 < (byteAt p 0).toNat ∨ 1024 < (field16 p 1).toNat) →
      exec (.segBegin ref p) s = .next (placeReply 0xA8 ref .range [] s.counted))
    ∧ (∀ i : Fin 64, s.refresh = none → i.val = (byteAt p 0).toNat → (field16 p 1).toNat ≤ 1024 →
      exec (.segBegin ref p) s = .next (placeReply 0xA8 ref .ok []
        (s.counted.setRefresh (some
          { segment := i, declared := (field16 p 1).toNat, received := 0, skipped := 0
            shadow := [], late := [], expected := 0, idleAt := after s.clock.now 2000 }))))

/-- A SEG-BLOCK for no refresh in flight is refused with NO-REFRESH; one with another block number than
the expected is refused with SEQUENCE and reloads the idle deadline; one that would pass the declared
count, or a last one that leaves it unmet, aborts the refresh with COUNT; any other block that is not
the last is taken, and the reply carries the counts so far.  The shadow then holds, for an identifier the
block carries in the segment with a defined class, the last such entry, without a desk, its expiry
clamped to 1,440 and that of a PENDING entry raised from 0 to 10; every other identifier keeps what the
shadow held, and every other entry of the block is skipped (R100). -/
def Obligations.SegBlockIsTakenInOrder : Prop :=
  ∀ (s : State) (ref : Byte) (p : List Byte), s.dispatches → 5 ≤ p.length →
    (byteAt p 4).toNat ≤ 16 → p.length = 5 + 11 * (byteAt p 4).toNat →
    ((∀ r, s.refresh = some r → r.segment.val ≠ (byteAt p 0).toNat) →
      exec (.segBlock ref p) s
        = .next (placeReply 0xA9 ref .noRefresh [0, 0, 0, 0, 0, 0, 0, 0] s.counted))
    ∧ (∀ r, s.refresh = some r → r.segment.val = (byteAt p 0).toNat →
        (field16 p 1 ≠ r.expected →
          exec (.segBlock ref p) s = .next (placeReply 0xA9 ref .sequence
            (count16 r.declared ++ count16 r.received ++ count16 r.skipped ++ [0, 0])
            (s.counted.setRefresh (some { r with idleAt := after s.clock.now 2000 }))))
        ∧ (field16 p 1 = r.expected →
          (r.declared < r.received + (byteAt p 4).toNat →
            exec (.segBlock ref p) s = .next (placeReply 0xA9 ref .count
              (count16 r.declared ++ count16 r.received ++ [0, 0, 0, 0])
              (s.counted.setRefresh none)))
          ∧ (r.received + (byteAt p 4).toNat ≤ r.declared →
            (byteAt p 3 = 0 →
              ∃ t r', exec (.segBlock ref p) s = .next t ∧ t.refresh = some r'
                ∧ r'.received = r.received + (byteAt p 4).toNat ∧ r'.expected = r.expected + 1
                ∧ r'.idleAt = after s.clock.now 2000 ∧ r'.late = r.late
                ∧ r'.segment = r.segment ∧ r'.declared = r.declared
                ∧ r'.skipped = r.skipped
                    + ((readEntries p (byteAt p 4).toNat 5).filter fun e =>
                        e.ident == 0 || segmentOf e.ident != r.segment
                          || (EntryClass.ofCode e.cls).isNone).length
                ∧ (∀ (l m : List BlockEntry) (x : BlockEntry) (c : EntryClass),
                    readEntries p (byteAt p 4).toNat 5 = l ++ x :: m →
                    x.ident ≠ 0 → segmentOf x.ident = r.segment → EntryClass.ofCode x.cls = some c →
                    (∀ y ∈ m, y.ident = x.ident → EntryClass.ofCode y.cls = none) →
                    r'.shadow.find? (fun e => e.ident == x.ident) = some
                      { ident := x.ident, cls := c, desk := none
                        expiry := if c = .pending ∧ x.expiry = 0 then 10 else min x.expiry 1440 })
                ∧ (∀ i, (∀ y ∈ readEntries p (byteAt p 4).toNat 5, y.ident = i →
                      i = 0 ∨ segmentOf i ≠ r.segment ∨ EntryClass.ofCode y.cls = none) →
                    r'.shadow.find? (fun e => e.ident == i) = r.shadow.find? (fun e => e.ident == i))
                ∧ t.link.replies = s.link.replies
                    ++ [{ kind := 0xA9, ref := ref, status := .ok
                          body := count16 r'.declared ++ count16 r'.received
                            ++ count16 r'.skipped ++ [0, 0] }]
                ∧ Only [.refresh, .supervisor, .link] s t)
            ∧ (byteAt p 3 ≠ 0 → r.received + (byteAt p 4).toNat ≠ r.declared →
              exec (.segBlock ref p) s = .next (placeReply 0xA9 ref .count
                (count16 r.declared ++ count16 (r.received + (byteAt p 4).toNat) ++ [0, 0, 0, 0])
                (s.counted.setRefresh none))))))

/-- The last block whose counts agree makes the swap: the segment's entries become the shadow's with the
late changes replayed, its state becomes FRESH, every other segment stands, and the reply DONE carries
the counts.  After the replay the identifier of the last recorded change of its identifier has that
change's entry, unless it was dropped for want of a place; an identifier with no late change has the
shadow's entry (R101, R102).  Then the segment's undecided items are looked up again, and those decided
complete their passages (R103, R135).  That such an item's desk number becomes what the lookup gives, or
none, is log entry 14. -/
def Obligations.LastBlockMakesTheSwap : Prop :=
  ∀ (s : State) (ref : Byte) (p : List Byte) (r : RefreshRecord), s.dispatches → 5 ≤ p.length →
    (byteAt p 4).toNat ≤ 16 → p.length = 5 + 11 * (byteAt p 4).toNat → byteAt p 3 ≠ 0 →
    s.refresh = some r → r.segment.val = (byteAt p 0).toNat → field16 p 1 = r.expected →
    r.received + (byteAt p 4).toNat = r.declared →
    ∃ t r', exec (.segBlock ref p) s = .next t
      ∧ r' = r.takeBlock s.clock.now (readEntries p (byteAt p 4).toNat 5)
      ∧ t.segments[r.segment] = { state := .fresh, entries := r'.replayed.1 }
      ∧ (∀ i : Fin 64, i ≠ r.segment → t.segments[i] = s.segments[i])
      ∧ t.refresh = none
      ∧ (∀ l c m, r.late = l ++ c :: m → (∀ d ∈ m, d.ident ≠ c.ident) →
          (∀ d ∈ r.late, ∀ e, d.entry = some e → e.ident = d.ident) →
          (c.entry = none → r'.replayed.1.find? (fun x => x.ident == c.ident) = none)
          ∧ (∀ e, c.entry = some e → r'.replayed.2 = 0 →
              r'.replayed.1.find? (fun x => x.ident == c.ident) = some e))
      ∧ (∀ i, (∀ d ∈ r.late, d.ident ≠ i ∧ ∀ e, d.entry = some e → e.ident ≠ i) →
          r'.replayed.1.find? (fun x => x.ident == i) = r'.shadow.find? (fun x => x.ident == i))
      ∧ Judged (relookedUp r.segment r'.replayed.1) s.counted t
      ∧ t.link.replies = s.link.replies
          ++ [{ kind := 0xA9, ref := ref, status := .done
                body := count16 r.declared ++ count16 r.declared ++ count16 r'.skipped
                  ++ count16 r'.replayed.2 }]
      ∧ Only [.segments, .refresh, .supervisor, .tracking, .judging, .annunciators, .link] s t

/-- An idle refresh aborts with a notice and leaves the live table as it is.  When the countdown passes,
every FRESH segment becomes SUSPECT, a refresh in flight aborts SILENT with its notice, LINK-SILENT
is queued, and the supervisor is EXPIRED; no entry changes. -/
def Obligations.IdleAndSilenceAbortTheRefresh : Prop :=
  ∀ s : State,
    (∀ r, s.refresh = some r → passed s.clock.now r.idleAt = true →
      exec .refreshIdleDeadline s
        = .next (notice (.refreshAborted .idle r.segment) (s.setRefresh none)))
    ∧ (∀ period d, s.supervisor = .running period d → passed s.clock.now d = true →
      ∃ t, exec .supervisorExpiry s = .next t
        ∧ (∀ i : Fin 64, t.segments[i].entries = s.segments[i].entries
            ∧ t.segments[i].state =
                if s.segments[i].state = .fresh then .suspect else s.segments[i].state)
        ∧ t.refresh = none ∧ t.supervisor = .expired period
        ∧ t.link = (notice .linkSilent
            (match s.refresh with
             | some r => notice (.refreshAborted .silent r.segment) s
             | none => s)).link
        ∧ Only [.segments, .refresh, .supervisor, .link] s t)

/-- TRUST makes each named segment FRESH and changes no entry.  SUPERVISE with period 0 is refused with
RANGE; any other period, clamped to 600 s, sets the supervisor RUNNING with a fresh countdown. -/
def Obligations.TrustAndSupervise : Prop :=
  ∀ (s : State) (ref : Byte) (p : List Byte), s.dispatches →
    (p.length = 8 →
      ∃ t, exec (.trust ref p) s = .next t
        ∧ (∀ i : Fin 64, t.segments[i].entries = s.segments[i].entries
            ∧ t.segments[i].state =
                if (field64 p 0).getLsbD i.val then .fresh else s.segments[i].state)
        ∧ t.link = (placeReply 0xAA ref .ok [] s.counted).link
        ∧ Only [.segments, .supervisor, .link] s t)
    ∧ (p.length = 2 →
      (field16 p 0 = 0 →
        exec (.supervise ref p) s = .next (placeReply 0xAB ref .range [0x00] s.counted))
      ∧ (field16 p 0 ≠ 0 →
        ∃ t, exec (.supervise ref p) s = .next t
          ∧ t.supervisor = .running (min (field16 p 0).toNat 600)
              (after s.clock.now (min (field16 p 0).toNat 600 * 1000))
          ∧ t.link = (placeReply 0xAB ref
              (if 600 < (field16 p 0).toNat then .clamped else .ok)
              [if 600 < (field16 p 0).toNat then 0x01 else 0x00] s.counted).link
          ∧ Only [.supervisor, .link] s t))

/-! ## Chapter 7: queries -/

/-- An ANSWER that names an outstanding query by number and identifier closes it, gives its track the
result and decides the items of the identifier that wait ANSWER by R136; any other is UNMATCHED.  A
class result is stored in either case where there is room, with the expiry of its class's rule and the
desk of an ISSUED or PENDING entry kept, and is then forwarded to the watch (R134); where there is no
room nothing is stored, and a matched answer is answered FULL; NONE stores nothing.  Identifier 0 and an
undefined result are refused with RANGE.  That an UNMATCHED reply says CLAMPED of an expiry it stored
clamped is log entry 13 (DEDUCED).  That an item keeps its desk number where the stored entry has none
is log entry 14. -/
def Obligations.AnswerMatchesAndStores : Prop :=
  ∀ (s : State) (ref : Byte) (p : List Byte), s.dispatches → p.length = 12 →
    ((field64 p 1 = 0 ∨ 4 < (byteAt p 9).toNat) →
      exec (.answer ref p) s = .next (placeReply 0xB0 ref .range [0x00] s.counted))
    ∧ (∀ (a : HostAnswer) (hit clamp : Bool), field64 p 1 ≠ 0 →
        HostAnswer.ofCode (byteAt p 9) = some a →
        (hit = true ↔ byteAt p 0 ≠ 0
          ∧ ∃ q ∈ s.queries.list, q.number = byteAt p 0 ∧ q.ident = field64 p 1) →
        (clamp = true ↔ field16 p 10 ≠ 0xFFFF ∧ 1440 < (field16 p 10).toNat) →
        ∃ b m t, exec (.answer ref p) s = .next t
          ∧ (hit = false → m = s.counted)
          ∧ (hit = true →
              Only [.queries, .tracking, .supervisor, .link] s b ∧ b.link = s.counted.link
              ∧ (∀ i, b.track? i = (s.track? i).map fun x =>
                  if i = field64 p 1 then { x with answer := some a } else x)
              ∧ Judged (answered (field64 p 1) a
                  (s.segments[segmentOf (field64 p 1)].state == .fresh)) b m
              ∧ Only [.tracking, .judging, .annunciators, .link] b m)
          ∧ (∀ c, a = .entry c →
              ((s.entry? (field64 p 1)).isSome = true
                ∨ s.segments[segmentOf (field64 p 1)].entries.length < 1024) →
              Judged (reevaluated (field64 p 1) (t.entry? (field64 p 1))
                (s.segments[segmentOf (field64 p 1)].state == .fresh)) (lateBase (field64 p 1) m) t)
          ∧ (a = .noException ∨ (s.entry? (field64 p 1) = none
                ∧ 1024 ≤ s.segments[segmentOf (field64 p 1)].entries.length) →
              t.judging = m.judging ∧ t.tracking = m.tracking ∧ t.annunciators = m.annunciators
              ∧ t.link.urgent = m.link.urgent ∧ t.link.routine = m.link.routine
              ∧ t.link.nextReport = m.link.nextReport)
          ∧ (hit = true →
              t.queries.list = s.queries.list.filter (fun q => q.ident != field64 p 1)
              ∧ t.queries.next = s.queries.next
              ∧ (∀ x, s.track? (field64 p 1) = some x →
                  ∃ y, t.track? (field64 p 1) = some y ∧ y.answer = some a ∧ y.mark = x.mark
                    ∧ y.evidence = x.evidence)
              ∧ (∀ j ∈ t.judging, ∀ r ∈ j.items, r.ident = field64 p 1 →
                  r.status ≠ .waiting .answer))
          ∧ (hit = false → t.queries = s.queries
              ∧ ∀ x, s.track? (field64 p 1) = some x →
                  ∃ y, t.track? (field64 p 1) = some y ∧ y.answer = x.answer)
          ∧ (a = .noException → t.segments = s.segments ∧ t.refresh = s.refresh
              ∧ t.link.replies = s.link.replies
                ++ [{ kind := 0xB0, ref := ref, status := if hit then .ok else .unmatched
                      body := [0x00] }])
          ∧ (∀ c, a = .entry c →
              ((s.entry? (field64 p 1)).isSome = true
                ∨ s.segments[segmentOf (field64 p 1)].entries.length < 1024) →
              t.entry? (field64 p 1) = some
                { ident := field64 p 1, cls := c
                  expiry :=
                    if field16 p 10 = 0xFFFF then
                      (if c = .issued then min s.site.expiry 1440 else if c = .pending then 10 else 0)
                    else if c = .pending ∧ field16 p 10 = 0 then 10
                    else min (field16 p 10).toNat 1440
                  desk := if c = .issued ∨ c = .pending then
                      (match s.entry? (field64 p 1) with
                       | some e => if e.cls = .issued ∨ e.cls = .pending then e.desk else none
                       | none => none)
                    else none }
              ∧ (∀ i, i ≠ field64 p 1 → t.entry? i = s.entry? i)
              ∧ (∀ i : Fin 64, t.segments[i].state = s.segments[i].state)
              ∧ t.refresh = lateRecord .answer (field64 p 1) (t.entry? (field64 p 1)) s.refresh
              ∧ t.link.replies = s.link.replies
                ++ [{ kind := 0xB0, ref := ref
                      status := if hit then (if clamp then .clamped else .ok) else .unmatched
                      body := [if clamp then 0x01 else 0x00] }])
          ∧ (∀ c, a = .entry c → s.entry? (field64 p 1) = none →
              1024 ≤ s.segments[segmentOf (field64 p 1)].entries.length →
              t.segments = s.segments ∧ t.refresh = s.refresh
              ∧ t.link.replies = s.link.replies
                ++ [{ kind := 0xB0, ref := ref, status := if hit then .full else .unmatched
                      body := [0x00] }])
          ∧ Only [.queries, .segments, .refresh, .supervisor, .tracking, .judging, .annunciators,
              .link] s t)

/-- When a query's deadline passes, the query leaves the list, its track is marked LAPSED and keeps its
host answer, and the items of its identifier that wait ANSWER are decided by their guard flags, SOFT or
PASS, basis FALLBACK (R123, R137).  A track that is freed or evicted leaves the table, and its
outstanding query, if any, is purged with the same outcome for its items (R53, R124). -/
def Obligations.QueryDeadlineLapsesTheQuery : Prop :=
  (∀ (s : State) (n : Byte) (q : Query),
    s.queries.list.find? (fun x => x.number == n) = some q → passed s.clock.now q.deadline = true →
    ∃ b t, exec (.queryDeadline n) s = .next t
      ∧ (∀ i, b.track? i = (s.track? i).map fun x =>
          if i = q.ident then { x with mark := .lapsed } else x)
      ∧ Only [.queries, .tracking] s b
      ∧ Judged (lapsed q.ident) b t
      ∧ t.queries.list = s.queries.list.filter (fun x => x.ident != q.ident)
      ∧ t.queries.next = s.queries.next
      ∧ (∀ x, s.track? q.ident = some x →
          ∃ y, t.track? q.ident = some y ∧ y.mark = .lapsed ∧ y.answer = x.answer
            ∧ y.evidence = x.evidence)
      ∧ (∀ j ∈ t.judging, ∀ r ∈ j.items, r.ident = q.ident → r.status ≠ .waiting .answer)
      ∧ (∀ j ∈ t.judging, j.undecided = true)
      ∧ t.link.replies = s.link.replies
      ∧ Only [.queries, .tracking, .judging, .annunciators, .link] s t)
  ∧ ∀ (s : State) (id : Ident), Freed s id (freeTrack s id)

/-- INVARIANT. Every step keeps the query list: at most 16 queries, of different identifiers and
different numbers from 1 to 255. -/
def Obligations.StepsKeepTheQueryList : Prop :=
  ∀ s t : State, QueriesFit s → step s = .next t → QueriesFit t

/-! ## Chapter 8: verdicts -/

/-- The tables of R128 and R129: what an item of an EXIT passage, or of an ENTRY passage, is at
completion, by its lookup result, the host's answer, whether its query is outstanding, and the guard
flag; and what fills those from the track and the table (R127).  The item of an UNKNOWN lookup with mark
ASKED, no host answer and no outstanding query, for which R128 has no row, is given FALLBACK by its
guard flag (the model's choice, log entry 15). -/
def Obligations.ExitItemIsDecidedByTheTable : Prop :=
  (∀ (guard asked : Bool) (answer : Option HostAnswer),
    (∀ c, c = .lost ∨ c = .barred →
      exitStatus guard (.entry c) answer asked = .decided .alarm .table)
    ∧ exitStatus guard (.entry .issued) answer asked = .decided .pass .table
    ∧ exitStatus guard (.entry .pending) answer asked = .waiting .grace
    ∧ exitStatus guard .absent answer asked = .decided (if guard then .alarm else .pass) .tag
    ∧ (∀ c, c = .lost ∨ c = .barred →
        exitStatus guard .unknown (some (.entry c)) asked = .decided .alarm .answer)
    ∧ exitStatus guard .unknown (some (.entry .issued)) asked = .decided .pass .answer
    ∧ exitStatus guard .unknown (some (.entry .pending)) asked = .waiting .grace
    ∧ exitStatus guard .unknown (some .noException) asked
        = .decided (if guard then .alarm else .pass) .answer
    ∧ exitStatus guard .unknown none true = .waiting .answer
    ∧ exitStatus guard .unknown none false = .decided (if guard then .soft else .pass) .fallback
    ∧ entryPassageStatus (.entry .lost) answer = .decided .note .table
    ∧ (∀ c, c ≠ .lost → entryPassageStatus (.entry c) answer = .decided .pass .table)
    ∧ entryPassageStatus .absent answer = .decided .pass .tag
    ∧ entryPassageStatus .unknown (some (.entry .lost)) = .decided .note .answer
    ∧ (∀ h, h ≠ .entry .lost → entryPassageStatus .unknown (some h) = .decided .pass .answer)
    ∧ entryPassageStatus .unknown none = .decided .pass .fallback)
  ∧ ∀ (s : State) (d : Direction) (x : Track) (l : LookupResult) (asked : Bool),
    s.track? x.ident = some x →
    (∀ e, s.entry? x.ident = some e → l = .entry e.cls) →
    (s.entry? x.ident = none →
      l = if s.segments[segmentOf x.ident].state = .fresh then .absent else .unknown) →
    (asked = true ↔ x.mark = .asked ∧ ∃ q ∈ s.queries.list, q.ident = x.ident) →
    fillItem d s x.ident =
      { ident := x.ident, guard := x.guard, lookup := l, answer := x.answer
        desk := match s.entry? x.ident with
          | some e => e.desk
          | none => none
        status := match d with
          | .exit => exitStatus x.guard l x.answer asked
          | .entry => entryPassageStatus l x.answer }

/-- The passage verdict is the strongest item verdict, raised to SOFT by the flag FULL; with no items and
no FULL it is PASS. -/
def Obligations.PassageVerdictIsTheStrongest : Prop :=
  ∀ j : Judging,
    (∀ r ∈ j.items, r.verdict.strength ≤ j.verdict.strength)
    ∧ (j.flags.full = true → Verdict.soft.strength ≤ j.verdict.strength)
    ∧ (j.verdict = .pass ∨ (∃ r ∈ j.items, j.verdict = r.verdict)
        ∨ (j.flags.full = true ∧ j.verdict = .soft))
    ∧ (j.items = [] → j.flags.full = false → j.verdict = .pass)

/-- A completed passage with nothing undecided never joins the verdict queue and is given its verdict at
once: the item verdicts are written into its SPENT tracks, the verdict goes to the annunciator of an
aisle in effective GUARD, and its report is queued (R131, R139, R140).  One with an undecided item joins
the queue's end, and where the queue holds 16 the oldest is forced first: it leaves with its undecided
items decided by their guard flags alone, flag FORCED, and is given its verdict (R133).  That a verdict
is written only into a track SPENT in the passage of that number is log entry 28. -/
def Obligations.CompletedPassageIsGivenOrQueued : Prop :=
  ∀ (s : State) (j : Judging),
    Given s j (giveVerdict s j)
    ∧ (j.undecided = false → judgePassage j s = giveVerdict s j)
    ∧ (j.undecided = true →
      (s.judging.length < 16 → judgePassage j s = s.setJudging (s.judging ++ [j]))
      ∧ (∀ oldest rest, s.judging = oldest :: rest → 16 ≤ s.judging.length →
          ∃ m, Given (s.setJudging rest) (forcedOut oldest) m
            ∧ judgePassage j s = m.setJudging (rest ++ [j])
            ∧ (forcedOut oldest).undecided = false))

/-- When a grace deadline passes, every item of that passage that waits GRACE is decided: ALARM or PASS
by its guard flag in a FRESH segment, SOFT or PASS in another, basis GRACE; the passage is marked, so
that a later PENDING is decided at once (R138).  A passage with nothing undecided left leaves the queue
and is given its verdict with those items; the others stand. -/
def Obligations.GraceDeadlineDecidesWaitingItems : Prop :=
  ∀ (s : State) (n : Word16), (∃ j ∈ s.judging, j.graceDue s.clock.now n = true) →
    (∀ j ∈ s.judging, j.undecided = true) →
    ∃ t, exec (.graceDeadline n) s = .next t
      ∧ Judged (fun j =>
          if j.number = n ∧ j.gracePassed = false ∧ passed s.clock.now j.grace = true then
            graceRunOut s j
          else j) s t
      ∧ (∀ j ∈ s.judging, j.graceDue s.clock.now n = false → j ∈ t.judging)
      ∧ (∀ j ∈ s.judging, j.graceDue s.clock.now n = true →
          (∀ r ∈ j.items, r.undecided = true → r.status = .waiting .grace) →
          j.graceExpires s ∉ t.judging)
      ∧ (∀ j ∈ t.judging, j ∈ s.judging ∨
          (j.gracePassed = true ∧ ∀ r ∈ j.items, r.status ≠ .waiting .grace))
      ∧ t.link.replies = s.link.replies
      ∧ Only [.tracking, .judging, .annunciators, .link] s t

/-- INVARIANT. With the open passages within their bounds, every step keeps the verdict queue: at most 16
passages, each an EXIT passage with an undecided item and at most 10 items. -/
def Obligations.StepsKeepTheVerdictQueue : Prop :=
  ∀ s t : State, PassagesFit s → JudgingFits s → step s = .next t → JudgingFits t

/-! ## Chapter 9: annunciators -/

/-- An ALARM handed to an annunciator makes it SOUNDING, latching the tone anew unless it sounds already,
with its deadline A seconds ahead; a SOFT makes it SHOWING, but leaves a SOUNDING one as it is. -/
def Obligations.AlarmSoundsAndSoftShows : Prop :=
  ∀ (s : State) (a : Aisle),
    ((handVerdict a .alarm s).annunciators[a] =
      match s.annunciators[a] with
      | .sounding _ pattern pitch start =>
        .sounding (after s.clock.now (s.site.alarm * 1000)) pattern pitch start
      | _ => .sounding (after s.clock.now (s.site.alarm * 1000)) s.site.pattern s.site.pitch
          s.clock.now)
    ∧ ((handVerdict a .soft s).annunciators[a] =
        match s.annunciators[a] with
        | .sounding d pattern pitch start => .sounding d pattern pitch start
        | _ => .showing (after s.clock.now (s.site.alarm * 1000)))
    ∧ handVerdict a .note s = s ∧ handVerdict a .pass s = s
    ∧ ∀ v (a' : Aisle), a' ≠ a →
        (handVerdict a v s).annunciators[a'] = s.annunciators[a']
          ∧ Only [.annunciators] s (handVerdict a v s)

/-- SILENCE lowers every SOUNDING annunciator it names to SHOWING with its deadline kept, and an accepted
key press does so for the aisles 1..N with no reply; a duration deadline makes its annunciator QUIET.
The lamp is dark in QUIET, lit in SHOWING, and in SOUNDING lit and dark by turns of 250 ms from the
start; the tone is silent but in SOUNDING, where the pattern gives it: the pitch throughout, the pitch
and the next lower one by turns, or the pitch and silence by turns (R146, R147).  That the time since the
start is counted modulo 2^32 ms is the model's choice (log entry 38). -/
def Obligations.SilenceLowersAndDurationQuiets : Prop :=
  ∀ (s : State) (ref : Byte) (p : List Byte),
    (s.dispatches → p.length = 1 →
      (namedAisles s.site.aisles (byteAt p 0) = none →
        exec (.silence ref p) s = .next (placeReply 0x9A ref .range [] s.counted))
      ∧ (∀ as, namedAisles s.site.aisles (byteAt p 0) = some as →
        ∃ t, exec (.silence ref p) s = .next t
          ∧ (∀ a : Aisle, t.annunciators[a] =
              if a ∈ as then
                (match s.annunciators[a] with
                 | .sounding d _ _ _ => .showing d
                 | x => x)
              else s.annunciators[a])
          ∧ t.link = (placeReply 0x9A ref .ok [] s.counted).link
          ∧ Only [.annunciators, .supervisor, .link] s t))
    ∧ (s.beams.key.due s.clock.now s.site.debounce true = true →
      ∃ t, exec .silenceKeyPress s = .next t
        ∧ (∀ a : Aisle, t.annunciators[a] =
            if a.val < s.site.aisles then
              (match s.annunciators[a] with
               | .sounding d _ _ _ => .showing d
               | x => x)
            else s.annunciators[a])
        ∧ t.beams = { s.beams with key := { raw := true, accepted := true, since := none } }
        ∧ Only [.beams, .annunciators] s t)
    ∧ (s.beams.key.due s.clock.now s.site.debounce false = true →
      exec .silenceKeyRelease s = .next (s.setBeams
        { s.beams with key := { raw := false, accepted := false, since := none } }))
    ∧ (∀ (a : Aisle) d, s.annunciators[a].deadline? = some d → passed s.clock.now d = true →
      ∃ t, exec (.durationDeadline a) s = .next t ∧ t.annunciators[a] = .quiet
        ∧ (∀ a' : Aisle, a' ≠ a → t.annunciators[a'] = s.annunciators[a'])
        ∧ Only [.annunciators] s t)
    ∧ (∀ a : Aisle,
      (s.annunciators[a] = .quiet → s.lamp a = false ∧ s.tone a = .silent)
      ∧ (∀ d, s.annunciators[a] = .showing d → s.lamp a = true ∧ s.tone a = .silent)
      ∧ ∀ d pattern pitch start (k hz lower : Nat),
          s.annunciators[a] = .sounding d pattern pitch start →
          k = (s.clock.now - start).toNat / 250 →
          (pitch = .low ∧ hz = 1600 ∧ lower = 1200) ∨ (pitch = .mid ∧ hz = 2400 ∧ lower = 1600)
            ∨ (pitch = .high ∧ hz = 3200 ∧ lower = 2400) →
          s.lamp a = decide (k % 2 = 0)
          ∧ s.tone a = match pattern with
            | .steady => .hertz hz
            | .twoTone => if k % 2 = 0 then .hertz hz else .hertz lower
            | .pulsed => if k % 2 = 0 then .hertz hz else .silent)

/-- INVARIANT. After every step an annunciator is SOUNDING or SHOWING only while its aisle's effective
mode is GUARD. -/
def Obligations.StepsKeepAnnunciatorsUnderGuard : Prop :=
  ∀ s t : State, AnnunciatorsFit s → step s = .next t → AnnunciatorsFit t

/-! ## Chapter 10: the host link -/

/-- A good frame that finds a RESTART waiting, or all eight places of the reply queue occupied, is
counted by the supervisor and otherwise discarded; one that is dispatched with a kind that is no
request, or with a payload length its kind does not allow, is answered REJECT with KIND or FORMAT and
has no other effect.  The frame of a kind that is no request is the command UNKNOWN_KIND_FRAME, which is
said of it by name.  Counting reloads a RUNNING countdown, and makes an EXPIRED supervisor RUNNING with
notice LINK-RESTORED.  That a good frame leaves the receiver with no bytes is log entry 9. -/
def Obligations.GoodFramesAreCountedDiscardedOrRejected : Prop :=
  (∀ (s : State) (c : Instr) (f : Frame), hostFrame c = some f →
    ((s.link.restart ≠ none ∨ 8 ≤ placesUsed s) → exec c s = .next s.counted)
    ∧ (s.dispatches → RequestKind.ofCode f.kind = none →
        exec c s = .next (placeReply 0xFF f.ref .kind [f.kind] s.counted))
    ∧ (∀ k, s.dispatches → RequestKind.ofCode f.kind = some k → lengthAllowed k f.payload = false →
        exec c s = .next (placeReply 0xFF f.ref .format [f.kind] s.counted))
    ∧ (s.supervisor = .disarmed → s.counted = s.setRx [])
    ∧ (∀ n d, s.supervisor = .running n d →
        s.counted = (s.setRx []).setSupervisor (.running n (after s.clock.now (n * 1000))))
    ∧ (∀ n, s.supervisor = .expired n →
        s.counted = notice .linkRestored
          ((s.setRx []).setSupervisor (.running n (after s.clock.now (n * 1000))))))
  ∧ ∀ (s : State) (kind ref : Byte) (p : List Byte), s.dispatches → RequestKind.ofCode kind = none →
      exec (.unknownKindFrame kind ref p) s = .next (placeReply 0xFF ref .kind [kind] s.counted)

/-- DESCRIBE answers with the 32 descriptor bytes from its offset, wrapping; STATUS with the 49 bytes of
the device view or the 25 of an aisle's view (R167, R168, R180); RESTART with OK, after which the part
waits for that reply.  An offset above 127, a view above 8 and an undefined restart kind are refused
with RANGE; that a refused DESCRIBE still carries 32 descriptor bytes of 00h is log entry 12 (DEDUCED). -/
def Obligations.LinkUnitRequests : Prop :=
  ∀ (s : State) (ref x : Byte), s.dispatches →
    (x.toNat ≤ 127 →
      ∃ bytes : List Byte, bytes.length = 32
        ∧ (∀ k, k < 32 → bytes.getD k 0 = Config.descriptor.getD ((x.toNat + k) % 128) 0)
        ∧ exec (.describe ref [x]) s = .next (placeReply 0x90 ref .ok bytes s.counted))
    ∧ (127 < x.toNat → exec (.describe ref [x]) s
        = .next (placeReply 0x90 ref .range (List.replicate 32 0x00) s.counted))
    ∧ (∃ c v, c = s.counted ∧ v.length = 49
        ∧ exec (.statusDevice ref [0x00]) s = .next (placeReply 0x91 ref .ok v c)
        ∧ (v.take 2 = match s.bus.activity with
            | .idle => [0x00, 0xFF]
            | .polling t _ => [if s.bus.grant.isSome then 0x02 else 0x00, count8 t.pedestal.val]
            | .receiving t _ _ => [if s.bus.grant.isSome then 0x02 else 0x00, count8 t.pedestal.val]
            | .delivering t _ _ => [if s.bus.grant.isSome then 0x02 else 0x00, count8 t.pedestal.val]
            | .waiting t _ => [if s.bus.grant.isSome then 0x02 else 0x01, count8 t.pedestal.val]
            | .ended q => [0x02, count8 q.val]
            | .held _ => [0x03, 0xFF])
        ∧ (∀ q : Pedestal, v.getD (2 + q.val) 0
            = count8 s.bus.health[q].count + if s.bus.health[q].faulted then 0x80 else 0x00)
        ∧ ((v.drop 11).take 7 = match c.supervisor with
            | .disarmed => [0, 0, 0, 0, 0, 0, 0]
            | .running n d => 0x01 :: count16 n
                ++ bytes32 (if passed s.clock.now d then 0 else d - s.clock.now)
            | .expired n => 0x02 :: count16 n ++ [0, 0, 0, 0])
        ∧ ((v.drop 18).take 3 = match s.refresh with
            | some r => count8 r.segment.val :: count16 r.received
            | none => [0xFF, 0, 0])
        ∧ (∀ i : Fin 64, (v.getD (21 + i.val / 4) 0).toNat / 4 ^ (i.val % 4) % 4
            = match s.segments[i].state with
              | .stale => 0
              | .fresh => 1
              | .suspect => 2)
        ∧ v.drop 37 = count16 s.tracking.tracks.length
            ++ [count8 s.queries.list.length, count8 s.judging.length,
                count8 (c.link.urgent.length + c.link.routine.length)]
            ++ bytes16 c.link.nextReport
            ++ (if s.modes.evac.accepted then 0x01 else 0x00) :: bytes32 s.clock.now)
    ∧ (∀ a : Aisle, x.toNat = a.val + 1 →
        ∃ v sight, exec (.statusAisle ref [x]) s = .next (placeReply 0x91 ref .ok v s.counted)
          ∧ (s.Blind a → sight = 0x02) ∧ (s.Half a → sight = 0x01)
          ∧ (¬ s.Blind a → ¬ s.Half a → sight = 0x00)
          ∧ v = [x,
              match s.modes.stored[a] with
              | .off => 0x00
              | .watch => 0x01
              | .guard => 0x02,
              match s.effective a with
              | .off => 0x00
              | .watch => 0x01
              | .guard => 0x02
              | .free => 0x03,
              if (s.beam a .inner).accepted then 0x01 else 0x00,
              if (s.beam a .outer).accepted then 0x01 else 0x00,
              sight,
              if s.passages.aisles[a].crowded then 0x01 else 0x00,
              count8 (s.opens a).length]
            ++ ((s.opens a).flatMap (fun q : Passage => bytes16 q.number
                  ++ [if q.phase = Phase.opened then 0x00 else 0x01, count8 q.items.length])
                ++ List.replicate 12 0x00).take 12
            ++ (match s.annunciators[a] with
                | .quiet => [0, 0, 0, 0, 0]
                | .sounding d _ _ _ =>
                  0x01 :: bytes32 (if passed s.clock.now d then 0 else d - s.clock.now)
                | .showing d =>
                  0x02 :: bytes32 (if passed s.clock.now d then 0 else d - s.clock.now)))
    ∧ (8 < x.toNat → exec (.statusAisle ref [x]) s
        = .next (placeReply 0x91 ref .range [] s.counted))
    ∧ exec (.restartFull ref [0x01]) s = .next (placeReply 0x92 ref .ok []
        (s.counted.setLink { s.counted.link with restart := some { kind := .full, left := false } }))
    ∧ exec (.restartDetection ref [0x02]) s = .next (placeReply 0x92 ref .ok []
        (s.counted.setLink
          { s.counted.link with restart := some { kind := .detection, left := false } }))
    ∧ (x ≠ 0x01 → x ≠ 0x02 → exec (.restartFull ref [x]) s
        = .next (placeReply 0x92 ref .range [] s.counted))

/-- Whenever the line is free and no restart is due, the transmitter takes the oldest reply, else the
oldest unsent query, which it marks sent, else the oldest urgent report, else the oldest routine one,
and sends its frame whole; when its last byte has left, the line is free, and a RESTART whose reply it
was may take place.  LINE_FREE is taken whenever it is sent (log entry 5), and no frame is taken once a
restart is due (log entry 20). -/
def Obligations.TransmitterTakesInOrder : Prop :=
  ∀ s : State,
    (s.link.line = none → s.link.restartDue = false →
      (∀ r rest, s.link.replies = r :: rest →
        exec .transmitterTake s = .next (s.setLink { s.link with
          replies := rest
          line := some { bytes := r.frame.bytes, started := s.clock.now
                         restartReply := r.ofRestart } }))
      ∧ (∀ l q m, s.link.replies = [] → s.queries.list = l ++ q :: m → q.sent = false →
          (∀ x ∈ l, x.sent = true) →
          exec .transmitterTake s =
            .next ((s.setQueries { s.queries with list := l ++ { q with sent := true } :: m }).setLink
              { s.link with line := some { bytes := q.frame.bytes, started := s.clock.now
                                           restartReply := false } }))
      ∧ (s.link.replies = [] → (∀ q ∈ s.queries.list, q.sent = true) →
          (∀ r rest, s.link.urgent = r :: rest →
            exec .transmitterTake s = .next (s.setLink { s.link with
              urgent := rest
              line := some { bytes := r.frame.bytes, started := s.clock.now
                             restartReply := false } }))
          ∧ (∀ r rest, s.link.urgent = [] → s.link.routine = r :: rest →
            exec .transmitterTake s = .next (s.setLink { s.link with
              routine := rest
              line := some { bytes := r.frame.bytes, started := s.clock.now
                             restartReply := false } }))))
    ∧ (∀ f, s.link.line = some f →
        exec .lineFree s = .next (s.setLink { s.link with
          line := none
          restart := s.link.restart.map fun w => { w with left := w.left || f.restartReply } }))

/-- A report takes the next number and the part time, and joins the list of its class; where the queue
holds 48 the oldest routine report goes first, or the oldest urgent one where there is none. -/
def Obligations.ReportsAreNumberedAndEvicted : Prop :=
  ∀ (s : State) (urgent : Bool) (body : ReportBody),
    (createReport urgent body s).link.nextReport = s.link.nextReport + 1
    ∧ Only [.link] s (createReport urgent body s)
    ∧ (∀ u r, u = (createReport urgent body s).link.urgent →
        r = (createReport urgent body s).link.routine →
        ∃ report : Report,
          report = { number := s.link.nextReport, stamp := s.clock.now, body := body }
          ∧ (s.link.urgent.length + s.link.routine.length < 48 →
              u = s.link.urgent ++ (if urgent then [report] else [])
              ∧ r = s.link.routine ++ (if urgent then [] else [report]))
          ∧ (48 ≤ s.link.urgent.length + s.link.routine.length →
              (s.link.routine ≠ [] →
                u = s.link.urgent ++ (if urgent then [report] else [])
                ∧ r = s.link.routine.tail ++ (if urgent then [] else [report]))
              ∧ (s.link.routine = [] →
                u = s.link.urgent.tail ++ (if urgent then [report] else [])
                ∧ r = if urgent then [] else [report])))

/-- INVARIANT. Every step keeps the report queue at 48 reports or fewer and the reply queue within its 8
places, and the bus controller's health records, turn and grant within their bounds. -/
def Obligations.StepsKeepTheLinkAndBusWithinBounds : Prop :=
  ∀ s t : State, LinkFits s → BusFits s.bus → step s = .next t → LinkFits t ∧ BusFits t.bus

/-! ## Chapter 11: formats -/

/-- ENCODING. A receiver that is HUNTING, given the bytes of any frame the format allows, finds exactly
that frame good and is HUNTING again. -/
def Obligations.ReceiverFindsEveryFrame : Prop :=
  ∀ (f : Frame) (now : Time), f.payload.length ≤ 247 →
    hunt false 0 (f.bytes.map fun b => { time := now, byte := b }) = ([f], [])

/-- ENCODING. The fields of a request survive their layout: the payload of any request whose fields fit
the layout is allowed for its kind and reads back as that request. -/
def Obligations.RequestPayloadsReadBack : Prop :=
  ∀ r : Request,
    (match r with
     | .issue _ e d => (∀ n, e = some n → n < 65535) ∧ ∀ n, d = some n → n < 255
     | .beginIssue _ d => ∀ n, d = some n → n < 255
     | .mark _ _ e d => (∀ n, e = some n → n < 65535) ∧ ∀ n, d = some n → n < 255
     | .answer _ _ _ e => ∀ n, e = some n → n < 65535
     | .segBegin _ n => n < 65536
     | .supervise n => n < 65536
     | .segBlock _ _ _ es => es.length ≤ 16 ∧ ∀ x ∈ es, x.expiry < 65536
     | .readerPass _ bs => 1 ≤ bs.length ∧ bs.length ≤ 64
     | .setSite f => f.aisles < 256 ∧ f.floor < 256 ∧ f.threshold < 65536 ∧ f.margin < 256
         ∧ f.decay < 65536 ∧ f.transit < 65536 ∧ f.grace < 65536 ∧ f.query < 65536
         ∧ f.alarm < 256 ∧ f.debounce < 256 ∧ f.expiry < 65536
     | _ => True) →
    ∀ ref, parseFrame { kind := r.kind.code, ref := ref, payload := r.payload } = .request r.kind r

/-- Bytes that arrive after those of a frame being collected, if any, and hold no other start byte: a
frame whose CRC bytes do not match the CRC of its LEN, kind, REF and payload, one whose LEN is out of
range, and one with a gap of more than 20 ms between two of its bytes are discarded: no reply, no count,
and the receiver is HUNTING.  A frame in range that is not complete is still collected, unless no byte
follows for more than 20 ms, which discards it; after such a gap no frame is still being collected.  The
bytes of a command arrive at the present part time (log entry 10). -/
def Obligations.BadFramesAreDiscarded : Prop :=
  ∀ (s : State) (bytes : List Byte),
    (∀ (start : RxByte) (rest : List RxByte),
      s.link.rx ++ bytes.map (fun b => { time := s.clock.now, byte := b }) = start :: rest →
      start.byte = 0xA5 → (∀ b ∈ rest, b.byte ≠ 0xA5) →
      ((∃ (f : Frame) (crc : Word16), f.payload.length ≤ 247 ∧ crc ≠ crc16 f.covered
            ∧ rest.map (·.byte) = f.covered ++ bytes16 crc)
          ∨ (∃ len body, rest = len :: body ∧ (len.byte.toNat < 2 ∨ 249 < len.byte.toNat))
          ∨ (∃ len body i b c, rest = len :: body ∧ i < len.byte.toNat + 3
              ∧ (start :: rest)[i]? = some b ∧ (start :: rest)[i + 1]? = some c
              ∧ 20 < age c.time b.time) →
        exec (.badFrame bytes) s = .next (s.setRx [])
        ∧ exec (.frameGapTimeout bytes) s = .next (s.setRx []))
      ∧ ((∀ len body, rest = len :: body →
            2 ≤ len.byte.toNat ∧ len.byte.toNat ≤ 249 ∧ body.length < len.byte.toNat + 2) →
        (∀ (i : Nat) b c, (start :: rest)[i]? = some b → (start :: rest)[i + 1]? = some c →
          age c.time b.time ≤ 20) →
        exec (.badFrame bytes) s = .next (s.setRx (start :: rest))
        ∧ exec (.frameGapTimeout bytes) s = .next (s.setRx [])))
    ∧ ∃ t, exec (.frameGapTimeout bytes) s = .next t ∧ t.link.rx = []
end

