-- ==== Sys2Proof/Laws/State.lean ====
section
/-! SUPPORT. One lemma for each field under each field update, so that no later proof unfolds a record
update. -/

namespace Sys2Proof.Machine

section
variable (s : State) (v : Clock)

@[simp] theorem State.setClock_clock : (s.setClock v).clock = v := rfl
@[simp] theorem State.setClock_site : (s.setClock v).site = s.site := rfl
@[simp] theorem State.setClock_modes : (s.setClock v).modes = s.modes := rfl
@[simp] theorem State.setClock_bus : (s.setClock v).bus = s.bus := rfl
@[simp] theorem State.setClock_tracking : (s.setClock v).tracking = s.tracking := rfl
@[simp] theorem State.setClock_beams : (s.setClock v).beams = s.beams := rfl
@[simp] theorem State.setClock_passages : (s.setClock v).passages = s.passages := rfl
@[simp] theorem State.setClock_segments : (s.setClock v).segments = s.segments := rfl
@[simp] theorem State.setClock_refresh : (s.setClock v).refresh = s.refresh := rfl
@[simp] theorem State.setClock_supervisor : (s.setClock v).supervisor = s.supervisor := rfl
@[simp] theorem State.setClock_queries : (s.setClock v).queries = s.queries := rfl
@[simp] theorem State.setClock_judging : (s.setClock v).judging = s.judging := rfl
@[simp] theorem State.setClock_annunciators : (s.setClock v).annunciators = s.annunciators := rfl
@[simp] theorem State.setClock_link : (s.setClock v).link = s.link := rfl
@[simp] theorem State.setClock_choice : (s.setClock v).choice = s.choice := rfl
@[simp] theorem State.setClock_pending : (s.setClock v).pending = s.pending := rfl

end

section
variable (s : State) (v : SiteSettings)

@[simp] theorem State.setSite_clock : (s.setSite v).clock = s.clock := rfl
@[simp] theorem State.setSite_site : (s.setSite v).site = v := rfl
@[simp] theorem State.setSite_modes : (s.setSite v).modes = s.modes := rfl
@[simp] theorem State.setSite_bus : (s.setSite v).bus = s.bus := rfl
@[simp] theorem State.setSite_tracking : (s.setSite v).tracking = s.tracking := rfl
@[simp] theorem State.setSite_beams : (s.setSite v).beams = s.beams := rfl
@[simp] theorem State.setSite_passages : (s.setSite v).passages = s.passages := rfl
@[simp] theorem State.setSite_segments : (s.setSite v).segments = s.segments := rfl
@[simp] theorem State.setSite_refresh : (s.setSite v).refresh = s.refresh := rfl
@[simp] theorem State.setSite_supervisor : (s.setSite v).supervisor = s.supervisor := rfl
@[simp] theorem State.setSite_queries : (s.setSite v).queries = s.queries := rfl
@[simp] theorem State.setSite_judging : (s.setSite v).judging = s.judging := rfl
@[simp] theorem State.setSite_annunciators : (s.setSite v).annunciators = s.annunciators := rfl
@[simp] theorem State.setSite_link : (s.setSite v).link = s.link := rfl
@[simp] theorem State.setSite_choice : (s.setSite v).choice = s.choice := rfl
@[simp] theorem State.setSite_pending : (s.setSite v).pending = s.pending := rfl

end

section
variable (s : State) (v : ModeControl)

@[simp] theorem State.setModes_clock : (s.setModes v).clock = s.clock := rfl
@[simp] theorem State.setModes_site : (s.setModes v).site = s.site := rfl
@[simp] theorem State.setModes_modes : (s.setModes v).modes = v := rfl
@[simp] theorem State.setModes_bus : (s.setModes v).bus = s.bus := rfl
@[simp] theorem State.setModes_tracking : (s.setModes v).tracking = s.tracking := rfl
@[simp] theorem State.setModes_beams : (s.setModes v).beams = s.beams := rfl
@[simp] theorem State.setModes_passages : (s.setModes v).passages = s.passages := rfl
@[simp] theorem State.setModes_segments : (s.setModes v).segments = s.segments := rfl
@[simp] theorem State.setModes_refresh : (s.setModes v).refresh = s.refresh := rfl
@[simp] theorem State.setModes_supervisor : (s.setModes v).supervisor = s.supervisor := rfl
@[simp] theorem State.setModes_queries : (s.setModes v).queries = s.queries := rfl
@[simp] theorem State.setModes_judging : (s.setModes v).judging = s.judging := rfl
@[simp] theorem State.setModes_annunciators : (s.setModes v).annunciators = s.annunciators := rfl
@[simp] theorem State.setModes_link : (s.setModes v).link = s.link := rfl
@[simp] theorem State.setModes_choice : (s.setModes v).choice = s.choice := rfl
@[simp] theorem State.setModes_pending : (s.setModes v).pending = s.pending := rfl

end

section
variable (s : State) (v : BusController)

@[simp] theorem State.setBus_clock : (s.setBus v).clock = s.clock := rfl
@[simp] theorem State.setBus_site : (s.setBus v).site = s.site := rfl
@[simp] theorem State.setBus_modes : (s.setBus v).modes = s.modes := rfl
@[simp] theorem State.setBus_bus : (s.setBus v).bus = v := rfl
@[simp] theorem State.setBus_tracking : (s.setBus v).tracking = s.tracking := rfl
@[simp] theorem State.setBus_beams : (s.setBus v).beams = s.beams := rfl
@[simp] theorem State.setBus_passages : (s.setBus v).passages = s.passages := rfl
@[simp] theorem State.setBus_segments : (s.setBus v).segments = s.segments := rfl
@[simp] theorem State.setBus_refresh : (s.setBus v).refresh = s.refresh := rfl
@[simp] theorem State.setBus_supervisor : (s.setBus v).supervisor = s.supervisor := rfl
@[simp] theorem State.setBus_queries : (s.setBus v).queries = s.queries := rfl
@[simp] theorem State.setBus_judging : (s.setBus v).judging = s.judging := rfl
@[simp] theorem State.setBus_annunciators : (s.setBus v).annunciators = s.annunciators := rfl
@[simp] theorem State.setBus_link : (s.setBus v).link = s.link := rfl
@[simp] theorem State.setBus_choice : (s.setBus v).choice = s.choice := rfl
@[simp] theorem State.setBus_pending : (s.setBus v).pending = s.pending := rfl

end

section
variable (s : State) (v : TrackEngine)

@[simp] theorem State.setTracking_clock : (s.setTracking v).clock = s.clock := rfl
@[simp] theorem State.setTracking_site : (s.setTracking v).site = s.site := rfl
@[simp] theorem State.setTracking_modes : (s.setTracking v).modes = s.modes := rfl
@[simp] theorem State.setTracking_bus : (s.setTracking v).bus = s.bus := rfl
@[simp] theorem State.setTracking_tracking : (s.setTracking v).tracking = v := rfl
@[simp] theorem State.setTracking_beams : (s.setTracking v).beams = s.beams := rfl
@[simp] theorem State.setTracking_passages : (s.setTracking v).passages = s.passages := rfl
@[simp] theorem State.setTracking_segments : (s.setTracking v).segments = s.segments := rfl
@[simp] theorem State.setTracking_refresh : (s.setTracking v).refresh = s.refresh := rfl
@[simp] theorem State.setTracking_supervisor : (s.setTracking v).supervisor = s.supervisor := rfl
@[simp] theorem State.setTracking_queries : (s.setTracking v).queries = s.queries := rfl
@[simp] theorem State.setTracking_judging : (s.setTracking v).judging = s.judging := rfl
@[simp] theorem State.setTracking_annunciators : (s.setTracking v).annunciators = s.annunciators := rfl
@[simp] theorem State.setTracking_link : (s.setTracking v).link = s.link := rfl
@[simp] theorem State.setTracking_choice : (s.setTracking v).choice = s.choice := rfl
@[simp] theorem State.setTracking_pending : (s.setTracking v).pending = s.pending := rfl

end

section
variable (s : State) (v : BeamUnit)

@[simp] theorem State.setBeams_clock : (s.setBeams v).clock = s.clock := rfl
@[simp] theorem State.setBeams_site : (s.setBeams v).site = s.site := rfl
@[simp] theorem State.setBeams_modes : (s.setBeams v).modes = s.modes := rfl
@[simp] theorem State.setBeams_bus : (s.setBeams v).bus = s.bus := rfl
@[simp] theorem State.setBeams_tracking : (s.setBeams v).tracking = s.tracking := rfl
@[simp] theorem State.setBeams_beams : (s.setBeams v).beams = v := rfl
@[simp] theorem State.setBeams_passages : (s.setBeams v).passages = s.passages := rfl
@[simp] theorem State.setBeams_segments : (s.setBeams v).segments = s.segments := rfl
@[simp] theorem State.setBeams_refresh : (s.setBeams v).refresh = s.refresh := rfl
@[simp] theorem State.setBeams_supervisor : (s.setBeams v).supervisor = s.supervisor := rfl
@[simp] theorem State.setBeams_queries : (s.setBeams v).queries = s.queries := rfl
@[simp] theorem State.setBeams_judging : (s.setBeams v).judging = s.judging := rfl
@[simp] theorem State.setBeams_annunciators : (s.setBeams v).annunciators = s.annunciators := rfl
@[simp] theorem State.setBeams_link : (s.setBeams v).link = s.link := rfl
@[simp] theorem State.setBeams_choice : (s.setBeams v).choice = s.choice := rfl
@[simp] theorem State.setBeams_pending : (s.setBeams v).pending = s.pending := rfl

end

section
variable (s : State) (v : PassageTracker)

@[simp] theorem State.setPassages_clock : (s.setPassages v).clock = s.clock := rfl
@[simp] theorem State.setPassages_site : (s.setPassages v).site = s.site := rfl
@[simp] theorem State.setPassages_modes : (s.setPassages v).modes = s.modes := rfl
@[simp] theorem State.setPassages_bus : (s.setPassages v).bus = s.bus := rfl
@[simp] theorem State.setPassages_tracking : (s.setPassages v).tracking = s.tracking := rfl
@[simp] theorem State.setPassages_beams : (s.setPassages v).beams = s.beams := rfl
@[simp] theorem State.setPassages_passages : (s.setPassages v).passages = v := rfl
@[simp] theorem State.setPassages_segments : (s.setPassages v).segments = s.segments := rfl
@[simp] theorem State.setPassages_refresh : (s.setPassages v).refresh = s.refresh := rfl
@[simp] theorem State.setPassages_supervisor : (s.setPassages v).supervisor = s.supervisor := rfl
@[simp] theorem State.setPassages_queries : (s.setPassages v).queries = s.queries := rfl
@[simp] theorem State.setPassages_judging : (s.setPassages v).judging = s.judging := rfl
@[simp] theorem State.setPassages_annunciators : (s.setPassages v).annunciators = s.annunciators := rfl
@[simp] theorem State.setPassages_link : (s.setPassages v).link = s.link := rfl
@[simp] theorem State.setPassages_choice : (s.setPassages v).choice = s.choice := rfl
@[simp] theorem State.setPassages_pending : (s.setPassages v).pending = s.pending := rfl

end

section
variable (s : State) (v : Vector Segment 64)

@[simp] theorem State.setSegments_clock : (s.setSegments v).clock = s.clock := rfl
@[simp] theorem State.setSegments_site : (s.setSegments v).site = s.site := rfl
@[simp] theorem State.setSegments_modes : (s.setSegments v).modes = s.modes := rfl
@[simp] theorem State.setSegments_bus : (s.setSegments v).bus = s.bus := rfl
@[simp] theorem State.setSegments_tracking : (s.setSegments v).tracking = s.tracking := rfl
@[simp] theorem State.setSegments_beams : (s.setSegments v).beams = s.beams := rfl
@[simp] theorem State.setSegments_passages : (s.setSegments v).passages = s.passages := rfl
@[simp] theorem State.setSegments_segments : (s.setSegments v).segments = v := rfl
@[simp] theorem State.setSegments_refresh : (s.setSegments v).refresh = s.refresh := rfl
@[simp] theorem State.setSegments_supervisor : (s.setSegments v).supervisor = s.supervisor := rfl
@[simp] theorem State.setSegments_queries : (s.setSegments v).queries = s.queries := rfl
@[simp] theorem State.setSegments_judging : (s.setSegments v).judging = s.judging := rfl
@[simp] theorem State.setSegments_annunciators : (s.setSegments v).annunciators = s.annunciators := rfl
@[simp] theorem State.setSegments_link : (s.setSegments v).link = s.link := rfl
@[simp] theorem State.setSegments_choice : (s.setSegments v).choice = s.choice := rfl
@[simp] theorem State.setSegments_pending : (s.setSegments v).pending = s.pending := rfl

end

section
variable (s : State) (v : Option RefreshRecord)

@[simp] theorem State.setRefresh_clock : (s.setRefresh v).clock = s.clock := rfl
@[simp] theorem State.setRefresh_site : (s.setRefresh v).site = s.site := rfl
@[simp] theorem State.setRefresh_modes : (s.setRefresh v).modes = s.modes := rfl
@[simp] theorem State.setRefresh_bus : (s.setRefresh v).bus = s.bus := rfl
@[simp] theorem State.setRefresh_tracking : (s.setRefresh v).tracking = s.tracking := rfl
@[simp] theorem State.setRefresh_beams : (s.setRefresh v).beams = s.beams := rfl
@[simp] theorem State.setRefresh_passages : (s.setRefresh v).passages = s.passages := rfl
@[simp] theorem State.setRefresh_segments : (s.setRefresh v).segments = s.segments := rfl
@[simp] theorem State.setRefresh_refresh : (s.setRefresh v).refresh = v := rfl
@[simp] theorem State.setRefresh_supervisor : (s.setRefresh v).supervisor = s.supervisor := rfl
@[simp] theorem State.setRefresh_queries : (s.setRefresh v).queries = s.queries := rfl
@[simp] theorem State.setRefresh_judging : (s.setRefresh v).judging = s.judging := rfl
@[simp] theorem State.setRefresh_annunciators : (s.setRefresh v).annunciators = s.annunciators := rfl
@[simp] theorem State.setRefresh_link : (s.setRefresh v).link = s.link := rfl
@[simp] theorem State.setRefresh_choice : (s.setRefresh v).choice = s.choice := rfl
@[simp] theorem State.setRefresh_pending : (s.setRefresh v).pending = s.pending := rfl

end

section
variable (s : State) (v : Supervisor)

@[simp] theorem State.setSupervisor_clock : (s.setSupervisor v).clock = s.clock := rfl
@[simp] theorem State.setSupervisor_site : (s.setSupervisor v).site = s.site := rfl
@[simp] theorem State.setSupervisor_modes : (s.setSupervisor v).modes = s.modes := rfl
@[simp] theorem State.setSupervisor_bus : (s.setSupervisor v).bus = s.bus := rfl
@[simp] theorem State.setSupervisor_tracking : (s.setSupervisor v).tracking = s.tracking := rfl
@[simp] theorem State.setSupervisor_beams : (s.setSupervisor v).beams = s.beams := rfl
@[simp] theorem State.setSupervisor_passages : (s.setSupervisor v).passages = s.passages := rfl
@[simp] theorem State.setSupervisor_segments : (s.setSupervisor v).segments = s.segments := rfl
@[simp] theorem State.setSupervisor_refresh : (s.setSupervisor v).refresh = s.refresh := rfl
@[simp] theorem State.setSupervisor_supervisor : (s.setSupervisor v).supervisor = v := rfl
@[simp] theorem State.setSupervisor_queries : (s.setSupervisor v).queries = s.queries := rfl
@[simp] theorem State.setSupervisor_judging : (s.setSupervisor v).judging = s.judging := rfl
@[simp] theorem State.setSupervisor_annunciators : (s.setSupervisor v).annunciators = s.annunciators := rfl
@[simp] theorem State.setSupervisor_link : (s.setSupervisor v).link = s.link := rfl
@[simp] theorem State.setSupervisor_choice : (s.setSupervisor v).choice = s.choice := rfl
@[simp] theorem State.setSupervisor_pending : (s.setSupervisor v).pending = s.pending := rfl

end

section
variable (s : State) (v : QueryUnit)

@[simp] theorem State.setQueries_clock : (s.setQueries v).clock = s.clock := rfl
@[simp] theorem State.setQueries_site : (s.setQueries v).site = s.site := rfl
@[simp] theorem State.setQueries_modes : (s.setQueries v).modes = s.modes := rfl
@[simp] theorem State.setQueries_bus : (s.setQueries v).bus = s.bus := rfl
@[simp] theorem State.setQueries_tracking : (s.setQueries v).tracking = s.tracking := rfl
@[simp] theorem State.setQueries_beams : (s.setQueries v).beams = s.beams := rfl
@[simp] theorem State.setQueries_passages : (s.setQueries v).passages = s.passages := rfl
@[simp] theorem State.setQueries_segments : (s.setQueries v).segments = s.segments := rfl
@[simp] theorem State.setQueries_refresh : (s.setQueries v).refresh = s.refresh := rfl
@[simp] theorem State.setQueries_supervisor : (s.setQueries v).supervisor = s.supervisor := rfl
@[simp] theorem State.setQueries_queries : (s.setQueries v).queries = v := rfl
@[simp] theorem State.setQueries_judging : (s.setQueries v).judging = s.judging := rfl
@[simp] theorem State.setQueries_annunciators : (s.setQueries v).annunciators = s.annunciators := rfl
@[simp] theorem State.setQueries_link : (s.setQueries v).link = s.link := rfl
@[simp] theorem State.setQueries_choice : (s.setQueries v).choice = s.choice := rfl
@[simp] theorem State.setQueries_pending : (s.setQueries v).pending = s.pending := rfl

end

section
variable (s : State) (v : List Judging)

@[simp] theorem State.setJudging_clock : (s.setJudging v).clock = s.clock := rfl
@[simp] theorem State.setJudging_site : (s.setJudging v).site = s.site := rfl
@[simp] theorem State.setJudging_modes : (s.setJudging v).modes = s.modes := rfl
@[simp] theorem State.setJudging_bus : (s.setJudging v).bus = s.bus := rfl
@[simp] theorem State.setJudging_tracking : (s.setJudging v).tracking = s.tracking := rfl
@[simp] theorem State.setJudging_beams : (s.setJudging v).beams = s.beams := rfl
@[simp] theorem State.setJudging_passages : (s.setJudging v).passages = s.passages := rfl
@[simp] theorem State.setJudging_segments : (s.setJudging v).segments = s.segments := rfl
@[simp] theorem State.setJudging_refresh : (s.setJudging v).refresh = s.refresh := rfl
@[simp] theorem State.setJudging_supervisor : (s.setJudging v).supervisor = s.supervisor := rfl
@[simp] theorem State.setJudging_queries : (s.setJudging v).queries = s.queries := rfl
@[simp] theorem State.setJudging_judging : (s.setJudging v).judging = v := rfl
@[simp] theorem State.setJudging_annunciators : (s.setJudging v).annunciators = s.annunciators := rfl
@[simp] theorem State.setJudging_link : (s.setJudging v).link = s.link := rfl
@[simp] theorem State.setJudging_choice : (s.setJudging v).choice = s.choice := rfl
@[simp] theorem State.setJudging_pending : (s.setJudging v).pending = s.pending := rfl

end

section
variable (s : State) (v : Vector Annunciator 8)

@[simp] theorem State.setAnnunciators_clock : (s.setAnnunciators v).clock = s.clock := rfl
@[simp] theorem State.setAnnunciators_site : (s.setAnnunciators v).site = s.site := rfl
@[simp] theorem State.setAnnunciators_modes : (s.setAnnunciators v).modes = s.modes := rfl
@[simp] theorem State.setAnnunciators_bus : (s.setAnnunciators v).bus = s.bus := rfl
@[simp] theorem State.setAnnunciators_tracking : (s.setAnnunciators v).tracking = s.tracking := rfl
@[simp] theorem State.setAnnunciators_beams : (s.setAnnunciators v).beams = s.beams := rfl
@[simp] theorem State.setAnnunciators_passages : (s.setAnnunciators v).passages = s.passages := rfl
@[simp] theorem State.setAnnunciators_segments : (s.setAnnunciators v).segments = s.segments := rfl
@[simp] theorem State.setAnnunciators_refresh : (s.setAnnunciators v).refresh = s.refresh := rfl
@[simp] theorem State.setAnnunciators_supervisor : (s.setAnnunciators v).supervisor = s.supervisor := rfl
@[simp] theorem State.setAnnunciators_queries : (s.setAnnunciators v).queries = s.queries := rfl
@[simp] theorem State.setAnnunciators_judging : (s.setAnnunciators v).judging = s.judging := rfl
@[simp] theorem State.setAnnunciators_annunciators : (s.setAnnunciators v).annunciators = v := rfl
@[simp] theorem State.setAnnunciators_link : (s.setAnnunciators v).link = s.link := rfl
@[simp] theorem State.setAnnunciators_choice : (s.setAnnunciators v).choice = s.choice := rfl
@[simp] theorem State.setAnnunciators_pending : (s.setAnnunciators v).pending = s.pending := rfl

end

section
variable (s : State) (v : LinkUnit)

@[simp] theorem State.setLink_clock : (s.setLink v).clock = s.clock := rfl
@[simp] theorem State.setLink_site : (s.setLink v).site = s.site := rfl
@[simp] theorem State.setLink_modes : (s.setLink v).modes = s.modes := rfl
@[simp] theorem State.setLink_bus : (s.setLink v).bus = s.bus := rfl
@[simp] theorem State.setLink_tracking : (s.setLink v).tracking = s.tracking := rfl
@[simp] theorem State.setLink_beams : (s.setLink v).beams = s.beams := rfl
@[simp] theorem State.setLink_passages : (s.setLink v).passages = s.passages := rfl
@[simp] theorem State.setLink_segments : (s.setLink v).segments = s.segments := rfl
@[simp] theorem State.setLink_refresh : (s.setLink v).refresh = s.refresh := rfl
@[simp] theorem State.setLink_supervisor : (s.setLink v).supervisor = s.supervisor := rfl
@[simp] theorem State.setLink_queries : (s.setLink v).queries = s.queries := rfl
@[simp] theorem State.setLink_judging : (s.setLink v).judging = s.judging := rfl
@[simp] theorem State.setLink_annunciators : (s.setLink v).annunciators = s.annunciators := rfl
@[simp] theorem State.setLink_link : (s.setLink v).link = v := rfl
@[simp] theorem State.setLink_choice : (s.setLink v).choice = s.choice := rfl
@[simp] theorem State.setLink_pending : (s.setLink v).pending = s.pending := rfl

end

section
variable (s : State) (v : Nat)

@[simp] theorem State.setChoice_clock : (s.setChoice v).clock = s.clock := rfl
@[simp] theorem State.setChoice_site : (s.setChoice v).site = s.site := rfl
@[simp] theorem State.setChoice_modes : (s.setChoice v).modes = s.modes := rfl
@[simp] theorem State.setChoice_bus : (s.setChoice v).bus = s.bus := rfl
@[simp] theorem State.setChoice_tracking : (s.setChoice v).tracking = s.tracking := rfl
@[simp] theorem State.setChoice_beams : (s.setChoice v).beams = s.beams := rfl
@[simp] theorem State.setChoice_passages : (s.setChoice v).passages = s.passages := rfl
@[simp] theorem State.setChoice_segments : (s.setChoice v).segments = s.segments := rfl
@[simp] theorem State.setChoice_refresh : (s.setChoice v).refresh = s.refresh := rfl
@[simp] theorem State.setChoice_supervisor : (s.setChoice v).supervisor = s.supervisor := rfl
@[simp] theorem State.setChoice_queries : (s.setChoice v).queries = s.queries := rfl
@[simp] theorem State.setChoice_judging : (s.setChoice v).judging = s.judging := rfl
@[simp] theorem State.setChoice_annunciators : (s.setChoice v).annunciators = s.annunciators := rfl
@[simp] theorem State.setChoice_link : (s.setChoice v).link = s.link := rfl
@[simp] theorem State.setChoice_choice : (s.setChoice v).choice = v := rfl
@[simp] theorem State.setChoice_pending : (s.setChoice v).pending = s.pending := rfl

end

section
variable (s : State) (v : List Instr)

@[simp] theorem State.setPending_clock : (s.setPending v).clock = s.clock := rfl
@[simp] theorem State.setPending_site : (s.setPending v).site = s.site := rfl
@[simp] theorem State.setPending_modes : (s.setPending v).modes = s.modes := rfl
@[simp] theorem State.setPending_bus : (s.setPending v).bus = s.bus := rfl
@[simp] theorem State.setPending_tracking : (s.setPending v).tracking = s.tracking := rfl
@[simp] theorem State.setPending_beams : (s.setPending v).beams = s.beams := rfl
@[simp] theorem State.setPending_passages : (s.setPending v).passages = s.passages := rfl
@[simp] theorem State.setPending_segments : (s.setPending v).segments = s.segments := rfl
@[simp] theorem State.setPending_refresh : (s.setPending v).refresh = s.refresh := rfl
@[simp] theorem State.setPending_supervisor : (s.setPending v).supervisor = s.supervisor := rfl
@[simp] theorem State.setPending_queries : (s.setPending v).queries = s.queries := rfl
@[simp] theorem State.setPending_judging : (s.setPending v).judging = s.judging := rfl
@[simp] theorem State.setPending_annunciators : (s.setPending v).annunciators = s.annunciators := rfl
@[simp] theorem State.setPending_link : (s.setPending v).link = s.link := rfl
@[simp] theorem State.setPending_choice : (s.setPending v).choice = s.choice := rfl
@[simp] theorem State.setPending_pending : (s.setPending v).pending = v := rfl

end

end Sys2Proof.Machine
end

