-- ==== Sys2Proof/Laws/Frame.lean ====
section
/-! SUPPORT. Frames: how "differs at most in these components" composes, and what it gives for each
component. -/

namespace Sys2Proof.Machine

theorem Only.refl (cs : List Component) (s : State) : Only cs s s := by
  constructor; intro c _; cases c <;> rfl

theorem Only.trans {cs : List Component} {s t u : State} (h : Only cs s t) (k : Only cs t u) :
    Only cs s u := by
  constructor
  intro c hc
  have h1 := h.agree c hc
  have h2 := k.agree c hc
  cases c <;> exact Eq.trans h2 h1

theorem Only.mono {cs ds : List Component} {s t : State} (h : Only cs s t)
    (hsub : ∀ c ∈ cs, c ∈ ds) : Only ds s t :=
  ⟨fun c hc => h.agree c fun hm => hc (hsub c hm)⟩

/-- A fold of an operation that changes only some components changes only those. -/
theorem Only.foldl {α : Type} {cs : List Component} {f : State → α → State}
    (h : ∀ s a, Only cs s (f s a)) (l : List α) (s : State) : Only cs s (l.foldl f s) := by
  induction l generalizing s with
  | nil => exact Only.refl cs s
  | cons a l ih => exact (h s a).trans (ih (f s a))

/-- A fold over operations each of which is `id` or changes only some components. -/
theorem Only.ite {cs : List Component} {s t u : State} {p : Prop} [Decidable p]
    (h : Only cs s t) (k : Only cs s u) : Only cs s (if p then t else u) := by
  split
  · exact h
  · exact k

theorem Only.clock {cs : List Component} {s t : State} (h : Only cs s t)
    (hc : Component.clock ∉ cs) : t.clock = s.clock := h.agree .clock hc

theorem Only.site {cs : List Component} {s t : State} (h : Only cs s t)
    (hc : Component.site ∉ cs) : t.site = s.site := h.agree .site hc

theorem Only.modes {cs : List Component} {s t : State} (h : Only cs s t)
    (hc : Component.modes ∉ cs) : t.modes = s.modes := h.agree .modes hc

theorem Only.bus {cs : List Component} {s t : State} (h : Only cs s t)
    (hc : Component.bus ∉ cs) : t.bus = s.bus := h.agree .bus hc

theorem Only.tracking {cs : List Component} {s t : State} (h : Only cs s t)
    (hc : Component.tracking ∉ cs) : t.tracking = s.tracking := h.agree .tracking hc

theorem Only.beams {cs : List Component} {s t : State} (h : Only cs s t)
    (hc : Component.beams ∉ cs) : t.beams = s.beams := h.agree .beams hc

theorem Only.passages {cs : List Component} {s t : State} (h : Only cs s t)
    (hc : Component.passages ∉ cs) : t.passages = s.passages := h.agree .passages hc

theorem Only.segments {cs : List Component} {s t : State} (h : Only cs s t)
    (hc : Component.segments ∉ cs) : t.segments = s.segments := h.agree .segments hc

theorem Only.refresh {cs : List Component} {s t : State} (h : Only cs s t)
    (hc : Component.refresh ∉ cs) : t.refresh = s.refresh := h.agree .refresh hc

theorem Only.supervisor {cs : List Component} {s t : State} (h : Only cs s t)
    (hc : Component.supervisor ∉ cs) : t.supervisor = s.supervisor := h.agree .supervisor hc

theorem Only.queries {cs : List Component} {s t : State} (h : Only cs s t)
    (hc : Component.queries ∉ cs) : t.queries = s.queries := h.agree .queries hc

theorem Only.judging {cs : List Component} {s t : State} (h : Only cs s t)
    (hc : Component.judging ∉ cs) : t.judging = s.judging := h.agree .judging hc

theorem Only.annunciators {cs : List Component} {s t : State} (h : Only cs s t)
    (hc : Component.annunciators ∉ cs) : t.annunciators = s.annunciators := h.agree .annunciators hc

theorem Only.link {cs : List Component} {s t : State} (h : Only cs s t)
    (hc : Component.link ∉ cs) : t.link = s.link := h.agree .link hc

theorem Only.choice {cs : List Component} {s t : State} (h : Only cs s t)
    (hc : Component.choice ∉ cs) : t.choice = s.choice := h.agree .choice hc

theorem Only.pending {cs : List Component} {s t : State} (h : Only cs s t)
    (hc : Component.pending ∉ cs) : t.pending = s.pending := h.agree .pending hc

theorem only_setClock (s : State) (v : Clock) : Only [.clock] s (s.setClock v) := by
  constructor; intro c hc; cases c <;> first | rfl | exact absurd (by simp) hc

theorem only_setSite (s : State) (v : SiteSettings) : Only [.site] s (s.setSite v) := by
  constructor; intro c hc; cases c <;> first | rfl | exact absurd (by simp) hc

theorem only_setModes (s : State) (v : ModeControl) : Only [.modes] s (s.setModes v) := by
  constructor; intro c hc; cases c <;> first | rfl | exact absurd (by simp) hc

theorem only_setBus (s : State) (v : BusController) : Only [.bus] s (s.setBus v) := by
  constructor; intro c hc; cases c <;> first | rfl | exact absurd (by simp) hc

theorem only_setTracking (s : State) (v : TrackEngine) : Only [.tracking] s (s.setTracking v) := by
  constructor; intro c hc; cases c <;> first | rfl | exact absurd (by simp) hc

theorem only_setBeams (s : State) (v : BeamUnit) : Only [.beams] s (s.setBeams v) := by
  constructor; intro c hc; cases c <;> first | rfl | exact absurd (by simp) hc

theorem only_setPassages (s : State) (v : PassageTracker) : Only [.passages] s (s.setPassages v) := by
  constructor; intro c hc; cases c <;> first | rfl | exact absurd (by simp) hc

theorem only_setSegments (s : State) (v : Vector Segment 64) : Only [.segments] s (s.setSegments v) := by
  constructor; intro c hc; cases c <;> first | rfl | exact absurd (by simp) hc

theorem only_setRefresh (s : State) (v : Option RefreshRecord) : Only [.refresh] s (s.setRefresh v) := by
  constructor; intro c hc; cases c <;> first | rfl | exact absurd (by simp) hc

theorem only_setSupervisor (s : State) (v : Supervisor) : Only [.supervisor] s (s.setSupervisor v) := by
  constructor; intro c hc; cases c <;> first | rfl | exact absurd (by simp) hc

theorem only_setQueries (s : State) (v : QueryUnit) : Only [.queries] s (s.setQueries v) := by
  constructor; intro c hc; cases c <;> first | rfl | exact absurd (by simp) hc

theorem only_setJudging (s : State) (v : List Judging) : Only [.judging] s (s.setJudging v) := by
  constructor; intro c hc; cases c <;> first | rfl | exact absurd (by simp) hc

theorem only_setAnnunciators (s : State) (v : Vector Annunciator 8) : Only [.annunciators] s (s.setAnnunciators v) := by
  constructor; intro c hc; cases c <;> first | rfl | exact absurd (by simp) hc

theorem only_setLink (s : State) (v : LinkUnit) : Only [.link] s (s.setLink v) := by
  constructor; intro c hc; cases c <;> first | rfl | exact absurd (by simp) hc

theorem only_setChoice (s : State) (v : Nat) : Only [.choice] s (s.setChoice v) := by
  constructor; intro c hc; cases c <;> first | rfl | exact absurd (by simp) hc

theorem only_setPending (s : State) (v : List Instr) : Only [.pending] s (s.setPending v) := by
  constructor; intro c hc; cases c <;> first | rfl | exact absurd (by simp) hc

end Sys2Proof.Machine
end

