-- ==== Sys2Proof/Laws/Effects.lean ====
section
/-! SUPPORT. Which components each shared operation may change. -/

namespace Sys2Proof.Machine

/-! ## Shared operations -/

theorem setTracks_only (s : State) (ts : List Track) : Only [.tracking] s (s.setTracks ts) :=
  only_setTracking s _

theorem modifyTrack_only (s : State) (id : Ident) (f : Track → Track) :
    Only [.tracking] s (s.modifyTrack id f) := only_setTracking s _

theorem setAisle_only (s : State) (a : Aisle) (r : AisleRecord) :
    Only [.passages] s (s.setAisle a r) := only_setPassages s _

theorem setOpens_only (s : State) (a : Aisle) (ps : List Passage) :
    Only [.passages] s (s.setOpens a ps) := only_setPassages s _

theorem setAnnunciator_only (s : State) (a : Aisle) (x : Annunciator) :
    Only [.annunciators] s (s.setAnnunciator a x) := only_setAnnunciators s _

theorem setEntries_only (s : State) (i : Fin 64) (es : List Entry) :
    Only [.segments] s (s.setEntries i es) := only_setSegments s _

theorem placeReply_only (kind ref : Byte) (st : Status) (body : List Byte) (s : State) :
    Only [.link] s (placeReply kind ref st body s) := only_setLink s _

theorem reply_only (k : RequestKind) (ref : Byte) (st : Status) (body : List Byte) (s : State) :
    Only [.link] s (reply k ref st body s) := only_setLink s _

theorem createReport_only (u : Bool) (b : ReportBody) (s : State) :
    Only [.link] s (createReport u b s) := only_setLink s _

theorem notice_only (n : Notice) (s : State) : Only [.link] s (notice n s) := only_setLink s _

/-! ## Annunciators -/

theorem handVerdict_only (a : Aisle) (v : Verdict) (s : State) :
    Only [.annunciators] s (handVerdict a v s) := by
  cases v
  · exact Only.refl _ s
  · exact Only.refl _ s
  · exact setAnnunciator_only s a _
  · exact setAnnunciator_only s a _

theorem silenceAisles_only (as : List Aisle) (s : State) :
    Only [.annunciators] s (silenceAisles as s) :=
  Only.foldl (fun s a => setAnnunciator_only s a _) as s

theorem quietAisle_only (a : Aisle) (s : State) : Only [.annunciators] s (quietAisle a s) :=
  setAnnunciator_only s a _

theorem durationExpires_only (a : Aisle) (s : State) :
    Only [.annunciators] s (durationExpires a s) := by
  unfold durationExpires
  split
  · exact Only.ite (quietAisle_only a s) (Only.refl _ s)
  · exact Only.refl _ s

theorem acceptKey_only (s : State) : Only [.beams] s (acceptKey s) := only_setBeams s _

theorem pressKey_only (s : State) : Only [.beams, .annunciators] s (pressKey s) :=
  ((acceptKey_only s).mono (by decide)).trans ((silenceAisles_only _ _).mono (by decide))

theorem settleKey_only (s : State) : Only [.beams, .annunciators] s (settleKey s) :=
  Only.ite (pressKey_only s)
    (Only.ite ((acceptKey_only s).mono (by decide)) (Only.refl _ s))

/-! ## Free choices -/

theorem afterDraw_only (s : State) (n : Nat) : Only [.choice] s (s.afterDraw n) :=
  Only.ite (Only.refl _ s) (only_setChoice s _)

theorem afterPick_only {α : Type} (s : State) (l : List α) : Only [.choice] s (s.afterPick l) :=
  afterDraw_only s _

/-! ## Verdicts -/

/-- What giving verdicts may change: tracks, annunciators, the report queue and the verdict queue. -/
abbrev verdictParts : List Component := [.tracking, .annunciators, .link, .judging]

theorem writeVerdict_only (n : Word16) (s : State) (r : ItemRecord) :
    Only [.tracking] s (writeVerdict n s r) := by
  unfold writeVerdict
  split
  · exact Only.refl _ s
  · exact modifyTrack_only s _ _

theorem giveVerdict_only (s : State) (j : Judging) :
    Only [.tracking, .annunciators, .link] s (giveVerdict s j) := by
  unfold giveVerdict
  refine Only.trans ?_ ((createReport_only _ _ _).mono (by decide))
  have h1 := (Only.foldl (writeVerdict_only j.number) j.items s).mono
    (ds := [.tracking, .annunciators, .link]) (by decide)
  exact Only.ite (h1.trans ((handVerdict_only _ _ _).mono (by decide))) h1

theorem settle_only (f : Judging → Judging) (s : State) : Only verdictParts s (settle f s) :=
  ((only_setJudging s _).mono (by decide)).trans
    (Only.foldl (fun s j => (giveVerdict_only s j).mono (by decide)) _ _)

theorem forceOldest_only (s : State) : Only verdictParts s (forceOldest s) := by
  unfold forceOldest
  split
  · exact Only.refl _ s
  · exact ((only_setJudging s _).mono (by decide)).trans
      ((giveVerdict_only _ _).mono (by decide))

theorem judgePassage_only (j : Judging) (s : State) : Only verdictParts s (judgePassage j s) := by
  unfold judgePassage
  split
  · exact (Only.ite (Only.refl _ s) (forceOldest_only s)).trans
      ((only_setJudging _ _).mono (by decide))
  · exact (giveVerdict_only s j).mono (by decide)

theorem forward_only (id : Ident) (e : Option Entry) (s : State) :
    Only verdictParts s (forward id e s) := settle_only _ s

theorem swapLookup_only (i : Fin 64) (s : State) : Only verdictParts s (swapLookup i s) :=
  settle_only _ s

theorem handAnswer_only (id : Ident) (a : HostAnswer) (s : State) :
    Only verdictParts s (handAnswer id a s) := settle_only _ s

theorem handLapse_only (id : Ident) (s : State) : Only verdictParts s (handLapse id s) :=
  settle_only _ s

theorem graceExpiry_only (n : Word16) (s : State) : Only verdictParts s (graceExpiry n s) :=
  settle_only _ s

/-! ## Queries -/

theorem makeQuery_only (id : Ident) (a : Aisle) (s : State) :
    Only [.queries, .tracking] s (makeQuery id a s) := by
  unfold makeQuery
  refine Only.ite (Only.ite ?_ ?_) (Only.refl _ s)
  · exact ((only_setQueries s _).mono (by decide)).trans ((modifyTrack_only _ _ _).mono (by decide))
  · exact (modifyTrack_only _ _ _).mono (by decide)

theorem setQueryList_only (s : State) (qs : List Query) : Only [.queries] s (s.setQueryList qs) :=
  only_setQueries s _

theorem trackGone_only (id : Ident) (s : State) :
    Only (.queries :: verdictParts) s (trackGone id s) :=
  Only.ite (((setQueryList_only s _).mono (by decide)).trans ((handLapse_only _ _).mono (by decide)))
    (Only.refl _ s)

theorem lapseQuery_only (q : Query) (s : State) :
    Only (.queries :: verdictParts) s (lapseQuery q s) :=
  (((setQueryList_only s _).mono (by decide)).trans ((modifyTrack_only _ _ _).mono (by decide))).trans
    ((handLapse_only _ _).mono (by decide))

/-! ## The item table -/

theorem writeEntry_only (id : Ident) (e : Option Entry) (s : State) :
    Only [.segments] s (writeEntry id e s) := by
  cases e <;> exact setEntries_only s _ _

theorem abortRefresh_only (why : AbortReason) (r : RefreshRecord) (s : State) :
    Only [.refresh, .link] s (abortRefresh why r s) :=
  ((only_setRefresh s _).mono (by decide)).trans ((notice_only _ _).mono (by decide))

theorem recordLate_only (k : ChangeKind) (id : Ident) (e : Option Entry) (s : State) :
    Only [.refresh, .link] s (recordLate k id e s) := by
  unfold recordLate
  split
  · exact Only.refl _ s
  · exact Only.ite (Only.ite ((only_setRefresh s _).mono (by decide)) (abortRefresh_only _ _ s))
      (Only.refl _ s)

/-- What a change to the table may change. -/
abbrev tableParts : List Component := .segments :: .refresh :: verdictParts

theorem applyChange_only (k : ChangeKind) (id : Ident) (e : Option Entry) (s : State) :
    Only tableParts s (applyChange k id e s) :=
  (((writeEntry_only id e s).mono (by decide)).trans
    ((recordLate_only k id e _).mono (by decide))).trans ((forward_only id e _).mono (by decide))

theorem runUpdate_only (k : RequestKind) (c : ChangeKind) (ref : Byte) (id : Ident) (u : Update)
    (s : State) : Only tableParts s (runUpdate k c ref id u s) := by
  cases u with
  | refused st => exact (reply_only k ref st _ s).mono (by decide)
  | store e b => exact (applyChange_only c id _ s).trans ((reply_only k ref _ _ _).mono (by decide))
  | remove => exact (applyChange_only c id _ s).trans ((reply_only k ref _ _ _).mono (by decide))

theorem takeLookup_only (ref : Byte) (id : Ident) (s : State) :
    Only [.link] s (takeLookup ref id s) := Only.ite (reply_only ..) (reply_only ..)

theorem matchAnswer_only (id : Ident) (a : HostAnswer) (s : State) :
    Only (.queries :: verdictParts) s (matchAnswer id a s) :=
  (((setQueryList_only s _).mono (by decide)).trans ((modifyTrack_only _ _ _).mono (by decide))).trans
    ((handAnswer_only _ _ _).mono (by decide))

theorem storeAnswer_only (id : Ident) (u : Update) (s : State) :
    Only tableParts s (storeAnswer id u s) := by
  cases u with
  | refused st => exact Only.refl _ s
  | store e b => exact applyChange_only _ _ _ s
  | remove => exact Only.refl _ s

/-- What an answer may change. -/
abbrev answerParts : List Component := .queries :: tableParts

theorem settleAnswer_only (ref n : Byte) (id : Ident) (a : HostAnswer) (e : Option Nat) (s : State) :
    Only answerParts s (settleAnswer ref n id a e s) := by
  unfold settleAnswer
  refine Only.trans ?_ ((reply_only ..).mono (by decide))
  have h1 : Only answerParts s (if s.answerMatches n id then matchAnswer id a s else s) :=
    Only.ite ((matchAnswer_only id a s).mono (by decide)) (Only.refl _ s)
  cases a with
  | entry c => exact h1.trans ((storeAnswer_only id _ _).mono (by decide))
  | noException => exact h1

theorem takeAnswer_only (ref n : Byte) (id : Ident) (r : Byte) (e : Option Nat) (s : State) :
    Only answerParts s (takeAnswer ref n id r e s) := by
  unfold takeAnswer
  refine Only.ite ((reply_only ..).mono (by decide)) ?_
  split
  · exact settleAnswer_only ..
  · exact (reply_only ..).mono (by decide)

theorem ageTable_only (s : State) : Only (.segments :: verdictParts) s (ageTable s) :=
  ((only_setSegments s _).mono (by decide)).trans
    (Only.foldl (fun s id => (forward_only id none s).mono (by decide)) _ _)

/-! ## The refresh unit and the supervisor -/

theorem takeSegBegin_only (ref i : Byte) (n : Nat) (s : State) :
    Only [.refresh, .link] s (takeSegBegin ref i n s) := by
  unfold takeSegBegin
  refine Only.ite ((reply_only ..).mono (by decide)) ?_
  split
  · exact ((only_setRefresh s _).mono (by decide)).trans ((reply_only ..).mono (by decide))
  · exact (reply_only ..).mono (by decide)

theorem swap_only (r : RefreshRecord) (s : State) : Only tableParts s (swap r s) :=
  (((only_setSegments s _).mono (by decide)).trans ((only_setRefresh _ _).mono (by decide))).trans
    ((swapLookup_only _ _).mono (by decide))

theorem takeGoodBlock_only (ref : Byte) (r : RefreshRecord) (last : Bool) (es : List BlockEntry)
    (s : State) : Only tableParts s (takeGoodBlock ref r last es s) := by
  have reset (x : Option RefreshRecord) (st : Status) (body : List Byte) :
      Only tableParts s (reply .segBlock ref st body (s.setRefresh x)) :=
    ((only_setRefresh s x).mono (by decide)).trans ((reply_only ..).mono (by decide))
  unfold takeGoodBlock
  refine Only.ite (reset ..) (Only.ite (reset ..) (Only.ite (reset ..) ?_))
  exact (swap_only _ s).trans ((reply_only ..).mono (by decide))

theorem takeSegBlock_only (ref i : Byte) (b : Word16) (last : Bool) (es : List BlockEntry)
    (s : State) : Only tableParts s (takeSegBlock ref i b last es s) := by
  unfold takeSegBlock
  split
  · exact (reply_only ..).mono (by decide)
  · refine Only.ite ((reply_only ..).mono (by decide)) (Only.ite ?_ (takeGoodBlock_only ..))
    exact ((only_setRefresh s _).mono (by decide)).trans ((reply_only ..).mono (by decide))

theorem takeTrust_only (ref : Byte) (set : BitVec 64) (s : State) :
    Only [.segments, .link] s (takeTrust ref set s) :=
  ((only_setSegments s _).mono (by decide)).trans ((reply_only ..).mono (by decide))

theorem takeSupervise_only (ref : Byte) (p : Nat) (s : State) :
    Only [.supervisor, .link] s (takeSupervise ref p s) :=
  Only.ite ((reply_only ..).mono (by decide))
    (((only_setSupervisor s _).mono (by decide)).trans ((reply_only ..).mono (by decide)))

theorem countGoodFrame_only (s : State) : Only [.supervisor, .link] s (countGoodFrame s) := by
  unfold countGoodFrame
  split
  · exact Only.refl _ s
  · exact (only_setSupervisor s _).mono (by decide)
  · exact ((only_setSupervisor s _).mono (by decide)).trans ((notice_only _ _).mono (by decide))

theorem supervisorExpires_only (p : Nat) (s : State) :
    Only [.segments, .refresh, .link, .supervisor] s (supervisorExpires p s) := by
  unfold supervisorExpires
  refine Only.trans ?_ ((only_setSupervisor _ _).mono (by decide))
  refine Only.trans ?_ ((notice_only _ _).mono (by decide))
  refine ((only_setSegments s (mapVector Segment.distrusted s.segments)).mono (by decide)).trans ?_
  split
  · exact (abortRefresh_only _ _ _).mono (by decide)
  · exact Only.refl _ _

/-! ## Beams and passages -/

theorem setBeam_only (s : State) (a : Aisle) (b : Beam) (f : Filter) :
    Only [.beams] s (s.setBeam a b f) := by
  cases b <;> exact only_setBeams s _

theorem acceptBeam_only (a : Aisle) (b : Beam) (s : State) : Only [.beams] s (acceptBeam a b s) :=
  setBeam_only s a b _

theorem bindAttributed_only (id : Ident) (a : Aisle) (s : State) :
    Only [.passages, .tracking] s (bindAttributed id a s) := by
  unfold bindAttributed
  split
  · exact ((setOpens_only s a _).mono (by decide)).trans ((modifyTrack_only _ _ _).mono (by decide))
  · exact (setOpens_only s a _).mono (by decide)

theorem openPassage_only (a : Aisle) (b : Beam) (s : State) :
    Only [.passages, .tracking] s (openPassage a b s) :=
  (((only_setPassages s _).mono (by decide)).trans ((setOpens_only _ a _).mono (by decide))).trans
    (Only.foldl (fun s id => (modifyTrack_only s id _).mono (by decide)) _ _)

theorem leaveList_only (a : Aisle) (p : Passage) (s : State) :
    Only [.passages] s (leaveList a p s) := setOpens_only s a _

/-- What completions may change. -/
abbrev passageParts : List Component := .passages :: verdictParts

theorem completePassage_only (a : Aisle) (s : State) (p : Passage) :
    Only passageParts s (completePassage a s p) :=
  (((leaveList_only a p s).mono (by decide)).trans
    (Only.foldl (fun s id => (modifyTrack_only s id _).mono (by decide)) _ _)).trans
    ((judgePassage_only _ _).mono (by decide))

theorem closePassage_only (a : Aisle) (o : PassageOutcome) (s : State) (p : Passage) :
    Only [.passages, .tracking, .link] s (closePassage a o s p) :=
  (((leaveList_only a p s).mono (by decide)).trans
    (Only.foldl (fun s id => (modifyTrack_only s id _).mono (by decide)) _ _)).trans
    ((createReport_only _ _ _).mono (by decide))

theorem dismissAisle_only (a : Aisle) (s : State) :
    Only [.passages, .tracking, .link] s (dismissAisle a s) :=
  (Only.foldl (closePassage_only a .dismissed) _ _).trans ((setAisle_only _ _ _).mono (by decide))

theorem takeBreak_only (a : Aisle) (b : Beam) (s : State) :
    Only [.passages, .tracking] s (takeBreak a b s) := by
  unfold takeBreak
  refine Only.trans ((setOpens_only s a ((s.opens a).map (Passage.sawBreak b))).mono (by decide)) ?_
  exact Only.ite ((setOpens_only _ _ _).mono (by decide))
    (Only.ite (openPassage_only _ _ _) ((setAisle_only _ _ _).mono (by decide)))

theorem sweepPassage_only (a : Aisle) (s : State) (p : Passage) :
    Only passageParts s (sweepPassage a s p) := by
  unfold sweepPassage
  split
  · exact completePassage_only a s p
  · exact (closePassage_only a _ s p).mono (by decide)

theorem sweepAisle_only (a : Aisle) (s : State) : Only passageParts s (sweepAisle a s) :=
  (Only.foldl (sweepPassage_only a) _ _).trans ((setAisle_only _ _ _).mono (by decide))

theorem takeClear_only (a : Aisle) (b : Beam) (s : State) :
    Only passageParts s (takeClear a b s) := by
  have h1 : Only passageParts s
      (match (s.opens a).find? (Passage.completes b) with
       | some p => completePassage a s p
       | none =>
         match s.turnsBack a b with
         | some p => closePassage a .turnedBack s p
         | none => s) := by
    split
    · exact completePassage_only a s _
    · split
      · exact (closePassage_only a _ s _).mono (by decide)
      · exact Only.refl _ s
  exact Only.ite (h1.trans (sweepAisle_only a _)) h1

/-- What an accepted change of a beam may change. -/
abbrev beamParts : List Component := .beams :: passageParts

theorem beamEvent_only (a : Aisle) (b : Beam) (l : Bool) (s : State) :
    Only beamParts s (beamEvent a b l s) := by
  unfold beamEvent
  have h1 : Only beamParts s (acceptBeam a b s) := (acceptBeam_only a b s).mono (by decide)
  refine Only.ite (h1.trans ?_) h1
  exact Only.ite ((takeBreak_only a b _).mono (by decide)) ((takeClear_only a b _).mono (by decide))

theorem breakEvent_only (a : Aisle) (b : Beam) (s : State) :
    Only [.beams, .passages, .tracking] s (beamEvent a b true s) := by
  unfold beamEvent
  have h1 : Only [.beams, .passages, .tracking] s (acceptBeam a b s) :=
    (acceptBeam_only a b s).mono (by decide)
  exact Only.ite (h1.trans ((takeBreak_only a b _).mono (by decide))) h1

theorem settleBeam_only (a : Aisle) (b : Beam) (s : State) :
    Only beamParts s (settleBeam a b s) :=
  Only.ite (beamEvent_only a b _ s) (Only.ite (beamEvent_only a b _ s) (Only.refl _ s))

/-! ## Tracks -/

/-- What an attribution may change. -/
abbrev attributionParts : List Component := [.passages, .tracking, .queries]

theorem attributionEvent_only (id : Ident) (a : Aisle) (s : State) :
    Only attributionParts s (attributionEvent id a s) :=
  ((bindAttributed_only id a s).mono (by decide)).trans ((makeQuery_only id a _).mono (by decide))

theorem attributeTrack_only (id : Ident) (a : Aisle) (s : State) :
    Only attributionParts s (attributeTrack id a s) :=
  ((modifyTrack_only s id _).mono (by decide)).trans (attributionEvent_only id a _)

theorem testOutcome_only (id : Ident) (b : Aisle) (st : TrackState) (s : State) :
    Only attributionParts s (testOutcome id b st s) := by
  unfold testOutcome
  split
  · exact attributeTrack_only id b s
  · exact Only.ite (Only.refl _ s) (attributeTrack_only id b s)
  · exact Only.refl _ s
  · exact Only.refl _ s

theorem hearTrack_only (t : Track) (a : Aisle) (c : Nat) (g : Bool) (s : State) :
    Only attributionParts s (hearTrack t a c g s) := by
  unfold hearTrack
  dsimp only
  split
  · exact ((setTracks_only s _).mono (by decide)).trans (testOutcome_only ..)
  · exact (setTracks_only s _).mono (by decide)

theorem freeTrack_only (s : State) (id : Ident) :
    Only (.queries :: verdictParts) s (freeTrack s id) :=
  ((setTracks_only s _).mono (by decide)).trans (trackGone_only id _)

theorem evictTrack_only (s : State) : Only (.queries :: verdictParts) s (evictTrack s) := by
  unfold evictTrack
  split
  · exact freeTrack_only s _
  · exact Only.refl _ s

/-- What a sighting may change. -/
abbrev sightingParts : List Component := .passages :: .queries :: verdictParts

theorem hearNew_only (id : Ident) (a : Aisle) (c : Nat) (g : Bool) (s : State) :
    Only sightingParts s (hearNew id a c g s) := by
  unfold hearNew
  have h1 : Only sightingParts s (if s.tracking.tracks.length < 256 then s else evictTrack s) :=
    Only.ite (Only.refl _ s) ((evictTrack_only s).mono (by decide))
  exact Only.ite (h1.trans ((hearTrack_only _ _ _ _ _).mono (by decide))) h1

theorem takeSighting_only (id : Ident) (a : Aisle) (c : Nat) (g : Bool) (s : State) :
    Only sightingParts s (takeSighting id a c g s) := by
  unfold takeSighting
  split
  · exact (hearTrack_only ..).mono (by decide)
  · exact hearNew_only ..

theorem intakeRecord_only (p : Pedestal) (s : State) (r : SightingRecord) :
    Only sightingParts s (intakeRecord p s r) := by
  unfold intakeRecord
  refine Only.ite (Only.refl _ s) ?_
  split
  · exact Only.refl _ s
  · exact Only.ite (Only.refl _ s) (Only.ite (Only.refl _ s) (takeSighting_only ..))

theorem decayTracks_only (s : State) : Only (.queries :: verdictParts) s (decayTracks s) :=
  ((setTracks_only s _).mono (by decide)).trans (Only.foldl freeTrack_only _ _)

/-! ## The pedestal bus -/

theorem changeBus_only (s : State) (f : Time → Nat → BusController → BusController) :
    Only [.bus] s (s.changeBus f) := only_setBus s _

theorem setHealth_only (s : State) (p : Pedestal) (h : Health) :
    Only [.bus] s (s.setHealth p h) := only_setBus s _

theorem recordTurn_only (p : Pedestal) (answered : Bool) (s : State) :
    Only [.bus, .link] s (recordTurn p answered s) :=
  Only.ite (Only.refl _ s)
    (Only.ite ((setHealth_only ..).mono (by decide))
      (Only.ite ((setHealth_only ..).mono (by decide))
        (((setHealth_only s p _).mono (by decide)).trans ((notice_only _ _).mono (by decide)))))

theorem endTurn_only (t : Turn) (mute : Bool) (s : State) :
    Only [.bus, .link] s (endTurn t mute s) := by
  unfold endTurn
  refine Only.trans (Only.ite (p := t.dropped = true) (Only.refl _ s)
    (recordTurn_only t.pedestal (t.answered && !mute) s)) ?_
  exact Only.ite ((only_setBus _ _).mono (by decide)) ((changeBus_only _ _).mono (by decide))

theorem restoreProbed_only (t : Turn) (s : State) :
    Only [.bus, .link] s (restoreProbed t s) :=
  Only.ite (((setHealth_only s t.pedestal _).mono (by decide)).trans
    ((notice_only _ _).mono (by decide))) (Only.refl _ s)

/-- What an answer of a reader may change. -/
abbrev readerParts : List Component := .choice :: .bus :: sightingParts

theorem finishAnswer_only (t : Turn) (more : Bool) (s : State) :
    Only [.bus, .link] s (finishAnswer t more s) :=
  Only.ite ((only_setBus s _).mono (by decide)) (endTurn_only ..)

theorem deliver_only (t : Turn) (more : Bool) (rs : List SightingRecord) (s : State) :
    Only [.bus, .link] s (deliver t more rs s) := by
  cases rs with
  | nil => exact finishAnswer_only t more s
  | cons r rs => exact (only_setBus s _).mono (by decide)

theorem intake_only (p : Pedestal) (rs : List SightingRecord) (s : State) :
    Only sightingParts s (rs.foldl (intakeRecord p) s) := Only.foldl (intakeRecord_only p) rs s

theorem takeSightings_only (t : Turn) (more : Bool) (rs : List SightingRecord) (s : State) :
    Only readerParts s (takeSightings t more rs s) := by
  unfold takeSightings
  exact ((((restoreProbed_only t s).mono (by decide)).trans
    ((afterDraw_only _ rs.length).mono (by decide))).trans
    ((intake_only t.pedestal (rs.take _) _).mono (by decide))).trans
    ((deliver_only ..).mono (by decide))

theorem takeRecord_only (s : State) : Only (.bus :: sightingParts) s (takeRecord s) := by
  unfold takeRecord
  split
  · exact (finishAnswer_only ..).mono (by decide)
  · exact ((intakeRecord_only _ s _).mono (by decide)).trans ((deliver_only ..).mono (by decide))
  · exact Only.refl _ s

theorem takeExtension_only (t : Turn) (n : Nat) (s : State) :
    Only [.bus, .link] s (takeExtension t n s) := by
  unfold takeExtension
  refine Only.trans (restoreProbed_only t s) ?_
  exact Only.ite ((only_setBus _ _).mono (by decide)) (endTurn_only ..)

theorem takeReaderAnswer_only (t : Turn) (a : Answer) (s : State) :
    Only readerParts s (takeReaderAnswer t a s) := by
  cases a with
  | sightings more rs => exact takeSightings_only t more rs s
  | extend n => exact (takeExtension_only t n s).mono (by decide)
  | extendOn => exact (takeExtension_only t 1 s).mono (by decide)

theorem pollUnanswered_only (t : Turn) (s : State) :
    Only [.bus, .link] s (pollUnanswered t s) := endTurn_only t false s

theorem takeBytes_only (t : Turn) (bytes : List Byte) (s : State) :
    Only readerParts s (takeBytes t bytes s) := by
  unfold takeBytes
  split
  · exact (only_setBus s _).mono (by decide)
  · exact (pollUnanswered_only t s).mono (by decide)
  · exact takeReaderAnswer_only t _ s

theorem grantBus_only (ref : Byte) (s : State) : Only [.bus, .link] s (grantBus ref s) :=
  ((only_setBus s _).mono (by decide)).trans ((reply_only ..).mono (by decide))

theorem takeBusTake_only (ref : Byte) (s : State) : Only [.bus, .link] s (takeBusTake ref s) := by
  unfold takeBusTake
  refine Only.ite ((reply_only ..).mono (by decide)) ?_
  split
  · exact (reply_only ..).mono (by decide)
  · exact grantBus_only ref s
  · exact (only_setBus s _).mono (by decide)
  · exact (only_setBus s _).mono (by decide)
  · exact (only_setBus s _).mono (by decide)
  · exact (only_setBus s _).mono (by decide)
  · exact (only_setBus s _).mono (by decide)

theorem failReaderPass_only (h : Hold) (s : State) :
    Only [.bus, .link] s (failReaderPass h s) := by
  unfold failReaderPass
  split
  · exact ((only_setBus s _).mono (by decide)).trans ((reply_only ..).mono (by decide))
  · exact Only.refl _ s

theorem endHold_only (h : Hold) (s : State) : Only [.bus, .link] s (endHold h s) :=
  (failReaderPass_only h s).trans ((changeBus_only _ _).mono (by decide))

theorem cancelGrant_only (ref : Byte) (s : State) : Only [.bus, .link] s (cancelGrant ref s) := by
  unfold cancelGrant
  refine Only.trans (((only_setBus s { s.bus with grant := none }).mono (by decide)).trans
    ((reply_only .busTake ref .cancelled [] _).mono (by decide))) ?_
  dsimp only
  split
  · exact (changeBus_only _ _).mono (by decide)
  · exact Only.refl _ _

theorem takeBusGive_only (ref : Byte) (s : State) : Only [.bus, .link] s (takeBusGive ref s) := by
  unfold takeBusGive
  split
  · exact (endHold_only _ s).trans ((reply_only ..).mono (by decide))
  · split
    · exact (cancelGrant_only _ s).trans ((reply_only ..).mono (by decide))
    · exact (reply_only ..).mono (by decide)

theorem takeReaderPass_only (ref p : Byte) (bs : List Byte) (s : State) :
    Only [.bus, .link] s (takeReaderPass ref p bs s) := by
  unfold takeReaderPass
  split
  · split
    · exact Only.ite ((reply_only ..).mono (by decide)) ((only_setBus s _).mono (by decide))
    · exact (reply_only ..).mono (by decide)
  · exact (reply_only ..).mono (by decide)

/-! ## Modes and settings -/

theorem aislesChanged_only (s : State) : Only [.bus] s (aislesChanged s) := only_setBus s _

/-- What accepting the debounced inputs may change. -/
abbrev settleParts : List Component := .choice :: beamParts

theorem settleInput_only (i : DebouncedInput) (s : State) : Only beamParts s (settleInput i s) := by
  cases i with
  | beam a b => exact (settleBeam_only a b s).mono (by decide)
  | key => exact (settleKey_only s).mono (by decide)

theorem settleInputs_only (n : Nat) (s : State) : Only settleParts s (settleInputs n s) := by
  induction n generalizing s with
  | zero => exact Only.refl _ s
  | succ n ih =>
    unfold settleInputs
    split
    · exact Only.refl _ s
    · exact (((afterPick_only s _).mono (by decide)).trans
        ((settleInput_only _ _).mono (by decide))).trans (ih _)

theorem applyRecord_only (r : SiteSettings) (s : State) :
    Only [.site, .tracking, .bus] s (applyRecord r s) := by
  unfold applyRecord
  have h1 : Only [.site, .tracking, .bus] s ((s.setSite r).setTracking
      { s.tracking with decayAt := after s.clock.now r.decay }) :=
    ((only_setSite s r).mono (by decide)).trans ((only_setTracking _ _).mono (by decide))
  exact Only.ite h1 (h1.trans ((aislesChanged_only _).mono (by decide)))

/-- What an applied SET-SITE may change. -/
abbrev siteParts : List Component := .site :: .bus :: settleParts

theorem applySite_only (r : SiteSettings) (s : State) : Only siteParts s (applySite r s) :=
  ((applyRecord_only r s).mono (by decide)).trans ((settleInputs_only 17 _).mono (by decide))

theorem takeSetSite_only (ref : Byte) (f : SiteFields) (s : State) :
    Only siteParts s (takeSetSite ref f s) := by
  unfold takeSetSite
  split
  · exact Only.ite ((applySite_only _ s).trans ((reply_only ..).mono (by decide)))
      ((reply_only ..).mono (by decide))
  · exact (reply_only ..).mono (by decide)

/-- What a change of a stored mode may change. -/
abbrev modeParts : List Component := [.modes, .annunciators, .passages, .tracking, .link]

theorem changeMode_only (m : Mode) (s : State) (a : Aisle) :
    Only modeParts s (changeMode m s a) := by
  unfold changeMode
  dsimp only
  have h1 : Only modeParts s (s.setModes { s.modes with stored := s.modes.stored.set a m }) :=
    (only_setModes s _).mono (by decide)
  have h2 := Only.ite (p := s.effective a = .guard ∧
      (s.setModes { s.modes with stored := s.modes.stored.set a m }).effective a ≠ .guard)
    (h1.trans ((quietAisle_only a _).mono (by decide))) h1
  exact Only.ite (h2.trans ((dismissAisle_only a _).mono (by decide))) h2

theorem takeSetMode_only (ref a m : Byte) (s : State) : Only modeParts s (takeSetMode ref a m s) := by
  unfold takeSetMode
  split
  · exact Only.ite ((reply_only ..).mono (by decide))
      ((Only.foldl (changeMode_only _) _ s).trans ((reply_only ..).mono (by decide)))
  · exact (reply_only ..).mono (by decide)

theorem takeSilence_only (ref a : Byte) (s : State) :
    Only [.annunciators, .link] s (takeSilence ref a s) := by
  unfold takeSilence
  split
  · exact ((silenceAisles_only _ s).mono (by decide)).trans ((reply_only ..).mono (by decide))
  · exact (reply_only ..).mono (by decide)

theorem acceptEvac_only (s : State) : Only [.modes] s (acceptEvac s) := only_setModes s _

theorem assertEvac_only (s : State) : Only [.modes, .annunciators, .link] s (assertEvac s) :=
  (((acceptEvac_only s).mono (by decide)).trans
    (Only.foldl (fun s a => (quietAisle_only a s).mono (by decide)) _ _)).trans
    ((notice_only _ _).mono (by decide))

theorem releaseEvac_only (s : State) : Only [.modes, .link] s (releaseEvac s) :=
  ((acceptEvac_only s).mono (by decide)).trans ((notice_only _ _).mono (by decide))

theorem settleEvac_only (s : State) : Only [.modes, .annunciators, .link] s (settleEvac s) :=
  Only.ite (assertEvac_only s) (Only.ite ((releaseEvac_only s).mono (by decide)) (Only.refl _ s))

/-! ## The link unit -/

theorem takeDescribe_only (ref o : Byte) (s : State) : Only [.link] s (takeDescribe ref o s) :=
  Only.ite (reply_only ..) (reply_only ..)

theorem takeStatus_only (ref v : Byte) (s : State) : Only [.link] s (takeStatus ref v s) := by
  unfold takeStatus
  refine Only.ite (reply_only ..) ?_
  split
  · exact reply_only ..
  · exact reply_only ..

theorem takeRestart_only (ref k : Byte) (s : State) : Only [.link] s (takeRestart ref k s) := by
  unfold takeRestart
  split
  · exact (only_setLink s _).trans (reply_only ..)
  · exact reply_only ..

/-- What a good frame may change: everything but the clock and the queue of commands. -/
abbrev requestParts : List Component :=
  [.site, .modes, .bus, .tracking, .beams, .passages, .segments, .refresh, .supervisor, .queries,
   .judging, .annunciators, .link, .choice]

theorem takeRequest_only (ref : Byte) (r : Request) (s : State) :
    Only requestParts s (takeRequest ref r s) := by
  cases r with
  | describe o => exact (takeDescribe_only ..).mono (by decide)
  | status v => exact (takeStatus_only ..).mono (by decide)
  | restart k => exact (takeRestart_only ..).mono (by decide)
  | setSite f => exact (takeSetSite_only ..).mono (by decide)
  | setMode a m => exact (takeSetMode_only ..).mono (by decide)
  | silence a => exact (takeSilence_only ..).mono (by decide)
  | issue id e d => exact (runUpdate_only ..).mono (by decide)
  | beginIssue id d => exact (runUpdate_only ..).mono (by decide)
  | cancelIssue id => exact (runUpdate_only ..).mono (by decide)
  | returnItem id => exact (runUpdate_only ..).mono (by decide)
  | mark id c e d => exact (runUpdate_only ..).mono (by decide)
  | unmark id => exact (runUpdate_only ..).mono (by decide)
  | lookup id => exact (takeLookup_only ..).mono (by decide)
  | segBegin i n => exact (takeSegBegin_only ..).mono (by decide)
  | segBlock i b l es => exact (takeSegBlock_only ..).mono (by decide)
  | trust set => exact (takeTrust_only ..).mono (by decide)
  | supervise p => exact (takeSupervise_only ..).mono (by decide)
  | answer n id r e => exact (takeAnswer_only ..).mono (by decide)
  | busTake => exact (takeBusTake_only ..).mono (by decide)
  | busGive => exact (takeBusGive_only ..).mono (by decide)
  | readerPass p bs => exact (takeReaderPass_only ..).mono (by decide)

theorem rejectFrame_only (f : Frame) (st : Status) (s : State) :
    Only [.link] s (rejectFrame f st s) := placeReply_only ..

theorem dispatch_only (f : Frame) (s : State) : Only requestParts s (dispatch f s) := by
  unfold dispatch
  split
  · exact (rejectFrame_only ..).mono (by decide)
  · exact (rejectFrame_only ..).mono (by decide)
  · exact takeRequest_only ..

theorem handOn_only (s : State) (f : Frame) : Only requestParts s (handOn s f) := by
  unfold handOn
  have h1 : Only requestParts s (countGoodFrame s) := (countGoodFrame_only s).mono (by decide)
  exact Only.ite h1 (Only.ite h1 (h1.trans (dispatch_only f _)))

theorem setRx_only (s : State) (bs : List RxByte) : Only [.link] s (s.setRx bs) := only_setLink s _

theorem goodFrame_only (kind ref : Byte) (p : List Byte) (s : State) :
    Only requestParts s (goodFrame kind ref p s) :=
  ((setRx_only s []).mono (by decide)).trans (handOn_only _ _)

theorem receive_only (silent : Bool) (bs : List Byte) (s : State) :
    Only requestParts s (receive silent bs s) :=
  ((setRx_only s _).mono (by decide)).trans (Only.foldl handOn_only _ _)

theorem send_only (s : State) (l : LinkUnit) (f : Frame) (b : Bool) :
    Only [.link] s (s.send l f b) := only_setLink s _

theorem sendReport_only (s : State) : Only [.link] s (sendReport s) := by
  unfold sendReport
  split
  · exact send_only ..
  · split
    · exact send_only ..
    · exact Only.refl _ s

theorem arbitrate_only (s : State) : Only [.queries, .link] s (arbitrate s) := by
  unfold arbitrate
  split
  · exact (send_only ..).mono (by decide)
  · split
    · exact ((setQueryList_only s _).mono (by decide)).trans ((send_only ..).mono (by decide))
    · exact (sendReport_only s).mono (by decide)

/-! ## Restarts and the idle step -/

theorem fullReset_keeps (c : RestartCause) (s : State) :
    (fullReset c s).choice = s.choice ∧ (fullReset c s).pending = s.pending := ⟨rfl, rfl⟩

theorem detectionRestart_only (s : State) :
    Only [.bus, .tracking, .beams, .passages, .refresh, .queries, .judging, .annunciators, .link]
      s (detectionRestart s) := by
  constructor
  intro c hc
  cases c <;> first | rfl | exact absurd (by simp) hc

theorem tick_only (s : State) : Only [.clock] s (tick s) := only_setClock s _

/-- What the idle step may change. -/
abbrev idleParts : List Component := .clock :: .pending :: readerParts

theorem idle_only (s : State) : Only idleParts s (idle s) := by
  unfold idle
  split
  · exact (tick_only s).mono (by decide)
  · split
    · exact ((afterPick_only s _).mono (by decide)).trans ((only_setPending _ _).mono (by decide))
    · exact ((afterPick_only s _).mono (by decide)).trans ((takeRecord_only _).mono (by decide))

end Sys2Proof.Machine
end

