-- ==== Sys2Proof/Laws/Lists.lean ====
section
/-! SUPPORT. What the list, vector and filter operations of Machine/Ops.lean do. -/

namespace Sys2Proof.Machine

/-! ## Vectors -/

@[simp] theorem mapVector_get {α β : Type} {n : Nat} (f : α → β) (v : Vector α n) (i : Fin n) :
    (mapVector f v)[i] = f v[i] := by simp [mapVector]

@[simp] theorem mapVector_getNat {α β : Type} {n : Nat} (f : α → β) (v : Vector α n) (i : Nat)
    (h : i < n) : (mapVector f v)[i] = f v[i] := by simp [mapVector]

theorem set_get {α : Type} {n : Nat} (v : Vector α n) (i j : Fin n) (x : α) :
    (v.set i x)[j] = if i = j then x else v[j] := by
  simp [Vector.getElem_set, Fin.ext_iff]

@[simp] theorem set_get_self {α : Type} {n : Nat} (v : Vector α n) (i : Fin n) (x : α) :
    (v.set i x)[i] = x := by simp

theorem set_get_ne {α : Type} {n : Nat} (v : Vector α n) {i j : Fin n} (x : α) (h : j ≠ i) :
    (v.set i x)[j] = v[j] := by rw [set_get, if_neg (Ne.symm h)]

theorem vector_ext {α : Type} {n : Nat} {v w : Vector α n} (h : ∀ i : Fin n, v[i] = w[i]) : v = w := by
  apply Vector.ext; intro i hi; exact h ⟨i, hi⟩

theorem mem_allAisles (a : Aisle) : a ∈ allAisles := by revert a; decide

theorem mem_allPedestals (p : Pedestal) : p ∈ allPedestals := by revert p; decide

theorem mem_allSegments (i : Fin 64) : i ∈ allSegments := List.mem_finRange i

/-! ## Filters -/

@[simp] theorem Filter.input_raw (now : Time) (l : Bool) (f : Filter) : (f.input now l).raw = l := rfl
@[simp] theorem Filter.input_accepted (now : Time) (l : Bool) (f : Filter) :
    (f.input now l).accepted = f.accepted := rfl

/-- A due change is one whose raw level is the level and whose accepted state is the other. -/
theorem Filter.due_true {now : Time} {ms : Nat} {l : Bool} {f : Filter} (h : f.due now ms l = true) :
    f.raw = l ∧ f.accepted = !l ∧ f.accept = { raw := l, accepted := l, since := none } := by
  simp only [Filter.due, Bool.and_eq_true, beq_iff_eq, bne_iff_ne] at h
  obtain ⟨⟨h1, h2⟩, -⟩ := h
  refine ⟨h1, ?_, ?_⟩
  · cases l <;> cases hf : f.accepted <;> simp_all
  · simp [Filter.accept, h1]

/-! ## Keyed lists -/

section
variable {α : Type} {key : α → Nat}

theorem risingKeys_cons {x : α} {l : List α} :
    risingKeys key (x :: l) = true ↔ (∀ y ∈ l, key x < key y) ∧ risingKeys key l = true := by
  induction l generalizing x with
  | nil => simp [risingKeys]
  | cons y ys ih =>
    rw [risingKeys, Bool.and_eq_true, decide_eq_true_iff]
    constructor
    · rintro ⟨h1, h2⟩
      refine ⟨fun z hz => ?_, h2⟩
      rcases List.mem_cons.1 hz with rfl | hz
      · exact h1
      · exact h1.trans ((ih.1 h2).1 z hz)
    · rintro ⟨h1, h2⟩
      exact ⟨h1 y (List.mem_cons_self ..), h2⟩

/-- In a keyed list, the keys tell the elements apart. -/
theorem risingKeys_unique {l : List α} (h : risingKeys key l = true) {x y : α} (hx : x ∈ l)
    (hy : y ∈ l) (hk : key x = key y) : x = y := by
  induction l with
  | nil => cases hx
  | cons z l ih =>
    obtain ⟨h1, h2⟩ := risingKeys_cons.1 h
    rcases List.mem_cons.1 hx with rfl | hx' <;> rcases List.mem_cons.1 hy with rfl | hy'
    · rfl
    · exact absurd hk (h1 y hy').ne
    · exact absurd hk.symm (h1 x hx').ne
    · exact ih h2 hx' hy'

theorem mem_putKeyed {x z : α} {l : List α} (h : z ∈ putKeyed key x l) : z = x ∨ z ∈ l := by
  induction l with
  | nil => simpa [putKeyed] using h
  | cons y ys ih =>
    unfold putKeyed at h
    split at h
    · simpa using h
    · split at h
      · rcases List.mem_cons.1 h with h | h
        · exact .inl h
        · exact .inr (List.mem_cons_of_mem _ h)
      · rcases List.mem_cons.1 h with h | h
        · exact .inr (h ▸ List.mem_cons_self ..)
        · exact (ih h).imp id (List.mem_cons_of_mem _)

theorem self_mem_putKeyed (x : α) (l : List α) : x ∈ putKeyed key x l := by
  induction l with
  | nil => simp [putKeyed]
  | cons y ys ih =>
    unfold putKeyed
    split
    · simp
    · split
      · simp
      · exact List.mem_cons_of_mem _ ih

/-- Putting an element keeps the canonical form. -/
theorem risingKeys_putKeyed {x : α} {l : List α} (h : risingKeys key l = true) :
    risingKeys key (putKeyed key x l) = true := by
  induction l with
  | nil => rfl
  | cons y ys ih =>
    obtain ⟨h1, h2⟩ := risingKeys_cons.1 h
    unfold putKeyed
    split
    · rename_i hlt
      refine risingKeys_cons.2 ⟨fun z hz => ?_, h⟩
      rcases List.mem_cons.1 hz with rfl | hz
      · exact hlt
      · exact hlt.trans (h1 z hz)
    · split
      · rename_i heq
        exact risingKeys_cons.2 ⟨fun z hz => heq ▸ h1 z hz, h2⟩
      · rename_i hge hne
        refine risingKeys_cons.2 ⟨fun z hz => ?_, ih h2⟩
        rcases mem_putKeyed hz with rfl | hz
        · omega
        · exact h1 z hz

/-- Taking elements out keeps the canonical form. -/
theorem risingKeys_filter {p : α → Bool} {l : List α} (h : risingKeys key l = true) :
    risingKeys key (l.filter p) = true := by
  induction l with
  | nil => rfl
  | cons y ys ih =>
    obtain ⟨h1, h2⟩ := risingKeys_cons.1 h
    rw [List.filter_cons]
    split
    · exact risingKeys_cons.2 ⟨fun z hz => h1 z (List.mem_of_mem_filter hz), ih h2⟩
    · exact ih h2

theorem risingKeys_dropKeyed {k : Nat} {l : List α} (h : risingKeys key l = true) :
    risingKeys key (dropKeyed key k l) = true := risingKeys_filter h

/-- Changing elements without changing their keys keeps the canonical form. -/
theorem risingKeys_map {f : α → α} (hf : ∀ x, key (f x) = key x) {l : List α}
    (h : risingKeys key l = true) : risingKeys key (l.map f) = true := by
  induction l with
  | nil => rfl
  | cons y ys ih =>
    obtain ⟨h1, h2⟩ := risingKeys_cons.1 h
    refine risingKeys_cons.2 ⟨fun z hz => ?_, ih h2⟩
    obtain ⟨w, hw, rfl⟩ := List.mem_map.1 hz
    rw [hf, hf]
    exact h1 w hw

theorem risingKeys_filterMap {f : α → Option α} (hf : ∀ x y, f x = some y → key y = key x)
    {l : List α} (h : risingKeys key l = true) : risingKeys key (l.filterMap f) = true := by
  induction l with
  | nil => rfl
  | cons y ys ih =>
    obtain ⟨h1, h2⟩ := risingKeys_cons.1 h
    rw [List.filterMap_cons]
    split
    · exact ih h2
    · rename_i y' hy'
      refine risingKeys_cons.2 ⟨fun z hz => ?_, ih h2⟩
      obtain ⟨w, hw, hz⟩ := List.mem_filterMap.1 hz
      rw [hf _ _ hy', hf _ _ hz]
      exact h1 w hw

theorem length_putKeyed_le (x : α) (l : List α) : (putKeyed key x l).length ≤ l.length + 1 := by
  induction l with
  | nil => simp [putKeyed]
  | cons y ys ih =>
    unfold putKeyed
    split
    · simp
    · split
      · simp
      · simpa using ih

/-- Where the key is there already, the list does not grow. -/
theorem length_putKeyed_of_mem {x : α} {l : List α} (h : risingKeys key l = true)
    (hx : ∃ y ∈ l, key y = key x) : (putKeyed key x l).length = l.length := by
  induction l with
  | nil => simp at hx
  | cons y ys ih =>
    obtain ⟨h1, h2⟩ := risingKeys_cons.1 h
    obtain ⟨z, hz, hk⟩ := hx
    unfold putKeyed
    rcases List.mem_cons.1 hz with rfl | hz
    · simp [hk]
    · have := h1 z hz
      rw [if_neg (by omega), if_neg (by omega)]
      simp [ih h2 ⟨z, hz, hk⟩]

/-- Finding by key, one element at a time. -/
theorem find_key_cons {β : Type} [DecidableEq β] {f : α → β} (y : α) (l : List α) (b : β) :
    (y :: l).find? (fun x => f x == b) = if f y = b then some y else l.find? (fun x => f x == b) := by
  by_cases h : f y = b
  · simp [h]
  · simp [h, beq_eq_false_iff_ne.2 h]

/-- Finding by key after putting: the element put, and otherwise what was found before. -/
theorem find_putKeyed {β : Type} [DecidableEq β] {f : α → β} (hf : ∀ x y, key x = key y ↔ f x = f y)
    (x : α) (l : List α) (b : β) :
    (putKeyed key x l).find? (fun y => f y == b)
      = if f x = b then some x else l.find? (fun y => f y == b) := by
  induction l with
  | nil => rw [putKeyed, find_key_cons]
  | cons y ys ih =>
    unfold putKeyed
    split
    · rw [find_key_cons]
    · split
      · rename_i heq
        rw [find_key_cons, find_key_cons, ← (hf x y).1 heq]
        split <;> simp_all
      · rename_i hne
        have hne' : f x ≠ f y := fun h => hne ((hf x y).2 h)
        rw [find_key_cons, ih, find_key_cons]
        by_cases hx : f x = b
        · rw [if_neg (fun h => hne' (hx.trans h.symm)), if_pos hx, if_pos hx]
        · rw [if_neg hx, if_neg hx]

/-- Finding by key after dropping: nothing for the key dropped, and otherwise as before. -/
theorem find_dropKeyed {β : Type} [DecidableEq β] {f : α → β} {g : β → Nat}
    (hf : ∀ x, key x = g (f x)) (hg : ∀ b c, g b = g c → b = c) (b c : β) (l : List α) :
    (dropKeyed key (g b) l).find? (fun y => f y == c)
      = if c = b then none else l.find? (fun y => f y == c) := by
  induction l with
  | nil => simp [dropKeyed]
  | cons y ys ih =>
    simp only [dropKeyed] at ih ⊢
    rw [List.filter_cons]
    by_cases hy : f y = b
    · have : (key y != g b) = false := by simp [hf, hy]
      rw [this, if_neg (by simp), ih, find_key_cons, hy]
      by_cases hc : c = b
      · rw [if_pos hc, if_pos hc]
      · rw [if_neg hc, if_neg hc, if_neg (Ne.symm hc)]
    · have : (key y != g b) = true := by
        simp only [bne_iff_ne, hf]; exact fun h => hy (hg _ _ h)
      rw [this, if_pos rfl, find_key_cons, ih, find_key_cons]
      by_cases hc : c = b
      · rw [if_pos hc, if_pos hc, if_neg (fun h => hy (h.trans hc))]
      · rw [if_neg hc, if_neg hc]

end

/-- Finding by a key after changing elements without changing their keys. -/
theorem find_map_key {α β : Type} [DecidableEq β] {f : α → β} {g : α → α} (hg : ∀ x, f (g x) = f x)
    (l : List α) (b : β) :
    (l.map g).find? (fun y => f y == b) = (l.find? (fun y => f y == b)).map g := by
  induction l with
  | nil => rfl
  | cons y ys ih =>
    rw [List.map_cons, find_key_cons, find_key_cons, ih, hg]
    split <;> rfl

/-- Finding by key after keeping the elements that satisfy `p`, where the key is unique. -/
theorem find_filter_key {α : Type} {key : α → Nat} {β : Type} [DecidableEq β] {f : α → β}
    (hf : ∀ x y, key x = key y ↔ f x = f y) {p : α → Bool} {l : List α}
    (h : risingKeys key l = true) (b : β) :
    (l.filter p).find? (fun y => f y == b) = (l.find? (fun y => f y == b)).filter p := by
  induction l with
  | nil => rfl
  | cons y ys ih =>
    obtain ⟨h1, h2⟩ := risingKeys_cons.1 h
    have hn : ∀ z ∈ ys, f z ≠ f y := fun z hz e => (h1 z hz).ne ((hf z y).2 e).symm
    rw [List.filter_cons, find_key_cons]
    by_cases hy : f y = b
    · have hnone : ys.find? (fun y => f y == b) = none := by
        rw [List.find?_eq_none]; intro z hz; simpa [← hy] using hn z hz
      rw [if_pos hy]
      by_cases hp : p y = true
      · rw [if_pos hp, find_key_cons, if_pos hy]; simp [Option.filter, hp]
      · rw [if_neg hp, ih h2, hnone]; simp [Option.filter, hp]
    · rw [if_neg hy]
      split
      · rw [find_key_cons, if_neg hy, ih h2]
      · exact ih h2

/-! ## Least elements -/

theorem leastBy_eq_none {α : Type} {key : α → List Nat} {l : List α} (h : leastBy key l = none) :
    l = [] := by
  cases l with
  | nil => rfl
  | cons x xs =>
    unfold leastBy at h
    split at h
    · cases h
    · split at h <;> cases h

theorem leastBy_mem {α : Type} {key : α → List Nat} {l : List α} {x : α}
    (h : leastBy key l = some x) : x ∈ l := by
  induction l generalizing x with
  | nil => cases h
  | cons y ys ih =>
    unfold leastBy at h
    split at h
    · cases h; exact List.mem_cons_self ..
    · rename_i z hz
      split at h <;> cases h
      · exact List.mem_cons_of_mem _ (ih hz)
      · exact List.mem_cons_self ..

theorem lexBefore_asymm (a b : List Nat) (h : lexBefore a b = true) : lexBefore b a = false := by
  induction a generalizing b with
  | nil => simp [lexBefore] at h
  | cons x xs ih =>
    cases b with
    | nil => simp [lexBefore] at h
    | cons y ys =>
      simp only [lexBefore, Bool.or_eq_true, decide_eq_true_eq, Bool.and_eq_true, beq_iff_eq] at h
      simp only [lexBefore, Bool.or_eq_false_iff, decide_eq_false_iff_not, Bool.and_eq_false_iff,
        beq_eq_false_iff_ne]
      rcases h with h | ⟨rfl, h⟩
      · exact ⟨by omega, .inl (by omega)⟩
      · exact ⟨by omega, .inr (ih _ h)⟩

/-- Coming no later is transitive on lists of one length. -/
theorem not_lexBefore_trans {a b c : List Nat} (h1 : a.length = b.length) (h2 : b.length = c.length)
    (hab : lexBefore a b = false) (hbc : lexBefore b c = false) : lexBefore a c = false := by
  induction a generalizing b c with
  | nil => rfl
  | cons x xs ih =>
    cases b with
    | nil => simp at h1
    | cons y ys =>
      cases c with
      | nil => simp at h2
      | cons z zs =>
        simp only [lexBefore, Bool.or_eq_false_iff, decide_eq_false_iff_not, Bool.and_eq_false_iff,
          beq_eq_false_iff_ne] at hab hbc ⊢
        simp only [List.length_cons, Nat.add_right_cancel_iff] at h1 h2
        refine ⟨by omega, ?_⟩
        by_cases hxz : x = z
        · refine .inr (ih h1 h2 ?_ ?_)
          · exact hab.2.resolve_left (by omega)
          · exact hbc.2.resolve_left (by omega)
        · exact .inl hxz

/-- Nothing in the list comes before its least element. -/
theorem leastBy_least {α : Type} {key : α → List Nat} (n : Nat) (hn : ∀ x, (key x).length = n)
    {l : List α} {x : α} (h : leastBy key l = some x) :
    ∀ y ∈ l, lexBefore (key y) (key x) = false := by
  induction l generalizing x with
  | nil => cases h
  | cons z zs ih =>
    unfold leastBy at h
    split at h
    · rename_i hnone
      cases h
      have hzs := leastBy_eq_none hnone
      subst hzs
      intro y hy
      rw [List.mem_singleton] at hy
      subst hy
      cases hl : lexBefore (key y) (key y)
      · rfl
      · exact absurd (lexBefore_asymm _ _ hl) (by simp [hl])
    · rename_i w hw
      have hrefl : ∀ k, lexBefore k k = false := fun k => by
        cases hl : lexBefore k k
        · rfl
        · exact absurd (lexBefore_asymm _ _ hl) (by simp [hl])
      split at h <;> cases h
      · rename_i hlt
        intro y hy
        rcases List.mem_cons.1 hy with rfl | hy
        · exact lexBefore_asymm _ _ hlt
        · exact ih hw y hy
      · rename_i hlt
        intro y hy
        rcases List.mem_cons.1 hy with rfl | hy
        · exact hrefl _
        · exact not_lexBefore_trans (b := key w) (by simp [hn]) (by simp [hn]) (ih hw y hy)
            (by simpa using hlt)

/-- Sorting loses and adds nothing. -/
theorem mem_insertBy {α : Type} {key : α → List Nat} {x y : α} {l : List α} :
    y ∈ insertBy key x l ↔ y = x ∨ y ∈ l := by
  induction l with
  | nil => simp [insertBy]
  | cons z zs ih =>
    unfold insertBy
    split
    · simp
    · simp only [List.mem_cons, ih]; tauto

theorem mem_sortBy {α : Type} {key : α → List Nat} {y : α} {l : List α} :
    y ∈ sortBy key l ↔ y ∈ l := by
  induction l with
  | nil => simp [sortBy]
  | cons z zs ih => simp [sortBy, mem_insertBy, ih]

end Sys2Proof.Machine
end

