-- ==== Sys2Proof/Laws/Ops.lean ====
section
/-! SUPPORT. What the named operations do to the parts of the state that the statements speak of: tracks,
aisles, annunciators, entries, replies and reports. -/

namespace Sys2Proof.Machine

/-! ## Frames over derived readings -/

section
variable {cs : List Component} {s t : State}

theorem Only.effective (h : Only cs s t) (hc : Component.modes ∉ cs) (a : Aisle) :
    t.effective a = s.effective a := by simp [State.effective, h.modes hc]

theorem Only.track? (h : Only cs s t) (hc : Component.tracking ∉ cs) (i : Ident) :
    t.track? i = s.track? i := by simp [State.track?, h.tracking hc]

theorem Only.opens (h : Only cs s t) (hc : Component.passages ∉ cs) (a : Aisle) :
    t.opens a = s.opens a := by simp [State.opens, h.passages hc]

theorem Only.segment (h : Only cs s t) (hc : Component.segments ∉ cs) (i : Ident) :
    t.segment i = s.segment i := by simp [State.segment, h.segments hc]

theorem Only.entry? (h : Only cs s t) (hc : Component.segments ∉ cs) (i : Ident) :
    t.entry? i = s.entry? i := by simp [State.entry?, h.segment hc]

theorem Only.lookup (h : Only cs s t) (hc : Component.segments ∉ cs) (i : Ident) :
    t.lookup i = s.lookup i := by simp [State.lookup, h.entry? hc, h.segment hc]

theorem Only.beam (h : Only cs s t) (hc : Component.beams ∉ cs) (a : Aisle) (b : Beam) :
    t.beam a b = s.beam a b := by cases b <;> simp [State.beam, h.beams hc]

theorem Only.bothClear (h : Only cs s t) (hc : Component.beams ∉ cs) (a : Aisle) :
    t.bothClear a = s.bothClear a := by simp [State.bothClear, h.beams hc]

theorem Only.queried (h : Only cs s t) (hc : Component.queries ∉ cs) (i : Ident) :
    t.queried i = s.queried i := by simp [State.queried, h.queries hc]

end

/-! ## Tracks -/

theorem Track.key_iff (x y : Track) : x.key = y.key ↔ x.ident = y.ident := by
  simp [Track.key, BitVec.toNat_inj]

theorem Entry.key_iff (x y : Entry) : x.key = y.key ↔ x.ident = y.ident := by
  simp [Entry.key, BitVec.toNat_inj]

@[simp] theorem setTracks_tracks (s : State) (ts : List Track) :
    (s.setTracks ts).tracking.tracks = ts := rfl
@[simp] theorem setTracks_decayAt (s : State) (ts : List Track) :
    (s.setTracks ts).tracking.decayAt = s.tracking.decayAt := rfl
@[simp] theorem modifyTrack_decayAt (s : State) (id : Ident) (f : Track → Track) :
    (s.modifyTrack id f).tracking.decayAt = s.tracking.decayAt := rfl
theorem modifyTrack_tracks (s : State) (id : Ident) (f : Track → Track) :
    (s.modifyTrack id f).tracking.tracks
      = s.tracking.tracks.map fun t => if t.ident == id then f t else t := rfl

/-- Changing a track changes what is found for its identifier only. -/
theorem track?_modifyTrack (s : State) (id : Ident) (f : Track → Track)
    (hf : ∀ t, (f t).ident = t.ident) (i : Ident) :
    (s.modifyTrack id f).track? i = if i = id then (s.track? id).map f else s.track? i := by
  unfold State.track?
  rw [modifyTrack_tracks, find_map_key (f := Track.ident) (by intro x; split <;> simp [hf])]
  by_cases hi : i = id
  · subst hi
    rw [if_pos rfl]
    cases h : s.tracking.tracks.find? (fun t => t.ident == i) with
    | none => rfl
    | some t =>
      have ht := List.find?_some h
      simp only [Option.map_some, ht, if_true]
  · rw [if_neg hi]
    cases h : s.tracking.tracks.find? (fun t => t.ident == i) with
    | none => rfl
    | some t =>
      have := List.find?_some h
      simp only [beq_iff_eq] at this
      simp [this, hi]

theorem track?_modifyTrack_self {s : State} {id : Ident} {f : Track → Track} {x : Track}
    (h : s.track? id = some x) (hf : ∀ t, (f t).ident = t.ident) :
    (s.modifyTrack id f).track? id = some (f x) := by
  rw [track?_modifyTrack s id f hf, if_pos rfl, h]; rfl

theorem track?_modifyTrack_ne {s : State} {id i : Ident} {f : Track → Track} (h : i ≠ id)
    (hf : ∀ t, (f t).ident = t.ident) : (s.modifyTrack id f).track? i = s.track? i := by
  rw [track?_modifyTrack s id f hf, if_neg h]

theorem track?_mem {s : State} {i : Ident} {t : Track} (h : s.track? i = some t) :
    t ∈ s.tracking.tracks ∧ t.ident = i := by
  refine ⟨List.mem_of_find?_eq_some h, ?_⟩
  simpa using List.find?_some h

/-- In a track table in canonical form, every track is the one found for its identifier. -/
theorem track?_of_mem {s : State} (hk : risingKeys Track.key s.tracking.tracks = true) {t : Track}
    (h : t ∈ s.tracking.tracks) : s.track? t.ident = some t := by
  unfold State.track?
  cases hf : s.tracking.tracks.find? (fun x => x.ident == t.ident) with
  | none =>
    rw [List.find?_eq_none] at hf
    exact absurd (hf t h) (by simp)
  | some u =>
    have hu := List.find?_some hf
    simp only [beq_iff_eq] at hu
    rw [risingKeys_unique hk (List.mem_of_find?_eq_some hf) h ((Track.key_iff _ _).2 hu)]

/-! ## Aisles and annunciators -/

theorem setAisle_aisle (s : State) (a b : Aisle) (r : AisleRecord) :
    (s.setAisle a r).passages.aisles[b] = if a = b then r else s.passages.aisles[b] := by
  simp only [State.setAisle, State.setPassages_passages]; exact set_get ..
@[simp] theorem setAisle_self (s : State) (a : Aisle) (r : AisleRecord) :
    (s.setAisle a r).passages.aisles[a.val] = r := (setAisle_aisle s a a r).trans (if_pos rfl)
theorem setAisle_ne (s : State) {a b : Aisle} (r : AisleRecord) (h : b ≠ a) :
    (s.setAisle a r).passages.aisles[b] = s.passages.aisles[b] := by
  rw [setAisle_aisle, if_neg (Ne.symm h)]
@[simp] theorem setAisle_next (s : State) (a : Aisle) (r : AisleRecord) :
    (s.setAisle a r).passages.next = s.passages.next := rfl

@[simp] theorem setOpens_self (s : State) (a : Aisle) (ps : List Passage) :
    (s.setOpens a ps).opens a = ps := by
  simp only [State.setOpens, State.opens, setAisle_aisle, if_true]
@[simp] theorem setOpens_crowded (s : State) (a b : Aisle) (ps : List Passage) :
    (s.setOpens a ps).passages.aisles[b].crowded = s.passages.aisles[b].crowded := by
  rw [State.setOpens, setAisle_aisle]; split
  · rename_i h; rw [h]
  · rfl
theorem setOpens_ne (s : State) {a b : Aisle} (ps : List Passage) (h : b ≠ a) :
    (s.setOpens a ps).passages.aisles[b] = s.passages.aisles[b] := setAisle_ne s _ h
@[simp] theorem setOpens_next (s : State) (a : Aisle) (ps : List Passage) :
    (s.setOpens a ps).passages.next = s.passages.next := rfl

theorem setAnnunciator_get (s : State) (a b : Aisle) (x : Annunciator) :
    (s.setAnnunciator a x).annunciators[b] = if a = b then x else s.annunciators[b] := by
  simp only [State.setAnnunciator, State.setAnnunciators_annunciators]; exact set_get ..
@[simp] theorem setAnnunciator_self (s : State) (a : Aisle) (x : Annunciator) :
    (s.setAnnunciator a x).annunciators[a.val] = x :=
  (setAnnunciator_get s a a x).trans (if_pos rfl)
theorem setAnnunciator_ne (s : State) {a b : Aisle} (x : Annunciator) (h : b ≠ a) :
    (s.setAnnunciator a x).annunciators[b] = s.annunciators[b] := by
  rw [setAnnunciator_get, if_neg (Ne.symm h)]

/-- What a verdict does to every annunciator. -/
theorem handVerdict_get (a b : Aisle) (v : Verdict) (s : State) :
    (handVerdict a v s).annunciators[b] =
      if a = b then
        (match v with
         | .alarm => s.annunciators[a].alarm s
         | .soft => s.annunciators[a].soft s
         | .note => s.annunciators[a]
         | .pass => s.annunciators[a])
      else s.annunciators[b] := by
  cases v <;> simp only [handVerdict, setAnnunciator_get]
  · split
    · rename_i h; rw [h]
    · rfl
  · split
    · rename_i h; rw [h]
    · rfl

/-- Silencing changes the annunciators of the list, each by its own state. -/
theorem silenceAisles_get (as : List Aisle) (s : State) (b : Aisle) :
    (silenceAisles as s).annunciators[b] =
      if b ∈ as then s.annunciators[b].silenced else s.annunciators[b] := by
  induction as generalizing s with
  | nil => simp [silenceAisles]
  | cons a as ih =>
    have hidem : ∀ x : Annunciator, x.silenced.silenced = x.silenced := by intro x; cases x <;> rfl
    change (silenceAisles as (s.setAnnunciator a s.annunciators[a].silenced)).annunciators[b] = _
    rw [ih, setAnnunciator_get]
    by_cases hab : a = b
    · subst hab; simp [hidem]
    · simp [hab, Ne.symm hab]

/-! ## Entries -/

theorem segmentOf_inj_ne {i j : Ident} (h : segmentOf i ≠ segmentOf j) : i ≠ j :=
  fun e => h (e ▸ rfl)

theorem setEntries_get (s : State) (i j : Fin 64) (es : List Entry) :
    (s.setEntries i es).segments[j] =
      if i = j then { s.segments[i] with entries := es } else s.segments[j] := by
  simp only [State.setEntries, State.setSegments_segments]; exact set_get ..

/-- Writing an entry changes one segment's entries, and no segment's state. -/
theorem writeEntry_segment (id : Ident) (e : Option Entry) (s : State) (j : Fin 64) :
    (writeEntry id e s).segments[j] =
      if segmentOf id = j then
        { s.segments[j] with
          entries := match e with
            | some e => putKeyed Entry.key e s.segments[j].entries
            | none => dropKeyed Entry.key id.toNat s.segments[j].entries }
      else s.segments[j] := by
  cases e <;> simp only [writeEntry, setEntries_get] <;> split
  · rename_i h; subst h; rfl
  · rfl
  · rename_i h; subst h; rfl
  · rfl

@[simp] theorem writeEntry_state (id : Ident) (e : Option Entry) (s : State) (j : Fin 64) :
    (writeEntry id e s).segments[j].state = s.segments[j].state := by
  rw [writeEntry_segment]; split <;> rfl

/-- After a write, the identifier has that entry, and every other identifier the entry it had. -/
theorem entry?_writeEntry (id : Ident) (e : Option Entry) (s : State)
    (he : ∀ x, e = some x → x.ident = id) (i : Ident) :
    (writeEntry id e s).entry? i = if i = id then e else s.entry? i := by
  unfold State.entry? State.segment
  rw [writeEntry_segment]
  by_cases hs : segmentOf id = segmentOf i
  · rw [if_pos hs]
    cases e with
    | some x =>
      have hx := he x rfl
      simp only
      rw [find_putKeyed (f := Entry.ident) Entry.key_iff, hx]
      by_cases h : i = id
      · rw [if_pos h, if_pos h.symm]
      · rw [if_neg h, if_neg (Ne.symm h)]
    | none =>
      simp only
      exact find_dropKeyed (key := Entry.key) (f := Entry.ident) (g := BitVec.toNat) (fun _ => rfl)
        (fun _ _ => BitVec.toNat_inj.1) id i _
  · rw [if_neg hs, if_neg]
    intro h; exact hs (h ▸ rfl)

/-! ## Replies and reports -/

@[simp] theorem placeReply_replies (k r : Byte) (st : Status) (b : List Byte) (s : State) :
    (placeReply k r st b s).link.replies
      = s.link.replies ++ [{ kind := k, ref := r, status := st, body := b }] := rfl
@[simp] theorem reply_replies (k : RequestKind) (r : Byte) (st : Status) (b : List Byte) (s : State) :
    (reply k r st b s).link.replies
      = s.link.replies ++ [{ kind := k.replyCode, ref := r, status := st, body := b }] := rfl
@[simp] theorem placeReply_urgent (k r : Byte) (st : Status) (b : List Byte) (s : State) :
    (placeReply k r st b s).link.urgent = s.link.urgent := rfl
@[simp] theorem reply_urgent (k : RequestKind) (r : Byte) (st : Status) (b : List Byte) (s : State) :
    (reply k r st b s).link.urgent = s.link.urgent := rfl
@[simp] theorem placeReply_routine (k r : Byte) (st : Status) (b : List Byte) (s : State) :
    (placeReply k r st b s).link.routine = s.link.routine := rfl
@[simp] theorem reply_routine (k : RequestKind) (r : Byte) (st : Status) (b : List Byte) (s : State) :
    (reply k r st b s).link.routine = s.link.routine := rfl
@[simp] theorem placeReply_nextReport (k r : Byte) (st : Status) (b : List Byte) (s : State) :
    (placeReply k r st b s).link.nextReport = s.link.nextReport := rfl
@[simp] theorem reply_nextReport (k : RequestKind) (r : Byte) (st : Status) (b : List Byte)
    (s : State) : (reply k r st b s).link.nextReport = s.link.nextReport := rfl

theorem evictReport_eq (l : LinkUnit) :
    evictReport l = { l with urgent := (evictReport l).urgent, routine := (evictReport l).routine } := by
  unfold evictReport
  split
  · rfl
  · split <;> rfl

/-- A report touches the two lists and the next number only. -/
theorem createReport_link (u : Bool) (b : ReportBody) (s : State) :
    (createReport u b s).link =
      { s.link with
        nextReport := s.link.nextReport + 1
        urgent := (createReport u b s).link.urgent
        routine := (createReport u b s).link.routine } := by
  simp only [createReport, State.setLink_link]
  rw [evictReport_eq s.link]

@[simp] theorem createReport_replies (u : Bool) (b : ReportBody) (s : State) :
    (createReport u b s).link.replies = s.link.replies := by rw [createReport_link]
@[simp] theorem createReport_line (u : Bool) (b : ReportBody) (s : State) :
    (createReport u b s).link.line = s.link.line := by rw [createReport_link]
@[simp] theorem createReport_rx (u : Bool) (b : ReportBody) (s : State) :
    (createReport u b s).link.rx = s.link.rx := by rw [createReport_link]
@[simp] theorem createReport_restart (u : Bool) (b : ReportBody) (s : State) :
    (createReport u b s).link.restart = s.link.restart := by rw [createReport_link]
@[simp] theorem createReport_nextReport (u : Bool) (b : ReportBody) (s : State) :
    (createReport u b s).link.nextReport = s.link.nextReport + 1 := rfl
@[simp] theorem notice_replies (n : Notice) (s : State) :
    (notice n s).link.replies = s.link.replies := createReport_replies ..
@[simp] theorem notice_line (n : Notice) (s : State) :
    (notice n s).link.line = s.link.line := createReport_line ..
@[simp] theorem notice_rx (n : Notice) (s : State) :
    (notice n s).link.rx = s.link.rx := createReport_rx ..
@[simp] theorem notice_restart (n : Notice) (s : State) :
    (notice n s).link.restart = s.link.restart := createReport_restart ..
@[simp] theorem notice_nextReport (n : Notice) (s : State) :
    (notice n s).link.nextReport = s.link.nextReport + 1 := rfl

/-- A report depends on the state by its link unit and the part time only. -/
theorem createReport_congr {u : Bool} {b : ReportBody} {s t : State} (hl : s.link = t.link)
    (hc : s.clock = t.clock) : (createReport u b s).link = (createReport u b t).link := by
  simp [createReport, hl, hc]

theorem evictReport_congr {l m : LinkUnit} (h1 : l.urgent = m.urgent) (h2 : l.routine = m.routine) :
    (evictReport l).urgent = (evictReport m).urgent
      ∧ (evictReport l).routine = (evictReport m).routine := by
  unfold evictReport
  rw [h1, h2]
  split
  · exact ⟨h1, h2⟩
  · cases hr : m.routine
    · exact ⟨rfl, rfl⟩
    · exact ⟨rfl, rfl⟩

/-- The report lists after a report depend on the report lists, the next number and the time only. -/
theorem createReport_lists {u : Bool} {b : ReportBody} {s t : State} (h1 : s.link.urgent = t.link.urgent)
    (h2 : s.link.routine = t.link.routine) (h3 : s.link.nextReport = t.link.nextReport)
    (hc : s.clock = t.clock) :
    (createReport u b s).link.urgent = (createReport u b t).link.urgent
      ∧ (createReport u b s).link.routine = (createReport u b t).link.routine := by
  obtain ⟨e1, e2⟩ := evictReport_congr h1 h2
  simp [createReport, e1, e2, h3, hc]

/-- Where 48 reports are queued, making room takes the oldest routine one, else the oldest urgent. -/
theorem evictReport_spec (l : LinkUnit) :
    (l.urgent.length + l.routine.length < 48 →
      (evictReport l).urgent = l.urgent ∧ (evictReport l).routine = l.routine)
    ∧ (48 ≤ l.urgent.length + l.routine.length →
      (l.routine ≠ [] → (evictReport l).urgent = l.urgent ∧ (evictReport l).routine = l.routine.tail)
      ∧ (l.routine = [] → (evictReport l).urgent = l.urgent.tail ∧ (evictReport l).routine = [])) := by
  unfold evictReport
  split
  · exact ⟨fun _ => ⟨rfl, rfl⟩, fun h => by omega⟩
  · refine ⟨fun h => by omega, fun _ => ?_⟩
    split
    · rename_i r rest hr; simp [hr]
    · rename_i hr; simp [hr]

/-- The report queue never passes 48. -/
theorem createReport_length {u : Bool} {b : ReportBody} {s : State}
    (h : s.link.urgent.length + s.link.routine.length ≤ 48) :
    (createReport u b s).link.urgent.length + (createReport u b s).link.routine.length ≤ 48 := by
  obtain ⟨h1, h2⟩ := evictReport_spec s.link
  simp only [createReport, State.setLink_link]
  by_cases hlt : s.link.urgent.length + s.link.routine.length < 48
  · obtain ⟨e1, e2⟩ := h1 hlt
    rw [e1, e2]
    cases u <;> simp <;> omega
  · obtain ⟨e1, e2⟩ := h2 (by omega)
    by_cases hr : s.link.routine = []
    · obtain ⟨f1, f2⟩ := e2 hr
      rw [f1, f2, hr] at *
      cases u <;> simp at * <;> omega
    · obtain ⟨f1, f2⟩ := e1 hr
      rw [f1, f2]
      have := List.length_pos_iff.2 hr
      cases u <;> simp <;> omega

end Sys2Proof.Machine
end

