-- ==== Sys2Proof/Laws/Requests.lean ====
section
/-! SUPPORT. What the link unit makes of a good frame: counting, discarding, dispatch. -/

namespace Sys2Proof.Machine

/-! ## The counted state -/

theorem counted_only (s : State) : Only [.supervisor, .link] s s.counted :=
  ((setRx_only s []).mono (by decide)).trans (countGoodFrame_only _)

theorem countGoodFrame_link (s : State) :
    (countGoodFrame s).link =
      { s.link with
        urgent := (countGoodFrame s).link.urgent
        routine := (countGoodFrame s).link.routine
        nextReport := (countGoodFrame s).link.nextReport } := by
  unfold countGoodFrame
  split
  · rfl
  · rfl
  · rw [notice, createReport_link]; rfl

section
variable (s : State)

@[simp] theorem counted_clock : s.counted.clock = s.clock := (counted_only s).clock (by decide)
@[simp] theorem counted_site : s.counted.site = s.site := (counted_only s).site (by decide)
@[simp] theorem counted_modes : s.counted.modes = s.modes := (counted_only s).modes (by decide)
@[simp] theorem counted_bus : s.counted.bus = s.bus := (counted_only s).bus (by decide)
@[simp] theorem counted_tracking : s.counted.tracking = s.tracking :=
  (counted_only s).tracking (by decide)
@[simp] theorem counted_beams : s.counted.beams = s.beams := (counted_only s).beams (by decide)
@[simp] theorem counted_passages : s.counted.passages = s.passages :=
  (counted_only s).passages (by decide)
@[simp] theorem counted_segments : s.counted.segments = s.segments :=
  (counted_only s).segments (by decide)
@[simp] theorem counted_refresh : s.counted.refresh = s.refresh :=
  (counted_only s).refresh (by decide)
@[simp] theorem counted_queries : s.counted.queries = s.queries :=
  (counted_only s).queries (by decide)
@[simp] theorem counted_judging : s.counted.judging = s.judging :=
  (counted_only s).judging (by decide)
@[simp] theorem counted_annunciators : s.counted.annunciators = s.annunciators :=
  (counted_only s).annunciators (by decide)
@[simp] theorem counted_choice : s.counted.choice = s.choice := (counted_only s).choice (by decide)
@[simp] theorem counted_pending : s.counted.pending = s.pending :=
  (counted_only s).pending (by decide)
@[simp] theorem counted_replies : s.counted.link.replies = s.link.replies := by
  rw [State.counted, countGoodFrame_link]; rfl
@[simp] theorem counted_restart : s.counted.link.restart = s.link.restart := by
  rw [State.counted, countGoodFrame_link]; rfl
@[simp] theorem counted_line : s.counted.link.line = s.link.line := by
  rw [State.counted, countGoodFrame_link]; rfl
@[simp] theorem counted_rx : s.counted.link.rx = [] := by
  rw [State.counted, countGoodFrame_link]; rfl
@[simp] theorem counted_effective (a : Aisle) : s.counted.effective a = s.effective a :=
  (counted_only s).effective (by decide) a
@[simp] theorem counted_track? (i : Ident) : s.counted.track? i = s.track? i :=
  (counted_only s).track? (by decide) i
@[simp] theorem counted_opens (a : Aisle) : s.counted.opens a = s.opens a :=
  (counted_only s).opens (by decide) a
@[simp] theorem counted_segment (i : Ident) : s.counted.segment i = s.segment i :=
  (counted_only s).segment (by decide) i
@[simp] theorem counted_entry? (i : Ident) : s.counted.entry? i = s.entry? i :=
  (counted_only s).entry? (by decide) i
@[simp] theorem counted_lookup (i : Ident) : s.counted.lookup i = s.lookup i :=
  (counted_only s).lookup (by decide) i
@[simp] theorem counted_readerPass? : s.counted.readerPass? = s.readerPass? := by
  simp [State.readerPass?]
@[simp] theorem counted_placesUsed : placesUsed s.counted = placesUsed s := by
  simp [placesUsed]

end

/-! ## Good frames -/

/-- A frame is handed on by its fate: discarded after counting, or dispatched. -/
theorem goodFrame_eq (kind ref : Byte) (p : List Byte) (s : State) :
    goodFrame kind ref p s =
      if s.link.restart.isSome ∨ 8 ≤ placesUsed s then s.counted
      else dispatch { kind := kind, ref := ref, payload := p } s.counted := by
  change (if s.counted.link.restart.isSome then s.counted
    else if 8 ≤ placesUsed s.counted then s.counted
    else dispatch { kind := kind, ref := ref, payload := p } s.counted) = _
  rw [counted_restart, counted_placesUsed]
  by_cases h1 : s.link.restart.isSome <;> by_cases h2 : 8 ≤ placesUsed s <;> simp [h1, h2]

theorem goodFrame_discarded {kind ref : Byte} {p : List Byte} {s : State}
    (h : s.link.restart ≠ none ∨ 8 ≤ placesUsed s) : goodFrame kind ref p s = s.counted := by
  rw [goodFrame_eq, if_pos]
  exact h.imp Option.isSome_iff_ne_none.2 id

theorem goodFrame_dispatched {kind ref : Byte} {p : List Byte} {s : State} (h : s.dispatches) :
    goodFrame kind ref p s = dispatch { kind := kind, ref := ref, payload := p } s.counted := by
  rw [goodFrame_eq, if_neg]
  rintro (h1 | h1)
  · simp [h.1] at h1
  · exact absurd h.2 (by omega)

theorem ofCode_code (k : RequestKind) : RequestKind.ofCode k.code = some k := by cases k <;> rfl

theorem code_of_ofCode {b : Byte} {k : RequestKind} (h : RequestKind.ofCode b = some k) :
    k.code = b := by simpa using List.find?_some h

/-- A dispatched request of an allowed length is taken by its owning block, in the counted state. -/
theorem goodFrame_request {k : RequestKind} {ref : Byte} {p : List Byte} {s : State}
    (h : s.dispatches) (hl : lengthAllowed k p = true) :
    goodFrame k.code ref p s = takeRequest ref (readRequest k p) s.counted := by
  rw [goodFrame_dispatched h]
  simp only [dispatch, parseFrame, ofCode_code, hl, if_true]

theorem goodFrame_badLength {k : RequestKind} {ref : Byte} {p : List Byte} {s : State}
    (h : s.dispatches) (hl : lengthAllowed k p = false) :
    goodFrame k.code ref p s = placeReply 0xFF ref .format [k.code] s.counted := by
  rw [goodFrame_dispatched h]
  simp [dispatch, parseFrame, ofCode_code, hl, rejectFrame]

theorem goodFrame_unknown {kind ref : Byte} {p : List Byte} {s : State} (h : s.dispatches)
    (hk : RequestKind.ofCode kind = none) :
    goodFrame kind ref p s = placeReply 0xFF ref .kind [kind] s.counted := by
  rw [goodFrame_dispatched h]
  simp [dispatch, parseFrame, hk, rejectFrame]

/-- Every host frame command is its good frame. -/
theorem exec_hostFrame {c : Instr} {f : Frame} (h : hostFrame c = some f) (s : State) :
    exec c s = .next (goodFrame f.kind f.ref f.payload s) := by
  cases c <;> simp only [hostFrame, reduceCtorEq, Option.some.injEq] at h <;> subst h <;> rfl

/-- A dispatched request command of an allowed length is taken by its owning block. -/
theorem exec_request {c : Instr} {k : RequestKind} {ref : Byte} {p : List Byte} {s : State}
    (hc : hostFrame c = some ⟨k.code, ref, p⟩) (h : s.dispatches) (hl : lengthAllowed k p = true) :
    exec c s = .next (takeRequest ref (readRequest k p) s.counted) := by
  rw [exec_hostFrame hc, goodFrame_request h hl]

/-- What differs from the counted state at most in some components, the supervisor and the link unit
among them, differs from the state before counting at most in those. -/
theorem Only.of_counted {cs : List Component} {s t : State} (h : Only cs s.counted t)
    (h1 : Component.supervisor ∈ cs) (h2 : Component.link ∈ cs) : Only cs s t :=
  ((counted_only s).mono (by intro c hc; simp at hc; rcases hc with rfl | rfl <;> assumption)).trans h

end Sys2Proof.Machine
end

