-- ==== Sys2Proof/Laws/Bus.lean ====
section
/-! SUPPORT. What the pedestal bus controller's operations do: where a round or a turn begins, what a turn
does to the health records, and that nothing else of the controller changes. -/

namespace Sys2Proof.Machine

/-! ## Rounds -/

/-- What the start of a turn leaves as it is. -/
structure SameRecords (b b' : BusController) : Prop where
  health : b'.health = b.health
  grant : b'.grant = b.grant
  probeAt : b'.probeAt = b.probeAt

/-- The activity is a first poll of a turn. -/
def Activity.firstPoll (now : Time) (x : Activity) : Prop :=
  ∃ p probe, x = .polling (Turn.first p probe) (after now 2)

theorem ordinaryTurn_some {now : Time} {n : Nat} {r : Round} {b b' : BusController}
    (h : ordinaryTurn now n r b = some b') :
    SameRecords b b' ∧ b'.probeDue = b.probeDue ∧ b'.activity.firstPoll now := by
  simp only [ordinaryTurn, Option.map_eq_some_iff] at h
  obtain ⟨p, -, rfl⟩ := h
  exact ⟨⟨rfl, rfl, rfl⟩, rfl, p, false, rfl⟩

theorem roundTurn_some {now : Time} {n : Nat} {b b' : BusController} (h : roundTurn now n b = some b') :
    SameRecords b b' ∧ b'.probeDue = b.probeDue ∧ b'.activity.firstPoll now := by
  unfold roundTurn at h
  split at h
  · split at h
    · cases h; exact ⟨⟨rfl, rfl, rfl⟩, rfl, _, true, rfl⟩
    · exact ordinaryTurn_some h
  · exact ordinaryTurn_some h

/-- A new round begins with a first poll, or leaves the controller idle; no probe is due any more. -/
theorem startRound_spec (now : Time) (n : Nat) (b : BusController) :
    SameRecords b (startRound now n b) ∧ (startRound now n b).probeDue = false
      ∧ ((startRound now n b).activity.firstPoll now ∨ (startRound now n b).activity = .idle) := by
  unfold startRound
  simp only []
  generalize hr : roundTurn now n _ = o
  cases o with
  | none => exact ⟨⟨rfl, rfl, rfl⟩, rfl, .inr rfl⟩
  | some b' =>
    obtain ⟨⟨h1, h2, h3⟩, h4, h5⟩ := roundTurn_some hr
    exact ⟨⟨h1, h2, h3⟩, h4, .inl h5⟩

/-- The turn after one that has ended: a first poll of this round or of a new one, or idling. -/
theorem nextTurn_spec (now : Time) (n : Nat) (b : BusController) :
    SameRecords b (nextTurn now n b)
      ∧ ((nextTurn now n b).activity.firstPoll now ∨ (nextTurn now n b).activity = .idle) := by
  unfold nextTurn
  generalize hr : roundTurn now n b = o
  cases o with
  | none =>
    obtain ⟨h1, -, h2⟩ := startRound_spec now n b
    exact ⟨h1, h2⟩
  | some b' =>
    obtain ⟨h1, -, h2⟩ := roundTurn_some hr
    exact ⟨h1, .inl h2⟩

/-- A first poll, or idling, is no hold. -/
theorem isHeld_of_firstPoll {now : Time} {b : BusController}
    (h : b.activity.firstPoll now ∨ b.activity = .idle) : b.isHeld = false := by
  rcases h with ⟨p, q, h⟩ | h <;> simp [BusController.isHeld, h]

/-! ## Health -/

theorem setHealth_get (s : State) (p q : Pedestal) (h : Health) :
    (s.setHealth p h).bus.health[q] = if p = q then h else s.bus.health[q] := by
  simp only [State.setHealth, State.setBus_bus]; exact set_get ..

/-- The record of a turn's pedestal after the turn (R22). -/
def Health.afterTurn (answered : Bool) (h : Health) : Health :=
  if h.faulted then h
  else if answered then { h with count := 0 }
  else if h.count < 2 then { h with count := h.count + 1 }
  else { h with faulted := true }

theorem recordTurn_health (p q : Pedestal) (answered : Bool) (s : State) :
    (recordTurn p answered s).bus.health[q] =
      if p = q then s.bus.health[p].afterTurn answered else s.bus.health[q] := by
  unfold recordTurn Health.afterTurn
  simp only []
  split
  · by_cases h : p = q
    · subst h; simp
    · rw [if_neg h]
  · split
    · exact setHealth_get ..
    · split
      · exact setHealth_get ..
      · exact setHealth_get ..

/-- A turn that makes its pedestal FAULTED queues its notice; any other leaves the link unit as it is. -/
theorem recordTurn_link (p : Pedestal) (answered : Bool) (s : State) :
    (recordTurn p answered s).link =
      if s.bus.health[p].faulted = false ∧ answered = false ∧ 2 ≤ s.bus.health[p].count then
        (notice (.pedestalFaulted p) s).link
      else s.link := by
  unfold recordTurn
  simp only []
  generalize s.bus.health[p] = h
  obtain ⟨f, n⟩ := h
  cases f
  · cases answered
    · by_cases h2 : n < 2
      · have h3 : ¬ 2 ≤ n := by omega
        simp only [Bool.false_eq_true, if_false, h2, if_true, h3, and_false]; rfl
      · have h3 : 2 ≤ n := by omega
        simp only [Bool.false_eq_true, if_false, h2, h3, and_true, if_true]
        exact createReport_congr rfl rfl
    · simp only [Bool.false_eq_true, if_false, if_true, Bool.true_eq_false, false_and, and_false]; rfl
  · simp only [if_true, Bool.true_eq_false, false_and, if_false]

theorem recordTurn_rest (p : Pedestal) (answered : Bool) (s : State) :
    (recordTurn p answered s).bus.activity = s.bus.activity
      ∧ (recordTurn p answered s).bus.grant = s.bus.grant
      ∧ (recordTurn p answered s).bus.probeAt = s.bus.probeAt := by
  unfold recordTurn
  simp only []
  split
  · exact ⟨rfl, rfl, rfl⟩
  · split
    · exact ⟨rfl, rfl, rfl⟩
    · split <;> exact ⟨rfl, rfl, rfl⟩

/-- The end of a turn: its pedestal's record, unless that left use; then the grant, or the next turn. -/
theorem endTurn_spec (t : Turn) (mute : Bool) (s : State) :
    (∀ q : Pedestal, (endTurn t mute s).bus.health[q] =
      if t.dropped = false ∧ t.pedestal = q then
        s.bus.health[t.pedestal].afterTurn (t.answered && !mute)
      else s.bus.health[q])
    ∧ (endTurn t mute s).link =
        (if t.dropped = true then s else recordTurn t.pedestal (t.answered && !mute) s).link
    ∧ (endTurn t mute s).bus.grant = s.bus.grant
    ∧ (s.bus.grant.isSome = true → (endTurn t mute s).bus.activity = .ended t.pedestal)
    ∧ (s.bus.grant.isSome = false → (endTurn t mute s).bus.activity.firstPoll s.clock.now
        ∨ (endTurn t mute s).bus.activity = .idle) := by
  unfold endTurn
  simp only []
  generalize hs : (if t.dropped = true then s else recordTurn t.pedestal (t.answered && !mute) s) = s1
  have h1 : ∀ q : Pedestal, s1.bus.health[q] =
      if t.dropped = false ∧ t.pedestal = q then
        s.bus.health[t.pedestal].afterTurn (t.answered && !mute)
      else s.bus.health[q] := by
    intro q
    subst hs
    cases t.dropped
    · simp only [Bool.false_eq_true, if_false, true_and]; exact recordTurn_health ..
    · simp
  have h2 : s1.bus.grant = s.bus.grant := by
    subst hs; split
    · rfl
    · exact (recordTurn_rest ..).2.1
  have h3 : s1.clock = s.clock := by
    subst hs; split
    · rfl
    · exact (recordTurn_only ..).clock (by decide)
  split
  · rename_i hg
    rw [h2] at hg
    exact ⟨h1, rfl, h2, fun _ => rfl, fun h => by simp [hg] at h⟩
  · rename_i hg
    rw [h2] at hg
    obtain ⟨⟨n1, n2, -⟩, n4⟩ := nextTurn_spec s1.clock.now s1.site.aisles s1.bus
    refine ⟨fun q => ?_, rfl, n2.trans h2, fun h => absurd h hg, fun _ => h3 ▸ n4⟩
    rw [← h1 q]
    exact congrArg (fun v : Vector Health 9 => v[q]) n1

/-- A probe that got an answer (R23): its pedestal's record is clean, with a notice; nothing else. -/
theorem restoreProbed_spec (t : Turn) (s : State) :
    (∀ q : Pedestal, (restoreProbed t s).bus.health[q] =
      if (t.probe = true ∧ t.dropped = false ∧ s.bus.health[t.pedestal].faulted = true)
          ∧ t.pedestal = q then { faulted := false, count := 0 }
      else s.bus.health[q])
    ∧ (restoreProbed t s).bus.activity = s.bus.activity
    ∧ (restoreProbed t s).bus.grant = s.bus.grant
    ∧ (restoreProbed t s).bus.probeAt = s.bus.probeAt := by
  unfold restoreProbed
  by_cases h : (t.probe && !t.dropped && s.bus.health[t.pedestal].faulted) = true
  · rw [if_pos h]
    simp only [Bool.and_eq_true, Bool.not_eq_true'] at h
    refine ⟨fun q => ?_, rfl, rfl, rfl⟩
    refine (setHealth_get ..).trans ?_
    simp only [h.1.1, h.1.2, h.2, true_and]
  · rw [if_neg h]
    simp only [Bool.and_eq_true, Bool.not_eq_true'] at h
    refine ⟨fun q => ?_, rfl, rfl, rfl⟩
    rw [if_neg]
    rintro ⟨⟨h1, h2, h3⟩, -⟩
    exact h ⟨⟨h1, h2⟩, h3⟩

theorem restoreProbed_ordinary {t : Turn} (h : t.probe = false) (s : State) : restoreProbed t s = s := by
  simp [restoreProbed, h]

/-! ## Site settings -/

theorem applyRecord_site (r : SiteSettings) (s : State) : (applyRecord r s).site = r := by
  unfold applyRecord; simp only []; split <;> rfl

theorem applyRecord_tracking (r : SiteSettings) (s : State) :
    (applyRecord r s).tracking = { s.tracking with decayAt := after s.clock.now r.decay } := by
  unfold applyRecord; simp only []; split <;> rfl

/-- An applied record leaves the bus controller as it is, unless N changes. -/
theorem applyRecord_bus_same {r : SiteSettings} {s : State} (h : r.aisles = s.site.aisles) :
    (applyRecord r s).bus = s.bus := by unfold applyRecord; simp only []; rw [if_pos h]; rfl

/-- A changed N cleans the records above it, marks the turn in progress, and starts an idle bus. -/
theorem applyRecord_bus_changed {r : SiteSettings} {s : State} (h : r.aisles ≠ s.site.aisles) :
    (applyRecord r s).bus.health = healthWithin r.aisles s.bus.health
      ∧ (applyRecord r s).bus.grant = s.bus.grant
      ∧ (s.bus.activity ≠ .idle →
          (applyRecord r s).bus.activity = s.bus.activity.changeAisles r.aisles)
      ∧ (s.bus.activity = .idle → (applyRecord r s).bus.activity.firstPoll s.clock.now
          ∨ (applyRecord r s).bus.activity = .idle) := by
  have hb : (applyRecord r s).bus =
      if s.bus.activity = .idle then
        startRound s.clock.now r.aisles
          { s.bus with health := healthWithin r.aisles s.bus.health
                       activity := s.bus.activity.changeAisles r.aisles }
      else
        { s.bus with health := healthWithin r.aisles s.bus.health
                     activity := s.bus.activity.changeAisles r.aisles } := by
    unfold applyRecord; simp only []; rw [if_neg h]; rfl
  rw [hb]
  split
  · rename_i hi
    obtain ⟨⟨n1, n2, -⟩, -, n4⟩ := startRound_spec s.clock.now r.aisles
      { s.bus with health := healthWithin r.aisles s.bus.health
                   activity := s.bus.activity.changeAisles r.aisles }
    exact ⟨n1, n2, fun hne => absurd hi hne, fun _ => n4⟩
  · rename_i hi
    exact ⟨rfl, rfl, fun _ => rfl, fun he => absurd he hi⟩

end Sys2Proof.Machine
end

