-- ==== Sys2Proof/Laws/Commands.lean ====
section
/-! SUPPORT. Which components of the state each command may change. -/

namespace Sys2Proof.Machine

/-- The components a command may change. -/
def commandParts : Instr → List Component
  | .powerOn => [.clock, .site, .modes, .bus, .tracking, .beams, .passages, .segments, .refresh,
      .supervisor, .queries, .judging, .annunciators, .link]
  | .fullReset => [.clock, .site, .modes, .bus, .tracking, .beams, .passages, .segments, .refresh,
      .supervisor, .queries, .judging, .annunciators, .link]
  | .detectionRestart =>
    [.bus, .tracking, .beams, .passages, .refresh, .queries, .judging, .annunciators, .link]
  | .minuteTick => .clock :: .segments :: verdictParts
  | .evacInputChange _ => [.modes, .annunciators, .link]
  | .evacAssertAccepted => [.modes, .annunciators, .link]
  | .evacReleaseAccepted => [.modes, .link]
  | .sightingsAnswer _ _ => readerParts
  | .extendAnswer _ => [.bus, .link]
  | .extendOnAnswer => [.bus, .link]
  | .badAnswer _ => readerParts
  | .answerSlotGap => [.bus, .link]
  | .answerWindowClose => [.bus, .link]
  | .extensionWaitEnd => [.bus]
  | .probeTimer => [.bus]
  | .busGrant => [.bus, .link]
  | .readerPassAnswer _ => [.bus, .link]
  | .readerPassTimeout => [.bus, .link]
  | .holdDeadline => [.bus, .link]
  | .decayStep => .queries :: verdictParts
  | .beamInputChange _ _ _ => beamParts
  | .breakEvent _ _ => [.beams, .passages, .tracking]
  | .clearEvent _ _ => beamParts
  | .transitDeadline _ _ => [.passages, .tracking, .link]
  | .graceDeadline _ => verdictParts
  | .durationDeadline _ => [.annunciators]
  | .silenceKeyInputChange _ => [.beams, .annunciators]
  | .silenceKeyPress => [.beams, .annunciators]
  | .silenceKeyRelease => [.beams]
  | .refreshIdleDeadline => [.refresh, .link]
  | .supervisorExpiry => [.segments, .refresh, .link, .supervisor]
  | .queryDeadline _ => .queries :: verdictParts
  | .transmitterTake => [.queries, .link]
  | .badFrame _ => requestParts
  | .frameGapTimeout _ => requestParts
  | .lineFree => [.link]
  | _ => requestParts

/-- The state an outcome leads to differs from `s` at most in these components. -/
def OutcomeOnly (cs : List Component) (s : State) : Host.Outcome State Fault Refusal → Prop
  | .next t => Only cs s t
  | .fault _ => True
  | .refused _ => True

theorem outcomeOnly_ite {cs : List Component} {s : State} {p : Prop} [Decidable p]
    {x y : Host.Outcome State Fault Refusal} (h : OutcomeOnly cs s x) (k : OutcomeOnly cs s y) :
    OutcomeOnly cs s (if p then x else y) := by
  split
  · exact h
  · exact k

theorem outcomeOnly_stay {cs : List Component} {s : State} : OutcomeOnly cs s (.next s) := Only.refl cs s

theorem fullReset_only (c : RestartCause) (s : State) :
    Only [.clock, .site, .modes, .bus, .tracking, .beams, .passages, .segments, .refresh,
      .supervisor, .queries, .judging, .annunciators, .link] s (fullReset c s) := by
  obtain ⟨h1, h2⟩ := fullReset_keeps c s
  constructor
  intro x hx
  cases x <;> first | exact h1 | exact h2 | exact absurd (by decide) hx

theorem takeReaderAnswer_extension_only (t : Turn) (n : Nat) (s : State) :
    Only [.bus, .link] s (takeReaderAnswer t (.extend n) s) := takeExtension_only t n s

/-- Every command changes its own components only. -/
theorem exec_only (i : Instr) (s : State) : OutcomeOnly (commandParts i) s (exec i s) := by
  cases i
  case powerOn => exact fullReset_only _ s
  case fullReset => exact outcomeOnly_ite (fullReset_only _ s) outcomeOnly_stay
  case detectionRestart => exact outcomeOnly_ite (detectionRestart_only s) outcomeOnly_stay
  case minuteTick =>
    refine outcomeOnly_ite ?_ outcomeOnly_stay
    exact ((only_setClock s _).mono (by decide)).trans ((ageTable_only _).mono (by decide))
  case evacInputChange =>
    exact (settleEvac_only s).trans ((only_setModes _ _).mono (by decide))
  case evacAssertAccepted => exact outcomeOnly_ite (assertEvac_only s) outcomeOnly_stay
  case evacReleaseAccepted => exact outcomeOnly_ite (releaseEvac_only s) outcomeOnly_stay
  case sightingsAnswer =>
    change OutcomeOnly readerParts s _
    simp only [exec, execSightingsAnswer]
    split
    · exact outcomeOnly_ite (takeReaderAnswer_only _ _ s)
        ((pollUnanswered_only _ s).mono (by decide))
    · exact outcomeOnly_stay
  case extendAnswer =>
    simp only [exec, execExtendAnswer]
    split
    · exact outcomeOnly_ite (takeExtension_only _ _ s) (pollUnanswered_only _ s)
    · exact outcomeOnly_stay
  case extendOnAnswer =>
    simp only [exec, execExtendOnAnswer]
    split
    · exact takeExtension_only _ _ s
    · exact outcomeOnly_stay
  case badAnswer =>
    change OutcomeOnly readerParts s _
    simp only [exec, execBadAnswer]
    split
    · exact outcomeOnly_ite outcomeOnly_stay (takeBytes_only _ _ s)
    · exact outcomeOnly_stay
  case answerSlotGap =>
    simp only [exec, execAnswerSlotGap]
    split
    · exact pollUnanswered_only _ s
    · exact outcomeOnly_ite (pollUnanswered_only _ s) outcomeOnly_stay
    · exact outcomeOnly_stay
  case answerWindowClose =>
    simp only [exec, execAnswerWindowClose]
    split
    · exact outcomeOnly_ite (pollUnanswered_only _ s) outcomeOnly_stay
    · exact outcomeOnly_stay
  case extensionWaitEnd =>
    simp only [exec, execExtensionWaitEnd]
    split
    · exact outcomeOnly_ite (changeBus_only s _) outcomeOnly_stay
    · exact outcomeOnly_stay
  case probeTimer =>
    exact outcomeOnly_ite (outcomeOnly_ite ((only_setBus s _).trans (changeBus_only _ _))
      (only_setBus s _)) outcomeOnly_stay
  case busGrant =>
    simp only [exec, execBusGrant]
    split
    · exact grantBus_only _ s
    · exact outcomeOnly_stay
  case readerPassAnswer =>
    change OutcomeOnly [.bus, .link] s _
    simp only [exec, execReaderPassAnswer]
    split
    · split
      · refine outcomeOnly_ite outcomeOnly_stay ?_
        split
        · exact ((only_setBus s _).mono (by decide)).trans ((reply_only ..).mono (by decide))
        · exact (only_setBus s _).mono (by decide)
      · exact outcomeOnly_stay
    · exact outcomeOnly_stay
  case readerPassTimeout =>
    simp only [exec, execReaderPassTimeout]
    split
    · split
      · exact outcomeOnly_ite (failReaderPass_only _ s) outcomeOnly_stay
      · exact outcomeOnly_stay
    · exact outcomeOnly_stay
  case holdDeadline =>
    simp only [exec, execHoldDeadline]
    split
    · exact outcomeOnly_ite ((endHold_only _ s).trans ((notice_only _ _).mono (by decide)))
        outcomeOnly_stay
    · exact outcomeOnly_stay
  case decayStep =>
    refine outcomeOnly_ite ?_ outcomeOnly_stay
    exact ((only_setTracking s _).mono (by decide)).trans (decayTracks_only _)
  case beamInputChange =>
    exact (settleBeam_only _ _ s).trans ((setBeam_only _ _ _ _).mono (by decide))
  case breakEvent => exact outcomeOnly_ite (breakEvent_only _ _ s) outcomeOnly_stay
  case clearEvent => exact outcomeOnly_ite (beamEvent_only _ _ _ s) outcomeOnly_stay
  case transitDeadline =>
    simp only [exec, execTransitDeadline]
    split
    · exact closePassage_only _ _ s _
    · exact outcomeOnly_stay
  case graceDeadline => exact outcomeOnly_ite (graceExpiry_only _ s) outcomeOnly_stay
  case durationDeadline => exact durationExpires_only _ s
  case silenceKeyInputChange =>
    exact (settleKey_only s).trans ((only_setBeams _ _).mono (by decide))
  case silenceKeyPress => exact outcomeOnly_ite (pressKey_only s) outcomeOnly_stay
  case silenceKeyRelease => exact outcomeOnly_ite (acceptKey_only s) outcomeOnly_stay
  case refreshIdleDeadline =>
    simp only [exec, execRefreshIdleDeadline]
    split
    · exact outcomeOnly_ite (abortRefresh_only _ _ s) outcomeOnly_stay
    · exact outcomeOnly_stay
  case supervisorExpiry =>
    simp only [exec, execSupervisorExpiry]
    split
    · exact outcomeOnly_ite (supervisorExpires_only _ s) outcomeOnly_stay
    · exact outcomeOnly_stay
    · exact outcomeOnly_stay
  case queryDeadline =>
    simp only [exec, execQueryDeadline]
    split
    · exact outcomeOnly_ite (lapseQuery_only _ s) outcomeOnly_stay
    · exact outcomeOnly_stay
  case transmitterTake => exact outcomeOnly_ite (arbitrate_only s) outcomeOnly_stay
  case badFrame => exact receive_only _ _ s
  case frameGapTimeout => exact receive_only _ _ s
  case lineFree =>
    simp only [exec, execLineFree]
    split
    · exact only_setLink s _
    · exact outcomeOnly_stay
  all_goals exact goodFrame_only _ _ _ s

/-- A command that answers a next state changed its own components only. -/
theorem exec_next_only {i : Instr} {s t : State} (h : exec i s = .next t) :
    Only (commandParts i) s t := by
  have := exec_only i s
  rwa [h] at this

/-- Every command answers a next state. -/
theorem exec_total (i : Instr) (s : State) : ∃ t, exec i s = .next t := by
  have hite : ∀ {p : Prop} [Decidable p] {x y : Host.Outcome State Fault Refusal},
      (∃ t, x = .next t) → (∃ t, y = .next t) → ∃ t, (if p then x else y) = .next t := by
    intro p _ x y hx hy; split
    · exact hx
    · exact hy
  cases i <;> simp only [exec, execPowerOn, execFullReset, execDetectionRestart, execMinuteTick, execEvacInputChange, execEvacAssertAccepted, execEvacReleaseAccepted, execSightingsAnswer, execExtendAnswer, execExtendOnAnswer, execBadAnswer, execAnswerSlotGap, execAnswerWindowClose, execExtensionWaitEnd, execProbeTimer, execBusGrant, execReaderPassAnswer, execReaderPassTimeout, execHoldDeadline, execDecayStep, execBeamInputChange, execBreakEvent, execClearEvent, execTransitDeadline, execGraceDeadline, execDurationDeadline, execSilenceKeyInputChange, execSilenceKeyPress, execSilenceKeyRelease, execRefreshIdleDeadline, execSupervisorExpiry, execQueryDeadline, execTransmitterTake, execBadFrame, execFrameGapTimeout, execLineFree] <;>
    (repeat' split) <;> exact ⟨_, rfl⟩

end Sys2Proof.Machine
end

