-- ==== Sys2Proof/Laws/Framing.lean ====
section
/-! SUPPORT. The receiver: what it makes of quiet bytes, and of the bytes of a whole frame. -/

namespace Sys2Proof.Machine

/-- Bytes that arrive at one moment have no gap. -/
theorem noGap_now (now : Time) (bs : List Byte) :
    noGap (bs.map fun b => { time := now, byte := b }) = true := by
  induction bs with
  | nil => rfl
  | cons a l ih =>
    cases l with
    | nil => rfl
    | cons b l =>
      simp only [List.map_cons, noGap, age, BitVec.sub_self, Bool.and_eq_true, decide_eq_true_eq] at ih ⊢
      exact ⟨by decide, ih⟩

theorem hunt_skip (silent : Bool) (l : List RxByte) :
    ∀ n, l.length ≤ n → hunt silent n l = ([], []) := by
  induction l with
  | nil => intro n _; cases n <;> rfl
  | cons b l ih =>
    intro n hn
    cases n with
    | zero => simp at hn
    | succ n => simp only [hunt]; exact ih n (by simpa using hn)

/-- A receiver that is HUNTING discards bytes that are no start byte. -/
theorem hunt_quiet (silent : Bool) (l : List RxByte) (h : ∀ b ∈ l, b.byte ≠ 0xA5) :
    hunt silent 0 l = ([], []) := by
  induction l with
  | nil => rfl
  | cons b l ih =>
    simp only [hunt]
    rw [if_neg (h b (by simp))]
    exact ih fun x hx => h x (by simp [hx])

theorem covered_length (f : Frame) : f.covered.length = f.payload.length + 3 := by simp [Frame.covered]

theorem count8_toNat {n : Nat} (h : n < 256) : (count8 n).toNat = n := by
  simp [count8]; omega

theorem bytes16_inj {a b : Word16} (h : bytes16 a = bytes16 b) : a = b := by
  simp only [bytes16, List.cons.injEq, and_true] at h
  obtain ⟨h1, h2⟩ := h
  apply BitVec.eq_of_getLsbD_eq
  intro i hi
  have e1 := congrArg (fun v => v.getLsbD (i - 8)) h1
  have e2 := congrArg (fun v => v.getLsbD i) h2
  simp only [BitVec.getLsbD_extractLsb'] at e1 e2
  by_cases h8 : i < 8
  · simpa [h8] using e2
  · have h9 : i - 8 < 8 := by omega
    have : 8 + (i - 8) = i := by omega
    simpa [h9, this] using e1

theorem judge_frame (f : Frame) (crc : Word16)
    (hn : (count8 (f.payload.length + 2)).toNat = f.payload.length + 2) :
    judgeFrame (count8 (f.payload.length + 2)) (f.kind :: f.ref :: (f.payload ++ bytes16 crc))
      = if crc = crc16 f.covered then .good f else .discarded := by
  unfold judgeFrame
  simp only [hn]
  have h1 : (f.kind :: f.ref :: (f.payload ++ bytes16 crc)).take (f.payload.length + 2)
      = f.kind :: f.ref :: f.payload := by simp
  have h2 : (f.kind :: f.ref :: (f.payload ++ bytes16 crc)).drop (f.payload.length + 2)
      = bytes16 crc := by simp
  rw [h1, h2]
  by_cases h : crc = crc16 f.covered
  · rw [if_pos h, if_pos (by rw [h]; rfl)]; rfl
  · rw [if_neg h, if_neg]; intro e; exact h (bytes16_inj e)

/-- Bytes that arrive at one moment and fill a LEN in range are judged as a frame. -/
theorem collect_whole (now : Time) (len : Byte) (body : List Byte) (h1 : 2 ≤ len.toNat)
    (h2 : len.toNat ≤ 249) (hb : body.length = len.toNat + 2) :
    collect { time := now, byte := 0xA5 }
        ((len :: body).map fun b => { time := now, byte := b }) = judgeFrame len body := by
  have hg := noGap_now now (0xA5 :: len :: body)
  have hm : (body.map fun b => ({ time := now, byte := b } : RxByte)).map (·.byte) = body := by
    rw [List.map_map]; exact List.map_id _
  have hl : (body.map fun b => ({ time := now, byte := b } : RxByte)).length = len.toNat + 2 := by
    rw [List.length_map, hb]
  rw [List.map_cons, List.map_cons] at hg
  unfold collect
  rw [List.map_cons]
  generalize (body.map fun b => ({ time := now, byte := b } : RxByte)) = rx at *
  simp only []
  rw [if_neg (by omega), List.take_of_length_le (by omega), hg, if_neg (by simp),
    if_neg (by omega), hm]

/-- The bytes of a frame with some CRC are a good frame where that is its CRC, and else discarded. -/
theorem collect_frame (f : Frame) (now : Time) (crc : Word16) (hl : f.payload.length ≤ 247) :
    collect { time := now, byte := 0xA5 }
        ((f.covered ++ bytes16 crc).map fun b => { time := now, byte := b })
      = if crc = crc16 f.covered then .good f else .discarded := by
  have hn : (count8 (f.payload.length + 2)).toNat = f.payload.length + 2 := count8_toNat (by omega)
  rw [← judge_frame f crc hn]
  exact collect_whole now _ _ (by omega) (by omega) (by simp [bytes16, hn])

end Sys2Proof.Machine
end

