-- ==== Sys2Proof/Laws/Passages.lean ====
section
/-! SUPPORT. What the passage tracker's and the track engine's operations do to open lists and tracks. -/

namespace Sys2Proof.Machine

/-! ## Changing several tracks -/

theorem foldl_modifyTrack_decayAt (f : Track → Track) (ids : List Ident) (s : State) :
    (ids.foldl (fun s id => s.modifyTrack id f) s).tracking.decayAt = s.tracking.decayAt := by
  induction ids generalizing s with
  | nil => rfl
  | cons id ids ih => exact (ih _).trans rfl

theorem foldl_modifyTrack_only (f : Track → Track) (ids : List Ident) (s : State) :
    Only [.tracking] s (ids.foldl (fun s id => s.modifyTrack id f) s) :=
  Only.foldl (fun s id => modifyTrack_only s id f) ids s

/-- Changing the tracks of a list of identifiers, where changing one twice is changing it once. -/
theorem track?_foldl_modifyTrack {f : Track → Track} (hf : ∀ t, (f t).ident = t.ident)
    (hff : ∀ t, f (f t) = f t) (ids : List Ident) (s : State) (i : Ident) :
    (ids.foldl (fun s id => s.modifyTrack id f) s).track? i =
      if i ∈ ids then (s.track? i).map f else s.track? i := by
  induction ids generalizing s with
  | nil => simp
  | cons id ids ih =>
    rw [List.foldl_cons, ih, track?_modifyTrack _ _ _ hf]
    by_cases h1 : i = id
    · subst h1
      simp only [if_true, List.mem_cons, true_or]
      split
      · cases s.track? i <;> simp [hff]
      · rfl
    · rw [if_neg h1]
      simp [h1]

@[simp] theorem Track.bind_ident (a : Aisle) (n : Word16) (t : Track) : (t.bind a n).ident = t.ident := rfl
@[simp] theorem Track.spend_ident (t : Track) : t.spend.ident = t.ident := by
  unfold Track.spend; split <;> rfl
@[simp] theorem Track.unbind_ident (now : Time) (t : Track) : (t.unbind now).ident = t.ident := by
  unfold Track.unbind; split <;> rfl
theorem Track.spend_spend (t : Track) : t.spend.spend = t.spend := by
  obtain ⟨_, _, _, st, _, _, _, _⟩ := t
  cases st <;> rfl
theorem Track.unbind_unbind (now : Time) (t : Track) : (t.unbind now).unbind now = t.unbind now := by
  obtain ⟨_, _, _, st, _, _, _, _⟩ := t
  cases st <;> rfl

/-! ## Leaving the open list -/

theorem leaveList_opens (a : Aisle) (p : Passage) (s : State) :
    (leaveList a p s).opens a = (s.opens a).erase p := setOpens_self ..

theorem closePassage_passages (a : Aisle) (o : PassageOutcome) (s : State) (p : Passage) :
    (closePassage a o s p).passages = (leaveList a p s).passages :=
  ((createReport_only _ _ _).passages (by decide)).trans
    ((foldl_modifyTrack_only (Track.unbind s.clock.now) p.items (leaveList a p s)).passages (by decide))

theorem completePassage_passages (a : Aisle) (s : State) (p : Passage) :
    (completePassage a s p).passages = (leaveList a p s).passages :=
  ((judgePassage_only _ _).passages (by decide)).trans
    ((foldl_modifyTrack_only _ p.items _).passages (by decide))

theorem sweepPassage_passages (a : Aisle) (s : State) (p : Passage) :
    (sweepPassage a s p).passages = (leaveList a p s).passages := by
  unfold sweepPassage; split
  · exact completePassage_passages a s p
  · exact closePassage_passages a .turnedBack s p

/-- Taking every open passage of an aisle out of its list, one by one, leaves none; the other aisles, the
CROWDED flags and the next number stand. -/
theorem foldl_leave {a : Aisle} {f : State → Passage → State}
    (hf : ∀ s p, (f s p).passages = (leaveList a p s).passages) (l rest : List Passage) (s : State)
    (h : s.opens a = l ++ rest) :
    (l.foldl f s).opens a = rest
      ∧ (∀ b : Aisle, b ≠ a → (l.foldl f s).passages.aisles[b] = s.passages.aisles[b])
      ∧ (∀ b : Aisle, (l.foldl f s).passages.aisles[b].crowded = s.passages.aisles[b].crowded)
      ∧ (l.foldl f s).passages.next = s.passages.next := by
  induction l generalizing s with
  | nil => exact ⟨h, fun _ _ => rfl, fun _ => rfl, rfl⟩
  | cons p l ih =>
    have ho : (f s p).opens a = l ++ rest := by
      have : (f s p).opens a = (leaveList a p s).opens a := by simp only [State.opens, hf]
      rw [this, leaveList_opens, h]
      simp
    obtain ⟨h1, h2, h3, h4⟩ := ih (f s p) ho
    refine ⟨h1, fun b hb => (h2 b hb).trans ?_, fun b => (h3 b).trans ?_, h4.trans ?_⟩
    · rw [hf]; exact setOpens_ne s _ hb
    · rw [hf]; exact setOpens_crowded ..
    · rw [hf]; rfl

/-- Dismissing an aisle, like sweeping it, leaves it with no open passage and no CROWDED flag. -/
theorem emptied_spec {a : Aisle} {f : State → Passage → State}
    (hf : ∀ s p, (f s p).passages = (leaveList a p s).passages) (s : State) :
    let s1 := (s.opens a).foldl f s
    let t := s1.setAisle a { s1.passages.aisles[a] with crowded := false }
    t.passages.aisles[a] = { opens := [], crowded := false }
      ∧ (∀ b : Aisle, b ≠ a → t.passages.aisles[b] = s.passages.aisles[b])
      ∧ t.passages.next = s.passages.next := by
  obtain ⟨h1, h2, -, h4⟩ := foldl_leave hf (s.opens a) [] s (by simp)
  refine ⟨?_, fun b hb => (setAisle_ne _ _ hb).trans (h2 b hb), h4⟩
  refine (setAisle_self ..).trans ?_
  exact congrArg (fun o => AisleRecord.mk o false) h1

theorem dismissAisle_spec (a : Aisle) (s : State) :
    (dismissAisle a s).passages.aisles[a] = { opens := [], crowded := false }
      ∧ (∀ b : Aisle, b ≠ a → (dismissAisle a s).passages.aisles[b] = s.passages.aisles[b])
      ∧ (dismissAisle a s).passages.next = s.passages.next :=
  emptied_spec (fun s p => closePassage_passages a .dismissed s p) s

theorem sweepAisle_spec (a : Aisle) (s : State) :
    (sweepAisle a s).passages.aisles[a] = { opens := [], crowded := false }
      ∧ (∀ b : Aisle, b ≠ a → (sweepAisle a s).passages.aisles[b] = s.passages.aisles[b])
      ∧ (sweepAisle a s).passages.next = s.passages.next :=
  emptied_spec (sweepPassage_passages a) s

/-! ## Completing, closing and the sweep -/

/-- A passage leaves the open list and its tracks are changed, where changing one twice is changing it
once. -/
theorem leave_spec (a : Aisle) (p : Passage) {f : Track → Track} (hf : ∀ t, (f t).ident = t.ident)
    (hff : ∀ t, f (f t) = f t) (s : State) :
    LeftOpenList a p f s (p.items.foldl (fun x id => x.modifyTrack id f) (leaveList a p s)) := by
  have hp : (p.items.foldl (fun x id => x.modifyTrack id f) (leaveList a p s)).passages
      = (leaveList a p s).passages := (foldl_modifyTrack_only f p.items _).passages (by decide)
  refine ⟨?_, ⟨?_, ?_, fun b hb => ?_⟩, fun i => ?_, ?_⟩
  · refine Eq.trans ?_ (leaveList_opens a p s)
    unfold State.opens; rw [hp]
  · rw [hp]; rfl
  · rw [hp]; exact setOpens_crowded ..
  · rw [hp]; exact setOpens_ne s _ hb
  · rw [track?_foldl_modifyTrack hf hff]
    change (if i ∈ p.items then (s.track? i).map f else s.track? i) = _
    by_cases hi : i ∈ p.items
    · simp only [if_pos hi]
    · simp only [if_neg hi, Option.map_id']
  · exact ((leaveList_only a p s).mono (by decide)).trans ((foldl_modifyTrack_only f p.items _).mono (by decide))

theorem completePassage_completes (a : Aisle) (s : State) (p : Passage) :
    Completes a p s (completePassage a s p) := by
  have h := leave_spec a p Track.spend_ident Track.spend_spend s
  refine ⟨_, h, ?_⟩
  unfold completePassage Passage.completed
  dsimp only
  rw [h.frame.clock (by decide), h.frame.site (by decide)]

theorem closePassage_closes (a : Aisle) (o : PassageOutcome) (s : State) (p : Passage) :
    Closes a o p s (closePassage a o s p) :=
  ⟨_, leave_spec a p (Track.unbind_ident s.clock.now) (Track.unbind_unbind s.clock.now) s, rfl⟩

theorem foldl_sweep (a : Aisle) (ps : List Passage) (s : State) :
    Swept a ps s (ps.foldl (sweepPassage a) s) := by
  induction ps generalizing s with
  | nil => exact .done
  | cons p ps ih =>
    cases hp : p.phase with
    | crossing =>
      refine .crossing hp ?_ (ih _)
      have : sweepPassage a s p = completePassage a s p := by unfold sweepPassage; rw [hp]
      rw [this]; exact completePassage_completes a s p
    | opened =>
      refine .opened hp ?_ (ih _)
      have : sweepPassage a s p = closePassage a .turnedBack s p := by unfold sweepPassage; rw [hp]
      rw [this]; exact closePassage_closes a .turnedBack s p

/-! ## Mode changes -/

theorem changeMode_stored (m : Mode) (s : State) (a : Aisle) :
    (changeMode m s a).modes = { s.modes with stored := s.modes.stored.set a m } := by
  unfold changeMode
  simp only []
  split
  · refine ((dismissAisle_only _ _).modes (by decide)).trans ?_
    split
    · rfl
    · rfl
  · split
    · rfl
    · rfl

/-- Setting an aisle to OFF from WATCH empties it; any other change leaves every open list as it is. -/
theorem changeMode_aisle (m : Mode) (s : State) (a b : Aisle) :
    (changeMode m s a).passages.aisles[b] =
      if a = b ∧ s.modes.stored[a] = .watch ∧ m = .off then { opens := [], crowded := false }
      else s.passages.aisles[b] := by
  have key : ∀ s2 : State, s2.passages = s.passages →
      (if s.modes.stored[a] = .watch ∧ m = .off then dismissAisle a s2 else s2).passages.aisles[b] =
        if a = b ∧ s.modes.stored[a] = .watch ∧ m = .off then { opens := [], crowded := false }
        else s.passages.aisles[b] := by
    intro s2 hp
    have hp' : s2.passages.aisles[b] = s.passages.aisles[b] :=
      congrArg (fun x : PassageTracker => x.aisles[b]) hp
    by_cases h : s.modes.stored[a] = .watch ∧ m = .off
    · refine (congrArg (fun x : State => x.passages.aisles[b]) (if_pos h)).trans ?_
      by_cases hb : a = b
      · subst hb
        exact (dismissAisle_spec a s2).1.trans (if_pos ⟨rfl, h⟩).symm
      · exact (((dismissAisle_spec a s2).2.1 b (Ne.symm hb)).trans hp').trans
          (if_neg (fun hc => hb hc.1)).symm
    · exact ((congrArg (fun x : State => x.passages.aisles[b]) (if_neg h)).trans hp').trans
        (if_neg (fun hc => h hc.2)).symm
  refine key _ ?_
  split <;> rfl

/-- An aisle whose effective mode leaves GUARD goes QUIET; the other annunciators stand. -/
theorem changeMode_annunciator (m : Mode) (s : State) (a b : Aisle) :
    (changeMode m s a).annunciators[b] =
      if a = b ∧ s.effective a = .guard ∧ (changeMode m s a).effective a ≠ .guard then .quiet
      else s.annunciators[b] := by
  have he : (changeMode m s a).effective a
      = (s.setModes { s.modes with stored := s.modes.stored.set a m }).effective a := by
    unfold State.effective
    rw [changeMode_stored]
    rfl
  rw [he]
  have key : ∀ s1 : State, s1.annunciators = s.annunciators →
      (if s.effective a = .guard ∧ s1.effective a ≠ .guard then quietAisle a s1
        else s1).annunciators[b] =
      if a = b ∧ s.effective a = .guard ∧ s1.effective a ≠ .guard then .quiet
      else s.annunciators[b] := by
    intro s1 hann
    have hann' : s1.annunciators[b] = s.annunciators[b] :=
      congrArg (fun v : Vector Annunciator 8 => v[b]) hann
    by_cases h : s.effective a = .guard ∧ s1.effective a ≠ .guard
    · refine (congrArg (fun x : State => x.annunciators[b]) (if_pos h)).trans ?_
      refine (setAnnunciator_get s1 a b .quiet).trans ?_
      by_cases hb : a = b
      · exact (if_pos hb).trans (if_pos ⟨hb, h⟩).symm
      · exact ((if_neg hb).trans hann').trans (if_neg (fun hc => hb hc.1)).symm
    · exact ((congrArg (fun x : State => x.annunciators[b]) (if_neg h)).trans hann').trans
        (if_neg (fun hc => h hc.2)).symm
  refine Eq.trans ?_ (key (s.setModes { s.modes with stored := s.modes.stored.set a m }) rfl)
  by_cases h : s.modes.stored[a] = .watch ∧ m = .off
  · refine (congrArg (fun x : State => x.annunciators[b]) (if_pos h)).trans ?_
    exact congrArg (fun v : Vector Annunciator 8 => v[b])
      ((dismissAisle_only a _).annunciators (by decide))
  · exact congrArg (fun x : State => x.annunciators[b]) (if_neg h)

end Sys2Proof.Machine
end

