-- ==== Sys2Proof/Laws/Inputs.lean ====
section
/-! SUPPORT. The debounced inputs: what accepting one pending change does to the others, and that an applied
SET-SITE accepts every change that has held for the new debounce (R8, R56, R152). -/

namespace Sys2Proof.Machine

theorem setBeam_beam (s : State) (a a' : Aisle) (b b' : Beam) (f : Filter) :
    (s.setBeam a b f).beam a' b' = if a = a' ∧ b = b' then f else s.beam a' b' := by
  cases b <;> cases b' <;> simp [State.setBeam, State.beam, Vector.getElem_set, Fin.ext_iff]

/-- A change accepted now has ended: none is due to either level. -/
theorem Filter.due_accept (now : Time) (ms : Nat) (l : Bool) (f : Filter) :
    f.accept.due now ms l = false := by
  simp only [Filter.due, Filter.accept]
  cases f.raw <;> cases l <;> rfl

theorem Filter.ready_accept (now : Time) (ms : Nat) (f : Filter) : f.accept.ready now ms = false := by
  simp [Filter.ready, Filter.due_accept]

/-- What a beam event does to the beam unit: the pending change is accepted, nothing else. -/
theorem beamEvent_beams (a : Aisle) (b : Beam) (l : Bool) (s : State) :
    (beamEvent a b l s).beams = (acceptBeam a b s).beams := by
  unfold beamEvent
  simp only []
  split
  · split
    · exact (takeBreak_only a b _).beams (by decide)
    · exact (takeClear_only a b _).beams (by decide)
  · rfl

theorem pressKey_beams (s : State) : (pressKey s).beams = (acceptKey s).beams :=
  (silenceAisles_only _ _).beams (by decide)

/-- The state of the beam unit after one input's pending change has been accepted. -/
theorem settleInput_beams {i : DebouncedInput} {s : State} (h : s.inputReady i = true) :
    (settleInput i s).beams = match i with
      | .beam a b => (acceptBeam a b s).beams
      | .key => (acceptKey s).beams := by
  cases i with
  | beam a b =>
    simp only [settleInput, settleBeam]
    split
    · exact beamEvent_beams ..
    · split
      · exact beamEvent_beams ..
      · rename_i h1 h2
        simp only [State.inputReady, Filter.ready, Bool.or_eq_true] at h
        exact (h.elim h1 h2).elim
  | key =>
    simp only [settleInput, settleKey]
    split
    · exact pressKey_beams s
    · split
      · rfl
      · rename_i h1 h2
        simp only [State.inputReady, Filter.ready, Bool.or_eq_true] at h
        exact (h.elim h1 h2).elim

theorem inputReady_congr {s t : State} (hb : t.beams = s.beams) (hc : t.clock = s.clock)
    (hs : t.site = s.site) (i : DebouncedInput) : t.inputReady i = s.inputReady i := by
  cases i with
  | beam a b => cases b <;> simp only [State.inputReady, State.beam, hb, hc, hs]
  | key => simp only [State.inputReady, hb, hc, hs]

/-- Accepting one input leaves the others as ready as they were. -/
theorem inputReady_settle {i : DebouncedInput} {s : State} (h : s.inputReady i = true)
    (j : DebouncedInput) :
    (settleInput i s).inputReady j = (decide (j ≠ i) && s.inputReady j) := by
  have ho := settleInput_only i s
  have hc : (settleInput i s).clock = s.clock := ho.clock (by decide)
  have hs : (settleInput i s).site = s.site := ho.site (by decide)
  have hb := settleInput_beams h
  cases i with
  | beam a b =>
    have hb' : (settleInput (.beam a b) s).beams = (acceptBeam a b s).beams := hb
    have ha := acceptBeam_only a b s
    rw [inputReady_congr (s := acceptBeam a b s) hb' (hc.trans (ha.clock (by decide)).symm)
      (hs.trans (ha.site (by decide)).symm)]
    cases j with
    | beam a' b' =>
      have hck : (s.setBeam a b (s.beam a b).accept).clock = s.clock := ha.clock (by decide)
      have hst : (s.setBeam a b (s.beam a b).accept).site = s.site := ha.site (by decide)
      simp only [State.inputReady, acceptBeam, setBeam_beam]
      by_cases he : a = a' ∧ b = b'
      · obtain ⟨rfl, rfl⟩ := he
        simp [Filter.ready_accept]
      · have hne : (DebouncedInput.beam a' b') ≠ .beam a b := fun hh => by
          cases hh; exact he ⟨rfl, rfl⟩
        rw [if_neg he]; simp [hne, hck, hst]
    | key =>
      simp only [State.inputReady, ha.clock (by decide), ha.site (by decide)]
      have : (acceptBeam a b s).beams.key = s.beams.key := by cases b <;> rfl
      rw [this]; simp
  | key =>
    have hb' : (settleInput .key s).beams = (acceptKey s).beams := hb
    rw [inputReady_congr (s := acceptKey s) hb' hc hs]
    cases j with
    | beam a' b' => cases b' <;> simp [State.inputReady, State.beam, acceptKey]
    | key => simp [State.inputReady, acceptKey, Filter.ready_accept]

theorem readyInputs_settle {i : DebouncedInput} {s : State} (h : s.inputReady i = true) :
    (settleInput i s).readyInputs = s.readyInputs.filter fun j => decide (j ≠ i) := by
  unfold State.readyInputs
  rw [List.filter_filter]
  exact List.filter_congr fun j _ => by rw [inputReady_settle h]

theorem mem_debouncedInputs (i : DebouncedInput) : i ∈ debouncedInputs := by
  cases i with
  | key => decide
  | beam a b => revert a; cases b <;> decide

theorem afterPick_choice (s : State) {α : Type} (l : List α) : ∃ n, s.afterPick l = s.setChoice n := by
  unfold State.afterPick State.afterDraw
  split
  · exact ⟨s.choice, rfl⟩
  · exact ⟨_, rfl⟩

theorem pick_mem {α : Type} (s : State) (x : α) (l : List α) : s.pick x l ∈ x :: l := by
  have hn : s.drawn (l.length + 1) < (x :: l).length := by
    unfold State.drawn
    split
    · simp
    · exact Nat.mod_lt _ (by simp)
  unfold State.pick
  rw [List.getD_eq_getElem?_getD, List.getElem?_eq_getElem hn]
  exact List.getElem_mem hn

/-- An input whose pending change is accepted is one of the events of R56 and R152. -/
theorem settleInput_event {i : DebouncedInput} {s : State} (h : s.inputReady i = true) :
    ∃ c, s.inputEvent c ∧ ∀ n, exec c (s.setChoice n) = .next (settleInput i (s.setChoice n)) := by
  cases i with
  | beam a b =>
    simp only [State.inputReady, Filter.ready, Bool.or_eq_true] at h
    by_cases h1 : s.beamDue a b true = true
    · refine ⟨.breakEvent a b, .inl ⟨a, b, rfl, h1⟩, fun n => ?_⟩
      have h1' : (s.setChoice n).beamDue a b true = true := by cases b <;> exact h1
      simp only [exec, execBreakEvent, settleInput, settleBeam, h1', if_true]
    · have h2 : s.beamDue a b false = true := h.resolve_left h1
      refine ⟨.clearEvent a b, .inr (.inl ⟨a, b, rfl, h2⟩), fun n => ?_⟩
      have h1' : (s.setChoice n).beamDue a b true ≠ true := by cases b <;> exact h1
      have h2' : (s.setChoice n).beamDue a b false = true := by cases b <;> exact h2
      simp only [exec, execClearEvent, settleInput, settleBeam, h2', if_true]
      rw [if_neg h1']
  | key =>
    simp only [State.inputReady, Filter.ready, Bool.or_eq_true] at h
    by_cases h1 : s.keyDue true = true
    · refine ⟨.silenceKeyPress, .inr (.inr (.inl ⟨rfl, h1⟩)), fun n => ?_⟩
      have h1' : (s.setChoice n).keyDue true = true := h1
      simp only [exec, execSilenceKeyPress, settleInput, settleKey, h1', if_true]
    · have h2 : s.keyDue false = true := h.resolve_left h1
      refine ⟨.silenceKeyRelease, .inr (.inr (.inr ⟨rfl, h2⟩)), fun n => ?_⟩
      have h1' : (s.setChoice n).keyDue true ≠ true := h1
      have h2' : (s.setChoice n).keyDue false = true := h2
      simp only [exec, execSilenceKeyRelease, settleInput, settleKey, h2', if_true]
      rw [if_neg h1']

/-- With no input ready, no event of a debounced input is due. -/
theorem no_inputEvent {s : State} (h : s.readyInputs = []) (c : Instr) : ¬ s.inputEvent c := by
  have hn : ∀ i, s.inputReady i = false := fun i => by
    have := List.filter_eq_nil_iff.1 h i (mem_debouncedInputs i)
    simpa using this
  have hb := fun a b => hn (.beam a b)
  have hk := hn .key
  simp only [State.inputReady, Filter.ready, Bool.or_eq_false_iff] at hb hk
  rintro (⟨a, b, -, h⟩ | ⟨a, b, -, h⟩ | ⟨-, h⟩ | ⟨-, h⟩)
  · exact absurd ((hb a b).1.symm.trans h) (by simp)
  · exact absurd ((hb a b).2.symm.trans h) (by simp)
  · exact absurd (hk.1.symm.trans h) (by simp)
  · exact absurd (hk.2.symm.trans h) (by simp)

/-- Settling as many inputs as are ready accepts them all, one after another. -/
theorem settleInputs_accepted (n : Nat) (s : State) (h : s.readyInputs.length ≤ n) :
    InputsAccepted s (settleInputs n s) := by
  induction n generalizing s with
  | zero => exact .done fun c => no_inputEvent (List.length_eq_zero_iff.1 (by omega)) c
  | succ n ih =>
    unfold settleInputs
    split
    · rename_i h0; exact .done fun c => no_inputEvent h0 c
    · rename_i i others h0
      obtain ⟨m, hm⟩ := afterPick_choice s others
      have hin : s.pick i others ∈ s.readyInputs := by rw [h0]; exact pick_mem s i others
      have hr : s.inputReady (s.pick i others) = true := (List.mem_filter.1 hin).2
      rw [hm]
      obtain ⟨c, hc, hx⟩ := settleInput_event hr
      refine .accept m hc (hx m) (ih _ ?_)
      have hr' : (s.setChoice m).inputReady (s.pick i others) = true :=
        (inputReady_congr (s := s) (t := s.setChoice m) rfl rfl rfl _).trans hr
      have hl : (s.setChoice m).readyInputs = s.readyInputs :=
        List.filter_congr fun j _ => inputReady_congr (s := s) (t := s.setChoice m) rfl rfl rfl j
      rw [readyInputs_settle hr', hl]
      have : (s.readyInputs.filter fun j => decide (j ≠ s.pick i others)).length
          < s.readyInputs.length :=
        List.length_filter_lt_length_iff_exists.2 ⟨_, hin, by simp⟩
      omega

/-- An applied record accepts every change that has held for the new debounce (R8). -/
theorem applySite_accepted (r : SiteSettings) (s : State) :
    InputsAccepted (applyRecord r s) (applySite r s) :=
  settleInputs_accepted 17 _ ((List.length_filter_le ..).trans (by decide))

end Sys2Proof.Machine
end

