-- ==== Sys2Proof/Laws/Rounds.lean ====
section
/-! SUPPORT. The bus controller's operations in the words of R16 to R23: which turn follows another, what the
end of a turn and an answer do, and which bytes of an answer frame are bad, incomplete or an answer. -/

namespace Sys2Proof.Machine

/-! ## The round order (R17) -/

theorem pollFrame_bytes (p : Pedestal) :
    pollFrame p = [BitVec.ofNat 8 p.val, 0x01, 0xFF - BitVec.ofNat 8 p.val] := by
  revert p; decide

/-- The search through the pedestals finds the first one that meets the condition. -/
theorem findPedestal {f : Pedestal → Bool} {cond : Pedestal → Prop}
    (h : ∀ q, f q = true ↔ cond q) :
    (∀ p, FirstPedestal cond p → allPedestals.find? f = some p)
      ∧ ((∀ q, ¬ cond q) → allPedestals.find? f = none) := by
  constructor
  · rintro p ⟨h1, h2⟩
    have hp := (h p).2 h1
    have hq : ∀ q : Pedestal, q.val < p.val → f q = false := fun q hq => by
      have := h2 q hq
      rw [← h q] at this
      simpa using this
    clear h h1 h2
    revert hp hq
    have e : allPedestals = List.finRange 9 := by decide
    rw [e]
    intro hp hq
    rw [List.find?_eq_some_iff_append]
    refine ⟨hp, (List.finRange 9).take p.val, (List.finRange 9).drop (p.val + 1), ?_, ?_⟩
    · have hl : p.val < (List.finRange 9).length := by simp
      have := List.take_append_drop p.val (List.finRange 9)
      rw [List.drop_eq_getElem_cons hl] at this
      simpa using this.symm
    · intro a ha
      obtain ⟨i, hi, rfl⟩ := List.mem_iff_getElem.1 ha
      have hi' : i < p.val := by
        have := List.length_take_le p.val (List.finRange 9)
        omega
      have := hq ((List.finRange 9)[i]'(by simp; omega)) (by simpa using hi')
      simpa using this
  · intro hn
    rw [List.find?_eq_none]
    intro q _ hq
    exact hn q ((h q).1 hq)

theorem nextProbe_cond (n : Nat) (b : BusController) (hb : b.round.probePhase = true) (q : Pedestal) :
    (b.round.next ≤ q.val && q.val ≤ n && b.round.faultedAtStart.contains q) = true
      ↔ ProbeAhead n b q := by
  simp [ProbeAhead, hb, and_assoc]

/-- The next turn of the round in progress (R17), if it has one. -/
structure RoundTurn (now : Time) (n : Nat) (b : BusController) (o : Option BusController) : Prop where
  probe : ∀ p, FirstPedestal (ProbeAhead n b) p → ∃ u, o = some u ∧
    OpensTurn now p true u ∧ u.round.probed = p :: b.round.probed
      ∧ u.round.faultedAtStart = b.round.faultedAtStart ∧ u.probeDue = b.probeDue
  ordinary : ∀ p, (∀ q, ¬ ProbeAhead n b q) → FirstPedestal (OrdinaryAhead n b) p → ∃ u, o = some u ∧
    OpensTurn now p false u ∧ u.round.probed = b.round.probed
      ∧ u.round.faultedAtStart = b.round.faultedAtStart ∧ u.probeDue = b.probeDue
  none : (∀ q, ¬ ProbeAhead n b q) → (∀ q, ¬ OrdinaryAhead n b q) → o = none

theorem roundTurn_turn (now : Time) (n : Nat) (b : BusController) :
    RoundTurn now n b (roundTurn now n b) := by
  have opens : ∀ (p : Pedestal) (probe : Bool) (r : Round), r.probePhase = probe → r.next = p.val + 1 →
      OpensTurn now p probe (sendPoll now (Turn.first p probe) { b with round := r }) :=
    fun p probe r h1 h2 => ⟨rfl, pollFrame_bytes p, h1, h2⟩
  have ord : ∀ r : Round, (∀ q, OrdinaryAhead n b q ↔
        (r.next ≤ q.val && q.val ≤ n && !b.health[q].faulted && !r.probed.contains q) = true) →
      r.probePhase = false → r.probed = b.round.probed →
      r.faultedAtStart = b.round.faultedAtStart →
      (∀ p, FirstPedestal (OrdinaryAhead n b) p → ∃ u, ordinaryTurn now n r b = some u ∧
        OpensTurn now p false u ∧ u.round.probed = b.round.probed
          ∧ u.round.faultedAtStart = b.round.faultedAtStart ∧ u.probeDue = b.probeDue)
      ∧ ((∀ q, ¬ OrdinaryAhead n b q) → ordinaryTurn now n r b = Option.none) := by
    intro r hr h1 h2 h3
    obtain ⟨f1, f2⟩ := findPedestal fun q => (hr q).symm
    constructor
    · intro p hp
      have := f1 p hp
      unfold ordinaryTurn nextOrdinary
      rw [this]
      exact ⟨_, rfl, opens p false _ h1 rfl, h2, h3, rfl⟩
    · intro hn
      have := f2 hn
      unfold ordinaryTurn nextOrdinary
      rw [this]; rfl
  cases hb : b.round.probePhase
  · have hno : ∀ q, ¬ ProbeAhead n b q := fun q hq => by have := hq.1; simp [hb] at this
    obtain ⟨o1, o2⟩ := ord b.round (fun q => by simp [OrdinaryAhead, hb, and_assoc]) hb rfl rfl
    have e : roundTurn now n b = ordinaryTurn now n b.round b := by simp [roundTurn, hb]
    rw [e]
    exact ⟨fun p hp => absurd hp.1 (hno p), fun p _ => o1 p, fun _ => o2⟩
  · obtain ⟨f1, f2⟩ := findPedestal (nextProbe_cond n b hb)
    obtain ⟨o1, o2⟩ := ord { b.round with probePhase := false, next := 0 }
      (fun q => by simp [OrdinaryAhead, hb, and_assoc]) rfl rfl rfl
    refine ⟨fun p hp => ?_, fun p hn => ?_, fun hn => ?_⟩
    · have e : b.round.nextProbe n = some p := f1 p hp
      simp only [roundTurn, hb, if_true, e]
      exact ⟨_, rfl, opens p true
        { probePhase := true, next := p.val + 1, faultedAtStart := b.round.faultedAtStart
          probed := p :: b.round.probed } rfl rfl, rfl, rfl, rfl⟩
    · have e : b.round.nextProbe n = Option.none := f2 hn
      simp only [roundTurn, hb, if_true, e]
      exact o1 p
    · have e : b.round.nextProbe n = Option.none := f2 hn
      simp only [roundTurn, hb, if_true, e]
      exact o2

/-- A new round, as R17 and R23 say. -/
theorem startRound_newRound (now : Time) (n : Nat) (b : BusController) :
    NewRound now n b (startRound now n b) := by
  obtain ⟨⟨h1, h2, h3⟩, h4, -⟩ := startRound_spec now n b
  set b1 : BusController := { b with
    probeDue := false
    round :=
      { probePhase := b.probeDue, next := 0
        faultedAtStart := allPedestals.filter fun p => b.health[p].faulted
        probed := [] } } with hb1
  have rt := roundTurn_turn now n b1
  have e : startRound now n b = (roundTurn now n b1).getD { b1 with activity := .idle } := rfl
  have hf : ∀ q : Pedestal, q ∈ b1.round.faultedAtStart ↔ b.health[q].faulted = true := fun q => by
    simp [hb1, List.mem_filter, mem_allPedestals]
  have hp : ∀ q, ProbeAhead n b1 q ↔ b.probeDue = true ∧ q.val ≤ n ∧ b.health[q].faulted = true :=
    fun q => by
      unfold ProbeAhead; rw [hf]; simp [hb1]
  have ho : ∀ q, OrdinaryAhead n b1 q ↔ q.val ≤ n ∧ b.health[q].faulted = false := fun q => by
    simp [OrdinaryAhead, hb1]
  have keep : ∀ u, roundTurn now n b1 = some u → u.round.faultedAtStart = b1.round.faultedAtStart := by
    intro u hu
    unfold roundTurn at hu
    split at hu
    · split at hu
      · cases hu; rfl
      · simp only [ordinaryTurn, Option.map_eq_some_iff] at hu
        obtain ⟨p, -, rfl⟩ := hu; rfl
    · simp only [ordinaryTurn, Option.map_eq_some_iff] at hu
      obtain ⟨p, -, rfl⟩ := hu; rfl
  refine ⟨fun p hd hfst => ?_, fun p hd hfst => ?_, fun hd hall => ?_, h4, fun q => ?_, h1, h2, h3⟩
  · obtain ⟨u, hu, k1, k2, -⟩ := rt.probe p
      ⟨(hp p).2 ⟨hd, hfst.1⟩, fun q hq hc => hfst.2 q hq ((hp q).1 hc).2⟩
    rw [e, hu]
    exact ⟨k1, k2⟩
  · obtain ⟨u, hu, k1, k2, -⟩ := rt.ordinary p
      (fun q hq => by
        obtain ⟨q1, q2, q3⟩ := (hp q).1 hq
        rcases hd with hd | hd
        · simp [hd] at q1
        · rw [hd q q2] at q3; cases q3)
      ⟨(ho p).2 hfst.1, fun q hq hc => hfst.2 q hq ((ho q).1 hc)⟩
    rw [e, hu]
    exact ⟨k1, k2⟩
  · rw [e, rt.none (fun q hq => by simp [hd] at hp; exact hp q hq)
      (fun q hq => by obtain ⟨q1, q2⟩ := (ho q).1 hq; rw [hall q q1] at q2; cases q2)]
    rfl
  · rw [← hf q, e]
    cases hu : roundTurn now n b1 with
    | none => rfl
    | some u => rw [Option.getD_some, keep u hu]

/-- The turn that follows one that has ended, as R17 says. -/
theorem nextTurn_follows (now : Time) (n : Nat) (b : BusController) :
    NextTurn now n b (nextTurn now n b) := by
  obtain ⟨⟨h1, h2, h3⟩, -⟩ := nextTurn_spec now n b
  have rt := roundTurn_turn now n b
  refine ⟨fun p hp => ?_, fun p hn hp => ?_, fun hn ho => ?_, h1, h2, h3⟩
  · obtain ⟨u, hu, k⟩ := rt.probe p hp
    unfold nextTurn; rw [hu]; exact k
  · obtain ⟨u, hu, k⟩ := rt.ordinary p hn hp
    unfold nextTurn; rw [hu]; exact k
  · unfold nextTurn; rw [rt.none hn ho]; exact startRound_newRound now n b

/-! ## The end of a turn (R22, R28) and an answer (R18, R23) -/

theorem endTurn_ends (t : Turn) (mute : Bool) (s : State) :
    TurnEnds s t (t.answered && !mute) (endTurn t mute s) := by
  set ans := t.answered && !mute with hans
  set s1 := (if t.dropped then s else recordTurn t.pedestal ans s) with hs1
  have hh : s1.bus = { s.bus with health := healthAfterTurn t ans s.bus.health } := by
    obtain ⟨r1, r2, r3⟩ := recordTurn_rest t.pedestal ans s
    have hr : (recordTurn t.pedestal ans s).bus
        = { s.bus with health := (recordTurn t.pedestal ans s).bus.health } := by
      unfold recordTurn; simp only []
      split
      · rfl
      · split
        · rfl
        · split <;> rfl
    have hv : s1.bus.health = healthAfterTurn t ans s.bus.health := by
      apply vector_ext
      intro q
      rw [hs1]
      cases hd : t.dropped
      · simp only [Bool.false_eq_true, if_false]
        rw [recordTurn_health]
        simp only [healthAfterTurn, hd, true_and, Fin.getElem_fin, Vector.getElem_ofFn, Fin.eta]
        by_cases hq : t.pedestal = q
        · subst hq
          simp only [if_true, true_and, Health.afterTurn]
          generalize s.bus.health[t.pedestal.val] = h
          obtain ⟨f, n⟩ := h
          cases f <;> rfl
        · rw [if_neg hq, if_neg (fun h => hq h.1.symm)]
      · simp [healthAfterTurn, hd]
    rw [hs1] at hv ⊢
    cases hd : t.dropped
    · simp only [hd, Bool.false_eq_true, if_false] at hv ⊢
      rw [hr, hv]
    · simp only [hd, if_true] at hv ⊢
      rw [← hv]
  have hclock : s1.clock = s.clock ∧ s1.site = s.site := by
    rw [hs1]; split
    · exact ⟨rfl, rfl⟩
    · exact ⟨(recordTurn_only ..).clock (by decide), (recordTurn_only ..).site (by decide)⟩
  have e : endTurn t mute s = if s1.bus.grant.isSome
      then s1.setBus { s1.bus with activity := .ended t.pedestal } else s1.changeBus nextTurn := rfl
  have hg : s1.bus.grant = s.bus.grant := by rw [hh]
  refine ⟨fun h => ?_, fun h => ?_, ?_, endTurn_only t mute s⟩
  · rw [e, hg, if_pos (Option.isSome_iff_ne_none.2 h), State.setBus_bus, hh]
  · rw [e, hg, if_neg (by simp [h])]
    show NextTurn _ _ _ (nextTurn s1.clock.now s1.site.aisles s1.bus)
    rw [hclock.1, hclock.2, hh]
    exact nextTurn_follows ..
  · rw [(endTurn_spec t mute s).2.1]
    cases hd : t.dropped
    · simp only [Bool.false_eq_true, if_false, true_and]
      rw [recordTurn_link]
      simp only [and_left_comm, hans]
    · simp

theorem restoreProbed_restored (t : Turn) (s : State) : Restored s t (restoreProbed t s) := by
  unfold restoreProbed State.setHealth
  refine ⟨fun h1 h2 h3 => ?_, fun h => ?_⟩
  · rw [if_pos (by rw [h1, h2, h3]; rfl)]
  · refine if_neg fun hc => ?_
    simp only [Bool.and_eq_true, Bool.not_eq_true'] at hc
    rcases h with h | h | h
    · rw [h] at hc; exact absurd hc.1.1 (by simp)
    · rw [h] at hc; exact absurd hc.1.2 (by simp)
    · rw [h] at hc; exact absurd hc.2 (by simp)

/-- What follows the records of an answer that intake has taken. -/
theorem deliver_goesOn (t : Turn) (more : Bool) (rest : List SightingRecord) (s : State) :
    AnswerGoesOn s t more rest (deliver t more rest s) := by
  refine ⟨fun h => ?_, fun h hm hx => ?_, fun h hm => ?_⟩
  · cases rest with
    | nil => exact absurd rfl h
    | cons r rs => rfl
  · subst h
    unfold deliver finishAnswer sendPoll
    simp only [hm, hx, decide_true, Bool.and_self, if_true, pollFrame_bytes]
    rfl
  · subst h
    have : (more && decide (t.extra < 3)) = false := by
      rcases hm with hm | hm
      · simp [hm]
      · simp; omega
    unfold deliver finishAnswer
    simp only [this, Bool.false_eq_true, if_false]
    simpa using endTurn_ends t false s

/-- Intake's next record of an answer being delivered. -/
theorem takeRecord_goesOn {s : State} {t : Turn} {more : Bool} {rs : List SightingRecord}
    (h : s.bus.activity = .delivering t more rs) :
    AnswerGoesOn ((rs.take 1).foldl (intakeRecord t.pedestal) s) t more (rs.drop 1) (takeRecord s) := by
  unfold takeRecord
  rw [h]
  cases rs with
  | nil => exact deliver_goesOn t more [] s
  | cons r rs => exact deliver_goesOn t more rs (intakeRecord t.pedestal s r)

/-- An open poll is heard with the bytes of `State.hearing`. -/
theorem hears_iff {s : State} {t : Turn} {bytes : List Byte} :
    s.Hears t bytes ↔ s.hearing = some (t, bytes) := by
  unfold State.Hears State.hearing
  cases s.bus.activity <;> simp
  constructor
  · rintro ⟨rfl, rfl⟩; exact ⟨rfl, rfl⟩
  · rintro ⟨rfl, rfl⟩; exact ⟨rfl, rfl⟩

/-! ## The bytes of an answer (R16, R182) -/

theorem recordCount_mod (bs : List Byte) : recordCount bs = (byteAt bs 2).toNat % 128 := by
  simp [recordCount, BitVec.extractLsb'_toNat]

theorem count8_pedestal (p : Pedestal) : count8 p.val = BitVec.ofNat 8 p.val := rfl

theorem judgeAnswer_of_length {p : Pedestal} {bs : List Byte} {n : Nat} (h2 : 2 ≤ bs.length)
    (hA : answerLength bs = some n) : judgeAnswer p bs =
      if bs.length < n then .partially
      else if byteAt bs 0 ≠ BitVec.ofNat 8 p.val ∨ (bs.take n).foldl (· + ·) 0 ≠ 0 then .bad
      else match answerFields bs with
        | some a => .answer a
        | none => .bad := by
  unfold judgeAnswer
  rw [if_neg (by omega), hA]
  rfl

/-- The verdict on received bytes of an answer of length `n`. -/
theorem judged_iff {p : Pedestal} {bs : List Byte} {n : Nat} {bad part : Prop} (h2 : 2 ≤ bs.length)
    (hA : answerLength bs = some n)
    (hb : bad ↔ n ≤ bs.length ∧ (byteAt bs 0 ≠ BitVec.ofNat 8 p.val
      ∨ (bs.take n).foldl (· + ·) 0 ≠ 0 ∨ answerFields bs = none)) (hp : part ↔ bs.length < n) :
    (judgeAnswer p bs = .bad ↔ bad) ∧ (judgeAnswer p bs = .partially ↔ part) := by
  rw [judgeAnswer_of_length h2 hA, hb, hp]
  by_cases hl : bs.length < n
  · have : ¬ n ≤ bs.length := by omega
    simp [hl, this]
  · have hn : n ≤ bs.length := by omega
    rw [if_neg hl]
    by_cases hx : byteAt bs 0 ≠ BitVec.ofNat 8 p.val ∨ (bs.take n).foldl (· + ·) 0 ≠ 0
    · rw [if_pos hx]
      refine ⟨⟨fun _ => ⟨hn, hx.imp_right .inl⟩, fun _ => rfl⟩, by simp [hl]⟩
    · rw [if_neg hx]
      rw [not_or, not_not, not_not] at hx
      cases answerFields bs <;> simp only [hx.1, hx.2, hn, hl] <;> simp

/-- The verdict on received bytes, by R16 and R182. -/
theorem judgeAnswer_cases (p : Pedestal) (bs : List Byte) :
    (judgeAnswer p bs = .bad ↔ BadAnswerBytes p bs)
      ∧ (judgeAnswer p bs = .partially ↔ PartialAnswerBytes bs) := by
  have hk : ∀ b : Byte, b = 0x81 ∨ b = 0x82 ∨ b = 0x83 ∨ (b ≠ 0x81 ∧ b ≠ 0x82 ∧ b ≠ 0x83) := by decide
  unfold BadAnswerBytes PartialAnswerBytes
  by_cases h2 : bs.length < 2
  · have : ¬ 2 ≤ bs.length := by omega
    simp [judgeAnswer, h2, this]
  have h2' : 2 ≤ bs.length := by omega
  have d12 : ¬ ((0x81 : Byte) = 0x82) := by decide
  have d13 : ¬ ((0x81 : Byte) = 0x83) := by decide
  have d21 : ¬ ((0x82 : Byte) = 0x81) := by decide
  have d23 : ¬ ((0x82 : Byte) = 0x83) := by decide
  have d31 : ¬ ((0x83 : Byte) = 0x81) := by decide
  have d32 : ¬ ((0x83 : Byte) = 0x82) := by decide
  rcases hk (byteAt bs 1) with h | h | h | ⟨h, h', h''⟩
  · by_cases hc : (byteAt bs 2).toNat % 128 ≤ 6
    · have hc' : ¬ 6 < (byteAt bs 2).toNat % 128 := by omega
      have hA : answerLength bs = some (4 + 11 * ((byteAt bs 2).toNat % 128)) := by
        simp only [answerLength, h, if_true, recordCount_mod, hc]
      have hF : ¬ answerFields bs = none := by simp only [answerFields, h, if_true]; simp
      refine judged_iff h2' hA ?_ ?_ <;>
        simp only [h, h2, h2', hc, hc', hF, d12, d13, ne_eq, not_true, not_false_eq_true, false_and,
          and_false, true_and, or_false, false_or, exists_eq_left]
    · have hc' : 6 < (byteAt bs 2).toNat % 128 := by omega
      have hA : answerLength bs = none := by
        simp only [answerLength, h, if_true, recordCount_mod, hc, if_false]
      simp only [judgeAnswer, h2, if_false, hA, h, h2', hc, hc', d12, d13]
      simp
  · have hA : answerLength bs = some 4 := by simp only [answerLength, h, d21, if_false, if_true]
    have hF : answerFields bs = none ↔ ((byteAt bs 2).toNat = 0 ∨ 3 < (byteAt bs 2).toNat) := by
      simp only [answerFields, h, d21, if_false, if_true]
      split <;> simp <;> omega
    refine judged_iff h2' hA ?_ ?_ <;>
      simp only [h, h2, h2', hF, d21, d23, ne_eq, not_true, not_false_eq_true, false_and,
        and_false, true_and, or_false, false_or, exists_eq_left]
  · have hA : answerLength bs = some 3 := by simp only [answerLength, h, d31, d32, if_false, if_true]
    have hF : ¬ answerFields bs = none := by simp only [answerFields, h, d31, d32, if_false]; simp
    refine judged_iff h2' hA ?_ ?_ <;>
      simp only [h, h2, h2', hF, d31, d32, ne_eq, not_true, not_false_eq_true, false_and,
        and_false, true_and, or_false, false_or, exists_eq_left]
  · have hA : answerLength bs = none := by simp only [answerLength, h, h', h'', if_false]
    have e : judgeAnswer p bs = .bad := by simp only [judgeAnswer, h2, if_false, hA]
    rw [e]
    refine ⟨⟨fun _ => ⟨h2', .inl ⟨h, h', h''⟩⟩, fun _ => rfl⟩, ⟨fun he => (nomatch he), ?_⟩⟩
    rintro (hc | hc | hc | hc)
    · exact absurd hc h2
    · exact absurd hc.1 h'
    · exact absurd hc.1 h''
    · exact absurd hc.1 h

end Sys2Proof.Machine
end

