-- ==== Sys2Proof/Laws/Table.lean ====
section
/-! SUPPORT. What an update of the item table does: the checks of its fields, the refresh in flight, the
replies that stay, and the whole change. -/

namespace Sys2Proof.Machine

/-- The fields of an update are bad for identifier 0 or a desk number above 31. -/
theorem badFields_desk (id : Ident) (b : Byte) :
    badFields id (deskField b) = true ↔ id = 0 ∨ (b ≠ 0xFF ∧ 31 < b.toNat) := by
  unfold badFields deskField
  by_cases hb : b = 0xFF
  · simp [hb]
  · rw [if_neg hb]
    simp only [Bool.or_eq_true, beq_iff_eq, decide_eq_true_eq, ne_eq, hb, not_false_eq_true, true_and]

theorem badFields_none (id : Ident) : badFields id none = true ↔ id = 0 := by simp [badFields]

theorem seg_counted (s : State) (i : Ident) : s.counted.segment i = s.segments[segmentOf i] := by
  rw [counted_segment]; rfl

/-- What a change makes of the refresh in flight. -/
theorem lateRecord_eq (k : ChangeKind) (id : Ident) (e : Option Entry) (s : State) :
    (recordLate k id e s).refresh = lateRecord k id e s.refresh := by
  unfold recordLate lateRecord
  cases hr : s.refresh with
  | none => simp [hr]
  | some r =>
    simp only []
    by_cases h1 : r.segment = segmentOf id
    · by_cases h2 : r.late.length < 64
      · simp [h1, h2]
      · simp only [h1, h2, if_true, if_false, ne_eq, not_true_eq_false]
        exact (notice_only _ _).refresh (by decide)
    · simp [h1, hr]

theorem recordLate_replies (k : ChangeKind) (id : Ident) (e : Option Entry) (s : State) :
    (recordLate k id e s).link.replies = s.link.replies := by
  unfold recordLate
  split
  · rfl
  · split
    · split
      · rfl
      · unfold abortRefresh; rw [notice_replies]; rfl
    · rfl

theorem giveVerdict_replies (s : State) (j : Judging) :
    (giveVerdict s j).link.replies = s.link.replies := by
  unfold giveVerdict
  simp only []
  rw [createReport_replies]
  have h : (j.items.foldl (writeVerdict j.number) s).link = s.link :=
    (Only.foldl (writeVerdict_only j.number) j.items s).link (by decide)
  split
  · rw [(handVerdict_only _ _ _).link (by decide), h]
  · rw [h]

theorem settle_replies (f : Judging → Judging) (s : State) :
    (settle f s).link.replies = s.link.replies := by
  have : ∀ (l : List Judging) (s : State), (l.foldl giveVerdict s).link.replies = s.link.replies := by
    intro l; induction l with
    | nil => intro s; rfl
    | cons j l ih => intro s; rw [List.foldl_cons, ih, giveVerdict_replies]
  unfold settle; simp only []; rw [this]; rfl

/-- A change sets one entry, keeps every other and every segment state, is recorded by a refresh of its
segment, and places no reply. -/
theorem applyChange_spec (k : ChangeKind) (id : Ident) (e : Option Entry) (s : State)
    (he : ∀ x, e = some x → x.ident = id) :
    (∀ i, (applyChange k id e s).entry? i = if i = id then e else s.entry? i)
      ∧ (∀ i : Fin 64, (applyChange k id e s).segments[i].state = s.segments[i].state)
      ∧ (applyChange k id e s).refresh = lateRecord k id e s.refresh
      ∧ (applyChange k id e s).link.replies = s.link.replies := by
  have h1 := forward_only id e (recordLate k id e (writeEntry id e s))
  have h2 := recordLate_only k id e (writeEntry id e s)
  have h3 := writeEntry_only id e s
  unfold applyChange
  refine ⟨fun i => ?_, fun i => ?_, ?_, ?_⟩
  · rw [h1.entry? (by decide), h2.entry? (by decide), entry?_writeEntry _ _ _ he]
  · rw [h1.segments (by decide), h2.segments (by decide)]; exact writeEntry_state ..
  · rw [h1.refresh (by decide), lateRecord_eq, h3.refresh (by decide)]
  · unfold forward; rw [settle_replies, recordLate_replies, h3.link (by decide)]

theorem counted_hasRoom (s : State) (id : Ident) :
    s.counted.hasRoom id = decide (s.segments[segmentOf id].entries.length < 1024) := by
  unfold State.hasRoom; rw [seg_counted]

/-- An entry is stored where its identifier has one or its segment has room. -/
theorem storeOrFull_room {s : State} {e : Entry} (x : Option Nat)
    (h : (s.entry? e.ident).isSome = true ∨ s.segments[segmentOf e.ident].entries.length < 1024) :
    storeOrFull s.counted e x = .store e.constrained (expiryClamped x) := by
  unfold storeOrFull
  rw [if_pos]
  rw [counted_entry?, counted_hasRoom]
  rcases h with h | h
  · rw [h]; rfl
  · rw [decide_eq_true h, Bool.or_true]

/-- A new entry is refused where its segment is full. -/
theorem storeOrFull_full {s : State} {e : Entry} (x : Option Nat) (h : s.entry? e.ident = none)
    (h2 : 1024 ≤ s.segments[segmentOf e.ident].entries.length) :
    storeOrFull s.counted e x = .refused .full := by
  unfold storeOrFull
  rw [if_neg]
  rw [counted_entry?, counted_hasRoom, h, decide_eq_false (by omega)]; simp

theorem removeRule_some {P : EntryClass → Bool} {s : State} {id : Ident} {e : Entry}
    (h : s.entry? id = some e) :
    removeRule P s.counted id = if P e.cls then .remove else .refused .mismatch := by
  unfold removeRule; rw [counted_entry?, h]
theorem removeRule_none {P : EntryClass → Bool} {s : State} {id : Ident}
    (h : s.entry? id = none) : removeRule P s.counted id = .refused .notFound := by
  unfold removeRule; rw [counted_entry?, h]

end Sys2Proof.Machine
end

