-- ==== Sys2Proof/Laws/Tracks.lean ====
section
/-! SUPPORT. What the blocks do to the tracks: what a verdict, a query, a passage or a sighting may write. -/

namespace Sys2Proof.Machine

/-! ## Rewriting every track -/

/-- Nothing but the verdict held by a SPENT track is changed. -/
def VerdictOnly (f : Track → Track) : Prop :=
  ∀ t, ∃ st, f t = { t with state := st }
    ∧ ((∀ b n v, t.state ≠ .spent b n v) → st = t.state)
    ∧ ∀ b n v, t.state = .spent b n v → ∃ v', st = .spent b n v'

/-- The tracks of `t` are those of `s`, but for verdicts of SPENT tracks. -/
def Rejudged (s t : State) : Prop :=
  t.tracking.decayAt = s.tracking.decayAt
    ∧ ∃ f, VerdictOnly f ∧ t.tracking.tracks = s.tracking.tracks.map f

theorem VerdictOnly.id : VerdictOnly fun t => t := fun t => ⟨t.state, rfl, fun _ => rfl, fun _ _ v h => ⟨v, h⟩⟩

theorem VerdictOnly.comp {f g : Track → Track} (hf : VerdictOnly f) (hg : VerdictOnly g) :
    VerdictOnly (g ∘ f) := by
  intro t
  obtain ⟨st, h1, h2, h3⟩ := hf t
  obtain ⟨st', k1, k2, k3⟩ := hg (f t)
  refine ⟨st', by rw [Function.comp_apply, k1, h1], ?_, ?_⟩
  · intro h
    have e := h2 h
    rw [k2 (by rw [h1, e]; exact h), h1, e]
  · intro b n v h
    obtain ⟨v', e⟩ := h3 b n v h
    exact k3 b n v' (by rw [h1, e])

theorem Rejudged.refl (s : State) : Rejudged s s := ⟨rfl, _, VerdictOnly.id, by simp⟩

theorem Rejudged.trans {s t u : State} (h : Rejudged s t) (k : Rejudged t u) : Rejudged s u := by
  obtain ⟨d, f, hf, e⟩ := h
  obtain ⟨d', g, hg, e'⟩ := k
  exact ⟨d'.trans d, _, hf.comp hg, by rw [e', e, List.map_map]⟩

theorem Rejudged.of_tracking {s t : State} (h : t.tracking = s.tracking) : Rejudged s t :=
  ⟨by rw [h], _, VerdictOnly.id, by simp [h]⟩

theorem Rejudged.foldl {α : Type} {f : State → α → State} (h : ∀ s a, Rejudged s (f s a)) (l : List α)
    (s : State) : Rejudged s (l.foldl f s) := by
  induction l generalizing s with
  | nil => exact Rejudged.refl s
  | cons a l ih => exact (h s a).trans (ih _)

theorem writeVerdict_rejudged (n : Word16) (s : State) (r : ItemRecord) :
    Rejudged s (writeVerdict n s r) := by
  unfold writeVerdict
  split
  · exact Rejudged.refl s
  · rename_i v b
    refine ⟨rfl, _, ?_, modifyTrack_tracks ..⟩
    intro t
    dsimp only
    split
    · split
      · rename_i a m v0 hs
        split
        · refine ⟨_, rfl, fun h => absurd hs (h _ _ _), fun b' n' v' h => ?_⟩
          rw [hs] at h; cases h; exact ⟨_, rfl⟩
        · exact ⟨t.state, rfl, fun _ => rfl, fun _ _ v h => ⟨v, h⟩⟩
      · exact ⟨t.state, rfl, fun _ => rfl, fun _ _ v h => ⟨v, h⟩⟩
    · exact ⟨t.state, rfl, fun _ => rfl, fun _ _ v h => ⟨v, h⟩⟩

theorem giveVerdict_rejudged (s : State) (j : Judging) : Rejudged s (giveVerdict s j) := by
  unfold giveVerdict
  refine Rejudged.trans ?_ (Rejudged.of_tracking ((createReport_only _ _ _).tracking (by decide)))
  have h := Rejudged.foldl (writeVerdict_rejudged j.number) j.items s
  split
  · exact h.trans (Rejudged.of_tracking ((handVerdict_only _ _ _).tracking (by decide)))
  · exact h

theorem settle_rejudged (f : Judging → Judging) (s : State) : Rejudged s (settle f s) :=
  (Rejudged.of_tracking (s := s) (t := s.setJudging _) rfl).trans
    (Rejudged.foldl giveVerdict_rejudged _ _)

theorem forceOldest_rejudged (s : State) : Rejudged s (forceOldest s) := by
  unfold forceOldest
  split
  · exact Rejudged.refl s
  · exact (Rejudged.of_tracking (s := s) (t := s.setJudging _) rfl).trans (giveVerdict_rejudged _ _)

theorem judgePassage_rejudged (j : Judging) (s : State) : Rejudged s (judgePassage j s) := by
  unfold judgePassage
  split
  · refine Rejudged.trans ?_ (Rejudged.of_tracking rfl)
    split
    · exact Rejudged.refl s
    · exact forceOldest_rejudged s
  · exact giveVerdict_rejudged s j

/-- A track seen again: only a SPENT track's verdict may have changed. -/
theorem Rejudged.track? {s t : State} (h : Rejudged s t) (i : Ident) :
    (s.track? i = none → t.track? i = none)
      ∧ ∀ x, s.track? i = some x → ∃ st, t.track? i = some { x with state := st }
          ∧ ((∀ b n v, x.state ≠ .spent b n v) → st = x.state)
          ∧ ∀ b n v, x.state = .spent b n v → ∃ v', st = .spent b n v' := by
  obtain ⟨-, f, hf, e⟩ := h
  have hid : ∀ x, (f x).ident = x.ident := fun x => by obtain ⟨st, h, -⟩ := hf x; rw [h]
  have ht : t.track? i = (s.track? i).map f := by
    unfold State.track?; rw [e]; exact find_map_key (f := Track.ident) hid _ _
  rw [ht]
  refine ⟨fun h => by rw [h]; rfl, fun x hx => ?_⟩
  obtain ⟨st, h1, h2, h3⟩ := hf x
  exact ⟨st, by rw [hx, Option.map_some, h1], h2, h3⟩

/-! ## Rewriting tracks without their evidence -/

/-- A track's identifier, evidence, flag and times are kept. -/
def KeepsEvidence (f : Track → Track) : Prop :=
  ∀ t, (f t).ident = t.ident ∧ (f t).evidence = t.evidence ∧ (f t).guard = t.guard
    ∧ (f t).firstSeen = t.firstSeen ∧ (f t).lastSeen = t.lastSeen

/-- The tracks of `t` are those of `s` with the same evidence, flags and times. -/
def SameEvidence (s t : State) : Prop :=
  t.tracking.decayAt = s.tracking.decayAt
    ∧ ∃ f, KeepsEvidence f ∧ t.tracking.tracks = s.tracking.tracks.map f

theorem SameEvidence.refl (s : State) : SameEvidence s s :=
  ⟨rfl, fun t => t, fun _ => ⟨rfl, rfl, rfl, rfl, rfl⟩, by simp⟩

theorem SameEvidence.trans {s t u : State} (h : SameEvidence s t) (k : SameEvidence t u) :
    SameEvidence s u := by
  obtain ⟨d, f, hf, e⟩ := h
  obtain ⟨d', g, hg, e'⟩ := k
  refine ⟨d'.trans d, g ∘ f, fun x => ?_, by rw [e', e, List.map_map]⟩
  obtain ⟨f1, f2, f3, f4, f5⟩ := hf x
  obtain ⟨g1, g2, g3, g4, g5⟩ := hg (f x)
  exact ⟨g1.trans f1, g2.trans f2, g3.trans f3, g4.trans f4, g5.trans f5⟩

theorem Rejudged.same {s t : State} (h : Rejudged s t) : SameEvidence s t := by
  obtain ⟨d, f, hf, e⟩ := h
  refine ⟨d, f, fun x => ?_, e⟩
  obtain ⟨st, h, -⟩ := hf x
  rw [h]; exact ⟨rfl, rfl, rfl, rfl, rfl⟩

theorem SameEvidence.of_tracking {s t : State} (h : t.tracking = s.tracking) : SameEvidence s t :=
  (Rejudged.of_tracking h).same

theorem SameEvidence.of_only {cs : List Component} {s t : State} (h : Only cs s t)
    (hc : Component.tracking ∉ cs) : SameEvidence s t := .of_tracking (h.tracking hc)

theorem SameEvidence.foldl {α : Type} {f : State → α → State} (h : ∀ s a, SameEvidence s (f s a))
    (l : List α) (s : State) : SameEvidence s (l.foldl f s) := by
  induction l generalizing s with
  | nil => exact SameEvidence.refl s
  | cons a l ih => exact (h s a).trans (ih _)

theorem modifyTrack_same {f : Track → Track} (hf : KeepsEvidence f) (s : State) (id : Ident) :
    SameEvidence s (s.modifyTrack id f) := by
  refine ⟨rfl, _, ?_, modifyTrack_tracks ..⟩
  intro t
  dsimp only
  split
  · exact hf t
  · exact ⟨rfl, rfl, rfl, rfl, rfl⟩

theorem keeps_bind (a : Aisle) (n : Word16) : KeepsEvidence (Track.bind a n) :=
  fun _ => ⟨rfl, rfl, rfl, rfl, rfl⟩
theorem keeps_spend : KeepsEvidence Track.spend := fun t => by
  unfold Track.spend; split <;> exact ⟨rfl, rfl, rfl, rfl, rfl⟩
theorem keeps_unbind (now : Time) : KeepsEvidence (Track.unbind now) := fun t => by
  unfold Track.unbind; split <;> exact ⟨rfl, rfl, rfl, rfl, rfl⟩
theorem keeps_mark (m : QueryMark) : KeepsEvidence fun t => { t with mark := m } :=
  fun _ => ⟨rfl, rfl, rfl, rfl, rfl⟩
theorem keeps_answer (a : HostAnswer) : KeepsEvidence fun t => { t with answer := some a } :=
  fun _ => ⟨rfl, rfl, rfl, rfl, rfl⟩
theorem keeps_attributed (a : Aisle) (now : Time) :
    KeepsEvidence fun t => { t with state := .attributed a now } :=
  fun _ => ⟨rfl, rfl, rfl, rfl, rfl⟩

/-! ## Which operations keep the evidence -/

theorem makeQuery_same (id : Ident) (a : Aisle) (s : State) : SameEvidence s (makeQuery id a s) := by
  unfold makeQuery
  split
  · split
    · exact (SameEvidence.of_tracking (s := s) (t := s.setQueries _) rfl).trans
        (modifyTrack_same (keeps_mark _) _ _)
    · exact modifyTrack_same (keeps_mark _) _ _
  · exact SameEvidence.refl s

theorem bindAttributed_same (id : Ident) (a : Aisle) (s : State) :
    SameEvidence s (bindAttributed id a s) := by
  unfold bindAttributed
  split
  · exact (SameEvidence.of_only (setOpens_only s a _) (by decide)).trans
      (modifyTrack_same (keeps_bind _ _) _ _)
  · exact SameEvidence.of_only (setOpens_only s a _) (by decide)

theorem attributeTrack_same (id : Ident) (a : Aisle) (s : State) :
    SameEvidence s (attributeTrack id a s) :=
  (modifyTrack_same (keeps_attributed a _) s id).trans
    ((bindAttributed_same id a _).trans (makeQuery_same id a _))

theorem testOutcome_same (id : Ident) (b : Aisle) (st : TrackState) (s : State) :
    SameEvidence s (testOutcome id b st s) := by
  unfold testOutcome
  split
  · exact attributeTrack_same id b s
  · split
    · exact SameEvidence.refl s
    · exact attributeTrack_same id b s
  · exact SameEvidence.refl s
  · exact SameEvidence.refl s

theorem trackGone_same (id : Ident) (s : State) : SameEvidence s (trackGone id s) := by
  unfold trackGone
  split
  · exact (SameEvidence.of_only (setQueryList_only s _) (by decide)).trans (settle_rejudged _ _).same
  · exact SameEvidence.refl s

/-- Freeing a track whose query is purged leaves the other tracks but for SPENT verdicts. -/
theorem trackGone_rejudged (id : Ident) (s : State) : Rejudged s (trackGone id s) := by
  unfold trackGone
  split
  · exact (Rejudged.of_tracking (s := s) ((setQueryList_only s _).tracking (by decide))).trans
      (settle_rejudged _ _)
  · exact Rejudged.refl s

theorem lapseQuery_same (q : Query) (s : State) : SameEvidence s (lapseQuery q s) :=
  ((SameEvidence.of_only (setQueryList_only s _) (by decide)).trans
    (modifyTrack_same (keeps_mark _) _ _)).trans (settle_rejudged _ _).same

theorem matchAnswer_same (id : Ident) (a : HostAnswer) (s : State) :
    SameEvidence s (matchAnswer id a s) :=
  ((SameEvidence.of_only (setQueryList_only s _) (by decide)).trans
    (modifyTrack_same (keeps_answer a) _ _)).trans (settle_rejudged _ _).same

theorem applyChange_rejudged (k : ChangeKind) (id : Ident) (e : Option Entry) (s : State) :
    Rejudged s (applyChange k id e s) :=
  (Rejudged.of_tracking ((writeEntry_only id e s).tracking (by decide))).trans
    ((Rejudged.of_tracking ((recordLate_only k id e _).tracking (by decide))).trans
      (settle_rejudged _ _))

theorem runUpdate_rejudged (k : RequestKind) (c : ChangeKind) (ref : Byte) (id : Ident) (u : Update)
    (s : State) : Rejudged s (runUpdate k c ref id u s) := by
  cases u with
  | refused st => exact Rejudged.of_tracking rfl
  | store e b => exact (applyChange_rejudged c id _ s).trans (Rejudged.of_tracking rfl)
  | remove => exact (applyChange_rejudged c id _ s).trans (Rejudged.of_tracking rfl)

theorem storeAnswer_rejudged (id : Ident) (u : Update) (s : State) :
    Rejudged s (storeAnswer id u s) := by
  cases u with
  | refused st => exact Rejudged.refl s
  | store e b => exact applyChange_rejudged _ _ _ s
  | remove => exact Rejudged.refl s

theorem takeAnswer_same (ref n : Byte) (id : Ident) (r : Byte) (e : Option Nat) (s : State) :
    SameEvidence s (takeAnswer ref n id r e s) := by
  unfold takeAnswer
  split
  · exact SameEvidence.of_tracking rfl
  · split
    · rename_i a _
      unfold settleAnswer
      refine SameEvidence.trans ?_ (SameEvidence.of_tracking rfl)
      have h1 : SameEvidence s (if s.answerMatches n id then matchAnswer id a s else s) := by
        split
        · exact matchAnswer_same id a s
        · exact SameEvidence.refl s
      cases a with
      | entry c => exact h1.trans (storeAnswer_rejudged id _ _).same
      | noException => exact h1
    · exact SameEvidence.of_tracking rfl

theorem forward_rejudged (id : Ident) (e : Option Entry) (s : State) : Rejudged s (forward id e s) :=
  settle_rejudged (watchChange s id e) s

theorem setSegments_rejudged (s : State) (v : Vector Segment 64) : Rejudged s (s.setSegments v) :=
  ⟨rfl, _, VerdictOnly.id, (List.map_id'' (fun _ => rfl) _).symm⟩

theorem ageTable_rejudged (s : State) : Rejudged s (ageTable s) := by
  unfold ageTable
  exact (setSegments_rejudged s _).trans
    (Rejudged.foldl (f := fun s id => forward id none s) (fun s id => forward_rejudged id none s) _ _)

theorem openPassage_same (a : Aisle) (b : Beam) (s : State) : SameEvidence s (openPassage a b s) := by
  unfold openPassage
  simp only []
  refine SameEvidence.trans ?_
    (SameEvidence.foldl (fun s id => modifyTrack_same (keeps_bind a _) s id) _ _)
  exact SameEvidence.of_only ((only_setPassages s _).trans (setOpens_only _ a _)) (by decide)

theorem completePassage_same (a : Aisle) (s : State) (p : Passage) :
    SameEvidence s (completePassage a s p) :=
  ((SameEvidence.of_only (leaveList_only a p s) (by decide)).trans
    (SameEvidence.foldl (fun s id => modifyTrack_same keeps_spend s id) _ _)).trans
      (judgePassage_rejudged _ _).same

theorem closePassage_same (a : Aisle) (o : PassageOutcome) (s : State) (p : Passage) :
    SameEvidence s (closePassage a o s p) :=
  ((SameEvidence.of_only (leaveList_only a p s) (by decide)).trans
    (SameEvidence.foldl (fun s id => modifyTrack_same (keeps_unbind _) s id) _ _)).trans
      (SameEvidence.of_only (createReport_only _ _ _) (by decide))

theorem dismissAisle_same (a : Aisle) (s : State) : SameEvidence s (dismissAisle a s) :=
  (SameEvidence.foldl (closePassage_same a .dismissed) _ s).trans
    (SameEvidence.of_only (setAisle_only _ a _) (by decide))

theorem sweepPassage_same (a : Aisle) (s : State) (p : Passage) :
    SameEvidence s (sweepPassage a s p) := by
  unfold sweepPassage
  split
  · exact completePassage_same a s p
  · exact closePassage_same a .turnedBack s p

theorem sweepAisle_same (a : Aisle) (s : State) : SameEvidence s (sweepAisle a s) :=
  (SameEvidence.foldl (sweepPassage_same a) _ s).trans
    (SameEvidence.of_only (setAisle_only _ a _) (by decide))

theorem takeBreak_same (a : Aisle) (b : Beam) (s : State) : SameEvidence s (takeBreak a b s) := by
  unfold takeBreak
  simp only []
  have h := SameEvidence.of_only (setOpens_only s a ((s.opens a).map (Passage.sawBreak b))) (by decide)
  split
  · exact h.trans (SameEvidence.of_only (setOpens_only _ a _) (by decide))
  · split
    · exact h.trans (openPassage_same a b _)
    · exact h.trans (SameEvidence.of_only (setAisle_only _ a _) (by decide))

theorem takeClear_same (a : Aisle) (b : Beam) (s : State) : SameEvidence s (takeClear a b s) := by
  have h : ∀ s1, SameEvidence s s1 →
      SameEvidence s (if s1.bothClear a then sweepAisle a s1 else s1) := by
    intro s1 h1
    split
    · exact h1.trans (sweepAisle_same a _)
    · exact h1
  refine h _ ?_
  split
  · exact completePassage_same a s _
  · split
    · exact closePassage_same a _ s _
    · exact SameEvidence.refl s

theorem changeMode_same (m : Mode) (s : State) (a : Aisle) : SameEvidence s (changeMode m s a) := by
  unfold changeMode
  simp only []
  have h : ∀ s1 : State, SameEvidence s s1 →
      SameEvidence s (if s.modes.stored[a] = .watch ∧ m = .off then dismissAisle a s1 else s1) := by
    intro s1 h1
    split
    · exact h1.trans (dismissAisle_same a s1)
    · exact h1
  refine h _ ?_
  split <;> exact SameEvidence.of_tracking rfl

theorem takeRequest_same (ref : Byte) (r : Request) (s : State) (hr : ∀ f, r ≠ .setSite f) :
    SameEvidence s (takeRequest ref r s) := by
  cases r with
  | setSite f => exact absurd rfl (hr f)
  | describe o => exact SameEvidence.of_only (takeDescribe_only ref o s) (by decide)
  | status v => exact SameEvidence.of_only (takeStatus_only ref v s) (by decide)
  | restart k => exact SameEvidence.of_only (takeRestart_only ref k s) (by decide)
  | setMode a m =>
    simp only [takeRequest, takeSetMode]
    split
    · split
      · exact SameEvidence.of_tracking rfl
      · exact (SameEvidence.foldl (changeMode_same _) _ s).trans (SameEvidence.of_tracking rfl)
    · exact SameEvidence.of_tracking rfl
  | silence a => exact SameEvidence.of_only (takeSilence_only ref a s) (by decide)
  | issue id e d => exact (runUpdate_rejudged ..).same
  | beginIssue id d => exact (runUpdate_rejudged ..).same
  | cancelIssue id => exact (runUpdate_rejudged ..).same
  | returnItem id => exact (runUpdate_rejudged ..).same
  | mark id c e d => exact (runUpdate_rejudged ..).same
  | unmark id => exact (runUpdate_rejudged ..).same
  | lookup id => exact SameEvidence.of_only (takeLookup_only ref id s) (by decide)
  | segBegin i n => exact SameEvidence.of_only (takeSegBegin_only ref i n s) (by decide)
  | segBlock i b l es =>
    simp only [takeRequest, takeSegBlock]
    split
    · exact SameEvidence.of_tracking rfl
    · split
      · exact SameEvidence.of_tracking rfl
      · split
        · exact SameEvidence.of_tracking rfl
        · unfold takeGoodBlock
          split
          · exact SameEvidence.of_tracking rfl
          · simp only []
            split
            · exact SameEvidence.of_tracking rfl
            · split
              · exact SameEvidence.of_tracking rfl
              · refine SameEvidence.trans ?_ (SameEvidence.of_tracking rfl)
                exact (SameEvidence.of_tracking (s := s) rfl).trans (settle_rejudged _ _).same
  | trust set => exact SameEvidence.of_only (takeTrust_only ref set s) (by decide)
  | supervise p => exact SameEvidence.of_only (takeSupervise_only ref p s) (by decide)
  | answer n id r e => exact takeAnswer_same ref n id r e s
  | busTake => exact SameEvidence.of_only (takeBusTake_only ref s) (by decide)
  | busGive => exact SameEvidence.of_only (takeBusGive_only ref s) (by decide)
  | readerPass p bs => exact SameEvidence.of_only (takeReaderPass_only ref p bs s) (by decide)

/-! ## Freeing -/

theorem track?_dropKeyed (s : State) (id i : Ident) :
    (s.setTracks (dropKeyed Track.key id.toNat s.tracking.tracks)).track? i
      = if i = id then none else s.track? i :=
  find_dropKeyed (key := Track.key) (f := Track.ident) (g := BitVec.toNat) (fun _ => rfl)
    (fun _ _ => BitVec.toNat_inj.1) id i _

theorem freeTrack_rejudged (s : State) (id : Ident) :
    Rejudged (s.setTracks (dropKeyed Track.key id.toNat s.tracking.tracks)) (freeTrack s id) :=
  trackGone_rejudged id _

/-- Taking tracks out of the table one by one, by an operation that leaves the others but for SPENT
verdicts. -/
theorem foldl_free {f : State → Ident → State}
    (hf : ∀ s id, Rejudged (s.setTracks (dropKeyed Track.key id.toNat s.tracking.tracks)) (f s id))
    (ids : List Ident) (s : State) :
    (ids.foldl f s).tracking.decayAt = s.tracking.decayAt
      ∧ ∀ i, (i ∈ ids → (ids.foldl f s).track? i = none)
        ∧ (s.track? i = none → (ids.foldl f s).track? i = none)
        ∧ (i ∉ ids → ∀ x, s.track? i = some x → ∃ st,
            (ids.foldl f s).track? i = some { x with state := st }
              ∧ ((∀ b n v, x.state ≠ .spent b n v) → st = x.state)) := by
  induction ids generalizing s with
  | nil =>
    refine ⟨rfl, fun i => ⟨fun h => (List.not_mem_nil h).elim, fun h => h, fun _ x hx => ?_⟩⟩
    exact ⟨x.state, hx, fun _ => rfl⟩
  | cons id ids ih =>
    obtain ⟨hd, hi⟩ := ih (f s id)
    have hr := hf s id
    refine ⟨hd.trans (hr.1.trans (setTracks_decayAt s _)), fun i => ?_⟩
    obtain ⟨g1, g2, g3⟩ := hi i
    obtain ⟨r1, r2⟩ := hr.track? i
    rw [track?_dropKeyed] at r1 r2
    refine ⟨fun h => ?_, fun h => ?_, fun h x hx => ?_⟩
    · rcases List.mem_cons.1 h with rfl | h
      · exact g2 (r1 (if_pos rfl))
      · exact g1 h
    · exact g2 (r1 (by rw [h]; exact ite_self none))
    · have hne : i ≠ id := fun e => h (e ▸ List.mem_cons_self ..)
      obtain ⟨st, k1, k2, -⟩ := r2 x (by rw [if_neg hne]; exact hx)
      obtain ⟨st', l1, l2⟩ := g3 (fun e => h (List.mem_cons_of_mem _ e)) _ k1
      refine ⟨st', l1, fun hs => ?_⟩
      have e := k2 hs
      exact (l2 (by rw [e]; exact hs)).trans e

theorem Track.decayed_get (t : Track) (a : Aisle) : t.decayed.evidence[a] = 3 * t.evidence[a] / 4 :=
  mapVector_get (fun e => 3 * e / 4) t.evidence a

/-- A track fades exactly where it is not BOUND and holds no evidence. -/
theorem Track.faded_iff (t : Track) :
    t.faded = true ↔ (∀ b n, t.state ≠ .bound b n) ∧ ∀ a : Aisle, t.evidence[a] = 0 := by
  have h1 : t.isBound = false ↔ ∀ b n, t.state ≠ .bound b n := by
    unfold Track.isBound
    split
    · rename_i b n h; simp [h]
    · rename_i h; simpa using h
  have h2 : t.evidence.toList.all (· == 0) = true ↔ ∀ a : Aisle, t.evidence[a] = 0 := by
    simp only [List.all_eq_true, beq_iff_eq]
    constructor
    · intro h a
      exact h _ (by simp)
    · intro h x hx
      obtain ⟨i, hi, rfl⟩ := List.mem_iff_getElem.1 hx
      have := h ⟨i, by simpa using hi⟩
      simpa using this
  unfold Track.faded
  rw [Bool.and_eq_true, Bool.not_eq_true', h1, h2]

/-! ## Bounds of the track table -/

/-- The bounds of a list of tracks. -/
def TracksOk (l : List Track) : Prop :=
  l.length ≤ 256 ∧ risingKeys Track.key l = true
    ∧ ∀ t ∈ l, t.ident ≠ 0 ∧ ∀ a : Aisle, t.evidence[a] ≤ 4095

theorem TracksOk.map {l : List Track} {f : Track → Track}
    (hf : ∀ t, (f t).ident = t.ident ∧ ∀ a : Aisle, (f t).evidence[a] ≤ t.evidence[a])
    (h : TracksOk l) : TracksOk (l.map f) := by
  refine ⟨by simpa using h.1, risingKeys_map (fun x => (Track.key_iff _ _).2 (hf x).1) h.2.1, ?_⟩
  intro t ht
  obtain ⟨x, hx, rfl⟩ := List.mem_map.1 ht
  obtain ⟨h1, h2⟩ := h.2.2 x hx
  exact ⟨by rw [(hf x).1]; exact h1, fun a => ((hf x).2 a).trans (h2 a)⟩

theorem TracksOk.same {s t : State} (h : SameEvidence s t) (k : TracksOk s.tracking.tracks) :
    TracksOk t.tracking.tracks := by
  obtain ⟨-, f, hf, e⟩ := h
  rw [e]
  exact k.map fun x => ⟨(hf x).1, fun a => by rw [(hf x).2.1]⟩

theorem TracksOk.drop {l : List Track} (k : Nat) (h : TracksOk l) :
    TracksOk (dropKeyed Track.key k l) :=
  ⟨(List.length_filter_le ..).trans h.1, risingKeys_filter h.2.1,
    fun t ht => h.2.2 t (List.mem_of_mem_filter ht)⟩

theorem TracksOk.put {l : List Track} {x : Track} (hx : x.ident ≠ 0)
    (he : ∀ a : Aisle, x.evidence[a] ≤ 4095) (hl : l.length < 256 ∨ ∃ y ∈ l, y.ident = x.ident)
    (h : TracksOk l) : TracksOk (putKeyed Track.key x l) := by
  refine ⟨?_, risingKeys_putKeyed h.2.1, fun t ht => ?_⟩
  · rcases hl with hl | ⟨y, hy, e⟩
    · exact (length_putKeyed_le x l).trans hl
    · rw [length_putKeyed_of_mem h.2.1 ⟨y, hy, (Track.key_iff _ _).2 e⟩]; exact h.1
  · rcases mem_putKeyed ht with rfl | ht
    · exact ⟨hx, he⟩
    · exact h.2.2 t ht

theorem addEvidence_le {e : Vector Nat 8} (h : ∀ a : Aisle, e[a] ≤ 4095) (b : Aisle) (c : Nat)
    (a : Aisle) : (addEvidence e b c)[a] ≤ 4095 := by
  have := set_get e b a (min 4095 (e[b] + c))
  unfold addEvidence
  rw [this]
  split
  · exact Nat.min_le_left ..
  · exact h a

theorem hearTrack_tracksOk {t : Track} {a : Aisle} {c : Nat} {g : Bool} {s : State} (hi : t.ident ≠ 0)
    (he : ∀ b : Aisle, t.evidence[b] ≤ 4095)
    (hl : s.tracking.tracks.length < 256 ∨ ∃ y ∈ s.tracking.tracks, y.ident = t.ident)
    (h : TracksOk s.tracking.tracks) : TracksOk (hearTrack t a c g s).tracking.tracks := by
  have h1 : TracksOk (s.setTracks (putKeyed Track.key
      { t with evidence := addEvidence t.evidence a c, guard := g, lastSeen := s.clock.now }
      s.tracking.tracks)).tracking.tracks := by
    rw [setTracks_tracks]
    exact TracksOk.put hi (addEvidence_le he a c) hl h
  unfold hearTrack
  simp only []
  split
  · exact TracksOk.same (testOutcome_same ..) h1
  · exact h1

theorem freeTrack_tracksOk {s : State} (id : Ident) (h : TracksOk s.tracking.tracks) :
    TracksOk (freeTrack s id).tracking.tracks :=
  TracksOk.same (trackGone_same id _) (h.drop _)

theorem hearNew_tracksOk {s : State} {id : Ident} (hi : id ≠ 0) (a : Aisle) (c : Nat) (g : Bool)
    (h : TracksOk s.tracking.tracks) : TracksOk (hearNew id a c g s).tracking.tracks := by
  have hn : ∀ b : Aisle, (newTrack id g s.clock.now).evidence[b] ≤ 4095 := by
    intro b; simp [newTrack]
  have key : ∀ s1 : State, TracksOk s1.tracking.tracks →
      TracksOk (if s1.tracking.tracks.length < 256 then
        hearTrack (newTrack id g s.clock.now) a c g s1 else s1).tracking.tracks := by
    intro s1 h1
    split
    · rename_i hlt
      exact hearTrack_tracksOk hi hn (.inl hlt) h1
    · exact h1
  refine key _ ?_
  split
  · exact h
  · unfold evictTrack
    split
    · exact freeTrack_tracksOk _ h
    · exact h

theorem intakeRecord_tracksOk {s : State} (p : Pedestal) (r : SightingRecord)
    (h : TracksOk s.tracking.tracks) : TracksOk (intakeRecord p s r).tracking.tracks := by
  unfold intakeRecord
  split
  · exact h
  · rename_i hi
    split
    · exact h
    · split
      · exact h
      · split
        · exact h
        · unfold takeSighting
          split
          · rename_i t ht
            obtain ⟨m, e⟩ := track?_mem ht
            obtain ⟨h1, h2⟩ := h.2.2 t m
            exact hearTrack_tracksOk h1 h2 (.inr ⟨t, m, rfl⟩) h
          · exact hearNew_tracksOk hi _ _ _ h

end Sys2Proof.Machine
end

