-- ==== Sys2Proof/Laws/Verdicts.lean ====
section
/-! SUPPORT. What the verdict unit's operations do: giving a verdict, settling undecided items, forcing, and
what the track engine and the query unit hand to it. -/

namespace Sys2Proof.Machine

/-! ## Giving a verdict -/

/-- The verdicts of items none of which is of an identifier leave its track as it is. -/
theorem foldl_writeVerdict_ne {n : Word16} {i : Ident} {l : List ItemRecord} (h : ∀ r ∈ l, r.ident ≠ i)
    (s : State) : (l.foldl (writeVerdict n) s).track? i = s.track? i := by
  induction l generalizing s with
  | nil => rfl
  | cons r l ih =>
    refine (ih (fun x hx => h x (List.mem_cons_of_mem _ hx)) _).trans ?_
    unfold writeVerdict
    split
    · rfl
    · exact track?_modifyTrack_ne (Ne.symm (h r List.mem_cons_self)) (fun t => by split <;> [split <;> rfl; rfl])

theorem writeVerdict_track? (n : Word16) (s : State) (r : ItemRecord) (i : Ident) :
    (writeVerdict n s r).track? i = (s.track? i).map fun t =>
      match r.status, t.state with
      | .decided v b, .spent a m _ =>
        if i = r.ident ∧ m = n then { t with state := .spent a n (some (v, b)) } else t
      | _, _ => t := by
  unfold writeVerdict
  split
  · rename_i w hw
    cases s.track? i with
    | none => rfl
    | some t => simp only [Option.map_some, hw]
  · rename_i v b hv
    rw [track?_modifyTrack _ _ _ (fun t => by split <;> [split <;> rfl; rfl])]
    by_cases h : i = r.ident
    · subst h
      rw [if_pos rfl]
      congr 1
      funext t
      rw [hv]
      cases t.state with
      | spent a m w => by_cases hm : m = n <;> simp [hm]
      | _ => rfl
    · rw [if_neg h]
      cases s.track? i with
      | none => rfl
      | some t => simp [h]; split <;> rfl

/-- The verdicts of a passage leave a track that is not SPENT in it as it is. -/
theorem foldl_writeVerdict_other {n : Word16} {i : Ident} {x : Track} (hx : ∀ d v, x.state ≠ .spent d n v)
    (l : List ItemRecord) (s : State) (h : s.track? i = some x) :
    (l.foldl (writeVerdict n) s).track? i = some x := by
  induction l generalizing s with
  | nil => exact h
  | cons r l ih =>
    refine ih _ ?_
    rw [writeVerdict_track?, h]
    simp only [Option.map_some, Option.some.injEq]
    split
    · rename_i a m w _ hs
      rw [if_neg]
      rintro ⟨-, rfl⟩
      exact hx _ _ hs
    · rfl

/-- A track SPENT in a passage stays so while its verdicts are written. -/
theorem foldl_writeVerdict_spent {n : Word16} {i : Ident} (l : List ItemRecord) (s : State) {x : Track}
    {d : Aisle} {v : Option (Verdict × Basis)} (h : s.track? i = some x) (hs : x.state = .spent d n v) :
    ∃ w, (l.foldl (writeVerdict n) s).track? i = some { x with state := .spent d n w } := by
  induction l generalizing s x v with
  | nil => exact ⟨v, by rw [List.foldl_nil, h, ← hs]⟩
  | cons r l ih =>
    have h1 : ∃ w, (writeVerdict n s r).track? i = some { x with state := .spent d n w } := by
      rw [writeVerdict_track?, h]
      simp only [Option.map_some, hs]
      split
      · rename_i heq
        cases heq
        split
        · exact ⟨_, rfl⟩
        · exact ⟨v, by rw [← hs]⟩
      · exact ⟨v, by rw [← hs]⟩
    obtain ⟨w, h1⟩ := h1
    exact ih (x := { x with state := .spent d n w }) _ h1 rfl

/-- What a verdict makes of an annunciator depends on the clock, the settings and the annunciators only. -/
theorem handVerdict_congr {a : Aisle} {v : Verdict} {s t : State} (h1 : t.clock = s.clock)
    (h2 : t.site = s.site) (h3 : t.annunciators = s.annunciators) :
    (handVerdict a v t).annunciators = (handVerdict a v s).annunciators := by
  have he : t.durationEnd = s.durationEnd := by unfold State.durationEnd; rw [h1, h2]
  refine vector_ext fun b => ?_
  rw [handVerdict_get, handVerdict_get]
  have hal : ∀ x : Annunciator, x.alarm t = x.alarm s := fun x => by
    cases x <;> simp only [Annunciator.alarm, he, h1, h2]
  have hso : ∀ x : Annunciator, x.soft t = x.soft s := fun x => by
    cases x <;> simp only [Annunciator.soft, he]
  simp only [hal, hso, h3]

theorem giveVerdict_given (s : State) (j : Judging) : Given s j (giveVerdict s j) := by
  have ht : (giveVerdict s j).tracking = (j.items.foldl (writeVerdict j.number) s).tracking := by
    unfold giveVerdict
    refine ((createReport_only _ _ _).tracking (by decide)).trans ?_
    split
    · exact (handVerdict_only _ _ _).tracking (by decide)
    · rfl
  have htr : ∀ i, (giveVerdict s j).track? i = (j.items.foldl (writeVerdict j.number) s).track? i :=
    fun i => by unfold State.track?; rw [ht]
  have hw : Only [.tracking] s (j.items.foldl (writeVerdict j.number) s) :=
    Only.foldl (fun s r => writeVerdict_only j.number s r) _ _
  refine ⟨?_, ?_, ?_, ?_, ?_⟩
  · intro l r m v b x n d hj hm hr hx hs
    rw [htr, hj, List.foldl_append, List.foldl_cons, foldl_writeVerdict_ne hm]
    obtain ⟨w, h1⟩ := foldl_writeVerdict_spent l s hx hs
    rw [writeVerdict_track?, h1]
    simp [hr]
  · intro i x hx h
    rw [htr]
    rcases h with h | h
    · rw [foldl_writeVerdict_ne h, hx]
    · exact foldl_writeVerdict_other h _ _ hx
  · unfold giveVerdict
    refine ((createReport_only _ _ _).annunciators (by decide)).trans ?_
    split
    · exact handVerdict_congr (hw.clock (by decide)) (hw.site (by decide)) (hw.annunciators (by decide))
    · exact hw.annunciators (by decide)
  · unfold giveVerdict
    dsimp only
    refine createReport_congr ?_ ?_
    · split
      · exact ((handVerdict_only _ _ _).link (by decide)).trans (hw.link (by decide))
      · exact hw.link (by decide)
    · split
      · exact ((handVerdict_only _ _ _).clock (by decide)).trans (hw.clock (by decide))
      · exact hw.clock (by decide)
  · exact giveVerdict_only s j

/-! ## Settling -/

theorem writeVerdict_setJudging (n : Word16) (s : State) (v : List Judging) (r : ItemRecord) :
    writeVerdict n (s.setJudging v) r = (writeVerdict n s r).setJudging v := by
  unfold writeVerdict; split <;> rfl

theorem giveVerdict_setJudging (s : State) (v : List Judging) (j : Judging) :
    giveVerdict (s.setJudging v) j = (giveVerdict s j).setJudging v := by
  have h : j.items.foldl (writeVerdict j.number) (s.setJudging v)
      = (j.items.foldl (writeVerdict j.number) s).setJudging v := by
    generalize j.items = l
    induction l generalizing s with
    | nil => rfl
    | cons r l ih => rw [List.foldl_cons, writeVerdict_setJudging, ih]; rfl
  unfold giveVerdict
  simp only [h]
  change createReport _ _ (if s.effective j.aisle = .guard then _ else _) = _
  split
  · cases j.verdict <;> rfl
  · rfl

theorem foldl_giveVerdict_setJudging (l : List Judging) (s : State) (v : List Judging) :
    l.foldl giveVerdict (s.setJudging v) = (l.foldl giveVerdict s).setJudging v := by
  induction l generalizing s with
  | nil => rfl
  | cons j l ih => rw [List.foldl_cons, giveVerdict_setJudging, ih]; rfl

/-- Settling does its change to every judging passage and gives the verdicts that are ripe (R132, R139). -/
theorem settle_judged (f : Judging → Judging) (s : State) : Judged f s (settle f s) := by
  have h : settle f s = (((s.judging.map f).filter fun j => !j.undecided).foldl giveVerdict s).setJudging
      ((s.judging.map f).filter fun j => j.undecided) := foldl_giveVerdict_setJudging ..
  rw [h]
  exact ⟨rfl, _, rfl, rfl, rfl, rfl, rfl, rfl⟩

/-- The change need only agree on the passages in the queue. -/
theorem Judged.congr {f g : Judging → Judging} {b t : State} (h : Judged f b t)
    (he : ∀ j ∈ b.judging, g j = f j) : Judged g b t := by
  have : b.judging.map g = b.judging.map f := List.map_congr_left he
  exact ⟨by rw [this]; exact h.judging, by rw [this]; exact h.given⟩

/-- Two states in which verdicts are given alike. -/
def SameJudges (s t : State) : Prop :=
  t.tracking = s.tracking ∧ t.annunciators = s.annunciators ∧ t.link = s.link ∧ t.clock = s.clock
    ∧ t.site = s.site ∧ t.modes = s.modes

theorem writeVerdict_sameJudges {s t : State} (h : SameJudges s t) (n : Word16) (r : ItemRecord) :
    SameJudges (writeVerdict n s r) (writeVerdict n t r) := by
  obtain ⟨h1, h2, h3, h4, h5, h6⟩ := h
  unfold writeVerdict
  split
  · exact ⟨h1, h2, h3, h4, h5, h6⟩
  · refine ⟨?_, h2, h3, h4, h5, h6⟩
    simp only [State.modifyTrack, State.setTracks, h1]; rfl

theorem foldl_sameJudges {α : Type} {f : State → α → State}
    (hf : ∀ s t a, SameJudges s t → SameJudges (f s a) (f t a)) (l : List α) {s t : State}
    (h : SameJudges s t) : SameJudges (l.foldl f s) (l.foldl f t) := by
  induction l generalizing s t with
  | nil => exact h
  | cons a l ih => exact ih (hf _ _ a h)

theorem giveVerdict_sameJudges {s t : State} (h : SameJudges s t) (j : Judging) :
    SameJudges (giveVerdict s j) (giveVerdict t j) := by
  have h1 : SameJudges (j.items.foldl (writeVerdict j.number) s) (j.items.foldl (writeVerdict j.number) t) :=
    foldl_sameJudges (fun _ _ r h => writeVerdict_sameJudges h j.number r) _ h
  obtain ⟨-, -, -, hc, -, hm⟩ := h
  have he : t.effective j.aisle = s.effective j.aisle := by unfold State.effective; rw [hm]
  have h2 : SameJudges
      (if s.effective j.aisle = .guard then handVerdict j.aisle j.verdict (j.items.foldl (writeVerdict j.number) s)
        else j.items.foldl (writeVerdict j.number) s)
      (if s.effective j.aisle = .guard then handVerdict j.aisle j.verdict (j.items.foldl (writeVerdict j.number) t)
        else j.items.foldl (writeVerdict j.number) t) := by
    split
    · have f1 := handVerdict_only j.aisle j.verdict (j.items.foldl (writeVerdict j.number) s)
      have f2 := handVerdict_only j.aisle j.verdict (j.items.foldl (writeVerdict j.number) t)
      obtain ⟨g1, g2, g3, g4, g5, g6⟩ := h1
      refine ⟨?_, handVerdict_congr g4 g5 g2, ?_, ?_, ?_, ?_⟩
      · rw [f1.tracking (by decide), f2.tracking (by decide), g1]
      · rw [f1.link (by decide), f2.link (by decide), g3]
      · rw [f1.clock (by decide), f2.clock (by decide), g4]
      · rw [f1.site (by decide), f2.site (by decide), g5]
      · rw [f1.modes (by decide), f2.modes (by decide), g6]
    · exact h1
  unfold giveVerdict
  simp only [he, hc]
  obtain ⟨g1, g2, g3, g4, g5, g6⟩ := h2
  exact ⟨g1, g2, createReport_congr g3 g4, g4, g5, g6⟩

/-- Settling may be told from another state in which verdicts are given alike, and to another in which the
tracks, the annunciators and the report queue are the same. -/
theorem Judged.transfer {f : Judging → Judging} {b b' t t' : State} (h : Judged f b t)
    (hb : SameJudges b b') (hj : b'.judging = b.judging) (h1 : t'.judging = t.judging)
    (h2 : t'.tracking = t.tracking) (h3 : t'.annunciators = t.annunciators)
    (h4 : t'.link.urgent = t.link.urgent) (h5 : t'.link.routine = t.link.routine)
    (h6 : t'.link.nextReport = t.link.nextReport) : Judged f b' t' := by
  obtain ⟨g, hg, k1, k2, k3, k4, k5⟩ := h.given
  have hs := foldl_sameJudges (fun _ _ j h => giveVerdict_sameJudges h j)
    ((b.judging.map f).filter fun j => !j.undecided) hb
  rw [← hg] at hs
  obtain ⟨e1, e2, e3, -, -, -⟩ := hs
  refine ⟨by rw [h1, hj]; exact h.judging, _, rfl, ?_, ?_, ?_, ?_, ?_⟩
  · rw [h2, hj, e1]; exact k1
  · rw [h3, hj, e2]; exact k2
  · rw [h4, hj, e3]; exact k3
  · rw [h5, hj, e3]; exact k4
  · rw [h6, hj, e3]; exact k5

theorem change_mapUndecided {j : Judging} {p q : ItemRecord → Bool} {f g : ItemRecord → ItemRecord}
    (h : ∀ r ∈ j.items, (if r.undecided && p r then f r else r) = if q r then g r else r) :
    j.mapUndecided p f = j.change q g := by
  unfold Judging.mapUndecided Judging.change
  rw [List.map_congr_left h]

theorem undecided_of_waiting {r : ItemRecord} {w : Wait} (h : r.status = .waiting w) : r.undecided = true := by
  simp [ItemRecord.undecided, h]

theorem onGuard_byFallback (r : ItemRecord) : byFallback r.guard .fallback = onGuard r .soft .fallback := rfl

theorem atGrace_eq (r : ItemRecord) (g : SegmentState) :
    graceStatus r.guard g = atGrace r (g == .fresh) := by cases g <;> rfl

theorem forced_eq (j : Judging) : j.forced = forcedOut j := by
  unfold Judging.forced forcedOut
  rw [change_mapUndecided (q := fun r => r.undecided) (g := fun r => { r with status := onGuard r .soft .fallback })
    (fun r _ => by simp [onGuard_byFallback])]

theorem graceExpires_eq (s : State) (j : Judging) : j.graceExpires s = graceRunOut s j := by
  unfold Judging.graceExpires graceRunOut
  rw [change_mapUndecided (q := fun r => r.status == .waiting .grace)
    (g := fun r => { r with status := atGrace r (s.segments[segmentOf r.ident].state == .fresh) })]
  intro r _
  by_cases h : r.status = .waiting .grace
  · simp [h, undecided_of_waiting h, State.segment, atGrace_eq]
  · simp [h]

theorem handLapse_eq (id : Ident) (j : Judging) :
    j.mapUndecided (fun r => r.ident == id && r.status == .waiting .answer)
      (fun r => { r with status := byFallback r.guard .fallback }) = lapsed id j := by
  refine change_mapUndecided fun r _ => ?_
  by_cases h : r.status = .waiting .answer
  · simp [h, undecided_of_waiting h, onGuard_byFallback]
  · simp [h]

theorem handLapse_judged (id : Ident) (s : State) : Judged (lapsed id) s (handLapse id s) :=
  (settle_judged _ s).congr fun j _ => (handLapse_eq id j).symm

theorem byClass_eq (s : State) (j : Judging) (r : ItemRecord) (c : EntryClass) :
    (if c = .pending then j.pendingStatus s r else entryStatus c)
      = byClass j r (s.segments[segmentOf r.ident].state == .fresh) .table c := by
  cases c
  all_goals first | rfl | skip
  simp only [if_true, Judging.pendingStatus, byClass, atGrace_eq]; rfl

theorem handAnswer_judged (id : Ident) (a : HostAnswer) (s : State) :
    Judged (answered id a (s.segments[segmentOf id].state == .fresh)) s (handAnswer id a s) := by
  refine (settle_judged _ s).congr fun j _ => Eq.symm (change_mapUndecided fun r _ => ?_)
  by_cases h : r.ident = id ∧ r.status = .waiting .answer
  · obtain ⟨h1, h2⟩ := h
    simp only [h1, h2, undecided_of_waiting h2, beq_self_eq_true, Bool.and_self, if_true, answerItem]
    congr 1
    cases a with
    | noException => rfl
    | entry c =>
      cases c
      all_goals first | rfl | skip
      simp only [if_true, Judging.pendingStatus, byClass, atGrace_eq, State.segment, h1]
  · rw [if_neg, if_neg] <;> simp only [Bool.and_eq_true, beq_iff_eq] <;> tauto

theorem watchChange_eq (s : State) (id : Ident) (e : Option Entry) (j : Judging) :
    watchChange s id e j = reevaluated id e (s.segments[segmentOf id].state == .fresh) j := by
  refine change_mapUndecided fun r _ => ?_
  by_cases h : r.undecided = true ∧ r.ident = id
  · obtain ⟨h1, h2⟩ := h
    subst h2
    simp only [h1, beq_self_eq_true, Bool.and_self, if_true, reevaluate]
    cases e with
    | none =>
      by_cases hf : s.segments[segmentOf r.ident].state = .fresh
      · have h2 : (s.segments[segmentOf r.ident].state == .fresh) = true := by rw [hf]; rfl
        exact (if_pos hf).trans (if_pos h2).symm
      · have h2 : ¬ (s.segments[segmentOf r.ident].state == .fresh) = true := by simpa using hf
        exact (if_neg hf).trans (if_neg h2).symm
    | some x => simp only [byClass_eq]
  · rw [if_neg, if_neg] <;> simp only [Bool.and_eq_true, beq_iff_eq] <;> tauto

theorem forward_judged (id : Ident) (e : Option Entry) (s : State) :
    Judged (reevaluated id e (s.segments[segmentOf id].state == .fresh)) s (forward id e s) :=
  (settle_judged _ s).congr fun j _ => (watchChange_eq s id e j).symm

theorem swapLookup_judged (i : Fin 64) (s : State) (hf : s.segments[i].state = .fresh) :
    Judged (relookedUp i s.segments[i].entries) s (swapLookup i s) := by
  refine (settle_judged _ s).congr fun j _ => Eq.symm (change_mapUndecided fun r _ => ?_)
  by_cases h : r.undecided = true ∧ segmentOf r.ident = i
  · obtain ⟨h1, h2⟩ := h
    subst h2
    simp only [h1, beq_self_eq_true, Bool.and_self, if_true, relookup, State.lookup, State.lookupDesk,
      State.entry?, State.segment]
    cases hx : s.segments[segmentOf r.ident].entries.find? fun x => x.ident == r.ident with
    | none => simp only [hf, if_true, Option.bind_none]; rfl
    | some x =>
      simp only [Option.bind_some]
      congr 1
      rcases x with ⟨xi, xc, xe, xd⟩
      cases xc
      all_goals first | rfl | skip
      simp only [Judging.pendingStatus, byClass, atGrace_eq, State.segment, hf]; rfl
  · rw [if_neg, if_neg] <;> simp only [Bool.and_eq_true, beq_iff_eq] <;> tauto

/-! ## Tracks that go -/

theorem freeTrack_freed (s : State) (id : Ident) : Freed s id (freeTrack s id) := by
  have hd := track?_dropKeyed s id
  refine ⟨⟨(s.setTracks (dropKeyed Track.key id.toNat s.tracking.tracks)).setQueryList
      (withoutQuery id s.queries.list), ?_, ?_, rfl, ?_, ?_, ?_⟩⟩
  · exact (hd id).trans (if_pos rfl)
  · exact fun i hi => (hd i).trans (if_neg hi)
  · exact (Only.mono (setTracks_only s _) (by decide)).trans (Only.mono (setQueryList_only _ _) (by decide))
  · intro h
    have hq : s.queried id = false := by
      unfold State.queried; rw [List.any_eq_false]; intro q hq; simpa using h q hq
    have hw : withoutQuery id s.queries.list = s.queries.list := by
      unfold withoutQuery; rw [List.filter_eq_self]; intro q hq; simpa using h q hq
    unfold freeTrack trackGone
    change (if s.queried id = true then _ else _) = _
    rw [hq, hw]; rfl
  · rintro ⟨q, hq, hi⟩
    have hq' : s.queried id = true := by
      unfold State.queried; rw [List.any_eq_true]; exact ⟨q, hq, by simpa using hi⟩
    have he : freeTrack s id = handLapse id ((s.setTracks (dropKeyed Track.key id.toNat
        s.tracking.tracks)).setQueryList (withoutQuery id s.queries.list)) := by
      unfold freeTrack trackGone
      change (if s.queried id = true then _ else _) = _
      rw [hq']; rfl
    rw [he]
    exact ⟨handLapse_judged _ _, settle_replies _ _, (handLapse_only _ _).mono (by decide)⟩

end Sys2Proof.Machine
end

