-- ==== Sys2Proof/Laws/Sightings.lean ====
section
/-! SUPPORT. What a sighting does: making a query, binding, the attribution of a track, and the orders of
eviction and of binding. -/

namespace Sys2Proof.Machine

/-! ## Query numbers -/

theorem nextQueryNumber_iterate (k : Byte) (n : Nat) (h : k ≠ 0) :
    nextQueryNumber^[n] k = BitVec.ofNat 8 ((k.toNat - 1 + n) % 255 + 1) := by
  induction n generalizing k with
  | zero =>
    have := k.isLt
    have h0 : k.toNat ≠ 0 := fun e => h (by apply BitVec.eq_of_toNat_eq; simpa using e)
    apply BitVec.eq_of_toNat_eq
    simp only [Function.iterate_zero, id, BitVec.toNat_ofNat]
    omega
  | succ n ih =>
    have hk := k.isLt
    have h0 : k.toNat ≠ 0 := fun e => h (by apply BitVec.eq_of_toNat_eq; simpa using e)
    rw [Function.iterate_succ_apply, ih]
    · unfold nextQueryNumber
      split
      · rename_i h255
        subst h255
        apply BitVec.eq_of_toNat_eq
        simp only [BitVec.toNat_ofNat]
        have : (255 : Byte).toNat = 255 := rfl
        have : (1 : Byte).toNat = 1 := rfl
        omega
      · rename_i h255
        have : k.toNat ≠ 255 := fun e => h255 (by apply BitVec.eq_of_toNat_eq; simpa using e)
        have hk1 : (k + 1).toNat = k.toNat + 1 := by rw [BitVec.toNat_add]; simp; omega
        apply BitVec.eq_of_toNat_eq
        simp only [BitVec.toNat_ofNat, hk1]
        omega
    · intro e
      unfold nextQueryNumber at e
      split at e
      · exact absurd e (by decide)
      · rename_i h255
        have : k.toNat ≠ 255 := fun e => h255 (by apply BitVec.eq_of_toNat_eq; simpa using e)
        have hk1 : (k + 1).toNat = k.toNat + 1 := by rw [BitVec.toNat_add]; simp; omega
        rw [e] at hk1
        simp at hk1

/-- The first 255 numbers from a counter on are different. -/
theorem nextQueryNumber_inj {k : Byte} {m n : Nat} (hm : m < 255) (hn : n < 255)
    (h : nextQueryNumber^[m] k = nextQueryNumber^[n] k) : m = n := by
  by_cases h0 : k = 0
  · subst h0
    have e : ∀ j, nextQueryNumber^[j + 1] (0 : Byte) = nextQueryNumber^[j] (1 : Byte) := fun j => by
      rw [Function.iterate_succ_apply]; rfl
    have ne : ∀ j, nextQueryNumber^[j] (1 : Byte) ≠ 0 := fun j => by
      rw [nextQueryNumber_iterate _ _ (by decide)]
      intro c
      have := congrArg BitVec.toNat c
      simp only [BitVec.toNat_ofNat] at this
      have h0 : (0 : Byte).toNat = 0 := rfl
      omega
    cases m with
    | zero =>
      cases n with
      | zero => rfl
      | succ n => rw [e] at h; exact absurd h.symm (ne n)
    | succ m =>
      cases n with
      | zero => rw [e] at h; exact absurd h (ne m)
      | succ n =>
        rw [e, e, nextQueryNumber_iterate _ _ (by decide), nextQueryNumber_iterate _ _ (by decide)] at h
        have := congrArg BitVec.toNat h
        simp only [BitVec.toNat_ofNat] at this
        have h1 : (1 : Byte).toNat = 1 := rfl
        omega
  · rw [nextQueryNumber_iterate _ _ h0, nextQueryNumber_iterate _ _ h0] at h
    have := congrArg BitVec.toNat h
    simp only [BitVec.toNat_ofNat] at this
    omega

theorem freeNumber_spec (qs : List Query) (f : Nat) (k : Byte) :
    ∃ n ≤ f, freeNumber qs f k = nextQueryNumber^[n] k
      ∧ (∀ i < n, ∃ x ∈ qs, x.number = nextQueryNumber^[i] k)
      ∧ (n < f → ∀ x ∈ qs, x.number ≠ nextQueryNumber^[n] k) := by
  induction f generalizing k with
  | zero => exact ⟨0, le_rfl, rfl, fun _ h => absurd h (by omega), fun h => absurd h (by omega)⟩
  | succ f ih =>
    unfold freeNumber
    by_cases h : qs.any (fun q => q.number == k) = true
    · rw [if_pos h]
      obtain ⟨n, h1, h2, h3, h4⟩ := ih (nextQueryNumber k)
      refine ⟨n + 1, by omega, h2, fun i hi => ?_, fun hn => h4 (by omega)⟩
      cases i with
      | zero =>
        obtain ⟨q, hq, e⟩ := List.any_eq_true.1 h
        exact ⟨q, hq, by simpa using e⟩
      | succ i => exact h3 i (by omega)
    · rw [if_neg h]
      refine ⟨0, by omega, rfl, fun _ h => absurd h (by omega), fun _ x hx e => h ?_⟩
      exact List.any_eq_true.2 ⟨x, hx, by simpa using e⟩

/-- With fewer than 16 queries outstanding the search of R115 finds the first free number. -/
theorem freeNumber_firstFree {q : QueryUnit} (h : q.list.length < 16) :
    FirstFree q (freeNumber q.list 255 q.next) := by
  obtain ⟨n, h1, h2, h3, h4⟩ := freeNumber_spec q.list 255 q.next
  refine ⟨n, h2, ?_, h3⟩
  rw [h2]
  refine h4 ?_
  by_contra hn
  have hinj : Function.Injective fun i : Fin 16 => nextQueryNumber^[i.val] q.next := fun i j e =>
    Fin.ext (nextQueryNumber_inj (by omega) (by omega) e)
  have hsub : (Finset.univ.image fun i : Fin 16 => nextQueryNumber^[i.val] q.next)
      ⊆ (q.list.map (·.number)).toFinset := by
    intro b hb
    obtain ⟨i, -, rfl⟩ := Finset.mem_image.1 hb
    obtain ⟨x, hx, e⟩ := h3 i.val (by omega)
    exact List.mem_toFinset.2 (List.mem_map.2 ⟨x, hx, e⟩)
  have h5 := Finset.card_le_card hsub
  rw [Finset.card_image_of_injective _ hinj, Finset.card_univ, Fintype.card_fin] at h5
  have h6 := (q.list.map (·.number)).toFinset_card_le
  rw [List.length_map] at h6
  omega

/-! ## Binding a newly attributed track -/

theorem changeFirst_append {p : Passage → Bool} {f : Passage → Passage} {l m : List Passage} {q : Passage}
    (hl : ∀ y ∈ l, p y = false) (hq : p q = true) :
    changeFirst p f (l ++ q :: m) = l ++ f q :: m := by
  induction l with
  | nil => simp [changeFirst, hq]
  | cons y l ih =>
    have := hl y List.mem_cons_self
    simp [changeFirst, this, ih fun z hz => hl z (List.mem_cons_of_mem _ hz)]

theorem hasRoom_false {q : Passage} : q.hasRoom = false ↔ 10 ≤ q.items.length := by
  simp [Passage.hasRoom]

theorem bindAttributed_room {id : Ident} {b : Aisle} {s : State} {l m : List Passage} {q : Passage}
    (h : s.opens b = l ++ q :: m) (hl : ∀ y ∈ l, 10 ≤ y.items.length) (hq : q.items.length < 10) :
    bindAttributed id b s = (s.setOpens b (l ++ { q with items := q.items ++ [id] } :: m)).modifyTrack id
      (Track.bind b q.number) := by
  have hr : q.hasRoom = true := by simpa [Passage.hasRoom] using hq
  have hl' : ∀ y ∈ l, y.hasRoom = false := fun y hy => hasRoom_false.2 (hl y hy)
  have hf : (s.opens b).find? Passage.hasRoom = some q := by
    rw [h, List.find?_append, List.find?_eq_none.2 (fun y hy => by simp [hl' y hy])]
    simp [hr]
  unfold bindAttributed
  rw [hf]
  simp only [h, changeFirst_append hl' hr]

theorem bindAttributed_full {id : Ident} {b : Aisle} {s : State} (h : ∀ q ∈ s.opens b, 10 ≤ q.items.length) :
    bindAttributed id b s = s.setOpens b (match s.opens b with
      | [] => []
      | q :: m => { q with flags := { q.flags with full := true } } :: m) := by
  have hf : (s.opens b).find? Passage.hasRoom = none :=
    List.find?_eq_none.2 fun y hy => by simp [hasRoom_false.2 (h y hy)]
  unfold bindAttributed
  rw [hf]
  cases s.opens b <;> rfl

/-! ## Making a query -/

theorem queryDue_iff {s : State} {x y : Track} {id : Ident} {b : Aisle} {t : State} (hi : x.ident = id)
    (ht : t.track? id = some y) (ha : y.answer = x.answer) (hm : y.mark = x.mark)
    (h : Only [.tracking, .passages] s t) : t.queryDue id b = true ↔ s.asks x b := by
  subst hi
  have hq : t.queried x.ident = s.queried x.ident := h.queried (by decide) _
  have hl : t.lookup x.ident = s.lookup x.ident := h.lookup (by decide) _
  have hmo : t.modes = s.modes := h.modes (by decide)
  unfold State.queryDue State.asks
  rw [ht, hq, hl, hmo]
  simp only [Bool.and_eq_true, bne_iff_ne, ne_eq, Option.isNone_iff_eq_none, beq_iff_eq, ha, hm,
    Bool.not_eq_true', and_assoc]
  refine and_congr_right fun _ => and_congr_right fun _ => and_congr_right fun _ => ?_
  refine and_congr ?_ ?_
  · unfold State.queried
    rw [List.any_eq_false]
    simp only [beq_iff_eq]
  · unfold State.lookup
    cases s.entry? x.ident with
    | some e => simp
    | none =>
      by_cases hs : (s.segment x.ident).state = .fresh
      · refine iff_of_false (fun c => ?_) (fun c => c.2 hs)
        simp [hs] at c
      · refine iff_of_true ?_ ⟨rfl, hs⟩
        simp [hs]

/-! ## Attribution -/

theorem modifyTrack_opens (s : State) (id : Ident) (f : Track → Track) (a : Aisle) :
    (s.modifyTrack id f).opens a = s.opens a := rfl

/-- What binding a newly attributed track does: to the track, the open passages and everything else. -/
theorem bindAttributed_spec {id : Ident} {b : Aisle} {s : State} {y : Track} (hy : s.track? id = some y) :
    (∃ st, (bindAttributed id b s).track? id = some { y with state := st }
      ∧ (∀ l q m, s.opens b = l ++ q :: m → (∀ z ∈ l, 10 ≤ z.items.length) → q.items.length < 10 →
          st = .bound b q.number
            ∧ (bindAttributed id b s).opens b = l ++ { q with items := q.items ++ [id] } :: m)
      ∧ ((∀ q ∈ s.opens b, 10 ≤ q.items.length) →
          st = y.state ∧ (bindAttributed id b s).opens b = match s.opens b with
            | [] => []
            | q :: m => { q with flags := { q.flags with full := true } } :: m))
    ∧ (∀ i, i ≠ id → (bindAttributed id b s).track? i = s.track? i)
    ∧ (bindAttributed id b s).passages.next = s.passages.next
    ∧ (bindAttributed id b s).passages.aisles[b].crowded = s.passages.aisles[b].crowded
    ∧ (∀ a : Aisle, a ≠ b → (bindAttributed id b s).passages.aisles[a] = s.passages.aisles[a]) := by
  by_cases h : ∀ q ∈ s.opens b, 10 ≤ q.items.length
  · rw [bindAttributed_full h]
    refine ⟨⟨y.state, hy, ?_, fun _ => ⟨rfl, setOpens_self ..⟩⟩, fun _ _ => rfl, rfl, setOpens_crowded ..,
      fun a ha => setOpens_ne s _ ha⟩
    intro l q m e _ hq
    have := h q (by rw [e]; simp)
    omega
  · push Not at h
    obtain ⟨q0, hq0, hlt⟩ := h
    have hsome : ((s.opens b).find? Passage.hasRoom).isSome = true := by
      rw [List.find?_isSome]; exact ⟨q0, hq0, by simpa [Passage.hasRoom] using hlt⟩
    obtain ⟨q, hq⟩ := Option.isSome_iff_exists.1 hsome
    obtain ⟨hr, l, m, e, hl⟩ := List.find?_eq_some_iff_append.1 hq
    have hl' : ∀ z ∈ l, 10 ≤ z.items.length := fun z hz => hasRoom_false.1 (by simpa using hl z hz)
    have hr' : q.items.length < 10 := by simpa [Passage.hasRoom] using hr
    rw [bindAttributed_room e hl' hr']
    refine ⟨⟨.bound b q.number, track?_modifyTrack_self (by exact hy) (fun _ => rfl), ?_, ?_⟩, fun i hi => ?_,
      rfl, setOpens_crowded .., fun a ha => setOpens_ne s _ ha⟩
    · intro l' q' m' e' hl2 hq2
      have hf : (s.opens b).find? Passage.hasRoom = some q' := by
        rw [e', List.find?_append, List.find?_eq_none.2
          (fun z hz => by simp [hasRoom_false.2 (hl2 z hz)])]
        simp [Passage.hasRoom, hq2]
      have hqq : q' = q := by rw [hq] at hf; exact (Option.some.inj hf).symm
      refine ⟨by rw [hqq], ?_⟩
      rw [← bindAttributed_room e hl' hr', bindAttributed_room e' hl2 hq2]
      exact setOpens_self ..
    · intro hall
      have := hall q (by rw [e]; simp)
      omega
    · exact track?_modifyTrack_ne hi (fun _ => rfl)

/-- The three ways an attribution event can go for the query unit (R116, R117). -/
theorem makeQuery_cases (id : Ident) (b : Aisle) (s : State) :
    (s.queryDue id b = true ∧ s.queries.list.length < 16 ∧ makeQuery id b s =
        (s.setQueries (QueryUnit.create s id b)).modifyTrack id fun t => { t with mark := .asked })
    ∨ (s.queryDue id b = true ∧ 16 ≤ s.queries.list.length ∧ makeQuery id b s =
        s.modifyTrack id fun t => { t with mark := .noQuery })
    ∨ (s.queryDue id b = false ∧ makeQuery id b s = s) := by
  unfold makeQuery
  by_cases h : s.queryDue id b = true
  · by_cases hl : s.queries.list.length < 16
    · exact .inl ⟨h, hl, by rw [if_pos h, if_pos hl]⟩
    · exact .inr (.inl ⟨h, by omega, by rw [if_pos h, if_neg hl]⟩)
  · exact .inr (.inr ⟨by simpa using h, if_neg h⟩)

/-- A track that becomes attributed (R47, R48): what it is afterwards, and what the passage tracker and the
query unit make of the event. -/
theorem attributeTrack_spec {s s' : State} {x y : Track} (b : Aisle) (hs : Only [.tracking] s s')
    (hy : s'.track? x.ident = some y) (ha : y.answer = x.answer) (hm : y.mark = x.mark) :
    (∃ st mk, (attributeTrack x.ident b s').track? x.ident = some { y with state := st, mark := mk }
      ∧ Attributed s x b { y with state := st, mark := mk } (attributeTrack x.ident b s'))
    ∧ ∀ i, i ≠ x.ident → (attributeTrack x.ident b s').track? i = s'.track? i := by
  have hnow : s'.clock = s.clock := hs.clock (by decide)
  have hp : s'.passages = s.passages := hs.passages (by decide)
  have hq : s'.queries = s.queries := hs.queries (by decide)
  let s1 := s'.modifyTrack x.ident fun t => { t with state := .attributed b s'.clock.now }
  have h1 : s1.track? x.ident = some { y with state := .attributed b s'.clock.now } :=
    track?_modifyTrack_self hy (fun _ => rfl)
  have h1o : ∀ i, i ≠ x.ident → s1.track? i = s'.track? i := fun i hi =>
    track?_modifyTrack_ne hi (fun _ => rfl)
  have e1 : s1.opens b = s.opens b := by
    change s'.opens b = s.opens b; exact hs.opens (by decide) b
  obtain ⟨⟨st, h2, hroom, hfull⟩, h2o, h2n, h2c, h2a⟩ := bindAttributed_spec (b := b) h1
  let s2 := bindAttributed x.ident b s1
  have f2 : Only [.tracking, .passages] s s2 :=
    (hs.mono (by decide)).trans (((modifyTrack_only s' _ _).mono (by decide)).trans
      ((bindAttributed_only x.ident b s1).mono (by decide)))
  have hdue : s2.queryDue x.ident b = true ↔ s.asks x b := queryDue_iff rfl h2 ha hm f2
  have hq2 : s2.queries = s.queries := f2.queries (by decide)
  have hu : attributeTrack x.ident b s' = makeQuery x.ident b s2 := rfl
  have hmq := makeQuery_only x.ident b s2
  have hup : (attributeTrack x.ident b s').passages = s2.passages := hmq.passages (by decide)
  have key : ∃ mk, (attributeTrack x.ident b s').track? x.ident = some { y with state := st, mark := mk }
      ∧ (∀ i, i ≠ x.ident → (attributeTrack x.ident b s').track? i = s2.track? i)
      ∧ (s.asks x b → s.queries.list.length < 16 → mk = .asked
          ∧ (attributeTrack x.ident b s').queries = QueryUnit.create s2 x.ident b)
      ∧ (s.asks x b → 16 ≤ s.queries.list.length → mk = .noQuery
          ∧ (attributeTrack x.ident b s').queries = s.queries)
      ∧ (¬ s.asks x b → mk = x.mark ∧ (attributeTrack x.ident b s').queries = s.queries) := by
    rw [hu]
    rcases makeQuery_cases x.ident b s2 with ⟨d, l, e⟩ | ⟨d, l, e⟩ | ⟨d, e⟩ <;> rw [e]
    · refine ⟨.asked, track?_modifyTrack_self h2 (fun _ => rfl),
        fun i hi => track?_modifyTrack_ne hi (fun _ => rfl), fun _ _ => ⟨rfl, rfl⟩, fun _ hl => ?_,
        fun hn => absurd (hdue.1 d) hn⟩
      rw [hq2] at l; omega
    · refine ⟨.noQuery, track?_modifyTrack_self h2 (fun _ => rfl),
        fun i hi => track?_modifyTrack_ne hi (fun _ => rfl), fun _ hl => ?_, fun _ _ => ⟨rfl, hq2⟩,
        fun hn => absurd (hdue.1 d) hn⟩
      rw [hq2] at l; omega
    · have hn : ¬ s.asks x b := fun h => by rw [hdue.2 h] at d; cases d
      exact ⟨x.mark, by rw [h2, ← hm], fun i _ => rfl, fun h => absurd h hn, fun h => absurd h hn,
        fun _ => ⟨rfl, hq2⟩⟩
  obtain ⟨mk, k1, k2, k3, k4, k5⟩ := key
  refine ⟨⟨st, mk, k1, ?_⟩, fun i hi => (k2 i hi).trans ((h2o i hi).trans (h1o i hi))⟩
  have hop : ∀ a, (attributeTrack x.ident b s').opens a = s2.opens a := fun a => by
    unfold State.opens; rw [hup]
  refine ⟨fun l q m e hl hlt => ?_, fun hl => ?_, ⟨?_, ?_, fun a hab => ?_⟩, fun hask hlt => ?_, ?_, ?_⟩
  · rw [hop]; exact hroom l q m (e1.trans e) hl hlt
  · obtain ⟨g1, g2⟩ := hfull (by rw [e1]; exact hl)
    refine ⟨g1.trans (by rw [hnow]), ?_⟩
    rw [hop, ← e1]; exact g2
  · rw [hup]; exact h2n.trans (congrArg (·.next) hp)
  · rw [hup]; exact h2c.trans (congrArg (fun v : PassageTracker => v.aisles[b].crowded) hp)
  · rw [hup]; exact (h2a a hab).trans (congrArg (fun v : PassageTracker => v.aisles[a]) hp)
  · obtain ⟨g1, g2⟩ := k3 hask hlt
    refine ⟨g1, _, freeNumber_firstFree hlt, g2.trans ?_⟩
    have hc : s2.clock = s.clock := f2.clock (by decide)
    have hsi : s2.site = s.site := f2.site (by decide)
    have hse : s2.segments = s.segments := f2.segments (by decide)
    unfold QueryUnit.create State.segment nextQueryNumber
    rw [hq2, hc, hsi, hse]
  · exact k4
  · exact k5

/-- A sighting taken by a track (R36). -/
theorem hearTrack_heard (s : State) (x : Track) (a : Aisle) (c : Nat) (g : Bool) :
    Heard s x a c g (hearTrack x a c g s) := by
  let y : Track := { x with evidence := addEvidence x.evidence a c, guard := g, lastSeen := s.clock.now }
  let s1 := s.setTracks (putKeyed Track.key y s.tracking.tracks)
  have hput : ∀ i, s1.track? i = if x.ident = i then some y else s.track? i := fun i =>
    find_putKeyed (f := Track.ident) Track.key_iff y s.tracking.tracks i
  have hy : s1.track? x.ident = some y := (hput _).trans (if_pos rfl)
  have ho : ∀ i, i ≠ x.ident → s1.track? i = s.track? i := fun i hi => (hput i).trans (if_neg (Ne.symm hi))
  have hev : ∀ b : Aisle, y.evidence[b] = if b = a then min 4095 (x.evidence[a] + c) else x.evidence[b] := by
    intro b
    refine (set_get x.evidence a b (min 4095 (x.evidence[a] + c))).trans ?_
    by_cases hab : a = b
    · subst hab; rw [if_pos rfl]
    · rw [if_neg hab, if_neg (Ne.symm hab)]
  have he : hearTrack x a c g s = match attributionTest s.site.threshold s.site.margin y.evidence with
      | some b => testOutcome x.ident b x.state s1
      | none => s1 := rfl
  -- the track stays in its state
  have stay : hearTrack x a c g s = s1 →
      (∀ b, attributionTest s.site.threshold s.site.margin y.evidence = some b →
        ¬ (x.state = .forming ∨ ∃ d n, x.state = .attributed d n ∧ d ≠ b)) →
      Heard s x a c g (hearTrack x a c g s) := by
    intro e hno
    refine ⟨?_, ?_, (hearTrack_only ..).mono (by decide)⟩
    · rw [e]
      exact ⟨y, hy, hev, rfl, rfl, rfl, rfl, fun _ => ⟨rfl, rfl, rfl, rfl⟩, fun b hb h => absurd h (hno b hb)⟩
    · rw [e]; exact ho
  have move : ∀ b, attributionTest s.site.threshold s.site.margin y.evidence = some b →
      hearTrack x a c g s = attributeTrack x.ident b s1 →
      (x.state = .forming ∨ ∃ d n, x.state = .attributed d n ∧ d ≠ b) →
      Heard s x a c g (hearTrack x a c g s) := by
    intro b hb e hmv
    obtain ⟨⟨st, mk, h1, h2⟩, h3⟩ := attributeTrack_spec (s := s) (s' := s1) (x := x) (y := y) b
      (setTracks_only s _) hy rfl rfl
    refine ⟨?_, ?_, (hearTrack_only ..).mono (by decide)⟩
    · rw [e]
      refine ⟨_, h1, hev, rfl, rfl, rfl, rfl, ?_, fun b' hb' _ => ?_⟩
      · rintro (h | ⟨b', n, h⟩ | ⟨b', n, v, h⟩ | ⟨b', n, h, h'⟩)
        · change attributionTest _ _ y.evidence = none at h
          rw [hb] at h; cases h
        · rcases hmv with hf | ⟨d, m, hf, -⟩ <;> rw [h] at hf <;> cases hf
        · rcases hmv with hf | ⟨d, m, hf, -⟩ <;> rw [h] at hf <;> cases hf
        · change attributionTest _ _ y.evidence = _ at h'
          rw [hb] at h'
          rcases hmv with hf | ⟨d, m, hf, hne⟩ <;> rw [h] at hf <;> cases hf
          exact absurd (Option.some.inj h').symm hne
      · change attributionTest _ _ y.evidence = _ at hb'
        rw [hb] at hb'
        cases hb'
        exact h2
    · rw [e]; exact fun i hi => (h3 i hi).trans (ho i hi)
  cases ht : attributionTest s.site.threshold s.site.margin y.evidence with
  | none => exact stay (by rw [he, ht]) (fun b hb => by rw [ht] at hb; cases hb)
  | some b =>
    have he' : hearTrack x a c g s = testOutcome x.ident b x.state s1 := by rw [he, ht]
    cases hst : x.state with
    | forming => exact move b ht (by rw [he', hst]; rfl) (.inl hst)
    | attributed d n =>
      by_cases hd : d = b
      · refine stay (by rw [he', hst]; exact if_pos hd) fun b' hb' => ?_
        rw [ht] at hb'; cases hb'
        rintro (h | ⟨d', m, h, hne⟩) <;> rw [hst] at h <;> cases h
        exact hne hd
      · exact move b ht (by rw [he', hst]; exact if_neg hd) (.inr ⟨d, n, hst, hd⟩)
    | bound d n =>
      refine stay (by rw [he', hst]; rfl) fun b' _ => ?_
      rintro (h | ⟨d', m, h, -⟩) <;> rw [hst] at h <;> cases h
    | spent d n v =>
      refine stay (by rw [he', hst]; rfl) fun b' _ => ?_
      rintro (h | ⟨d', m, h, -⟩) <;> rw [hst] at h <;> cases h

/-! ## The order of eviction -/

theorem le_foldl_max (l : List Nat) (m : Nat) : m ≤ l.foldl max m ∧ ∀ x ∈ l, x ≤ l.foldl max m := by
  induction l generalizing m with
  | nil => exact ⟨le_rfl, fun _ h => by cases h⟩
  | cons y l ih =>
    obtain ⟨h1, h2⟩ := ih (max m y)
    refine ⟨(le_max_left ..).trans h1, fun x hx => ?_⟩
    rcases List.mem_cons.1 hx with rfl | hx
    · exact (le_max_right ..).trans h1
    · exact h2 x hx

/-- The peak of R35 is the greatest evidence value. -/
theorem Track.peak_eq {t : Track} {n : Nat} (h : t.Peak n) : t.peak = n := by
  obtain ⟨h1, a, h2⟩ := h
  have hle : ∀ (l : List Nat) (m : Nat), m ≤ n → (∀ x ∈ l, x ≤ n) → l.foldl max m ≤ n := by
    intro l
    induction l with
    | nil => intro m hm _; exact hm
    | cons y l ih =>
      intro m hm hl
      exact ih _ (max_le hm (hl y List.mem_cons_self)) fun x hx => hl x (List.mem_cons_of_mem _ hx)
  refine le_antisymm (hle _ _ (Nat.zero_le _) fun x hx => ?_) ?_
  · obtain ⟨i, hi, rfl⟩ := List.mem_iff_getElem.1 hx
    have hi' : i < 8 := by simpa using hi
    have := h1 ⟨i, hi'⟩
    simpa using this
  · rw [← h2]
    refine (le_foldl_max t.evidence.toList 0).2 _ ?_
    exact Vector.mem_toList_iff.2 (Vector.getElem_mem ..)

theorem age_lt (now t : Time) : age now t < 4294967296 := (now - t).isLt

/-- One key does not come before another of five numbers exactly when it is lexicographically no less. -/
theorem goesFirst_of_key {now : Time} {v u : Track}
    (h : lexBefore (u.evictionKey now) (v.evictionKey now) = false) : GoesFirst now v u := by
  have e : ∀ t : Track, t.evictionKey now = [t.state.turnToGo, t.peak, 4294967295 - age now t.lastSeen,
      4294967295 - age now t.firstSeen, t.ident.toNat] := fun t => by
    unfold Track.evictionKey TrackState.turnToGo; cases t.state <;> rfl
  rw [e, e] at h
  simp only [lexBefore, Bool.or_false, Bool.or_eq_false_iff, decide_eq_false_iff_not, Bool.and_eq_false_iff,
    beq_eq_false_iff_ne, Bool.and_false] at h
  have a1 := age_lt now u.lastSeen
  have a2 := age_lt now v.lastSeen
  have a3 := age_lt now u.firstSeen
  have a4 := age_lt now v.firstSeen
  refine ⟨by omega, fun hs m n hm hn => ?_⟩
  rw [Track.peak_eq hm, Track.peak_eq hn] at h
  refine ⟨by omega, fun hmn => ⟨by omega, fun hl => ⟨by omega, fun hf => by omega⟩⟩⟩

theorem isBound_false {t : Track} : t.isBound = false ↔ ∀ b n, t.state ≠ .bound b n := by
  unfold Track.isBound
  cases t.state <;> simp

/-- The victim of R38. -/
theorem victim_spec {s : State} {v : Track} (h : s.victim = some v) :
    v ∈ s.tracking.tracks ∧ (∀ b n, v.state ≠ .bound b n)
      ∧ ∀ u ∈ s.tracking.tracks, (∀ b n, u.state ≠ .bound b n) → GoesFirst s.clock.now v u := by
  obtain ⟨h1, h2⟩ := List.mem_filter.1 (leastBy_mem h)
  refine ⟨h1, isBound_false.1 (by simpa using h2), fun u hu hb => goesFirst_of_key ?_⟩
  exact leastBy_least 5 (fun _ => rfl) h u (List.mem_filter.2 ⟨hu, by rw [isBound_false.2 hb]; rfl⟩)

theorem victim_exists {s : State} (h : ∃ u ∈ s.tracking.tracks, ∀ b n, u.state ≠ .bound b n) :
    ∃ v, s.victim = some v := by
  obtain ⟨u, hu, hb⟩ := h
  cases hv : s.victim with
  | some v => exact ⟨v, rfl⟩
  | none =>
    have := leastBy_eq_none hv
    have hm : u ∈ s.tracking.tracks.filter fun t => !t.isBound :=
      List.mem_filter.2 ⟨hu, by rw [isBound_false.2 hb]; rfl⟩
    rw [this] at hm; cases hm

/-! ## The order of binding -/

theorem insertBy_perm {α : Type} (key : α → List Nat) (x : α) (l : List α) :
    (insertBy key x l).Perm (x :: l) := by
  induction l with
  | nil => exact .refl _
  | cons y l ih =>
    unfold insertBy
    split
    · exact .refl _
    · exact (ih.cons y).trans (.swap x y l)

theorem sortBy_perm {α : Type} (key : α → List Nat) (l : List α) : (sortBy key l).Perm l := by
  induction l with
  | nil => exact .refl _
  | cons x l ih => exact (insertBy_perm key x _).trans (ih.cons x)

/-- In a sorted list nothing comes before what stands earlier. -/
theorem sortBy_sorted {α : Type} {key : α → List Nat} (n : Nat) (hn : ∀ x, (key x).length = n) (l : List α) :
    (sortBy key l).Pairwise fun x y => lexBefore (key y) (key x) = false := by
  induction l with
  | nil => exact .nil
  | cons x l ih =>
    have ins : ∀ m : List α, m.Pairwise (fun x y => lexBefore (key y) (key x) = false) →
        (insertBy key x m).Pairwise fun x y => lexBefore (key y) (key x) = false := by
      intro m hm
      induction m with
      | nil => exact List.pairwise_singleton ..
      | cons z m ihm =>
        obtain ⟨h1, h2⟩ := List.pairwise_cons.1 hm
        unfold insertBy
        split
        · rename_i hlt
          refine List.pairwise_cons.2 ⟨fun w hw => ?_, hm⟩
          rcases List.mem_cons.1 hw with rfl | hw
          · exact lexBefore_asymm _ _ hlt
          · exact not_lexBefore_trans (b := key z) (by simp [hn]) (by simp [hn]) (h1 w hw)
              (lexBefore_asymm _ _ hlt)
        · rename_i hlt
          refine List.pairwise_cons.2 ⟨fun w hw => ?_, ihm h2⟩
          rcases mem_insertBy.1 hw with rfl | hw
          · simpa using hlt
          · exact h1 w hw
    exact ins _ ih

theorem bindsFirst_of_key {now : Time} {t u : Track}
    (h : lexBefore (u.bindingKey now) (t.bindingKey now) = false) : BindsFirst now t u := by
  intro a b m n ht hu
  unfold Track.bindingKey at h
  rw [ht, hu] at h
  simp only [lexBefore, Bool.or_false, Bool.or_eq_false_iff, decide_eq_false_iff_not, Bool.and_eq_false_iff,
    beq_eq_false_iff_ne, Bool.and_false] at h
  have a1 := age_lt now m
  have a2 := age_lt now n
  have a3 := age_lt now t.firstSeen
  have a4 := age_lt now u.firstSeen
  omega

/-- The loose tracks of an aisle: all of them, in the order of R70. -/
theorem looseTracks_spec (s : State) (a : Aisle) :
    (s.looseTracks a).Perm (s.tracking.tracks.filter (Track.looseIn a))
      ∧ (s.looseTracks a).Pairwise (BindsFirst s.clock.now) :=
  ⟨sortBy_perm .., (sortBy_sorted (key := Track.bindingKey s.clock.now) 3 (fun _ => rfl) _).imp
      fun h => bindsFirst_of_key h⟩

end Sys2Proof.Machine
end

