-- ==== Sys2Proof/Tests/Slice0.lean ====
section
/-! SUPPORT. Tests: ill-formed commands refused, the formats' worked bytes, single events taken from the
manual's examples, and a witness for the hypotheses of every statement that has some. -/

namespace Sys2Proof.Tests

set_option Elab.async false

open Sys2Proof Sys2Proof.Machine

/-! ## Ill-formed commands are refused -/

theorem test_wellFormed_full : (Instr.restartFull 0 [0x02]).wellFormed = false := by decide
theorem test_wellFormed_detection : (Instr.restartDetection 0 [0x01]).wellFormed = false := by decide
theorem test_wellFormed_device : (Instr.statusDevice 0 [0x03]).wellFormed = false := by decide
theorem test_wellFormed_aisle : (Instr.statusAisle 0 [0x00]).wellFormed = false := by decide
theorem test_wellFormed_unknown : (Instr.unknownKindFrame 0x20 0 []).wellFormed = false := by decide
theorem test_wellFormed_records :
    (Instr.sightingsAnswer false (List.replicate 7 ⟨1, 1, true, 99⟩)).wellFormed = false := by decide
theorem test_wellFormed_extend0 : (Instr.extendAnswer 0).wellFormed = false := by decide
theorem test_wellFormed_extend4 : (Instr.extendAnswer 4).wellFormed = false := by decide
theorem test_wellFormed_transit : (Instr.transitDeadline 0 0).wellFormed = false := by decide
theorem test_wellFormed_grace : (Instr.graceDeadline 0).wellFormed = false := by decide
theorem test_wellFormed_query : (Instr.queryDeadline 0).wellFormed = false := by decide
theorem test_wellFormed_bad : (Instr.badFrame [0x00]).wellFormed = false := by decide
theorem test_wellFormed_payload :
    (Instr.issue 0 (List.replicate 248 0)).wellFormed = false := by decide +kernel
theorem test_wellFormed_good : (Instr.issue 0 (List.replicate 247 0)).wellFormed = true := by decide +kernel

/-! ## States and payloads -/

/-- Run one command; the state as it was where the command stops. -/
def ran (c : Instr) (s : State) : State :=
  match exec c s with
  | .next t => t
  | .fault _ => s
  | .refused _ => s

/-- The last reply a command places: its status and body. -/
def replyTo (c : Instr) (s : State) : Option (Status × List Byte) :=
  (ran c s).link.replies.getLast?.map fun r => (r.status, r.body)

/-- Power-on with one stored mode in every aisle. -/
def inMode (m : Mode) : State :=
  State.reset.setModes { State.reset.modes with stored := Vector.replicate 8 m }

/-- A state at a part time. -/
def atTime (n : Nat) (s : State) : State := s.setClock { s.clock with now := BitVec.ofNat 32 n }

/-- A state with this entry in the live table. -/
def withEntry (e : Entry) (s : State) : State := writeEntry e.ident (some e) s

/-- A segment's state set. -/
def withSegment (i : Fin 64) (g : Segment) (s : State) : State := s.setSegments (s.segments.set i g)

/-- Identifier J of the worked sequence of section 6.11, in segment 37. -/
def idJ : Ident := 0x005122D07B104425

/-- Identifier K of the worked sequence of section 6.11, in segment 37. -/
def idK : Ident := 0x005122D07B104465

/-- Identifier V of the worked sequence of section 6.11, in segment 38. -/
def idV : Ident := 0x005122D07B104426

/-- Tag X of the worked case of section 3.8, in segment 37. -/
def idX : Ident := 0x00003A4107C219E5

/-- The SET-SITE of the example in section 1.3, with aisle count `n`. -/
def sitePayload (n : Byte) : List Byte :=
  [n, 0xFA, 0x02, 0x58, 0x08, 0x00, 0x0A, 0x1F, 0x40, 0x0B, 0xB8, 0x01, 0x90, 0x5A, 0x0A,
   0x00, 0x78, 0x02, 0x02]

/-- A turn of pedestal 3 whose poll has used some extension slots. -/
def turn3 (slots : Nat) : Turn := { Turn.first 3 false with slots := slots }

/-- Power-on with the bus controller doing this. -/
def busDoing (x : Activity) (grant : Option Byte) : State :=
  State.reset.setBus { State.reset.bus with activity := x, grant := grant }

/-- A hold granted at part time 0. -/
def hold0 (pass : Option ReaderPass) : Hold := { since := 0, deadline := 30000, pass := pass }

/-- A READER-PASS to pedestal 8 with REF 5. -/
def pass8 : ReaderPass := { pedestal := 8, ref := 5, deadline := 20, heard := false }

/-- A track of an identifier with evidence in aisle 3 only. -/
def trackOf (id : Ident) (e : Nat) (x : TrackState) : Track :=
  { newTrack id true 0 with evidence := (Vector.replicate 8 0).set 2 e, state := x }

/-- An open passage of direction EXIT. -/
def exitPassage (n : Word16) (ph : Phase) : Passage :=
  { number := n, direction := .exit, phase := ph, farBroken := ph == .crossing, openedAt := 0
    deadline := 8000, flags := Flags.none, items := [] }

/-- A filter whose change to `level` began at part time 0. -/
def changing (level : Bool) : Filter := { raw := level, accepted := !level, since := some 0 }

/-- Aisle 5 in GUARD with these open passages and this filter of its inner and outer beam. -/
def aisle5 (ps : List Passage) (inner outer : Filter) : State :=
  atTime 10 (((inMode .guard).setOpens 4 ps).setBeams
    { State.reset.beams with
      inner := State.reset.beams.inner.set 4 inner
      outer := State.reset.beams.outer.set 4 outer })

/-- An undecided item record. -/
def waitingItem (id : Ident) (w : Wait) : ItemRecord :=
  { ident := id, guard := true, lookup := .unknown, answer := none, desk := none
    status := .waiting w }

/-- A judging passage of aisle 5 with these items and a grace deadline of 3,000. -/
def judging (n : Word16) (items : List ItemRecord) : Judging :=
  { number := n, aisle := 4, direction := .exit, openedAt := 0, closedAt := 0, flags := Flags.none
    items := items, grace := 3000, gracePassed := false }

/-- An outstanding query. -/
def queryOf (n : Byte) (id : Ident) : Query :=
  { number := n, ident := id, aisle := 4, segment := .stale, created := 0, deadline := 400
    sent := false }

/-- A refresh of segment 37. -/
def refresh37 (declared received : Nat) (expected : Word16) : RefreshRecord :=
  { segment := 37, declared := declared, received := received, skipped := 0, shadow := []
    late := [], expected := expected, idleAt := 2000 }

/-! ## Formats -/

/-- The check value R174 gives for the bytes 31h to 39h. -/
theorem test_crc : crc16 [0x31, 0x32, 0x33, 0x34, 0x35, 0x36, 0x37, 0x38, 0x39] = 0x29B1 := by decide +kernel
/-- The frames R182 writes out. -/
theorem test_poll : pollFrame 3 = [0x03, 0x01, 0xFC] := by decide
theorem test_repoll : repollFrame 3 = [0x03, 0x02, 0xFB] := by decide
theorem test_extend_frame : judgeAnswer 3 [0x03, 0x82, 0x02, 0x79] = .answer (.extend 2) := by decide
theorem test_extendOn_frame : judgeAnswer 3 [0x03, 0x83, 0x7A] = .answer .extendOn := by decide
theorem test_partial_frame : judgeAnswer 3 [0x03, 0x82, 0x02] = .partially := by decide
/-- Identifier 0000 3A41 07C2 19E5h lies in segment 37 (R77) and is sent as R172 gives. -/
theorem test_segment : segmentOf idX = 37 := by decide
theorem test_identifier : bytes64 idX = [0x00, 0x00, 0x3A, 0x41, 0x07, 0xC2, 0x19, 0xE5] := by decide
/-- Every SET-SITE field is read at its offset (R177). -/
theorem test_readSite : readSite (sitePayload 8) =
    { aisles := 8, floor := 250, threshold := 600, margin := 8, decay := 10, transit := 8000
      grace := 3000, query := 400, alarm := 90, debounce := 10, expiry := 120, pattern := 0x02
      pitch := 0x02 } := by decide
/-- A frame arriving as bytes is found, and the one with a wrong CRC is not. -/
theorem test_receive :
    replyTo (.badFrame ({ kind := 0x26, ref := 7, payload := bytes64 idX : Frame }).bytes) State.reset
      = some (.ok, [0x06, 0x00, 0xFF, 0xFF, 0xFF]) := by decide +kernel

/-! ## Single events from the manual's examples -/

/-- Power-on of the part that State.reset shows gives State.reset. -/
theorem test_powerOn : ran .powerOn State.reset = State.reset := by decide +kernel
/-- The example of section 1.3: F, D and A are clamped, fields 2, 5 and 9. -/
theorem test_setSite : replyTo (.setSite 1 (sitePayload 8)) (inMode .guard)
    = some (.clamped, [3, 2, 5, 9]) := by decide +kernel
/-- The same request with N 4 while aisles are in GUARD is BUSY. -/
theorem test_setSite_busy :
    replyTo (.setSite 1 (sitePayload 4)) (inMode .guard) = some (.busy, [0]) := by decide +kernel
/-- OFF to GUARD takes two steps (R11). -/
theorem test_setMode_sequence :
    replyTo (.setMode 1 [0xFF, 0x02]) State.reset = some (.sequence, []) := by decide +kernel
theorem test_setMode_step : (ran (.setMode 1 [0x02, 0x01]) State.reset).modes.stored[1] = .watch := by
  decide +kernel
/-- At 210 ms of section 3.8, 608 against 72 passes for aisle 3; with E4 at 420 it would fail. -/
theorem test_attribution : attributionTest 600 8 #v[0, 0, 608, 72, 0, 0, 0, 0] = some 2 := by decide
theorem test_attribution_margin : attributionTest 600 8 #v[0, 0, 608, 420, 0, 0, 0, 0] = none := by
  decide
/-- At 330 ms of section 3.8, 699 passes against 456, and would fail against 467. -/
theorem test_reattribution : attributionTest 600 8 #v[0, 0, 456, 699, 0, 0, 0, 0] = some 3 := by decide
theorem test_reattribution_margin : attributionTest 600 8 #v[0, 0, 467, 699, 0, 0, 0, 0] = none := by
  decide
/-- At 0 ms of section 3.8, pedestal 2's RIGHT face hears X with strength 180: E3 is 140. -/
theorem test_sighting :
    ((ran (.sightingsAnswer false [⟨idX, 2, true, 180⟩])
      ((inMode .guard).setBus { State.reset.bus with activity := .polling (Turn.first 2 false) 2 })).track?
        idX).map (fun t => (t.evidence[2], t.state)) = some (140, .forming) := by decide +kernel
/-- A frame begun in the window holds the poll open when the window closes, and its end is taken (R16). -/
theorem test_frame_holds_poll :
    let s := ran (.badAnswer [0x03, 0x83]) (busDoing (.polling (turn3 0) 2) none)
    (ran .answerWindowClose (atTime 2 s)).bus.activity = .receiving (turn3 0) [0x03, 0x83] 0
      ∧ (ran (.badAnswer [0x7A]) (atTime 2 s)).bus.activity
        = .waiting { turn3 1 with answered := true } 3 := by decide +kernel
/-- A slot with no byte inside a frame ends the poll without an answer (R182): the turn has failed. -/
theorem test_slot_gap :
    (ran .answerSlotGap (atTime 1 (busDoing (.receiving (turn3 0) [0x03] 0) none))).bus.health[3]
      = ⟨false, 1⟩ := by decide +kernel
/-- A SET-SITE takes effect for one record and not yet for another of the same answer (R26): with F
raised to 200 the record of strength 180 that still waits is discarded. -/
theorem test_record_waits :
    let s := (inMode .guard).setBus { State.reset.bus with
      activity := .delivering (Turn.first 2 false) false [⟨idX, 2, true, 180⟩] }
    ((takeRecord s).track? idX).isSome = true
      ∧ (takeRecord (ran (.setSite 1 ((sitePayload 8).set 1 200)) s)).track? idX = none := by
  decide +kernel
/-- A change that has persisted 10 ms is accepted by the SET-SITE that shortens the debounce to 10
(R8), and one that has persisted for the debounce in force by a raw return (R56). -/
theorem test_setSite_accepts :
    let s := (aisle5 [] (changing true) (Filter.atReset false)).setSite
      { SiteSettings.default with debounce := 50 }
    (s.beam 4 .inner).accepted = false
      ∧ ((ran (.setSite 1 (sitePayload 8)) s).opens 4).length = 1 := by decide +kernel
theorem test_return_accepts :
    let t := ran (.beamInputChange 4 .inner false) (aisle5 [] (changing true) (Filter.atReset false))
    (t.opens 4).length = 1 ∧ t.beam 4 .inner = ⟨false, true, some 10⟩ := by decide +kernel
/-- The decay step at 100 ms of section 3.8 takes 300 to 225. -/
theorem test_decay :
    ((ran .decayStep (atTime 100 (State.reset.setTracks [trackOf idX 300 .forming]))).track? idX).map
      (fun t => t.evidence[2]) = some 225 := by decide +kernel
/-- The worked case of section 3.9: Q goes first, being SPENT with the lowest peak and the oldest. -/
theorem test_eviction :
    (atTime 52000 (State.reset.setTracks
      [{ trackOf 1 12 (.spent 2 7 none) with lastSeen := 51800 },
       { trackOf 2 12 (.spent 2 7 none) with lastSeen := 51350 },
       { trackOf 3 97 (.spent 2 7 none) with lastSeen := 50900 },
       { trackOf 4 3 .forming with lastSeen := 51990 },
       { trackOf 5 1 (.attributed 2 0) with lastSeen := 51000 }])).victim.map (·.ident) = some 2 := by
  decide +kernel
/-- Section 4.10: a break of the inner beam opens an EXIT passage with the next number. -/
theorem test_break : (ran (.breakEvent 4 .inner) (aisle5 [] (changing true) (Filter.atReset false))).opens 4
    = [{ exitPassage 1 .opened with openedAt := 10, deadline := 8010 }] := by decide +kernel
/-- A clear of the far beam completes the passage that is CROSSING, here with nothing carried. -/
theorem test_clear :
    ((ran (.clearEvent 4 .outer) (aisle5 [exitPassage 7 .crossing] (Filter.atReset true) (changing false))
      ).link.routine.map (·.body.kind)) = [0xC1] := by decide +kernel
/-- The sequence of section 6.11 at 400 ms: ISSUE without an expiry takes Xi = 120. -/
theorem test_issue :
    (ran (.issue 1 (bytes64 idK ++ [0xFF, 0xFF, 0x02])) State.reset).entry? idK
      = some { ident := idK, cls := .issued, expiry := 120, desk := some 2 } := by decide +kernel
/-- The same sequence at 900 ms: RETURN removes the PENDING entry of J. -/
theorem test_return :
    (ran (.returnItem 1 (bytes64 idJ))
      (withEntry { ident := idJ, cls := .pending, expiry := 6, desk := some 1 } State.reset)).entry? idJ
      = none := by decide +kernel
theorem test_cancel_mismatch :
    replyTo (.cancelIssue 1 (bytes64 idJ))
      (withEntry { ident := idJ, cls := .issued, expiry := 6, desk := none } State.reset)
      = some (.mismatch, [0, 0]) := by decide +kernel
theorem test_lookup :
    replyTo (.lookup 1 (bytes64 idJ))
      (withEntry { ident := idJ, cls := .pending, expiry := 6, desk := some 1 } State.reset)
      = some (.ok, [0x02, 0x00, 0x00, 0x06, 0x01]) := by decide +kernel
/-- The sequence of section 6.11 at 150 ms: three entries received, V skipped. -/
theorem test_segBlock :
    replyTo (.segBlock 1 ([37, 0, 0, 0, 3] ++ bytes64 idJ ++ [0x01, 0, 60] ++ bytes64 idK ++ [0x04, 0, 0]
        ++ bytes64 idV ++ [0x01, 0, 0])) (State.reset.setRefresh (some (refresh37 6 0 0)))
      = some (.ok, [0, 6, 0, 3, 0, 1, 0, 0]) := by decide +kernel
/-- A declared count of 0 is met by a single empty last block (R101). -/
theorem test_segBlock_last :
    replyTo (.segBlock 1 [37, 0, 0, 1, 0]) (State.reset.setRefresh (some (refresh37 0 0 0)))
      = some (.done, [0, 0, 0, 0, 0, 0, 0, 0]) := by decide +kernel
theorem test_trust : (ran (.trust 1 [0, 0, 0, 0x20, 0, 0, 0, 0]) State.reset).segments[37].state
    = .fresh := by decide +kernel
theorem test_supervise : replyTo (.supervise 1 [0x02, 0x59]) State.reset = some (.clamped, [1]) := by
  decide +kernel
/-- An expiry of 1 minute goes at the tick, and one of 2 loses a minute (R94). -/
theorem test_minuteTick :
    let s := (withEntry ⟨idJ, .issued, 1, none⟩ (withEntry ⟨idK, .issued, 2, none⟩ State.reset)).setClock
      { now := 60000, phase := 60000 }
    ((ran .minuteTick s).entry? idJ, ((ran .minuteTick s).entry? idK).map (·.expiry)) = (none, some 1) := by
  decide +kernel
/-- The sequence of section 9.9 at 1,500 ms: an accepted key press lowers SOUNDING to SHOWING. -/
theorem test_keyPress :
    (ran .silenceKeyPress ((atTime 1500 ((inMode .guard).setAnnunciator 3 (.sounding 5000 .twoTone .mid 0))
      ).setBeams { State.reset.beams with
        key := { raw := true, accepted := false, since := some 1490 } })).annunciators[3]
      = .showing 5000 := by decide +kernel
/-- The sequence of section 9.9 from 250 to 500 ms: the lamp is dark and the tone the lower pitch. -/
theorem test_outputs :
    let s := atTime 250 (State.reset.setAnnunciator 3 (.sounding 5000 .twoTone .mid 0))
    (s.lamp 3, s.tone 3) = (false, .hertz 1600) := by decide +kernel
/-- DESCRIBE at offset 112 returns bytes 112 to 127 and then 0 to 15 (R166): the first six. -/
theorem test_describe :
    ((replyTo (.describe 1 [112]) State.reset).map fun r => (r.2.drop 16).take 6)
      = some [0x4E, 0x17, 0x08, 0x30, 0x01, 0x00] := by decide +kernel
theorem test_restart_range : replyTo (.restartFull 1 [0x03]) State.reset = some (.range, []) := by
  decide +kernel
theorem test_statusAisle :
    (replyTo (.statusAisle 1 [0x08]) State.reset).map (fun r => r.2.length) = some 25 := by
  decide +kernel
theorem test_reject_kind : replyTo (.unknownKindFrame 0x7F 1 []) State.reset = some (.kind, [0x7F]) := by
  decide +kernel
theorem test_reject_format : replyTo (.trust 1 [0]) State.reset = some (.format, [0x2A]) := by
  decide +kernel
/-- With nothing due a millisecond passes, and the queue's front command runs first. -/
theorem test_step_idle :
    (match step (State.reset.setLink { State.reset.link with urgent := [] }) with
     | .next t => t.clock.now
     | .fault _ => 0
     | .refused _ => 0) = 1 := by decide +kernel
theorem test_step_front :
    (match step (State.reset.setPending [.minuteTick, .powerOn]) with
     | .next t => t.pending
     | .fault _ => []
     | .refused _ => []) = [.powerOn] := by decide +kernel
theorem test_decodeTableWord : decodeTableWord 8 0 = none := by decide

/-! ## Witnesses: states and operands that meet the hypotheses of each statement -/

/-- The part waits for a restart whose reply has left the line. -/
def restarting (k : RestartKind) : State :=
  State.reset.setLink { State.reset.link with restart := some { kind := k, left := true } }

/-- A segment filled with 1,024 copies of one entry. -/
def fullSegment : State :=
  withSegment 37 { state := .fresh, entries := List.replicate 1024 ⟨idK, .lost, 0, none⟩ } State.reset

/-- A verdict queue of `n` passages that wait. -/
def judged (n : Nat) : State :=
  State.reset.setJudging (List.replicate n (judging 9 [waitingItem idX .grace]))

/-- A report queue of `u` urgent and `r` routine reports. -/
def reporting (u r : Nat) : State :=
  State.reset.setLink { State.reset.link with
    urgent := List.replicate u { number := 0, stamp := 0, body := .notice .evacOn }
    routine := List.replicate r { number := 0, stamp := 0, body := .notice .evacOn } }

/-- A supervisor that runs until a time. -/
def running (d : Time) : State := State.reset.setSupervisor (.running 1 d)

/-- An EVAC filter whose change to `level` began at 0, at part time 50. -/
def evacuating (level : Bool) : State :=
  atTime 50 (State.reset.setModes { State.reset.modes with evac := changing level })

/-- The SILENCE key's change to `level` began at 0; part time 10. -/
def keyChanging (level : Bool) : State :=
  atTime 10 (State.reset.setBeams { State.reset.beams with key := changing level })

/-- An open passage with 10 items. -/
def tenItems : Passage := { exitPassage 7 .opened with items := List.replicate 10 idJ }

/-- 256 tracks, all FORMING. -/
def fullTable : State :=
  (inMode .watch).setTracks ((List.range 256).map fun n => trackOf (BitVec.ofNat 64 (n + 1)) 1 .forming)

/-- A track table with a rising order and a query about its only track. -/
def asked : State :=
  (State.reset.setTracks [trackOf idX 700 (.attributed 2 0)]).setQueries
    { list := [queryOf 1 idX], next := 2 }

theorem witness_IdleStepRaisesAnEventOrCounts :
    State.reset.pending = [] ∧ dueEvents State.reset ≠ []
      ∧ dueEvents (reporting 0 0) = [] ∧ (reporting 0 0).pending = []
      ∧ (busDoing (.delivering (turn3 0) true [⟨idX, 2, true, 180⟩]) none).bus.activity
          = .delivering (turn3 0) true [⟨idX, 2, true, 180⟩]
      ∧ ∀ t more rs, (reporting 0 0).bus.activity ≠ .delivering t more rs :=
  ⟨rfl, by decide +kernel, by decide +kernel, rfl, rfl, fun _ _ _ h => by cases h⟩

theorem witness_CommandsKeepTheQueue : ∃ t, exec .powerOn State.reset = .next t := ⟨_, rfl⟩

theorem witness_FullResetGivesFullResetValues :
    (restarting .full).restartReady .full = true := by decide +kernel

theorem witness_DetectionRestartKeepsTheConfiguration :
    (restarting .detection).restartReady .detection = true
      ∧ (restarting .detection).link.urgent.length
          + (restarting .detection).link.routine.length < 48
      ∧ (∀ u r, u + r = 48 → ((reporting u r).setLink { (reporting u r).link with
            restart := some { kind := .detection, left := true } }).restartReady .detection = true)
      ∧ 48 ≤ (reporting 48 0).link.urgent.length + (reporting 48 0).link.routine.length
      ∧ (reporting 48 0).link.routine = [] ∧ (reporting 47 1).link.routine ≠ [] :=
  ⟨by decide +kernel, by decide +kernel, fun _ _ _ => rfl, by decide +kernel, by decide +kernel,
    by decide +kernel⟩

theorem witness_EventsBeforeTheirTimeChangeNothing :
    (State.reset.setClock { now := 999, phase := 59999 }).clock.phase < 60000
      ∧ State.reset.evacDue true = false ∧ State.reset.evacDue false = false
      ∧ (busDoing (.polling (turn3 0) 2) none).bus.activity = .polling (turn3 0) 2
      ∧ passed 1 2 = false
      ∧ (busDoing (.waiting (turn3 0) 2) none).bus.activity = .waiting (turn3 0) 2
      ∧ (busDoing (.receiving (turn3 0) [0x03] 2) none).bus.activity = .receiving (turn3 0) [0x03] 2
      ∧ passed 2 (2 + 1) = false
      ∧ State.reset.bus.grant = none ∧ (∀ p, State.reset.bus.activity ≠ .ended p)
      ∧ (∀ h, State.reset.bus.activity ≠ .held h)
      ∧ (busDoing (.held (hold0 (some pass8))) none).bus.activity = .held (hold0 (some pass8))
      ∧ passed 29999 (hold0 (some pass8)).deadline = false ∧ (hold0 none).pass = none
      ∧ (hold0 (some pass8)).pass = some pass8 ∧ passed 19 pass8.deadline = false
      ∧ { pass8 with heard := true }.heard = true
      ∧ State.reset.keyDue true = false ∧ State.reset.keyDue false = false
      ∧ (Annunciator.showing 5000).deadline? = some 5000 ∧ passed 4999 5000 = false
      ∧ passed 399 (queryOf 1 idX).deadline = false
      ∧ State.reset.link.line = none
      ∧ (State.reset.setLink { State.reset.link with line := some ⟨[0xA5], 0, true⟩ }).link.line
          = some ⟨[0xA5], 0, true⟩
      ∧ passed (atTime 999 State.reset).clock.now State.reset.bus.probeAt = false
      ∧ passed (atTime 99 State.reset).clock.now State.reset.tracking.decayAt = false
      ∧ (atTime 9 (aisle5 [] (changing true) (changing false))).beamDue 4 .inner true = false
      ∧ (atTime 9 (aisle5 [] (changing true) (changing false))).beamDue 4 .outer false = false
      ∧ (atTime 7999 (aisle5 [exitPassage 7 .opened] (Filter.atReset true) (Filter.atReset false))
          ).transitDue 4 7 = none
      ∧ (atTime 2999 (judged 1)).judging.any
          (·.graceDue (atTime 2999 (judged 1)).clock.now 9) = false
      ∧ passed 1999 (refresh37 6 0 0).idleAt = false
      ∧ (running 1000).supervisor = .running 1 1000 ∧ passed 999 1000 = false
      ∧ State.reset.restartReady .full = false ∧ State.reset.restartReady .detection = false :=
  ⟨by decide +kernel, by decide +kernel, by decide +kernel, rfl, by decide +kernel, rfl, rfl,
    by decide +kernel, rfl, (fun _ h => by cases h), (fun _ h => by cases h), rfl, by decide +kernel, rfl,
    rfl, by decide +kernel, rfl, by decide +kernel, by decide +kernel, rfl, by decide +kernel,
    by decide +kernel, rfl, rfl, by decide +kernel, by decide +kernel, by decide +kernel,
    by decide +kernel, by decide +kernel, by decide +kernel, by decide +kernel, rfl, by decide +kernel,
    by decide +kernel, by decide +kernel⟩

/-- With N lowered from 8 to 4: an idle controller, and a turn of pedestal 5 in every activity. -/
theorem witness_SetSiteAppliesTheClampedRecord :
    let t5 := Turn.first 5 false
    (State.reset.dispatches ∧ (inMode .guard).dispatches ∧ (busDoing .idle none).dispatches
        ∧ (busDoing (.ended 5) (some 9)).dispatches
        ∧ (busDoing (.held (hold0 (some pass8))) none).dispatches
        ∧ ∀ x ∈ [Activity.polling t5 2, .receiving t5 [0x05] 0, .delivering t5 false
            [⟨idX, 2, true, 180⟩], .waiting t5 2], (busDoing x none).dispatches)
      ∧ (sitePayload 4).length = 19
      ∧ TonePattern.ofCode (readSite (sitePayload 4)).pattern = some .pulsed
      ∧ TonePitch.ofCode (readSite (sitePayload 4)).pitch = some .high
      ∧ (∀ a : Aisle, State.reset.modes.stored[a] = .off)
      ∧ max 1 (min 8 (readSite (sitePayload 4)).aisles) ≠ State.reset.site.aisles
      ∧ 4 < t5.pedestal.val ∧ (busDoing .idle none).bus.activity = .idle
      ∧ max 1 (min 8 (readSite (sitePayload 9)).aisles) = (inMode .guard).site.aisles
      ∧ (applyRecord { SiteSettings.default with debounce := 10 }
          ((aisle5 [] (changing true) (Filter.atReset false)).setSite
            { SiteSettings.default with debounce := 50 })).inputEvent (.breakEvent 4 .inner) :=
  ⟨by unfold State.dispatches; decide +kernel, by decide +kernel, by decide +kernel, by decide +kernel,
    by decide +kernel, by decide +kernel, by decide +kernel, rfl, by decide +kernel,
    .inl ⟨4, .inner, rfl, by decide +kernel⟩⟩

theorem witness_SetSiteRefusalsApplyNothing :
    (inMode .guard).dispatches ∧ (sitePayload 4).length = 19
      ∧ 2 < ((readSite ((sitePayload 8).set 17 3)).pattern).toNat
      ∧ 2 < ((readSite ((sitePayload 8).set 18 3)).pitch).toNat
      ∧ ((readSite (sitePayload 4)).pattern).toNat ≤ 2
      ∧ ((readSite (sitePayload 4)).pitch).toNat ≤ 2
      ∧ max 1 (min 8 (readSite (sitePayload 4)).aisles) ≠ (inMode .guard).site.aisles
      ∧ ∃ a : Aisle, (inMode .guard).modes.stored[a] ≠ .off := by
  unfold State.dispatches; decide +kernel

theorem witness_SetModeStepsEveryNamedAisleOrNone :
    (State.reset.dispatches ∧ (inMode .watch).dispatches ∧ (inMode .guard).dispatches)
      ∧ namedAisles State.reset.site.aisles 0x09 = none ∧ Mode.ofCode 0x03 = none
      ∧ namedAisles State.reset.site.aisles 0x08 = some [7] ∧ Mode.ofCode 0x02 = some .guard
      ∧ Mode.ofCode 0x00 = some .off ∧ Mode.ofCode 0x01 = some .watch
      ∧ State.reset.modes.stored[(7 : Aisle)] = .off
      ∧ (inMode .watch).modes.stored[(7 : Aisle)] = .watch
      ∧ (inMode .guard).modes.stored[(7 : Aisle)] = .guard
      ∧ (inMode .guard).effective 7 = .guard := by
  unfold State.dispatches; decide +kernel

theorem witness_RawLevelsStartOrDiscardPendingChanges :
    State.reset.evacDue true = false ∧ State.reset.evacDue false = false
      ∧ (evacuating true).evacDue true = true ∧ (evacuating false).evacDue false = true
      ∧ State.reset.beamDue 4 .inner true = false ∧ State.reset.beamDue 4 .inner false = false
      ∧ (aisle5 [] (changing true) (changing false)).beamDue 4 .inner true = true
      ∧ (aisle5 [] (changing true) (changing false)).beamDue 4 .outer false = true
      ∧ State.reset.keyDue true = false ∧ State.reset.keyDue false = false
      ∧ (keyChanging true).keyDue true = true ∧ (keyChanging false).keyDue false = true := by
  decide +kernel

theorem witness_AcceptedEvacFreesOrReturnsEveryAisle :
    (evacuating true).evacDue true = true ∧ (evacuating false).evacDue false = true := by
  decide +kernel

/-- A poll that hears: its window open, and a frame begun in it; a probe turn, and extra polls. -/
theorem witness_SightingsAnswerEndsItsPoll :
    let t := { turn3 0 with extra := 2 }
    let u := { turn3 0 with extra := 3 }
    let x := { turn3 0 with probe := true }
    (busDoing (.polling t 2) none).Hears t [] ∧ t.extra < 3
      ∧ (busDoing (.receiving t [0x03] 0) none).Hears t [0x03]
      ∧ (busDoing (.polling u 2) (some 9)).Hears u [] ∧ 3 ≤ u.extra
      ∧ (busDoing (.polling u 2) (some 9)).bus.grant ≠ none
      ∧ (busDoing (.polling u 2) none).bus.grant = none
      ∧ ((busDoing (.polling x 2) none).setHealth 3 ⟨true, 2⟩).Hears x [] ∧ x.probe = true
      ∧ x.dropped = false
      ∧ ((busDoing (.polling x 2) none).setHealth 3 ⟨true, 2⟩).bus.health[x.pedestal].faulted = true
      ∧ (List.replicate 6 (⟨idX, 2, true, 180⟩ : SightingRecord)).length ≤ 6 :=
  ⟨.inl ⟨rfl, 2, rfl⟩, by decide, .inr ⟨0, rfl⟩, .inl ⟨rfl, 2, rfl⟩, by decide, by decide +kernel, rfl,
    .inl ⟨rfl, 2, rfl⟩, rfl, rfl, by decide +kernel, by decide⟩

/-- An idle controller within a round, in this phase, with this pedestal next. -/
def inRound (probe : Bool) (next : Nat) (faulted : List Pedestal) : BusController :=
  { State.reset.bus with
    activity := .idle
    round := { probePhase := probe, next := next, faultedAtStart := faulted, probed := [] } }

/-- What may follow a turn (R17): a probe still ahead, an ordinary turn, and a new round with a probe
due, without one, and with nothing to poll. -/
theorem witness_NextTurn :
    FirstPedestal (ProbeAhead 8 (inRound true 0 [3])) 3
      ∧ (∀ q, ¬ ProbeAhead 8 (inRound false 1 []) q)
      ∧ FirstPedestal (OrdinaryAhead 8 (inRound false 1 [])) 1
      ∧ (∀ q, ¬ OrdinaryAhead 8 (inRound false 9 []) q)
      ∧ FirstPedestal (fun q => q.val ≤ 8
          ∧ (State.reset.setHealth 2 ⟨true, 2⟩).bus.health[q].faulted = true) 2
      ∧ FirstPedestal (fun q => q.val ≤ 8 ∧ State.reset.bus.health[q].faulted = false) 0
      ∧ ∀ q : Pedestal, q.val ≤ 8 → (Vector.replicate 9 (⟨true, 2⟩ : Health))[q].faulted = true := by
  unfold FirstPedestal ProbeAhead OrdinaryAhead
  beta_reduce
  exact ⟨by decide +kernel, by decide +kernel, by decide +kernel, by decide +kernel, by decide +kernel,
    by decide +kernel, by decide +kernel⟩

/-- Pedestal 3 with this health record, its poll outstanding. -/
def polling3 (t : Turn) (h : Health) : State :=
  (busDoing (.polling t 2) (some 9)).setHealth 3 h

theorem witness_ExtensionsAreWaitedOutWithinTheBudget :
    let x := { turn3 30 with probe := true }
    (polling3 (turn3 29) ⟨false, 0⟩).Hears (turn3 29) []
      ∧ (turn3 29).slots + 3 ≤ 32 ∧ 32 < (turn3 30).slots + 3
      ∧ (turn3 31).slots + 1 ≤ 32 ∧ 32 < (turn3 32).slots + 1
      ∧ (turn3 30).dropped = false ∧ { turn3 30 with dropped := true }.dropped = true
      ∧ (polling3 (turn3 30) ⟨false, 2⟩).bus.health[(turn3 30).pedestal] = ⟨false, 2⟩
      ∧ (polling3 x ⟨true, 2⟩).Hears x [] ∧ x.probe = true
      ∧ (polling3 x ⟨true, 2⟩).bus.health[x.pedestal].faulted = true :=
  ⟨.inl ⟨rfl, 2, rfl⟩, by decide, by decide, by decide, by decide, rfl, rfl, by decide +kernel,
    .inl ⟨rfl, 2, rfl⟩, rfl, by decide +kernel⟩

/-- Bytes bad by kind, count, address, sum and n; partial bytes; and whole answers of the three kinds. -/
theorem witness_UnansweredPollsEndTheTurnAsFailed :
    (polling3 (turn3 0) ⟨false, 1⟩).Hears (turn3 0) []
      ∧ (busDoing (.receiving (turn3 0) [0x03] 0) none).Hears (turn3 0) [0x03]
      ∧ (∀ t bytes, ¬ (busDoing .idle none).Hears t bytes)
      ∧ (6 < (List.replicate 7 (⟨idX, 2, true, 180⟩ : SightingRecord)).length
        ∧ (0 : Byte).toNat = 0 ∧ 3 < (4 : Byte).toNat)
      ∧ (BadAnswerBytes 3 [0x03, 0x80] ∧ BadAnswerBytes 3 [0x03, 0x81, 0x07]
        ∧ BadAnswerBytes 3 [0x04, 0x83, 0x79] ∧ BadAnswerBytes 3 [0x03, 0x82, 0x02, 0x78]
        ∧ BadAnswerBytes 3 [0x03, 0x82, 0x04, 0x77])
      ∧ passed 1 (0 + 1) = true ∧ passed 2 2 = true
      ∧ (PartialAnswerBytes [0x03] ∧ PartialAnswerBytes [0x03, 0x82, 0x02]
        ∧ PartialAnswerBytes [0x03, 0x81, 0x01, 0x00])
      ∧ (∀ bs ∈ [[0x03, 0x82, 0x02, 0x79], [0x03, 0x83, 0x7A], [0x03, 0x81, 0x80, 0xFC]],
          byteSum bs = 0 ∧ judgeAnswer 3 bs ≠ .partially ∧ judgeAnswer 3 bs ≠ .bad) := by
  refine ⟨.inl ⟨rfl, 2, rfl⟩, .inr ⟨0, rfl⟩, ?_, by decide, ?_, by decide, by decide, ?_, by decide⟩
  · rintro t bytes (⟨-, w, h⟩ | ⟨l, h⟩) <;> cases h
  · refine ⟨⟨by decide, .inl (by decide)⟩, ⟨by decide, .inr (.inl (by decide))⟩,
      ⟨by decide, .inr (.inr ⟨3, by decide, by decide, by decide⟩)⟩,
      ⟨by decide, .inr (.inr ⟨4, by decide, by decide, by decide⟩)⟩,
      ⟨by decide, .inr (.inr ⟨4, by decide, by decide, by decide⟩)⟩⟩
  · unfold PartialAnswerBytes; decide

theorem witness_BusTimersRepollAndProbe :
    (busDoing (.waiting (turn3 2) 2) none).bus.activity = .waiting (turn3 2) 2 ∧ passed 2 2 = true
      ∧ passed (atTime 1000 State.reset).clock.now State.reset.bus.probeAt = true
      ∧ State.reset.bus.activity ≠ .idle
      ∧ ((busDoing .idle none).setHealth 8 ⟨true, 2⟩).bus.activity = .idle
      ∧ ((busDoing .idle none).setHealth 8 ⟨true, 2⟩).bus.health[(8 : Pedestal)].faulted = true
      ∧ ∀ q : Pedestal, q.val < 8 →
          ((busDoing .idle none).setHealth 8 ⟨true, 2⟩).bus.health[q].faulted = false := by
  decide +kernel

theorem witness_BusTakeByBusState :
    ((busDoing .idle none).dispatches ∧ (busDoing (.held (hold0 none)) none).dispatches
        ∧ (busDoing (.polling (turn3 0) 2) (some 9)).dispatches
        ∧ (busDoing (.delivering (turn3 0) false [⟨idX, 2, true, 180⟩]) none).dispatches)
      ∧ (busDoing (.polling (turn3 0) 2) (some 9)).bus.grant.isSome = true
      ∧ (busDoing (.held (hold0 none)) none).bus.isHeld = true
      ∧ (busDoing .idle none).bus.grant = none ∧ (busDoing .idle none).bus.activity = .idle
      ∧ State.reset.bus.grant = none
      ∧ ∀ x ∈ [Activity.polling (turn3 1) 2, .receiving (turn3 1) [0x03] 0,
          .delivering (turn3 1) false [⟨idX, 2, true, 180⟩], .waiting (turn3 1) 2],
        x.turn? = some (turn3 1) := by
  unfold State.dispatches; decide +kernel

theorem witness_BusGrantAndBusGive :
    ((busDoing (.held (hold0 (some pass8))) none).dispatches
        ∧ (busDoing (.polling (turn3 0) 2) (some 9)).dispatches ∧ State.reset.dispatches
        ∧ (busDoing (.ended 3) (some 9)).dispatches)
      ∧ (busDoing (.polling (turn3 0) 2) (some 9)).bus.activity.turn? = some (turn3 0)
      ∧ (busDoing (.ended 3) (some 9)).bus.activity = .ended 3
      ∧ (busDoing (.ended 3) (some 9)).bus.grant = some 9
      ∧ (busDoing (.held (hold0 (some pass8))) none).bus.activity = .held (hold0 (some pass8))
      ∧ (busDoing (.polling (turn3 0) 2) (some 9)).bus.activity = .polling (turn3 0) 2
      ∧ (busDoing (.polling (turn3 0) 2) (some 9)).bus.grant = some 9
      ∧ State.reset.bus.isHeld = false ∧ State.reset.bus.grant = none := by
  unfold State.dispatches; decide +kernel

theorem witness_ReaderPassIsCheckedAndSent :
    let p : List Byte := 8 :: 64 :: List.replicate 64 0xAA
    (State.reset.dispatches ∧ (busDoing (.held (hold0 none)) none).dispatches)
      ∧ 1 ≤ (byteAt p 1).toNat ∧ (byteAt p 1).toNat ≤ 64 ∧ p.length = 2 + (byteAt p 1).toNat
      ∧ State.reset.bus.isHeld = false
      ∧ (busDoing (.held (hold0 none)) none).bus.activity = .held (hold0 none)
      ∧ (8 : Pedestal).val = (byteAt p 0).toNat ∧ (hold0 none).pass = none
      ∧ (hold0 (some pass8)).pass ≠ none ∧ 8 < (byteAt [9, 1, 0xAA] 0).toNat := by
  unfold State.dispatches; decide +kernel

theorem witness_ReaderPassEndsAndHoldExpires :
    (busDoing (.held (hold0 (some pass8))) none).bus.activity = .held (hold0 (some pass8))
      ∧ (hold0 (some pass8)).pass = some pass8 ∧ pass8.heard = false
      ∧ byteSum (count8 pass8.pedestal.val :: [0xF0] ++ [0x08]) = 0
      ∧ (List.replicate 64 (0xAA : Byte)).length ≤ 64
      ∧ byteAt [0x07, 0xF1, 0x08] 0 ≠ count8 pass8.pedestal.val
      ∧ passed 20 pass8.deadline = true ∧ passed 30000 (hold0 none).deadline = true := by
  decide +kernel

theorem witness_SightingAddsItsContribution :
    let s := (inMode .watch).setTracks [trackOf idX 700 (.attributed 2 0)]
    State.reset.modes.stored[(2 : Aisle)] = .off ∧ idX ≠ 0 ∧ (40 : Byte).toNat ≤ s.site.floor
      ∧ s.site.floor < (41 : Byte).toNat ∧ s.modes.stored[(2 : Aisle)] ≠ .off
      ∧ s.track? idX = some (trackOf idX 700 (.attributed 2 0))
      ∧ s.track? idJ = none ∧ s.tracking.tracks.length < 256
      ∧ attributionTest s.site.threshold s.site.margin (addEvidence (Vector.replicate 8 0) 2 1) = none
      ∧ attributionTest s.site.threshold s.site.margin
          (addEvidence (trackOf idX 599 .forming).evidence 2 1) = some 2 := by decide +kernel

theorem witness_SightingAddsItsContribution_faces :
    (Serves 8 2 2 2 ∧ Serves 8 8 1 7 ∧ Serves 8 0 2 0)
      ∧ (∀ a, ¬ Serves 8 8 2 a) ∧ (∀ a, ¬ Serves 8 0 1 a) ∧ (∀ a, ¬ Serves 8 3 0 a) := by
  unfold Serves; decide

theorem witness_SightingAddsItsContribution_event :
    (inMode .watch).asks (trackOf idX 599 .forming) 2 ∧ ¬ State.reset.asks (trackOf idX 599 .forming) 2
      ∧ (inMode .watch).queries.list.length < 16
      ∧ 16 ≤ (List.replicate 16 (queryOf 1 idJ)).length
      ∧ (aisle5 [tenItems, exitPassage 8 .opened] (changing true) (changing false)).opens 4
          = [tenItems] ++ exitPassage 8 .opened :: []
      ∧ 10 ≤ tenItems.items.length ∧ (exitPassage 8 .opened).items.length < 10 := by
  unfold State.asks; decide +kernel

theorem witness_DecayStepReducesEvidenceAndFrees :
    let s := atTime 100 (State.reset.setTracks
      [trackOf idX 1 .forming, trackOf idJ 2 .forming, trackOf idK 1 (.bound 2 7)])
    risingKeys Track.key s.tracking.tracks = true ∧ passed s.clock.now s.tracking.decayAt = true
      ∧ s.track? idV = none ∧ (∀ a : Aisle, 3 * (trackOf idX 1 .forming).evidence[a] / 4 = 0)
      ∧ s.track? idX = some (trackOf idX 1 .forming)
      ∧ s.track? idK = some (trackOf idK 1 (.bound 2 7))
      ∧ (∃ a : Aisle, 3 * (trackOf idJ 2 .forming).evidence[a] / 4 ≠ 0)
      ∧ (∃ q ∈ (s.setQueries { list := [queryOf 1 idX], next := 2 }).queries.list,
          (s.track? q.ident).isSome = true) := by decide +kernel

theorem witness_EvictionVictimComesFirst :
    (State.reset.setTracks [trackOf idX 1 .forming, trackOf idJ 1 (.bound 2 7)]).victim
      = some (trackOf idX 1 .forming)
      ∧ (∀ b n, (trackOf idX 1 .forming).state ≠ .bound b n)
      ∧ (trackOf idX 1 .forming).Peak 1
      ∧ fullTable.tracking.tracks.length = 256 ∧ fullTable.victim = some (trackOf 1 1 .forming)
      ∧ fullTable.track? idX = none ∧ Serves fullTable.site.aisles 2 2 2
      ∧ fullTable.modes.stored[(2 : Aisle)] ≠ .off ∧ fullTable.site.floor < (41 : Byte).toNat :=
  ⟨by decide +kernel, (fun _ _ h => by cases h), by unfold Track.Peak; decide +kernel,
    by decide +kernel, by decide +kernel, by decide +kernel, by unfold Serves; decide +kernel,
    by decide +kernel, by decide +kernel⟩

theorem witness_StepsKeepTheTrackTable :
    TracksFit (State.reset.setTracks [trackOf idX 4095 .forming])
      ∧ ∃ t, step (State.reset.setTracks [trackOf idX 4095 .forming]) = .next t :=
  ⟨by unfold TracksFit; decide +kernel, _, rfl⟩

theorem witness_BreakEventAdvancesOpensOrCrowds :
    let far := aisle5 [exitPassage 7 .opened] (Filter.atReset true) (changing true)
    let near := aisle5 [exitPassage 7 .opened, exitPassage 8 .opened] (changing true)
      (Filter.atReset false)
    let full := aisle5 [exitPassage 7 .opened, exitPassage 8 .opened, exitPassage 9 .opened]
      (changing true) (Filter.atReset false)
    (far.beamDue 4 .outer true = true ∧ far.detects 4 = true
        ∧ ∃ p ∈ far.opens 4, p.direction.far = .outer ∧ p.phase = .opened)
      ∧ (near.beamDue 4 .inner true = true ∧ near.detects 4 = true ∧ (near.opens 4).length < 3
        ∧ ∀ p ∈ near.opens 4, ¬ (p.direction.far = .inner ∧ p.phase = .opened))
      ∧ (full.beamDue 4 .inner true = true ∧ full.detects 4 = true ∧ 3 ≤ (full.opens 4).length
        ∧ ∀ p ∈ full.opens 4, ¬ (p.direction.far = .inner ∧ p.phase = .opened))
      ∧ ((near.setTracks [trackOf idX 700 (.attributed 4 0)]).looseTracks 4).map (·.ident) = [idX] := by
  decide +kernel

theorem witness_ClearEventCompletesTurnsBackAndSweeps :
    let done := aisle5 [exitPassage 7 .crossing] (Filter.atReset true) (changing false)
    let back := aisle5 [exitPassage 7 .opened] (changing false) (Filter.atReset true)
    let rest := aisle5 [{ exitPassage 7 .opened with farBroken := true }] (changing false)
      (Filter.atReset true)
    let sweep := aisle5 [exitPassage 7 .opened, exitPassage 8 .crossing] (changing false)
      (Filter.atReset false)
    (done.beamDue 4 .outer false = true ∧ done.detects 4 = true
        ∧ done.opens 4 = [] ++ exitPassage 7 .crossing :: []
        ∧ (exitPassage 7 .crossing).direction.far = .outer ∧ (exitPassage 7 .crossing).phase = .crossing
        ∧ (done.beam 4 .inner).accepted = true)
      ∧ (back.beamDue 4 .inner false = true ∧ back.detects 4 = true
        ∧ (∀ p ∈ back.opens 4, ¬ (p.direction.far = .inner ∧ p.phase = .crossing))
        ∧ back.opens 4 = [exitPassage 7 .opened] ∧ (exitPassage 7 .opened).direction.near = .inner
        ∧ (exitPassage 7 .opened).farBroken = false)
      ∧ (rest.beamDue 4 .inner false = true ∧ rest.detects 4 = true
        ∧ rest.opens 4 = [{ exitPassage 7 .opened with farBroken := true }])
      ∧ (sweep.beamDue 4 .inner false = true ∧ sweep.detects 4 = true
        ∧ (∀ p ∈ sweep.opens 4, ¬ (p.direction.far = .inner ∧ p.phase = .crossing))
        ∧ (∀ p, sweep.opens 4 ≠ [p]) ∧ (sweep.beam 4 .outer).accepted = false) := by
  refine ⟨by decide +kernel, by decide +kernel, by decide +kernel, by decide +kernel, by decide +kernel,
    by decide +kernel, fun p h => ?_, by decide +kernel⟩
  cases congrArg List.length h

theorem witness_BeamEventsOfUnusedAislesGoNowhere :
    let s := (aisle5 [] (changing true) (Filter.atReset false)).setSite
      { SiteSettings.default with aisles := 4 }
    s.beamDue 4 .inner true = true ∧ s.site.aisles ≤ (4 : Aisle).val
      ∧ (State.reset.setBeams s.beams).modes.stored[(4 : Aisle)] = .off
      ∧ (atTime 10 (State.reset.setBeams s.beams)).beamDue 4 .inner true = true := by decide +kernel

theorem witness_TransitDeadlineClosesThePassage :
    (atTime 8000 (aisle5 [exitPassage 7 .opened] (Filter.atReset true) (Filter.atReset false))
      ).transitDue 4 7 = some (exitPassage 7 .opened)
      ∧ (busDoing (.held (hold0 none)) none).Blind 4
      ∧ ((State.reset.setHealth 4 ⟨true, 2⟩).setHealth 5 ⟨true, 2⟩).Blind 4
      ∧ (State.reset.setHealth 5 ⟨true, 2⟩).Half 4 := by
  refine ⟨by decide +kernel, .inl ⟨_, rfl⟩, .inr ?_, fun _ h => ?_, ?_⟩
  · unfold Between; decide +kernel
  · cases h
  · unfold Between; decide +kernel

/-- Aisle 5 with an open passage and the track bound to it. -/
def carrying : State :=
  (aisle5 [{ exitPassage 7 .opened with items := [idX] }] (Filter.atReset true) (Filter.atReset false)
    ).setTracks [trackOf idX 700 (.bound 4 7)]

theorem witness_StepsKeepTheOpenPassages_binding :
    (PassagesFit carrying ∧ TracksFit carrying ∧ ∃ t, step carrying = .next t)
      ∧ BindingFits carrying := by
  refine ⟨⟨by unfold PassagesFit; decide +kernel, by unfold TracksFit; decide +kernel, _, rfl⟩,
    by decide +kernel, fun a p hp i hi => ?_, fun x hx a n hn => ?_, by decide +kernel⟩
  · have h : ∀ a : Aisle, ∀ p ∈ carrying.opens a, a = 4 ∧ p.number = 7 ∧ p.items = [idX] := by
      decide +kernel
    obtain ⟨rfl, h7, hi'⟩ := h a p hp
    rw [hi', List.mem_singleton] at hi
    subst hi
    exact ⟨trackOf idX 700 (.bound 4 7), by decide +kernel, by rw [h7]; rfl⟩
  · have : x = trackOf idX 700 (.bound 4 7) := List.mem_singleton.1 hx
    subst this
    cases hn
    exact ⟨{ exitPassage 7 .opened with items := [idX] }, by decide +kernel, rfl, List.mem_singleton_self _⟩

theorem witness_StepsKeepTheOpenPassages :
    PassagesFit (aisle5 [exitPassage 7 .opened] (Filter.atReset true) (Filter.atReset false))
      ∧ ∃ t, step (aisle5 [exitPassage 7 .opened] (Filter.atReset true) (Filter.atReset false))
          = .next t :=
  ⟨by unfold PassagesFit; decide +kernel, _, rfl⟩

theorem witness_LookupAnswersFromTheTable :
    let s := withEntry ⟨idJ, .pending, 6, some 1⟩ State.reset
    let p := bytes64 idJ
    let q := bytes64 idV
    s.dispatches ∧ p.length = 8 ∧ q.length = 8 ∧ field64 p 0 ≠ 0 ∧ field64 q 0 ≠ 0
      ∧ s.entry? (field64 p 0) = some ⟨idJ, .pending, 6, some 1⟩
      ∧ s.entry? (field64 q 0) = none
      ∧ s.segments[segmentOf (field64 q 0)].state ≠ .fresh
      ∧ (withSegment 38 ⟨.fresh, []⟩ s).segments[segmentOf (field64 q 0)].state = .fresh := by
  unfold State.dispatches; decide +kernel

theorem witness_IssueBeginIssueAndMarkStoreTheirEntry :
    State.reset.dispatches
      ∧ State.reset.segments[segmentOf (field64 (bytes64 idJ) 0)].entries.length < 1024
      ∧ (fullSegment.entry? idK).isSome = true
      ∧ (bytes64 idJ ++ [0x05, 0xA0, 31]).length = 11
      ∧ (byteAt (bytes64 idJ ++ [0x05, 0xA0, 31]) 10).toNat ≤ 31
      ∧ byteAt (bytes64 idJ ++ [0xFF, 0xFF, 0xFF]) 10 = 0xFF
      ∧ field16 (bytes64 idJ ++ [0x05, 0xA1, 0xFF]) 8 ≠ 0xFFFF
      ∧ 1440 < (field16 (bytes64 idJ ++ [0x05, 0xA1, 0xFF]) 8).toNat
      ∧ (bytes64 idJ ++ [0xFF]).length = 9 ∧ byteAt (bytes64 idJ ++ [0xFF]) 8 = 0xFF
      ∧ State.reset.entry? (field64 (bytes64 idJ ++ [0xFF]) 0) = none
      ∧ (bytes64 idJ ++ [0x03, 0, 0, 31]).length = 12
      ∧ (byteAt (bytes64 idJ ++ [0x03, 0, 0, 31]) 11).toNat ≤ 31
      ∧ byteAt (bytes64 idJ ++ [0x03, 0, 0, 31]) 8 = 0x03
      ∧ byteAt (bytes64 idJ ++ [0x04, 0, 0, 31]) 8 = 0x04 := by
  unfold State.dispatches; decide +kernel

/-- The effects of R142: an undecided item, with a change that decides it and one that does not, and a
SPENT track that was stopped. -/
theorem witness_IssueBeginIssueAndMarkStoreTheirEntry_effects :
    DecidesItem (judged 1) idX (some ⟨idX, .issued, 120, none⟩)
      ∧ ¬ DecidesItem (judged 1) idX (some ⟨idX, .pending, 10, none⟩)
      ∧ DecidesItem (judged 1) idX none
      ∧ StoppedTrack (State.reset.setTracks [trackOf idX 0 (.spent 2 7 (some (.alarm, .tag)))]) idX := by
  refine ⟨⟨_, List.mem_singleton_self _, _, List.mem_singleton_self _, rfl, rfl, fun x h => ?_⟩, ?_,
    ⟨_, List.mem_singleton_self _, _, List.mem_singleton_self _, rfl, rfl, fun x h => ?_⟩,
    ⟨trackOf idX 0 (.spent 2 7 (some (.alarm, .tag))), 2, 7, .alarm, .tag, rfl, rfl, .inl rfl⟩⟩
  · cases h; exact fun c => by cases c
  · rintro ⟨j, hj, r, -, -, -, h⟩
    have : j = judging 9 [waitingItem idX .grace] := List.mem_singleton.1 hj
    subst this
    exact absurd (h _ rfl rfl) (by decide)
  · cases h

theorem witness_CancelReturnAndUnmarkRemoveTheirEntry :
    State.reset.dispatches ∧ (bytes64 idJ).length = 8 ∧ field64 (bytes64 idJ) 0 ≠ 0
      ∧ (withEntry ⟨idJ, .pending, 6, none⟩ State.reset).dispatches
      ∧ (withEntry ⟨idJ, .pending, 6, none⟩ State.reset).entry? (field64 (bytes64 idJ) 0)
          = some ⟨idJ, .pending, 6, none⟩
      ∧ (withEntry ⟨idJ, .lost, 0, none⟩ State.reset).dispatches
      ∧ (withEntry ⟨idJ, .lost, 0, none⟩ State.reset).entry? (field64 (bytes64 idJ) 0)
          = some ⟨idJ, .lost, 0, none⟩
      ∧ State.reset.entry? (field64 (bytes64 idJ) 0) = none := by
  unfold State.dispatches; decide +kernel

theorem witness_RefusedUpdatesChangeNoEntry :
    State.reset.dispatches ∧ fullSegment.dispatches
      ∧ (bytes64 0 ++ [0, 0, 0]).length = 11 ∧ field64 (bytes64 0 ++ [0, 0, 0]) 0 = 0
      ∧ byteAt (bytes64 idJ ++ [0, 0, 32]) 10 ≠ 0xFF ∧ 31 < (byteAt (bytes64 idJ ++ [0, 0, 32]) 10).toNat
      ∧ (bytes64 idJ ++ [32]).length = 9 ∧ 31 < (byteAt (bytes64 idJ ++ [32]) 8).toNat
      ∧ (bytes64 idJ ++ [0x02, 0, 0, 0xFF]).length = 12
      ∧ byteAt (bytes64 idJ ++ [0x02, 0, 0, 0xFF]) 8 ≠ 0x03
      ∧ byteAt (bytes64 idJ ++ [0x02, 0, 0, 0xFF]) 8 ≠ 0x04
      ∧ (bytes64 0).length = 8 ∧ field64 (bytes64 0) 0 = 0
      ∧ fullSegment.entry? (field64 (bytes64 idJ ++ [0, 0, 31]) 0) = none
      ∧ 1024 ≤ fullSegment.segments[segmentOf (field64 (bytes64 idJ ++ [0, 0, 31]) 0)].entries.length
      ∧ (byteAt (bytes64 idJ ++ [0, 0, 31]) 10).toNat ≤ 31
      ∧ (withEntry ⟨idJ, .issued, 6, none⟩ State.reset).entry? (field64 (bytes64 idJ ++ [31]) 0)
          = some ⟨idJ, .issued, 6, none⟩ := by
  unfold State.dispatches; decide +kernel

theorem witness_MinuteTickAgesEveryEntry :
    let s := (withEntry ⟨idJ, .issued, 1, none⟩ (withEntry ⟨idK, .issued, 2, none⟩
      (withEntry ⟨idV, .lost, 0, none⟩ State.reset))).setClock { now := 60000, phase := 60000 }
    (∀ i : Fin 64, risingKeys Entry.key s.segments[i].entries = true) ∧ 60000 ≤ s.clock.phase
      ∧ s.entry? idX = none ∧ s.entry? idJ = some ⟨idJ, .issued, 1, none⟩
      ∧ s.entry? idK = some ⟨idK, .issued, 2, none⟩ ∧ s.entry? idV = some ⟨idV, .lost, 0, none⟩ := by
  decide +kernel

theorem witness_StepsKeepTheItemTable :
    TableFits (State.reset.setRefresh (some (refresh37 6 0 0)))
      ∧ ∃ t, step (State.reset.setRefresh (some (refresh37 6 0 0))) = .next t := by
  have h : ∀ i : Fin 64, (State.reset.setRefresh (some (refresh37 6 0 0))).segments[i].entries = [] := by
    decide +kernel
  refine ⟨⟨fun i => ?_, fun r hr => ?_⟩, _, rfl⟩
  · rw [h i]; exact ⟨by decide, rfl, fun e he => by cases he⟩
  · cases hr
    exact ⟨by decide, by decide, by decide, by decide,
      ⟨by decide, rfl, fun e he => by cases he⟩, by decide, fun c hc => by cases hc⟩

theorem witness_SegBeginStartsARefresh :
    State.reset.dispatches ∧ (State.reset.setRefresh (some (refresh37 6 0 0))).dispatches
      ∧ (State.reset.setRefresh (some (refresh37 6 0 0))).refresh ≠ none
      ∧ State.reset.refresh = none ∧ ([63, 0x04, 0x00] : List Byte).length = 3
      ∧ 63 < (byteAt [64, 0, 0] 0).toNat ∧ 1024 < (field16 [63, 0x04, 0x01] 1).toNat
      ∧ (63 : Fin 64).val = (byteAt [63, 0x04, 0x00] 0).toNat
      ∧ (field16 [63, 0x04, 0x00] 1).toNat ≤ 1024 := by
  unfold State.dispatches; decide +kernel

theorem witness_SegBlockIsTakenInOrder :
    let s := State.reset.setRefresh (some (refresh37 6 5 1))
    let b : List Byte := [37, 0, 1, 0, 1] ++ bytes64 idJ ++ [0x01, 0, 60]
    s.dispatches ∧ 5 ≤ b.length ∧ (byteAt b 4).toNat ≤ 16 ∧ b.length = 5 + 11 * (byteAt b 4).toNat
      ∧ s.refresh = some (refresh37 6 5 1) ∧ (refresh37 6 5 1).segment.val = (byteAt b 0).toNat
      ∧ (refresh37 6 5 1).segment.val ≠ (byteAt [38, 0, 1, 0, 0] 0).toNat
      ∧ State.reset.refresh = none ∧ field16 b 1 = (refresh37 6 5 1).expected
      ∧ field16 [37, 0, 2, 0, 0] 1 ≠ (refresh37 6 5 1).expected
      ∧ (refresh37 6 5 1).received + (byteAt b 4).toNat ≤ (refresh37 6 5 1).declared
      ∧ (refresh37 6 6 1).declared < (refresh37 6 6 1).received + (byteAt b 4).toNat
      ∧ (readEntries b 1 5 = [] ++ ⟨idJ, 0x01, 60⟩ :: []
        ∧ idJ ≠ 0 ∧ segmentOf idJ = (refresh37 6 5 1).segment ∧ EntryClass.ofCode 0x01 = some .issued
        ∧ EntryClass.ofCode 0x02 = some .pending ∧ segmentOf idV ≠ (refresh37 6 5 1).segment
        ∧ EntryClass.ofCode 0x05 = none)
      ∧ byteAt b 3 = 0 ∧ byteAt [37, 0, 1, 1, 0] 3 ≠ 0
      ∧ (refresh37 6 5 1).received + (byteAt [37, 0, 1, 1, 0] 4).toNat
          ≠ (refresh37 6 5 1).declared := by
  unfold State.dispatches; decide +kernel

theorem witness_LastBlockMakesTheSwap :
    let r := { refresh37 6 5 1 with late := [⟨.issue, idJ, some ⟨idJ, .issued, 120, some 2⟩⟩,
      ⟨.returnItem, idK, none⟩] }
    let s := State.reset.setRefresh (some r)
    let b : List Byte := [37, 0, 1, 1, 1] ++ bytes64 idK ++ [0x02, 0, 0]
    s.dispatches ∧ 5 ≤ b.length ∧ (byteAt b 4).toNat ≤ 16 ∧ b.length = 5 + 11 * (byteAt b 4).toNat
      ∧ byteAt b 3 ≠ 0 ∧ s.refresh = some r ∧ r.segment.val = (byteAt b 0).toNat
      ∧ field16 b 1 = r.expected ∧ r.received + (byteAt b 4).toNat = r.declared
      ∧ r.late = [] ++ ⟨.issue, idJ, some ⟨idJ, .issued, 120, some 2⟩⟩ :: [⟨.returnItem, idK, none⟩]
      ∧ (∀ d ∈ [(⟨.returnItem, idK, none⟩ : LateChange)], d.ident ≠ idJ)
      ∧ (r.takeBlock s.clock.now (readEntries b (byteAt b 4).toNat 5)).replayed.2 = 0 := by
  unfold State.dispatches; decide +kernel

/-- The late changes of the witness above name their own identifiers. -/
theorem witness_LastBlockMakesTheSwap_late :
    ∀ d ∈ [(⟨.issue, idJ, some ⟨idJ, .issued, 120, some 2⟩⟩ : LateChange), ⟨.returnItem, idK, none⟩],
      ∀ e, d.entry = some e → e.ident = d.ident := by
  intro d hd e he
  fin_cases hd
  · cases he; rfl
  · cases he

theorem witness_IdleAndSilenceAbortTheRefresh :
    (State.reset.setRefresh (some (refresh37 6 0 0))).refresh = some (refresh37 6 0 0)
      ∧ passed (atTime 2000 State.reset).clock.now (refresh37 6 0 0).idleAt = true
      ∧ (running 1000).supervisor = .running 1 1000
      ∧ passed (atTime 1000 (running 1000)).clock.now 1000 = true := by decide +kernel

theorem witness_TrustAndSupervise :
    State.reset.dispatches ∧ (bytes64 0x0000002000000000).length = 8
      ∧ ([0x02, 0x58] : List Byte).length = 2 ∧ field16 [0x00, 0x00] 0 = 0
      ∧ field16 [0x02, 0x58] 0 ≠ 0 ∧ (field16 [0x02, 0x59] 0).toNat = 601 := by
  unfold State.dispatches; decide +kernel

theorem witness_AnswerMatchesAndStores :
    let p : List Byte := 1 :: bytes64 idX ++ [0x04, 0x05, 0xA1]
    (asked.dispatches ∧ State.reset.dispatches ∧ fullSegment.dispatches) ∧ p.length = 12
      ∧ field64 (1 :: bytes64 0 ++ [0x00, 0xFF, 0xFF]) 1 = 0 ∧ 4 < (byteAt (p.set 9 5) 9).toNat
      ∧ field64 p 1 ≠ 0 ∧ HostAnswer.ofCode (byteAt p 9) = some (.entry .lost)
      ∧ HostAnswer.ofCode (byteAt (p.set 9 0) 9) = some .noException
      ∧ byteAt p 0 ≠ 0
      ∧ (∃ q ∈ asked.queries.list, q.number = byteAt p 0 ∧ q.ident = field64 p 1)
      ∧ ¬ (∃ q ∈ State.reset.queries.list, q.number = byteAt p 0 ∧ q.ident = field64 p 1)
      ∧ field16 p 10 ≠ 0xFFFF ∧ 1440 < (field16 p 10).toNat
      ∧ asked.segments[segmentOf (field64 p 1)].entries.length < 1024
      ∧ (asked.track? (field64 p 1)).isSome = true
      ∧ fullSegment.entry? (field64 p 1) = none
      ∧ 1024 ≤ fullSegment.segments[segmentOf (field64 p 1)].entries.length := by
  unfold State.dispatches; decide +kernel

theorem witness_QueryDeadlineLapsesTheQuery :
    asked.queries.list.find? (fun x => x.number == 1) = some (queryOf 1 idX)
      ∧ passed (atTime 400 asked).clock.now (queryOf 1 idX).deadline = true
      ∧ (asked.track? (queryOf 1 idX).ident).isSome = true := by decide +kernel

theorem witness_StepsKeepTheQueryList : QueriesFit asked ∧ ∃ t, step asked = .next t :=
  ⟨by unfold QueriesFit; decide +kernel, _, rfl⟩

/-- An item whose track stands, in the table or not, with its query outstanding or not. -/
theorem witness_ExitItemIsDecidedByTheTable :
    let x := trackOf idX 700 (.attributed 2 0)
    (asked.track? x.ident = some x ∧ asked.entry? x.ident = none
        ∧ asked.segments[segmentOf x.ident].state ≠ .fresh)
      ∧ (({ x with mark := .asked } : Track).mark = .asked ∧ ∃ q ∈ asked.queries.list, q.ident = x.ident)
      ∧ (withEntry ⟨idX, .lost, 0, none⟩ asked).entry? x.ident = some ⟨idX, .lost, 0, none⟩
      ∧ (withEntry ⟨idX, .lost, 0, none⟩ asked).track? x.ident = some x := by decide +kernel

/-- A passage with a decided item, its track SPENT in it: the verdict is written. -/
theorem witness_CompletedPassageIsGivenOrQueued_given :
    let r : ItemRecord := { waitingItem idX .grace with status := .decided .alarm .tag }
    let s := (inMode .guard).setTracks [trackOf idX 0 (.spent 4 9 none)]
    (judging 9 [r]).items = [] ++ r :: [] ∧ r.status = .decided .alarm .tag
      ∧ s.track? idX = some (trackOf idX 0 (.spent 4 9 none))
      ∧ (trackOf idX 0 (.spent 4 9 none)).state = .spent 4 (judging 9 [r]).number none
      ∧ s.effective (judging 9 [r]).aisle = .guard
      ∧ ((giveVerdict s (judging 9 [r])).track? idX).map (·.state)
          = some (.spent 4 9 (some (.alarm, .tag))) := by decide +kernel

theorem witness_CompletedPassageIsGivenOrQueued :
    (judging 9 []).undecided = false ∧ (judging 9 [waitingItem idX .grace]).undecided = true
      ∧ (judged 15).judging.length < 16
      ∧ (judged 16).judging
          = judging 9 [waitingItem idX .grace] :: List.replicate 15 (judging 9 [waitingItem idX .grace])
      ∧ 16 ≤ (judged 16).judging.length := by decide +kernel

theorem witness_GraceDeadlineDecidesWaitingItems :
    let s := atTime 3000 (State.reset.setJudging [judging 9 [waitingItem idX .grace],
      judging 10 [waitingItem idX .answer]])
    (∃ j ∈ s.judging, j.graceDue s.clock.now 9 = true) ∧ (∀ j ∈ s.judging, j.undecided = true)
      ∧ (∃ j ∈ s.judging, j.graceDue s.clock.now 9 = false)
      ∧ ∀ r ∈ (judging 9 [waitingItem idX .grace]).items,
          r.undecided = true → r.status = .waiting .grace := by decide +kernel

theorem witness_StepsKeepTheVerdictQueue :
    PassagesFit (judged 16) ∧ JudgingFits (judged 16) ∧ ∃ t, step (judged 16) = .next t :=
  ⟨by unfold PassagesFit; decide +kernel, by unfold JudgingFits; decide +kernel, _, rfl⟩

theorem witness_SilenceLowersAndDurationQuiets :
    let s := atTime 5000 (State.reset.setAnnunciator 3 (.sounding 5000 .twoTone .mid 0))
    let k (level : Bool) := atTime 10 (State.reset.setBeams
      { State.reset.beams with key := changing level })
    s.dispatches ∧ namedAisles s.site.aisles 0x00 = none ∧ namedAisles s.site.aisles 0x08 = some [7]
      ∧ (k true).beams.key.due (k true).clock.now (k true).site.debounce true = true
      ∧ (k false).beams.key.due (k false).clock.now (k false).site.debounce false = true
      ∧ s.annunciators[(3 : Aisle)].deadline? = some 5000 ∧ passed s.clock.now 5000 = true
      ∧ s.annunciators[(3 : Aisle)] = .sounding 5000 .twoTone .mid 0
      ∧ 20 = (s.clock.now - 0).toNat / 250 ∧ State.reset.annunciators[(3 : Aisle)] = .quiet := by
  unfold State.dispatches; decide +kernel

theorem witness_StepsKeepAnnunciatorsUnderGuard :
    AnnunciatorsFit ((inMode .guard).setAnnunciator 3 (.showing 5000))
      ∧ ∃ t, step ((inMode .guard).setAnnunciator 3 (.showing 5000)) = .next t :=
  ⟨by unfold AnnunciatorsFit; decide +kernel, _, rfl⟩

/-- The reply queue with this many replies. -/
def replying (n : Nat) : State :=
  State.reset.setLink { State.reset.link with
    replies := List.replicate n { kind := 0x90, ref := 0, status := .ok, body := [] } }

theorem witness_GoodFramesAreCountedDiscardedOrRejected :
    hostFrame (.trust 1 [0]) = some ⟨0x2A, 1, [0]⟩
      ∧ hostFrame (.unknownKindFrame 0x7F 1 []) = some ⟨0x7F, 1, []⟩
      ∧ (restarting .full).link.restart ≠ none ∧ 8 ≤ placesUsed (replying 8)
      ∧ (replying 7).dispatches ∧ RequestKind.ofCode 0x7F = none
      ∧ RequestKind.ofCode 0x2A = some .trust ∧ lengthAllowed .trust [0] = false
      ∧ State.reset.supervisor = .disarmed ∧ (running 1000).supervisor = .running 1 1000
      ∧ (State.reset.setSupervisor (.expired 1)).supervisor = .expired 1 := by
  unfold State.dispatches; decide +kernel

theorem witness_LinkUnitRequests :
    State.reset.dispatches ∧ (127 : Byte).toNat ≤ 127 ∧ 127 < (128 : Byte).toNat
      ∧ (8 : Byte).toNat = (7 : Aisle).val + 1 ∧ 8 < (9 : Byte).toNat
      ∧ (3 : Byte) ≠ 0x01 ∧ (3 : Byte) ≠ 0x02 := by
  unfold State.dispatches; decide +kernel

theorem witness_TransmitterTakesInOrder :
    (replying 1).link.line = none ∧ (replying 1).link.restartDue = false
      ∧ (replying 1).link.replies = [{ kind := 0x90, ref := 0, status := .ok, body := [] }]
      ∧ asked.link.replies = [] ∧ asked.queries.list = [] ++ queryOf 1 idX :: []
      ∧ (queryOf 1 idX).sent = false
      ∧ (∀ q ∈ State.reset.queries.list, q.sent = true)
      ∧ State.reset.link.urgent = [{ number := 0, stamp := 0, body := .notice (.restarted .power) }]
      ∧ (reporting 0 1).link.urgent = []
      ∧ (reporting 0 1).link.routine = [{ number := 0, stamp := 0, body := .notice .evacOn }]
      ∧ (State.reset.setLink { State.reset.link with line := some ⟨[0xA5], 0, true⟩ }).link.line
          = some ⟨[0xA5], 0, true⟩ := by decide +kernel

theorem witness_ReportsAreNumberedAndEvicted :
    (reporting 24 23).link.urgent.length + (reporting 24 23).link.routine.length < 48
      ∧ 48 ≤ (reporting 24 24).link.urgent.length + (reporting 24 24).link.routine.length
      ∧ (reporting 24 24).link.routine ≠ [] ∧ (reporting 48 0).link.routine = [] := by
  decide +kernel

theorem witness_StepsKeepTheLinkAndBusWithinBounds :
    LinkFits (reporting 24 24) ∧ BusFits (reporting 24 24).bus
      ∧ ∃ t, step (reporting 24 24) = .next t :=
  ⟨by unfold LinkFits; decide +kernel, ⟨by decide +kernel, ⟨by decide, by decide⟩⟩, _, rfl⟩

/-- What STATUS shows of a bus in each activity, and of a supervisor and a refresh. -/
theorem witness_LinkUnitRequests_views :
    (replyTo (.statusDevice 1 [0x00]) (busDoing (.waiting (turn3 1) 2) none)).map (fun r => r.2.take 2)
        = some [0x01, 0x03]
      ∧ (replyTo (.statusDevice 1 [0x00]) (running 1000)).map (fun r => (r.2.drop 11).take 7)
        = some [0x01, 0x00, 0x01, 0x00, 0x00, 0x03, 0xE8]
      ∧ (busDoing (.held (hold0 none)) none).Blind 7 :=
  ⟨by decide +kernel, by decide +kernel, .inl ⟨_, rfl⟩⟩

theorem witness_ReceiverFindsEveryFrame :
    (⟨0x20, 0, List.replicate 247 0xA5⟩ : Frame).payload.length ≤ 247 := by decide +kernel

/-- The largest values a request's fields may carry, read back (R177). -/
theorem witness_RequestPayloadsReadBack :
    (∀ n, some 65534 = some n → n < 65535) ∧ (∀ n, some 254 = some n → n < 255)
      ∧ (List.replicate 16 (⟨idJ, 0x01, 65535⟩ : BlockEntry)).length ≤ 16 := by
  refine ⟨fun n h => ?_, fun n h => ?_, by decide⟩ <;> cases h <;> decide

/-- A receiver that has collected a start byte and a LEN of 10h. -/
def collecting : State :=
  State.reset.setRx [{ time := 0, byte := 0xA5 }, { time := 0, byte := 0x10 }]

/-- A wrong CRC of 0, a LEN out of range, a gap of 21 ms, and a frame that is not complete yet. -/
theorem witness_BadFramesAreDiscarded :
    let f : Frame := { kind := 0x26, ref := 7, payload := bytes64 idX }
    State.reset.link.rx = [] ∧ f.payload.length ≤ 247 ∧ 0 ≠ crc16 f.covered
      ∧ (∀ b ∈ f.covered ++ bytes16 0, b ≠ 0xA5)
      ∧ (1 : Byte).toNat < 2 ∧ 249 < (250 : Byte).toNat
      ∧ collecting.link.rx ++ [(0x00 : Byte)].map (fun b => { time := collecting.clock.now, byte := b })
          = ⟨0, 0xA5⟩ :: [⟨0, 0x10⟩, ⟨0, 0x00⟩]
      ∧ (∀ b ∈ [(⟨0, 0x10⟩ : RxByte), ⟨0, 0x00⟩], b.byte ≠ 0xA5)
      ∧ 2 ≤ (0x10 : Byte).toNat ∧ (0x10 : Byte).toNat ≤ 249
      ∧ [(⟨0, 0x00⟩ : RxByte)].length < (0x10 : Byte).toNat + 2
      ∧ (atTime 21 collecting).link.rx ++ [(0x00 : Byte)].map
            (fun b => { time := (atTime 21 collecting).clock.now, byte := b })
          = ⟨0, 0xA5⟩ :: [⟨0, 0x10⟩, ⟨21, 0x00⟩]
      ∧ 20 < age 21 0 ∧ age 20 0 ≤ 20 := by decide +kernel

end Sys2Proof.Tests
end

section
/-! PROOFS. SET-SITE's two refusals (R5, R6). -/

namespace Sys2Proof.Machine

/-- The bytes above the three tone codes of R5. -/
theorem two_lt_toNat_iff {b : Byte} : 2 < b.toNat ↔ b ≠ 0x00 ∧ b ≠ 0x01 ∧ b ≠ 0x02 := by
  constructor
  · intro h
    refine ⟨?_, ?_, ?_⟩ <;> rintro rfl <;> simp at h
  · rintro ⟨h0, h1, h2⟩
    bv_omega

theorem TonePattern.ofCode_eq_none_iff {b : Byte} : TonePattern.ofCode b = none ↔ 2 < b.toNat := by
  rw [two_lt_toNat_iff, TonePattern.ofCode]
  split_ifs with h0 h1 h2
  · simp [h0]
  · simp [h1]
  · simp [h2]
  · exact iff_of_true rfl ⟨h0, h1, h2⟩

theorem TonePitch.ofCode_eq_none_iff {b : Byte} : TonePitch.ofCode b = none ↔ 2 < b.toNat := by
  rw [two_lt_toNat_iff, TonePitch.ofCode]
  split_ifs with h0 h1 h2
  · simp [h0]
  · simp [h1]
  · simp [h2]
  · exact iff_of_true rfl ⟨h0, h1, h2⟩

/-- The aisle-count check (R6) passes where N stays, or where every aisle is OFF. -/
theorem State.aisleCountAllowed_iff {s : State} {f : SiteFields} :
    s.aisleCountAllowed f = true ↔
      max 1 (min 8 f.aisles) = s.site.aisles ∨ ∀ a : Aisle, s.modes.stored[a] = .off := by
  have hall : s.modes.stored.toList.all (· == .off) = true ↔
      ∀ a : Aisle, s.modes.stored[a] = .off := by
    simp [Fin.forall_iff]
  rw [State.aisleCountAllowed, Bool.or_eq_true, hall, beq_iff_eq, clamp]

/-- A dispatched SET-SITE of the right length is taken by the settings block (R159). -/
theorem exec_setSite {s : State} {ref : Byte} {p : List Byte} (hd : s.dispatches)
    (hl : p.length = 19) :
    exec (.setSite ref p) s = .next (takeSetSite ref (readSite p) s.counted) :=
  exec_request (k := .setSite) rfl hd (beq_iff_eq.2 hl)

/-- An undefined tone code is refused before any other field is looked at (R5). -/
theorem takeSetSite_undefinedTone {ref : Byte} {f : SiteFields} {s : State}
    (h : TonePattern.ofCode f.pattern = none ∨ TonePitch.ofCode f.pitch = none) :
    takeSetSite ref f s = reply .setSite ref .range (clampedBody []) s := by
  unfold takeSetSite
  split
  · next hpattern hpitch => simp [hpattern, hpitch] at h
  · rfl

/-- With the tone codes defined, a failed aisle-count check refuses the request (R6). -/
theorem takeSetSite_aislesBusy {ref : Byte} {f : SiteFields} {s : State}
    (hpattern : TonePattern.ofCode f.pattern ≠ none) (hpitch : TonePitch.ofCode f.pitch ≠ none)
    (h : s.aisleCountAllowed f ≠ true) :
    takeSetSite ref f s = reply .setSite ref .busy (clampedBody []) s := by
  obtain ⟨pattern, hpattern⟩ := Option.ne_none_iff_exists'.1 hpattern
  obtain ⟨pitch, hpitch⟩ := Option.ne_none_iff_exists'.1 hpitch
  simp only [takeSetSite, hpattern, hpitch, if_neg h]

/-- Settles O9: each refusal of the settings block, in the counted state; counting the frame leaves the
settings and the modes that the aisle-count check reads. -/
theorem setSiteRefusalsApplyNothing : Obligations.SetSiteRefusalsApplyNothing := by
  intro s ref p hd hl
  rw [exec_setSite hd hl]
  constructor
  · intro htone
    rw [takeSetSite_undefinedTone
      (htone.imp TonePattern.ofCode_eq_none_iff.2 TonePitch.ofCode_eq_none_iff.2)]
    rfl
  · rintro hpattern hpitch hn ⟨a, ha⟩
    have hbusy : s.counted.aisleCountAllowed (readSite p) ≠ true := by
      rw [Ne, State.aisleCountAllowed_iff, counted_site, counted_modes]
      rintro (hsame | hoff)
      · exact hn hsame
      · exact ha (hoff a)
    rw [takeSetSite_aislesBusy (mt TonePattern.ofCode_eq_none_iff.1 (by omega))
      (mt TonePitch.ofCode_eq_none_iff.1 (by omega)) hbusy]
    rfl

end Sys2Proof.Machine
end

section
/-! PROOFS. The attribution test (R46). -/

namespace Sys2Proof.Machine

/-- Folding `max` over the elements of a list that are not skipped stays below a bound exactly when the
start and each of these elements do. -/
theorem foldl_max_unless_le_iff {α : Type} (skip : α → Prop) [DecidablePred skip] (f : α → Nat)
    (n : Nat) (l : List α) (m : Nat) :
    l.foldl (fun m a => if skip a then m else max m (f a)) m ≤ n ↔
      m ≤ n ∧ ∀ a ∈ l, ¬ skip a → f a ≤ n := by
  induction l generalizing m with
  | nil => simp
  | cons a l ih =>
    rw [List.foldl_cons, ih, List.forall_mem_cons]
    split_ifs with h
    · simp [h]
    · simp [h, and_assoc]

/-- The runner-up is the least bound of the other aisles' evidence. -/
theorem runnerUp_le_iff {e : Vector Nat 8} {b : Aisle} {n : Nat} :
    runnerUp e b ≤ n ↔ ∀ a : Aisle, a ≠ b → e[a] ≤ n := by
  rw [runnerUp, foldl_max_unless_le_iff (· = b) (fun a => e[a])]
  simp [mem_allAisles]

/-- The margin over the runner-up is the margin over each other aisle. -/
theorem margin_runnerUp_le_iff {margin n : Nat} {e : Vector Nat 8} {b : Aisle} :
    (16 + margin) * runnerUp e b ≤ n ↔ ∀ a : Aisle, a ≠ b → (16 + margin) * e[a] ≤ n := by
  have hpos : 0 < 16 + margin := by omega
  simp only [Nat.mul_comm (16 + margin), ← Nat.le_div_iff_mul_le hpos, runnerUp_le_iff]

/-- The three conditions of R46, as the test for one aisle computes them. -/
theorem testPasses_iff {threshold margin : Nat} {e : Vector Nat 8} {b : Aisle} :
    testPasses threshold margin e b = true ↔
      (∀ a : Aisle, a ≠ b → e[a] < e[b]) ∧ threshold ≤ e[b]
        ∧ ∀ a : Aisle, a ≠ b → (16 + margin) * e[a] ≤ 16 * e[b] := by
  have hlead : allAisles.all (fun a => a == b || e[a] < e[b]) = true ↔
      ∀ a : Aisle, a ≠ b → e[a] < e[b] := by
    simp [mem_allAisles, or_iff_not_imp_left]
  rw [testPasses, Bool.and_eq_true, Bool.and_eq_true, hlead, decide_eq_true_iff,
    decide_eq_true_iff, margin_runnerUp_le_iff, and_assoc]

/-- At most one aisle passes: each of two would hold less than the other. -/
theorem testPasses_unique {threshold margin : Nat} {e : Vector Nat 8} {b c : Aisle}
    (hb : testPasses threshold margin e b = true) (hc : testPasses threshold margin e c = true) :
    b = c := by
  obtain ⟨leadsB, -⟩ := testPasses_iff.1 hb
  obtain ⟨leadsC, -⟩ := testPasses_iff.1 hc
  by_contra hne
  exact lt_asymm (leadsC b hne) (leadsB c (Ne.symm hne))

/-- As only one aisle can pass, the first one found is the one that passes. -/
theorem attributionTest_eq_some_iff {threshold margin : Nat} {e : Vector Nat 8} {b : Aisle} :
    attributionTest threshold margin e = some b ↔ testPasses threshold margin e b = true := by
  constructor
  · exact List.find?_some
  · intro hb
    have hfound : (attributionTest threshold margin e).isSome :=
      List.find?_isSome.2 ⟨b, mem_allAisles b, hb⟩
    obtain ⟨c, hc⟩ := Option.isSome_iff_exists.1 hfound
    rw [hc, testPasses_unique (List.find?_some hc) hb]

/-- Settles O21: the search over the aisles answers the one that passes, and passing is R46's three
conditions. -/
theorem attributionTestNamesTheClearLeader : Obligations.AttributionTestNamesTheClearLeader :=
  fun _ _ _ _ => attributionTest_eq_some_iff.trans testPasses_iff

end Sys2Proof.Machine
end

section
/-! PROOFS. SEG-BEGIN (R97, R98). -/

namespace Sys2Proof.Machine

/-- The refresh record as R97 creates it. -/
def freshRefresh (segment : Fin 64) (count : Nat) (now : Time) : RefreshRecord :=
  { segment := segment, declared := count, received := 0, skipped := 0
    shadow := [], late := [], expected := 0, idleAt := after now 2000 }

/-- A refresh in flight refuses SEG-BEGIN before any field is looked at. -/
theorem takeSegBegin_busy {ref i : Byte} {n : Nat} {s : State} (h : s.refresh ≠ none) :
    takeSegBegin ref i n s = reply .segBegin ref .busy [] s :=
  if_pos (Option.isSome_iff_ne_none.2 h)

/-- With no refresh in flight, a segment or a count out of bounds refuses it. -/
theorem takeSegBegin_range {ref i : Byte} {n : Nat} {s : State} (hidle : s.refresh = none)
    (h : 63 < i.toNat ∨ 1024 < n) :
    takeSegBegin ref i n s = reply .segBegin ref .range [] s := by
  have hbusy : ¬ s.refresh.isSome := by simp [hidle]
  have hout : ¬ (i.toNat < 64 ∧ n ≤ 1024) := by omega
  rw [takeSegBegin, if_neg hbusy, dif_neg hout]

/-- Otherwise the record is created. -/
theorem takeSegBegin_begins {ref i : Byte} {segment : Fin 64} {n : Nat} {s : State}
    (hidle : s.refresh = none) (hi : segment.val = i.toNat) (hn : n ≤ 1024) :
    takeSegBegin ref i n s =
      reply .segBegin ref .ok [] (s.setRefresh (some (freshRefresh segment n s.clock.now))) := by
  have hbusy : ¬ s.refresh.isSome := by simp [hidle]
  have hin : i.toNat < 64 ∧ n ≤ 1024 := ⟨hi ▸ segment.isLt, hn⟩
  obtain rfl : segment = ⟨i.toNat, hin.1⟩ := Fin.ext hi
  rw [takeSegBegin, if_neg hbusy, dif_pos hin, freshRefresh]

/-- A dispatched SEG-BEGIN of the right length is taken by the refresh unit (R159). -/
theorem exec_segBegin {s : State} {ref : Byte} {p : List Byte} (hd : s.dispatches)
    (hl : p.length = 3) :
    exec (.segBegin ref p) s =
      .next (takeSegBegin ref (byteAt p 0) (field16 p 1).toNat s.counted) :=
  exec_request (k := .segBegin) rfl hd (beq_iff_eq.2 hl)

/-- Settles O37: the three outcomes of the refresh unit, in the counted state, whose refresh and clock
are those before the frame. -/
theorem segBeginStartsARefresh : Obligations.SegBeginStartsARefresh := by
  intro s ref p hd hl
  rw [exec_segBegin hd hl, ← counted_refresh s, ← counted_clock s]
  refine ⟨fun hbusy => ?_, fun hidle hout => ?_, fun i hidle hi hn => ?_⟩
  · rw [takeSegBegin_busy hbusy]; rfl
  · rw [takeSegBegin_range hidle hout]; rfl
  · rw [takeSegBegin_begins hidle hi hn]; rfl

end Sys2Proof.Machine
end

section
/-! PROOFS. ALARM and SOFT verdicts at an annunciator (R148, R149). -/

namespace Sys2Proof.Machine

/-- The table of R148: the rows QUIET and SHOWING agree. -/
theorem Annunciator.alarm_eq (s : State) (x : Annunciator) :
    x.alarm s =
      match x with
      | .sounding _ pattern pitch start => .sounding s.durationEnd pattern pitch start
      | _ => .sounding s.durationEnd s.site.pattern s.site.pitch s.clock.now := by
  cases x with
  | quiet => rfl
  | showing => rfl
  | sounding => rfl

/-- The table of R149: the rows QUIET and SHOWING agree. -/
theorem Annunciator.soft_eq (s : State) (x : Annunciator) :
    x.soft s =
      match x with
      | .sounding d pattern pitch start => .sounding d pattern pitch start
      | _ => .showing s.durationEnd := by
  cases x with
  | quiet => rfl
  | showing => rfl
  | sounding => rfl

/-- An ALARM reaches the annunciator of its aisle. -/
theorem handVerdict_alarm_self (a : Aisle) (s : State) :
    (handVerdict a .alarm s).annunciators[a] = s.annunciators[a].alarm s :=
  (handVerdict_get a a .alarm s).trans (if_pos rfl)

/-- A SOFT reaches the annunciator of its aisle. -/
theorem handVerdict_soft_self (a : Aisle) (s : State) :
    (handVerdict a .soft s).annunciators[a] = s.annunciators[a].soft s :=
  (handVerdict_get a a .soft s).trans (if_pos rfl)

/-- No verdict reaches the annunciator of another aisle. -/
theorem handVerdict_ne {a b : Aisle} (v : Verdict) (s : State) (h : b ≠ a) :
    (handVerdict a v s).annunciators[b] = s.annunciators[b] :=
  (handVerdict_get a b v s).trans (if_neg h.symm)

/-- Settles O50: the aisle's own annunciator follows the tables of R148 and R149, NOTE and PASS change
nothing, and the rest is the frame of `handVerdict`. -/
theorem alarmSoundsAndSoftShows : Obligations.AlarmSoundsAndSoftShows := by
  intro s a
  refine ⟨?alarm, ?soft, rfl, rfl, fun v b hb => ⟨handVerdict_ne v s hb, handVerdict_only a v s⟩⟩
  case alarm => exact (handVerdict_alarm_self a s).trans (Annunciator.alarm_eq s _)
  case soft => exact (handVerdict_soft_self a s).trans (Annunciator.soft_eq s _)

end Sys2Proof.Machine
end

section
/-! PROOFS. The bounds of the link unit and of the bus controller (R20 to R22, R161, R164): what each
operation of the two units does to the report queue, the places of the reply queue and the records. -/

namespace Sys2Proof.Machine

/-! ## Places and reports -/

/-- The READER-PASS in flight of an activity (section 2.6). -/
def Activity.pass? : Activity → Option ReaderPass
  | .held h => h.pass
  | _ => none

theorem readerPass?_eq (s : State) : s.readerPass? = s.bus.activity.pass? := by
  unfold State.readerPass? Activity.pass?
  cases s.bus.activity <;> rfl

/-- The places that are held back for deferred replies (R161): a pending grant and a READER-PASS. -/
def BusController.places (b : BusController) : Nat :=
  (if b.grant.isSome then 1 else 0) + (if b.activity.pass?.isSome then 1 else 0)

theorem placesUsed_eq (s : State) : placesUsed s = s.link.replies.length + s.bus.places := by
  rw [placesUsed, BusController.places, readerPass?_eq, Nat.add_assoc]

/-- How many reports are queued (R164). -/
def LinkUnit.reports (l : LinkUnit) : Nat := l.urgent.length + l.routine.length

/-- The change from `s` to `t` keeps the link unit and the bus controller within their bounds. -/
structure KeepsLinkAndBus (s t : State) : Prop where
  reports : s.link.reports ≤ 48 → t.link.reports ≤ 48
  places : placesUsed s ≤ 8 → placesUsed t ≤ 8
  bus : BusFits s.bus → BusFits t.bus

/-- The change from `s` to `t` keeps the bounds and takes no further place of the reply queue. -/
structure Calm (s t : State) : Prop where
  reports : s.link.reports ≤ 48 → t.link.reports ≤ 48
  places : placesUsed t ≤ placesUsed s
  bus : BusFits s.bus → BusFits t.bus

theorem Calm.keeps {s t : State} (h : Calm s t) : KeepsLinkAndBus s t :=
  ⟨h.reports, h.places.trans, h.bus⟩

theorem Calm.refl (s : State) : Calm s s := ⟨id, le_rfl, id⟩

theorem Calm.trans {s t u : State} (h : Calm s t) (k : Calm t u) : Calm s u :=
  ⟨k.reports ∘ h.reports, k.places.trans h.places, k.bus ∘ h.bus⟩

theorem Calm.ite {s t u : State} {p : Prop} [Decidable p] (h : p → Calm s t) (k : ¬ p → Calm s u) :
    Calm s (if p then t else u) := by
  split
  · exact h ‹_›
  · exact k ‹_›

theorem KeepsLinkAndBus.trans {s t u : State} (h : KeepsLinkAndBus s t) (k : KeepsLinkAndBus t u) :
    KeepsLinkAndBus s u :=
  ⟨k.reports ∘ h.reports, k.places ∘ h.places, k.bus ∘ h.bus⟩

/-- What leaves the reply queue and the bus controller as they are is calm, if the report queue is. -/
theorem calm_of_reports {s t : State} (hr : s.link.reports ≤ 48 → t.link.reports ≤ 48)
    (hq : t.link.replies.length ≤ s.link.replies.length) (hb : t.bus = s.bus) : Calm s t := by
  refine ⟨hr, ?_, fun h => hb ▸ h⟩
  rw [placesUsed_eq, placesUsed_eq, hb]
  omega

/-- A change of other components is calm. -/
theorem calm_of_only {cs : List Component} {s t : State} (h : Only cs s t)
    (hl : Component.link ∉ cs) (hb : Component.bus ∉ cs) : Calm s t := by
  have hlink := h.link hl
  exact calm_of_reports (by rw [hlink]; exact id) (by rw [hlink]) (h.bus hb)

theorem createReport_calm (u : Bool) (b : ReportBody) (s : State) : Calm s (createReport u b s) :=
  calm_of_reports createReport_length (by simp) rfl

theorem notice_calm (n : Notice) (s : State) : Calm s (notice n s) := createReport_calm ..

/-- A reply takes one place. -/
theorem placesUsed_placeReply (k r : Byte) (st : Status) (b : List Byte) (s : State) :
    placesUsed (placeReply k r st b s) = placesUsed s + 1 := by
  have hb : (placeReply k r st b s).bus = s.bus := rfl
  rw [placesUsed_eq, placesUsed_eq, hb, placeReply_replies, List.length_append,
    List.length_singleton]
  omega

theorem placeReply_keeps {k r : Byte} {st : Status} {b : List Byte} {s : State}
    (h : placesUsed s < 8) : KeepsLinkAndBus s (placeReply k r st b s) :=
  ⟨id, fun _ => by rw [placesUsed_placeReply]; omega, id⟩

/-! ## The bus controller -/

/-- A health record within the bounds of section 2.3. -/
def Health.fits (h : Health) : Prop := h.count ≤ 2 ∧ (h.faulted = true → h.count = 2)

theorem busFits_iff {b : BusController} :
    BusFits b ↔ (∀ p : Pedestal, b.health[p].fits) ∧ b.activity.fits b.grant.isSome := Iff.rfl

/-- The record of a new pedestal, of a restored one and of one above N. -/
theorem Health.fits_clean : Health.fits { faulted := false, count := 0 } := by simp [Health.fits]

theorem Health.afterTurn_fits {h : Health} (hf : h.fits) (answered : Bool) :
    (h.afterTurn answered).fits := by
  obtain ⟨hle, hfault⟩ := hf
  unfold Health.afterTurn
  split_ifs with h1 h2 h3
  · exact ⟨hle, hfault⟩
  · exact ⟨by simp, fun h => absurd h h1⟩
  · exact ⟨by simpa using h3, fun h => absurd h h1⟩
  · exact ⟨hle, fun _ => by simp only; omega⟩

theorem Turn.first_fits (p : Pedestal) (probe : Bool) : (Turn.first p probe).fits :=
  ⟨Nat.zero_le _, Nat.zero_le _⟩

/-- The activity that a started round or turn leaves fits a bus with no grant pending. -/
theorem Activity.fits_of_firstPoll {now : Time} {x : Activity} (h : x.firstPoll now ∨ x = .idle) :
    x.fits false := by
  rcases h with ⟨p, q, rfl⟩ | rfl
  · exact Turn.first_fits p q
  · rfl

theorem Activity.pass?_of_firstPoll {now : Time} {x : Activity} (h : x.firstPoll now ∨ x = .idle) :
    x.pass? = none := by
  rcases h with ⟨p, q, rfl⟩ | rfl <;> rfl

/-- A turn in progress fits under a pending grant as without one. -/
theorem Activity.fits_grant {x : Activity} {g : Bool} (hi : x ≠ .idle) (hh : ∀ h, x ≠ .held h)
    (hf : x.fits g) : x.fits true := by
  cases x with
  | idle => exact absurd rfl hi
  | held h => exact absurd rfl (hh h)
  | ended => rfl
  | polling => exact hf
  | receiving => exact hf
  | delivering => exact hf
  | waiting => exact hf

/-- A pending grant and a READER-PASS hold back the places they held before, or fewer. -/
theorem places_le {b b' : BusController} (hg : b'.grant = b.grant)
    (hp : b'.activity.pass?.isSome = true → b.activity.pass?.isSome = true) :
    b'.places ≤ b.places := by
  unfold BusController.places
  rw [hg]
  gcongr
  split_ifs with h h' <;> simp_all

/-- What changes the bus controller alone, and holds back no more places, is calm. -/
theorem setBus_calm {s : State} {b : BusController} (hp : b.places ≤ s.bus.places)
    (hf : BusFits s.bus → BusFits b) : Calm s (s.setBus b) := by
  refine ⟨id, ?_, hf⟩
  rw [placesUsed_eq, placesUsed_eq]
  exact Nat.add_le_add_left hp _

/-- A controller with the records and the grant of another, in a first poll or idle: a new round, or the
next turn of one. -/
theorem setBus_calm_of_records {s : State} {b : BusController} {now : Time}
    (hrec : SameRecords s.bus b) (hg : BusFits s.bus → s.bus.grant.isSome = false)
    (hact : b.activity.firstPoll now ∨ b.activity = .idle) : Calm s (s.setBus b) := by
  refine setBus_calm (places_le hrec.grant ?_) fun hf => busFits_iff.2 ⟨?_, ?_⟩
  · simp [Activity.pass?_of_firstPoll hact]
  · rw [hrec.health]; exact (busFits_iff.1 hf).1
  · rw [hrec.grant, hg hf]; exact Activity.fits_of_firstPoll hact

/-! ## Turns and answers -/

theorem recordTurn_calm (p : Pedestal) (answered : Bool) (s : State) :
    Calm s (recordTurn p answered s) := by
  obtain ⟨hact, hgrant, -⟩ := recordTurn_rest p answered s
  refine ⟨fun h => ?_, ?_, fun hf => busFits_iff.2 ⟨fun q => ?_, ?_⟩⟩
  · rw [recordTurn_link]
    split
    · exact createReport_length h
    · exact h
  · have hq : (recordTurn p answered s).link.replies = s.link.replies := by
      rw [recordTurn_link]
      split <;> simp
    rw [placesUsed_eq, placesUsed_eq, hq]
    exact Nat.add_le_add_left (places_le hgrant (by rw [hact]; exact id)) _
  · rw [recordTurn_health]
    split
    · exact Health.afterTurn_fits (hf.1 p) answered
    · exact hf.1 q
  · rw [hact, hgrant]; exact hf.2

/-- The end of a turn leaves the bus waiting for the grant, in the next turn, or idle (R22, R28). -/
theorem endTurn_calm (t : Turn) (mute : Bool) (s : State) : Calm s (endTurn t mute s) := by
  unfold endTurn
  simp only []
  have hrecord : Calm s (if t.dropped = true then s
      else recordTurn t.pedestal (t.answered && !mute) s) :=
    Calm.ite (fun _ => .refl s) fun _ => recordTurn_calm ..
  refine hrecord.trans (Calm.ite (fun hg => ?_) fun hg => ?_)
  · exact setBus_calm (places_le rfl nofun) fun hf => ⟨hf.1, hg⟩
  · obtain ⟨hrec, hact⟩ := nextTurn_spec _ _ _
    exact setBus_calm_of_records hrec (fun _ => by simpa using hg) hact

/-- A clean record of one pedestal keeps the bounds. -/
theorem setHealth_calm (p : Pedestal) (s : State) :
    Calm s (s.setHealth p { faulted := false, count := 0 }) := by
  refine setBus_calm (places_le rfl id) fun hf => ⟨fun q => ?_, hf.2⟩
  have hget := setHealth_get s p q { faulted := false, count := 0 }
  simp only [State.setHealth, State.setBus_bus] at hget
  rw [hget]
  split
  · exact Health.fits_clean
  · exact hf.1 q

theorem restoreProbed_calm (t : Turn) (s : State) : Calm s (restoreProbed t s) :=
  Calm.ite (fun _ => (setHealth_calm ..).trans (notice_calm ..)) fun _ => .refl s

/-- A change from one activity to another of a turn. -/
theorem setBus_calm_of_turn {s : State} {b : BusController} (hh : b.health = s.bus.health)
    (hg : b.grant = s.bus.grant) (hp : b.activity.pass? = none)
    (hf : s.bus.activity.fits s.bus.grant.isSome → b.activity.fits s.bus.grant.isSome) :
    Calm s (s.setBus b) :=
  setBus_calm (places_le hg (by simp [hp])) fun h => ⟨hh ▸ h.1, hg ▸ hf h.2⟩

theorem finishAnswer_calm (t : Turn) (more : Bool) (s : State) : Calm s (finishAnswer t more s) := by
  refine Calm.ite (fun h => ?_) fun _ => endTurn_calm ..
  simp only [Bool.and_eq_true, decide_eq_true_eq] at h
  exact setBus_calm_of_turn rfl rfl rfl fun _ => ⟨Nat.zero_le _, h.2⟩

section
variable {s : State} {t : Turn} (ht : s.bus.activity.fits s.bus.grant.isSome → t.fits)
include ht

theorem deliver_calm {more : Bool} {rest : List SightingRecord}
    (hl : s.bus.activity.fits s.bus.grant.isSome → rest.length ≤ 5) :
    Calm s (deliver t more rest s) := by
  cases rest with
  | nil => exact finishAnswer_calm ..
  | cons r rs =>
    exact setBus_calm_of_turn rfl rfl rfl fun hf => ⟨ht hf, List.cons_ne_nil r rs, hl hf⟩

theorem takeExtension_calm (n : Nat) : Calm s (takeExtension t n s) := by
  obtain ⟨-, hact, hg, -⟩ := restoreProbed_spec t s
  refine (restoreProbed_calm t s).trans (Calm.ite (fun h => ?_) fun _ => endTurn_calm ..)
  refine setBus_calm_of_turn rfl rfl rfl fun hf => ⟨h, ?_⟩
  rw [hact, hg] at hf
  exact (ht hf).2

end

/-! ## The hold and the grant -/

/-- A reply that frees the place it takes: a deferred reply, placed as its place is given up. -/
theorem setBus_placeReply_calm {s : State} {b : BusController} {k r : Byte} {st : Status}
    {body : List Byte} (hp : b.places + 1 ≤ s.bus.places) (hf : BusFits s.bus → BusFits b) :
    Calm s (placeReply k r st body (s.setBus b)) := by
  refine ⟨id, ?_, hf⟩
  rw [placesUsed_placeReply, placesUsed_eq, placesUsed_eq]
  exact Nat.add_le_add_left hp _

/-- A hold fits whatever READER-PASS is in flight. -/
theorem busFits_of_held {b b' : BusController} {h h' : Hold} (hb : b.activity = .held h)
    (hb' : b'.activity = .held h') (hh : b'.health = b.health) (hg : b'.grant = b.grant)
    (hf : BusFits b) : BusFits b' := by
  obtain ⟨hrec, hact⟩ := busFits_iff.1 hf
  rw [hb] at hact
  refine busFits_iff.2 ⟨hh ▸ hrec, ?_⟩
  rw [hb', hg]
  exact hact

/-- What holds back one more place keeps the bounds where a place is free. -/
theorem setBus_keeps_of_place {s : State} {b : BusController} (h : placesUsed s < 8)
    (hp : b.places ≤ s.bus.places + 1) (hf : BusFits s.bus → BusFits b) :
    KeepsLinkAndBus s (s.setBus b) := by
  refine ⟨id, fun _ => ?_, hf⟩
  rw [placesUsed_eq] at h ⊢
  rw [State.setBus_bus, State.setBus_link]
  omega

/-- The bus held by the host without a READER-PASS, and no grant pending. -/
theorem busFits_held {b : BusController} {h : Hold} (hf : BusFits b) :
    BusFits { b with activity := .held h, grant := none } := ⟨hf.1, rfl⟩

/-- The grant after a turn takes the place of the deferred reply. -/
theorem grantBus_calm {ref r : Byte} {s : State} (hg : s.bus.grant = some r) :
    Calm s (grantBus ref s) := by
  refine setBus_placeReply_calm ?_ busFits_held
  simp [BusController.places, hg, Activity.pass?]

/-- The grant of an idle bus takes a place. -/
theorem grantBus_keeps {ref : Byte} {s : State} (h : placesUsed s < 8) :
    KeepsLinkAndBus s (grantBus ref s) := by
  refine KeepsLinkAndBus.trans (Calm.keeps (setBus_calm ?_ busFits_held)) (placeReply_keeps ?_)
  · simp [BusController.places, Activity.pass?]
  · refine lt_of_le_of_lt ?_ h
    rw [placesUsed_eq, placesUsed_eq]
    simp [BusController.places, Activity.pass?]

/-- A BUS-TAKE whose reply is deferred takes a place (R161). -/
theorem deferGrant_keeps {ref : Byte} {s : State} (h : placesUsed s < 8) (hg : s.bus.grant = none)
    (hi : s.bus.activity ≠ .idle) (hh : ∀ h, s.bus.activity ≠ .held h) :
    KeepsLinkAndBus s (s.setBus { s.bus with grant := some ref }) := by
  refine setBus_keeps_of_place h ?_ fun hf => ⟨hf.1, Activity.fits_grant hi hh hf.2⟩
  simp [BusController.places, hg, Nat.add_comm]

theorem takeBusTake_keeps {ref : Byte} {s : State} (h : placesUsed s < 8) :
    KeepsLinkAndBus s (takeBusTake ref s) := by
  unfold takeBusTake
  split
  · exact placeReply_keeps h
  · next hg =>
    rw [Option.not_isSome_iff_eq_none] at hg
    split
    · exact placeReply_keeps h
    · exact grantBus_keeps h
    all_goals next heq => exact deferGrant_keeps h hg (by simp [heq]) (by simp [heq])

/-- The reply of a READER-PASS takes the place that was held back for it. -/
theorem answerPass_calm {h : Hold} {x : ReaderPass} {s : State} {st : Status} {body : List Byte}
    (hh : s.bus.activity = .held h) (hp : h.pass = some x) :
    Calm s (reply .readerPass x.ref st body
      (s.setBus { s.bus with activity := .held { h with pass := none } })) := by
  refine setBus_placeReply_calm ?_ (busFits_of_held hh rfl rfl rfl)
  simp [BusController.places, hh, hp, Activity.pass?]

theorem failReaderPass_calm {h : Hold} {s : State} (hh : s.bus.activity = .held h) :
    Calm s (failReaderPass h s) := by
  unfold failReaderPass
  split
  · next p hp => exact answerPass_calm hh hp
  · exact .refl s

theorem failReaderPass_bus {h : Hold} {s : State} (hh : s.bus.activity = .held h) :
    (failReaderPass h s).bus = { s.bus with activity := .held { h with pass := none } } := by
  unfold failReaderPass
  split
  · rfl
  · next hp =>
    obtain ⟨since, deadline, pass⟩ := h
    obtain rfl : pass = none := hp
    rw [← hh]

theorem endHold_calm {h : Hold} {s : State} (hh : s.bus.activity = .held h) :
    Calm s (endHold h s) := by
  refine (failReaderPass_calm hh).trans ?_
  obtain ⟨hrec, -, hact⟩ := startRound_spec (failReaderPass h s).clock.now
    (failReaderPass h s).site.aisles (failReaderPass h s).bus
  refine setBus_calm_of_records hrec (fun hf => ?_) hact
  have := hf.2
  rw [failReaderPass_bus hh] at this ⊢
  exact this

/-- A turn in progress fits as well when a pending grant is withdrawn. -/
theorem Activity.fits_withdrawn {x : Activity} (he : ∀ p, x ≠ .ended p) (hf : x.fits true) :
    x.fits false := by
  cases x with
  | idle => cases hf
  | held => cases hf
  | ended p => exact absurd rfl (he p)
  | polling => exact hf
  | receiving => exact hf
  | delivering => exact hf
  | waiting => exact hf

theorem cancelGrant_calm {ref r : Byte} {s : State} (hg : s.bus.grant = some r) :
    Calm s (cancelGrant ref s) := by
  have hplaces : BusController.places { s.bus with grant := none } + 1 = s.bus.places := by
    simp [BusController.places, hg, Nat.add_comm]
  have hsame : (∀ p, s.bus.activity ≠ .ended p) → BusFits s.bus →
      BusFits { s.bus with grant := none } := by
    intro he hf
    have hact := hf.2
    rw [hg] at hact
    exact ⟨hf.1, Activity.fits_withdrawn he hact⟩
  unfold cancelGrant
  simp only []
  split
  · next p hp =>
    obtain ⟨hrec, hact⟩ := nextTurn_spec s.clock.now s.site.aisles { s.bus with grant := none }
    refine Calm.trans (t := reply .busTake ref .cancelled []
      (s.setBus (nextTurn s.clock.now s.site.aisles { s.bus with grant := none })))
      (setBus_placeReply_calm ?_ fun hf => busFits_iff.2 ⟨?_, ?_⟩) (.refl _)
    · rw [← hplaces]
      exact Nat.add_le_add_right (places_le hrec.grant (by simp [Activity.pass?_of_firstPoll hact])) 1
    · rw [hrec.health]; exact hf.1
    · rw [hrec.grant]; exact Activity.fits_of_firstPoll hact
  · next hne => exact setBus_placeReply_calm hplaces.le (hsame hne)

theorem takeBusGive_keeps {ref : Byte} {s : State} (h : placesUsed s < 8) :
    KeepsLinkAndBus s (takeBusGive ref s) := by
  have hok : ∀ {m : State}, Calm s m → KeepsLinkAndBus s (reply .busGive ref .ok [] m) :=
    fun hm => hm.keeps.trans (placeReply_keeps (hm.places.trans_lt h))
  unfold takeBusGive
  split
  · next hh => exact hok (endHold_calm hh)
  · split
    · next hg => exact hok (cancelGrant_calm hg)
    · exact placeReply_keeps h

theorem takeReaderPass_keeps {ref p : Byte} {bytes : List Byte} {s : State} (h : placesUsed s < 8) :
    KeepsLinkAndBus s (takeReaderPass ref p bytes s) := by
  unfold takeReaderPass
  split
  · next hold hh =>
    split
    · split
      · exact placeReply_keeps h
      · refine setBus_keeps_of_place h ?_ (busFits_of_held hh rfl rfl rfl)
        simp only [BusController.places]
        split_ifs <;> omega
    · exact placeReply_keeps h
  · exact placeReply_keeps h

/-- What a READER-PASS in flight becomes keeps the hold. -/
theorem setPass_calm {h : Hold} {s : State} (hh : s.bus.activity = .held h) {x : ReaderPass}
    (hp : h.pass.isSome = true) :
    Calm s (s.setBus { s.bus with activity := .held { h with pass := some x } }) := by
  exact setBus_calm (places_le rfl fun _ => by rw [hh]; exact hp) (busFits_of_held hh rfl rfl rfl)

end Sys2Proof.Machine
end

section
/-! PROOFS. What one step can do: every step is a chain of pieces, each of which changes few components
and says what the invariants need of it.  The invariants are derived from the pieces. -/

namespace Sys2Proof.Machine

/-! ## Calm operations of the detection work -/

theorem Calm.foldl {α : Type} {f : State → α → State} (h : ∀ s a, Calm s (f s a)) (l : List α)
    (s : State) : Calm s (l.foldl f s) := by
  induction l generalizing s with
  | nil => exact .refl s
  | cons a l ih => exact (h s a).trans (ih _)

theorem giveVerdict_calm (s : State) (j : Judging) : Calm s (giveVerdict s j) := by
  have hwrite : Only [.tracking] s (j.items.foldl (writeVerdict j.number) s) :=
    Only.foldl (writeVerdict_only j.number) j.items s
  refine Calm.trans ((calm_of_only hwrite (by decide) (by decide)).trans ?_) (createReport_calm ..)
  exact Calm.ite (fun _ => calm_of_only (handVerdict_only ..) (by decide) (by decide))
    fun _ => .refl _

theorem setJudging_calm (s : State) (js : List Judging) : Calm s (s.setJudging js) :=
  calm_of_only (only_setJudging s js) (by decide) (by decide)

theorem settle_calm (f : Judging → Judging) (s : State) : Calm s (settle f s) :=
  (setJudging_calm ..).trans (Calm.foldl giveVerdict_calm _ _)

theorem forceOldest_calm (s : State) : Calm s (forceOldest s) := by
  unfold forceOldest
  split
  · exact .refl s
  · exact (setJudging_calm ..).trans (giveVerdict_calm ..)

theorem judgePassage_calm (j : Judging) (s : State) : Calm s (judgePassage j s) := by
  refine Calm.ite (fun _ => ?_) fun _ => giveVerdict_calm s j
  refine Calm.trans (t := if s.judging.length < 16 then s else forceOldest s) ?_
    (setJudging_calm ..)
  exact Calm.ite (fun _ => .refl s) fun _ => forceOldest_calm s

theorem leave_only (a : Aisle) (p : Passage) (f : Track → Track) (s : State) :
    Only [.passages, .tracking] s
      (p.items.foldl (fun x id => x.modifyTrack id f) (leaveList a p s)) :=
  ((leaveList_only a p s).mono (by decide)).trans
    ((foldl_modifyTrack_only f p.items _).mono (by decide))

theorem completePassage_calm (a : Aisle) (s : State) (p : Passage) :
    Calm s (completePassage a s p) :=
  (calm_of_only (leave_only a p Track.spend s) (by decide) (by decide)).trans (judgePassage_calm ..)

theorem closePassage_calm (a : Aisle) (o : PassageOutcome) (s : State) (p : Passage) :
    Calm s (closePassage a o s p) :=
  (calm_of_only (leave_only a p (Track.unbind s.clock.now) s) (by decide) (by decide)).trans
    (createReport_calm ..)

/-! ## Pieces -/

/-- The components that only the bounds of the link unit and of the bus controller speak of. -/
abbrev restParts : List Component := [.clock, .site, .bus, .supervisor, .link, .choice, .pending]

/-- A rewriting of tracks that keeps what the bounds of the track table and its agreement with the open
passages speak of. -/
def Retouches (f : Track → Track) : Prop :=
  ∀ x, (f x).ident = x.ident ∧ (∀ a : Aisle, (f x).evidence[a] ≤ x.evidence[a])
    ∧ ∀ a n, (f x).state = .bound a n ↔ x.state = .bound a n

/-- An identifier whose track may be freed (R53): it has none, or one that is not BOUND. -/
def Freeable (s : State) (id : Ident) : Prop :=
  s.track? id = none ∨ ∃ x ∈ s.tracking.tracks, x.ident = id ∧ x.isBound = false

/-- What the agreement of tracks and passages speaks of in an open passage: its number and its items. -/
def Passage.holds (p : Passage) : Word16 × List Ident := (p.number, p.items)

/-- A change of judging passages that keeps what the bounds of the verdict queue speak of. -/
def KeepsShape (f : Judging → Judging) : Prop :=
  ∀ j, (f j).direction = j.direction ∧ (f j).items.length = j.items.length

/-- The detection work has been given up: no track, no open passage, no judging passage, no query and no
annunciator on. -/
structure Afresh (t : State) : Prop where
  tracks : t.tracking.tracks = []
  opens : ∀ a, t.opens a = []
  queries : t.queries = QueryUnit.restarted
  judging : t.judging = []
  quiet : ∀ a : Aisle, t.annunciators[a] = .quiet

/-- The pieces that the steps are made of. -/
inductive Piece : State → State → Prop
  /-- Time, settings, bus, host link, free choices and the queue. -/
  | rest {s t : State} (frame : Only restParts s t) (keeps : KeepsLinkAndBus s t) : Piece s t
  /-- The item table and the refresh record. -/
  | table {s t : State} (frame : Only [.segments, .refresh] s t)
      (keeps : TableFits s → TableFits t) : Piece s t
  /-- The query list. -/
  | queries {s t : State} (frame : Only [.queries] s t) (keeps : QueriesFit s → QueriesFit t) :
      Piece s t
  /-- The filters of beams and key. -/
  | beams {s t : State} (frame : Only [.beams] s t) : Piece s t
  /-- Modes and annunciators. -/
  | lights {s t : State} (frame : Only [.modes, .annunciators] s t)
      (keeps : AnnunciatorsFit s → AnnunciatorsFit t) : Piece s t
  /-- Tracks rewritten, and the decay timer. -/
  | tracks {s t : State} {f : Track → Track} (frame : Only [.tracking] s t) (hf : Retouches f)
      (map : t.tracking.tracks = s.tracking.tracks.map f) : Piece s t
  /-- A track that is not BOUND leaves the table. -/
  | frees {s : State} (id : Ident) (free : Freeable s id) :
      Piece s (s.setTracks (dropKeyed Track.key id.toNat s.tracking.tracks))
  /-- A track of the table, or a new one for which there is room, takes a sighting. -/
  | hears {s : State} {x : Track} (a : Aisle) (c : Nat) (g : Bool) (ident : x.ident ≠ 0)
      (known : s.track? x.ident = some x ∨ s.track? x.ident = none
        ∧ s.tracking.tracks.length < 256 ∧ x = newTrack x.ident g s.clock.now) :
      Piece s (hearTrack x a c g s)
  /-- A passage opens. -/
  | opens {s : State} (a : Aisle) (b : Beam) (room : (s.opens a).length < 3) :
      Piece s (openPassage a b s)
  /-- Phases, flags and CROWDED. -/
  | marks {s : State} (a : Aisle) (r : AisleRecord)
      (same : r.opens.map Passage.holds = (s.opens a).map Passage.holds) : Piece s (s.setAisle a r)
  | completes {s : State} {a : Aisle} {p : Passage} (mem : p ∈ s.opens a) :
      Piece s (completePassage a s p)
  | closes {s : State} {a : Aisle} {p : Passage} (o : PassageOutcome) (mem : p ∈ s.opens a) :
      Piece s (closePassage a o s p)
  | settles {s : State} {f : Judging → Judging} (shape : KeepsShape f) : Piece s (settle f s)
  /-- A restart. -/
  | restarts {s t : State} (afresh : Afresh t) (table : TableFits s → TableFits t)
      (keeps : KeepsLinkAndBus s t) : Piece s t

/-- A chain of pieces that as a whole keeps the open passages within their bounds: an accepted clear
does so only with its sweep, and a change to OFF only with its dismissals. -/
structure Runs (s t : State) : Prop where
  pieces : Relation.ReflTransGen Piece s t
  passages : PassagesFit s → PassagesFit t

theorem Runs.refl (s : State) : Runs s s := ⟨.refl, id⟩

theorem Runs.trans {s t u : State} (h : Runs s t) (k : Runs t u) : Runs s u :=
  ⟨h.pieces.trans k.pieces, k.passages ∘ h.passages⟩

theorem Runs.ite {s t u : State} {p : Prop} [Decidable p] (h : p → Runs s t) (k : ¬ p → Runs s u) :
    Runs s (if p then t else u) := by
  split
  · exact h ‹_›
  · exact k ‹_›

theorem Runs.foldl {α : Type} {f : State → α → State} (h : ∀ s a, Runs s (f s a)) (l : List α)
    (s : State) : Runs s (l.foldl f s) := by
  induction l generalizing s with
  | nil => exact .refl s
  | cons a l ih => exact (h s a).trans (ih _)

/-- The bounds of the open passages read passages, modes, beams and settings only. -/
theorem passagesFit_of_only {cs : List Component} {s t : State} (h : Only cs s t)
    (h1 : Component.passages ∉ cs) (h2 : Component.modes ∉ cs) (h3 : Component.beams ∉ cs)
    (h4 : Component.site ∉ cs) (hs : PassagesFit s) : PassagesFit t := by
  intro a
  have := hs a
  rw [State.opens, State.bothClear] at *
  rw [h.passages h1, h.modes h2, h.beams h3, h.site h4]
  exact this

theorem Runs.of_piece {cs : List Component} {s t : State} (h : Piece s t) (frame : Only cs s t)
    (h1 : Component.passages ∉ cs) (h2 : Component.modes ∉ cs) (h3 : Component.beams ∉ cs)
    (h4 : Component.site ∉ cs) : Runs s t :=
  ⟨.single h, passagesFit_of_only frame h1 h2 h3 h4⟩

/-- A chain of pieces that takes no further place of the reply queue. -/
structure RunsQuiet (s t : State) : Prop extends Runs s t where
  places : placesUsed t ≤ placesUsed s

theorem RunsQuiet.refl (s : State) : RunsQuiet s s := ⟨.refl s, le_rfl⟩

theorem RunsQuiet.trans {s t u : State} (h : RunsQuiet s t) (k : RunsQuiet t u) : RunsQuiet s u :=
  ⟨h.toRuns.trans k.toRuns, k.places.trans h.places⟩

theorem RunsQuiet.ite {s t u : State} {p : Prop} [Decidable p] (h : p → RunsQuiet s t)
    (k : ¬ p → RunsQuiet s u) : RunsQuiet s (if p then t else u) := by
  split
  · exact h ‹_›
  · exact k ‹_›

theorem RunsQuiet.foldl {α : Type} {f : State → α → State} (h : ∀ s a, RunsQuiet s (f s a))
    (l : List α) (s : State) : RunsQuiet s (l.foldl f s) := by
  induction l generalizing s with
  | nil => exact .refl s
  | cons a l ih => exact (h s a).trans (ih _)

/-- The components of a calm operation of the bus, the host link, the time base and the queue. -/
abbrev calmParts : List Component := [.clock, .bus, .supervisor, .link, .choice, .pending]

theorem runsQuiet_of_calm {cs : List Component} {s t : State} (h : Only cs s t) (hc : Calm s t)
    (hsub : ∀ c ∈ cs, c ∈ calmParts) : RunsQuiet s t := by
  have hcalm : Only calmParts s t := h.mono hsub
  exact ⟨.of_piece (.rest (hcalm.mono (by decide)) hc.keeps) hcalm (by decide) (by decide)
    (by decide) (by decide), hc.places⟩

/-- A piece of other components than bus and link takes no place. -/
theorem runsQuiet_of_piece {cs : List Component} {s t : State} (h : Piece s t) (frame : Only cs s t)
    (hcs : ∀ c ∈ cs, c ∉ [Component.passages, .modes, .beams, .site, .bus, .link]) :
    RunsQuiet s t := by
  have hnot : ∀ c ∈ [Component.passages, .modes, .beams, .site, .bus, .link], c ∉ cs :=
    fun c hc hmem => hcs c hmem hc
  exact ⟨.of_piece h frame (hnot _ (by decide)) (hnot _ (by decide)) (hnot _ (by decide))
    (hnot _ (by decide)), (calm_of_only frame (hnot _ (by decide)) (hnot _ (by decide))).places⟩

/-- Placing a reply is the last piece of a request: the place was free. -/
theorem RunsQuiet.reply {s m : State} (h : RunsQuiet s m) (hp : placesUsed s < 8) (k : RequestKind)
    (ref : Byte) (st : Status) (body : List Byte) : Runs s (reply k ref st body m) :=
  h.toRuns.trans (.of_piece (.rest ((reply_only ..).mono (by decide))
    (placeReply_keeps (h.places.trans_lt hp))) (reply_only k ref st body m) (by decide) (by decide)
    (by decide) (by decide))

/-- The operations of bus and link that may take the place that is free. -/
theorem runs_of_keeps {cs : List Component} {s t : State} (h : Only cs s t)
    (hk : KeepsLinkAndBus s t) (hsub : ∀ c ∈ cs, c ∈ calmParts) : Runs s t := by
  have hcalm : Only calmParts s t := h.mono hsub
  exact .of_piece (.rest (hcalm.mono (by decide)) hk) hcalm (by decide) (by decide) (by decide)
    (by decide)

end Sys2Proof.Machine
end

section
/-! PROOFS. The bounds of the item table and of the refresh record (R77, R78, R80, R93, R97): what each
operation of the two units makes of them. -/

namespace Sys2Proof.Machine

/-! ## Lists of entries -/

theorem EntriesFit.nil (i : Fin 64) : EntriesFit i [] := ⟨Nat.zero_le _, rfl, nofun⟩

/-- An entry joins a segment where it replaces one or a place is free. -/
theorem EntriesFit.put {i : Fin 64} {es : List Entry} {e : Entry} (h : EntriesFit i es)
    (he : EntryFits i e) (room : es.length < 1024 ∨ ∃ x ∈ es, x.ident = e.ident) :
    EntriesFit i (putKeyed Entry.key e es) := by
  obtain ⟨hlen, hkeys, hall⟩ := h
  refine ⟨?_, risingKeys_putKeyed hkeys, fun x hx => ?_⟩
  · rcases room with hlt | ⟨x, hx, hid⟩
    · exact (length_putKeyed_le e es).trans hlt
    · rw [length_putKeyed_of_mem hkeys ⟨x, hx, (Entry.key_iff _ _).2 hid⟩]; exact hlen
  · rcases mem_putKeyed hx with rfl | hx
    · exact he
    · exact hall x hx

theorem EntriesFit.drop {i : Fin 64} {es : List Entry} (k : Nat) (h : EntriesFit i es) :
    EntriesFit i (dropKeyed Entry.key k es) := by
  obtain ⟨hlen, hkeys, hall⟩ := h
  exact ⟨(List.length_filter_le ..).trans hlen, risingKeys_dropKeyed hkeys,
    fun x hx => hall x (List.mem_of_mem_filter hx)⟩

/-- What aging leaves of an entry. -/
theorem Entry.aged_some {e x : Entry} (h : e.aged = some x) :
    x.ident = e.ident ∧ x.cls = e.cls ∧ x.desk = e.desk ∧ x.expiry ≤ e.expiry
      ∧ (x.expiry = 0 → e.expiry = 0) := by
  unfold Entry.aged at h
  split_ifs at h with h0 h1
  · cases h; exact ⟨rfl, rfl, rfl, le_rfl, id⟩
  · cases h; exact ⟨rfl, rfl, rfl, Nat.sub_le .., fun h => by simp only at h; omega⟩

theorem EntryFits.aged {i : Fin 64} {e x : Entry} (he : EntryFits i e) (h : e.aged = some x) :
    EntryFits i x := by
  obtain ⟨hid, hcls, hdesk, hle, hzero⟩ := Entry.aged_some h
  obtain ⟨h0, hseg, hmax, hpend, hdesks⟩ := he
  refine ⟨hid ▸ h0, hid ▸ hseg, hle.trans hmax, fun hp => ?_, fun d hd => ?_⟩
  · have := hpend (hcls ▸ hp)
    omega
  · rw [hcls]; exact hdesks d (hdesk ▸ hd)

theorem EntriesFit.aged {i : Fin 64} {es : List Entry} (h : EntriesFit i es) :
    EntriesFit i (es.filterMap Entry.aged) := by
  obtain ⟨hlen, hkeys, hall⟩ := h
  refine ⟨(List.length_filterMap_le ..).trans hlen, risingKeys_filterMap (fun e x hx => ?_) hkeys,
    fun x hx => ?_⟩
  · exact (Entry.key_iff _ _).2 (Entry.aged_some hx).1
  · obtain ⟨e, hmem, hx⟩ := List.mem_filterMap.1 hx
    exact (hall e hmem).aged hx

/-! ## The live table -/

/-- The table is read from the segments and the refresh record. -/
theorem tableFits_congr {s t : State} (hseg : t.segments = s.segments) (href : t.refresh = s.refresh)
    (h : TableFits s) : TableFits t := by
  rw [TableFits, hseg, href]; exact h

/-- A change of identifier `id` leaves an entry that its segment may hold and has room for. -/
def ChangeFits (s : State) (id : Ident) (e : Option Entry) : Prop :=
  ∀ x, e = some x → x.ident = id ∧ EntryFits (segmentOf id) x
    ∧ ((s.entry? id).isSome = true ∨ (s.segment id).entries.length < 1024)

theorem entry?_mem {s : State} {id : Ident} {x : Entry} (h : s.entry? id = some x) :
    x ∈ (s.segment id).entries ∧ x.ident = id :=
  ⟨List.mem_of_find?_eq_some h, by simpa using List.find?_some h⟩

/-- The live entry of an identifier is within the bounds of its segment. -/
theorem entryFits_of_entry? {s : State} {id : Ident} {x : Entry} (hs : TableFits s)
    (h : s.entry? id = some x) : EntryFits (segmentOf id) x :=
  (hs.1 (segmentOf id)).2.2 x (entry?_mem h).1

theorem writeEntry_fits {s : State} {id : Ident} {e : Option Entry}
    (he : TableFits s → ChangeFits s id e) (hs : TableFits s) : TableFits (writeEntry id e s) := by
  refine ⟨fun i => ?_, ?_⟩
  · rw [writeEntry_segment]
    split
    · next hi =>
      subst hi
      cases e with
      | none => exact (hs.1 _).drop _
      | some x =>
        obtain ⟨hid, hfit, hroom⟩ := he hs x rfl
        refine (hs.1 _).put hfit (hroom.symm.imp (fun h => h) fun hsome => ?_)
        obtain ⟨y, hy⟩ := Option.isSome_iff_exists.1 hsome
        exact ⟨y, (entry?_mem hy).1, (entry?_mem hy).2.trans hid.symm⟩
    · exact hs.1 i
  · rw [(writeEntry_only id e s).refresh (by decide)]
    exact hs.2

/-! ## The refresh record -/

/-- A late change of an entry that fits joins the list of a refresh that has fewer than 64. -/
theorem RefreshFits.late {r : RefreshRecord} {k : ChangeKind} {id : Ident} {e : Option Entry}
    (h : RefreshFits r) (hseg : r.segment = segmentOf id) (hlt : r.late.length < 64)
    (he : ∀ x, e = some x → x.ident = id ∧ EntryFits (segmentOf id) x) :
    RefreshFits { r with late := r.late ++ [{ kind := k, ident := id, entry := e }] } := by
  obtain ⟨h1, h2, h3, h4, h5, h6, h7⟩ := h
  refine ⟨h1, h2, h3, h4, h5, by simpa using hlt, fun c hc => ?_⟩
  rcases List.mem_append.1 hc with hc | hc
  · exact h7 c hc
  · obtain rfl := List.mem_singleton.1 hc
    exact ⟨hseg.symm, fun x hx => by simpa only [hseg] using he x hx⟩

/-- One entry of a block (R100): it is skipped, or it is in the shadow under the constraints of R78. -/
theorem Entry.constrained_fits {i : Fin 64} {e : Entry} (h0 : e.ident ≠ 0) (hseg : segmentOf e.ident = i)
    (hdesk : ∀ d, e.desk = some d → d ≤ 31) : EntryFits i e.constrained := by
  refine ⟨h0, hseg, ?_, fun hp => ?_, fun d hd => ?_⟩
  · simp only [Entry.constrained]
    split_ifs <;> omega
  · have hcls : e.cls = .pending := hp
    simp only [Entry.constrained, hcls, true_and]
    split_ifs <;> omega
  · simp only [Entry.constrained] at hd ⊢
    cases hcls : e.cls <;> rw [hcls] at hd
    · exact ⟨hdesk d hd, .inl rfl⟩
    · exact ⟨hdesk d hd, .inr rfl⟩
    · cases hd
    · cases hd

/-- A record under construction: `n` more entries of its block are still to be taken. -/
def ShadowFits (r : RefreshRecord) (n : Nat) : Prop :=
  r.skipped + n ≤ r.received ∧ r.shadow.length + n ≤ r.received ∧ EntriesFit r.segment r.shadow

theorem RefreshRecord.takeEntry_rest (r : RefreshRecord) (b : BlockEntry) :
    (r.takeEntry b).segment = r.segment ∧ (r.takeEntry b).declared = r.declared
      ∧ (r.takeEntry b).received = r.received ∧ (r.takeEntry b).late = r.late
      ∧ (r.takeEntry b).expected = r.expected ∧ (r.takeEntry b).idleAt = r.idleAt := by
  unfold RefreshRecord.takeEntry
  split
  · exact ⟨rfl, rfl, rfl, rfl, rfl, rfl⟩
  · split <;> exact ⟨rfl, rfl, rfl, rfl, rfl, rfl⟩

theorem ShadowFits.takeEntry {r : RefreshRecord} {n : Nat} (b : BlockEntry)
    (hmax : r.received ≤ 1024) (h : ShadowFits r (n + 1)) : ShadowFits (r.takeEntry b) n := by
  obtain ⟨hskip, hlen, hfit⟩ := h
  have hskipped : ShadowFits { r with skipped := r.skipped + 1 } n :=
    ⟨by simp only; omega, by simp only; omega, hfit⟩
  unfold RefreshRecord.takeEntry
  split
  · exact hskipped
  · split
    · exact hskipped
    · next hb =>
      obtain ⟨h0, hseg⟩ := not_or.1 hb
      refine ⟨by simp only; omega, ?_, hfit.put ?_ (.inl (by omega))⟩
      · have := length_putKeyed_le (key := Entry.key)
          (Entry.constrained { ident := b.ident, cls := ‹_›, expiry := b.expiry, desk := none })
          r.shadow
        simp only
        omega
      · exact Entry.constrained_fits h0 (not_not.1 hseg) nofun

theorem ShadowFits.foldl {r : RefreshRecord} (es : List BlockEntry) (hmax : r.received ≤ 1024)
    (h : ShadowFits r es.length) : ShadowFits (es.foldl RefreshRecord.takeEntry r) 0 := by
  induction es generalizing r with
  | nil => exact h
  | cons b es ih =>
    exact ih ((r.takeEntry_rest b).2.2.1.symm ▸ hmax) (h.takeEntry b hmax)

theorem foldl_takeEntry_rest (es : List BlockEntry) (r : RefreshRecord) :
    (es.foldl RefreshRecord.takeEntry r).segment = r.segment
      ∧ (es.foldl RefreshRecord.takeEntry r).declared = r.declared
      ∧ (es.foldl RefreshRecord.takeEntry r).received = r.received
      ∧ (es.foldl RefreshRecord.takeEntry r).late = r.late
      ∧ (es.foldl RefreshRecord.takeEntry r).expected = r.expected
      ∧ (es.foldl RefreshRecord.takeEntry r).idleAt = r.idleAt := by
  induction es generalizing r with
  | nil => exact ⟨rfl, rfl, rfl, rfl, rfl, rfl⟩
  | cons b es ih =>
    obtain ⟨e1, e2, e3, e4, e5, e6⟩ := r.takeEntry_rest b
    simp only [List.foldl_cons, ← e1, ← e2, ← e3, ← e4, ← e5, ← e6]
    exact ih _

/-- What a block leaves as it is, and what it counts (R99, R100). -/
theorem takeBlock_rest (r : RefreshRecord) (now : Time) (es : List BlockEntry) :
    (r.takeBlock now es).segment = r.segment ∧ (r.takeBlock now es).declared = r.declared
      ∧ (r.takeBlock now es).received = r.received + es.length
      ∧ (r.takeBlock now es).late = r.late ∧ (r.takeBlock now es).expected = r.expected + 1
      ∧ (r.takeBlock now es).idleAt = after now 2000 :=
  foldl_takeEntry_rest es _

theorem RefreshFits.takeBlock {r : RefreshRecord} (h : RefreshFits r) (now : Time)
    (es : List BlockEntry) (hcount : r.received + es.length ≤ r.declared) :
    RefreshFits (r.takeBlock now es) := by
  obtain ⟨hdecl, hrec, hskip, hshadow, hfit, hlate, hlates⟩ := h
  obtain ⟨e1, e2, e3, e4, -, -⟩ := takeBlock_rest r now es
  have hmax : r.received + es.length ≤ 1024 := hcount.trans hdecl
  have hkeep : ShadowFits (r.takeBlock now es) 0 :=
    ShadowFits.foldl es hmax ⟨by simp only; omega, by simp only; omega, hfit⟩
  refine ⟨e2 ▸ hdecl, by rw [e2, e3]; exact hcount, hkeep.1, hkeep.2.1, hkeep.2.2, e4 ▸ hlate, ?_⟩
  rw [e4, e1]
  exact hlates

/-- The late changes are replayed onto a content that stays within the bounds (R102). -/
theorem replayed_fits {r : RefreshRecord} (h : RefreshFits r) :
    EntriesFit r.segment r.replayed.1 := by
  obtain ⟨-, -, -, -, hfit, -, hlates⟩ := h
  unfold RefreshRecord.replayed
  suffices ∀ (cs : List LateChange) (acc : List Entry × Nat), (∀ c ∈ cs, c ∈ r.late) →
      EntriesFit r.segment acc.1 → EntriesFit r.segment (cs.foldl replayChange acc).1 from
    this r.late _ (fun _ h => h) hfit
  intro cs
  induction cs with
  | nil => exact fun _ _ h => h
  | cons c cs ih =>
    intro acc hmem hacc
    refine ih _ (fun d hd => hmem d (List.mem_cons_of_mem _ hd)) ?_
    unfold replayChange
    split
    · next e he =>
      split
      · next hroom =>
        rw [Bool.or_eq_true, List.any_eq_true, decide_eq_true_eq] at hroom
        refine hacc.put ((hlates c (hmem c List.mem_cons_self)).2 e he).2 (hroom.symm.imp id ?_)
        exact fun ⟨x, hx, hid⟩ => ⟨x, hx, beq_iff_eq.1 hid⟩
      · exact hacc
    · exact hacc.drop _

end Sys2Proof.Machine
end

section
/-! PROOFS. The operations of the item table, the refresh unit and the verdict unit as chains of pieces. -/

namespace Sys2Proof.Machine

/-! ## Settling -/

theorem mapUndecided_shape (p : ItemRecord → Bool) (f : ItemRecord → ItemRecord) (j : Judging) :
    (j.mapUndecided p f).direction = j.direction
      ∧ (j.mapUndecided p f).items.length = j.items.length :=
  ⟨rfl, List.length_map _⟩

theorem settle_runs {f : Judging → Judging} (h : KeepsShape f) (s : State) :
    RunsQuiet s (settle f s) :=
  ⟨.of_piece (.settles h) (settle_only f s) (by decide) (by decide) (by decide) (by decide),
    (settle_calm f s).places⟩

theorem forward_runs (id : Ident) (e : Option Entry) (s : State) : RunsQuiet s (forward id e s) :=
  settle_runs (fun _ => mapUndecided_shape ..) s

theorem handLapse_runs (id : Ident) (s : State) : RunsQuiet s (handLapse id s) :=
  settle_runs (fun _ => mapUndecided_shape ..) s

theorem handAnswer_runs (id : Ident) (a : HostAnswer) (s : State) :
    RunsQuiet s (handAnswer id a s) :=
  settle_runs (fun _ => mapUndecided_shape ..) s

theorem swapLookup_runs (i : Fin 64) (s : State) : RunsQuiet s (swapLookup i s) :=
  settle_runs (fun _ => mapUndecided_shape ..) s

theorem graceExpiry_runs (n : Word16) (s : State) : RunsQuiet s (graceExpiry n s) := by
  refine settle_runs (fun j => ?_) s
  split
  · exact ⟨rfl, List.length_map _⟩
  · exact ⟨rfl, rfl⟩

/-! ## Reports, replies and the table -/

theorem createReport_runs (u : Bool) (b : ReportBody) (s : State) : RunsQuiet s (createReport u b s) :=
  runsQuiet_of_calm (createReport_only ..) (createReport_calm ..) (by decide)

theorem notice_runs (n : Notice) (s : State) : RunsQuiet s (notice n s) := createReport_runs ..

theorem table_runs {s t : State} (frame : Only [.segments, .refresh] s t)
    (keeps : TableFits s → TableFits t) : RunsQuiet s t :=
  runsQuiet_of_piece (.table frame keeps) frame (by decide)

theorem setSegments_runs {s : State} {v : Vector Segment 64}
    (h : TableFits s → ∀ i : Fin 64, EntriesFit i v[i].entries) : RunsQuiet s (s.setSegments v) :=
  table_runs ((only_setSegments s v).mono (by decide)) fun hs => ⟨h hs, hs.2⟩

theorem setRefresh_runs {s : State} {o : Option RefreshRecord}
    (h : TableFits s → ∀ r, o = some r → RefreshFits r) : RunsQuiet s (s.setRefresh o) :=
  table_runs ((only_setRefresh s o).mono (by decide)) fun hs => ⟨hs.1, h hs⟩

theorem clearRefresh_runs (s : State) : RunsQuiet s (s.setRefresh none) :=
  setRefresh_runs fun _ r h => by cases h

theorem abortRefresh_runs (why : AbortReason) (r : RefreshRecord) (s : State) :
    RunsQuiet s (abortRefresh why r s) :=
  (clearRefresh_runs s).trans (notice_runs ..)

theorem recordLate_runs {k : ChangeKind} {id : Ident} {e : Option Entry} {s : State}
    (he : TableFits s → ∀ x, e = some x → x.ident = id ∧ EntryFits (segmentOf id) x) :
    RunsQuiet s (recordLate k id e s) := by
  unfold recordLate
  split
  · exact .refl s
  · next r hr =>
    refine .ite (fun hseg => .ite (fun hlt => setRefresh_runs fun hs x hx => ?_)
      fun _ => abortRefresh_runs ..) fun _ => .refl s
    cases hx
    exact (hs.2 r hr).late hseg hlt (he hs)

/-- A change whose entry fits goes live, is recorded and is forwarded (R91). -/
theorem applyChange_runs {k : ChangeKind} {id : Ident} {e : Option Entry} {s : State}
    (hid : ∀ x, e = some x → x.ident = id) (he : TableFits s → ChangeFits s id e) :
    RunsQuiet s (applyChange k id e s) := by
  have hwrite : RunsQuiet s (writeEntry id e s) :=
    table_runs ((writeEntry_only id e s).mono (by decide)) (writeEntry_fits he)
  refine (hwrite.trans (recordLate_runs fun hs x hx => ⟨hid x hx, ?_⟩)).trans (forward_runs ..)
  refine entryFits_of_entry? hs ?_
  rw [entry?_writeEntry id e s hid id, if_pos rfl, hx]

/-! ## The writers' rules (R83 to R89, R122) -/

/-- What a rule stores is an entry of the identifier, within the bounds and with a place. -/
def UpdateFits (s : State) (id : Ident) (u : Update) : Prop :=
  ∀ e c, u = .store e c → e.ident = id ∧ (TableFits s → ChangeFits s id (some e))

theorem changeFits_none (s : State) (id : Ident) : ChangeFits s id none := by
  intro x hx; cases hx

theorem UpdateFits.refused (s : State) (id : Ident) (st : Status) : UpdateFits s id (.refused st) :=
  nofun

/-- What is stored under the constraints of R78 fits where there is a place. -/
theorem changeFits_constrained {s : State} {e : Entry} (h0 : e.ident ≠ 0)
    (hdesk : ∀ d, e.desk = some d → d ≤ 31)
    (hroom : (s.entry? e.ident).isSome = true ∨ (s.segment e.ident).entries.length < 1024) :
    ChangeFits s e.ident (some e.constrained) := by
  intro x hx
  cases hx
  exact ⟨rfl, Entry.constrained_fits h0 rfl hdesk, hroom⟩

theorem storeOrFull_fits {s : State} {e : Entry} {x : Option Nat} (h0 : e.ident ≠ 0)
    (hdesk : TableFits s → ∀ d, e.desk = some d → d ≤ 31) :
    UpdateFits s e.ident (storeOrFull s e x) := by
  intro e' c hu
  unfold storeOrFull at hu
  split_ifs at hu with hroom
  cases hu
  rw [Bool.or_eq_true, State.hasRoom, decide_eq_true_eq] at hroom
  exact ⟨rfl, fun hs => changeFits_constrained h0 (hdesk hs) hroom⟩

theorem keptDesk_fits {s : State} {id : Ident} (hs : TableFits s) (d : Nat)
    (h : s.keptDesk id = some d) : d ≤ 31 := by
  unfold State.keptDesk at h
  split at h
  · next e he =>
    have hfit := (entryFits_of_entry? hs he).2.2.2.2
    split at h
    · exact (hfit d h).1
    · exact (hfit d h).1
    · cases h
    · cases h
  · cases h

/-- Good fields: an identifier, and a desk number of at most 31 (R83). -/
theorem badFields_false {id : Ident} {desk : Option Nat} (h : badFields id desk = false) :
    id ≠ 0 ∧ ∀ d, desk = some d → d ≤ 31 := by
  unfold badFields at h
  rw [Bool.or_eq_false_iff] at h
  refine ⟨by simpa using h.1, fun d hd => ?_⟩
  have := h.2
  subst hd
  simpa using this

section
variable {s : State} {id : Ident} (h0 : id ≠ 0)
include h0

theorem issueRule_fits {expiry desk : Option Nat} (hd : ∀ d, desk = some d → d ≤ 31) :
    UpdateFits s id (issueRule s id expiry desk) := by
  refine storeOrFull_fits (e := { ident := id, cls := .issued, expiry := _, desk := _ }) h0
    fun hs d hdesk => ?_
  simp only at hdesk
  split at hdesk
  · exact hd d hdesk
  · exact keptDesk_fits hs d hdesk

theorem beginIssueRule_fits {desk : Option Nat} (hd : ∀ d, desk = some d → d ≤ 31) :
    UpdateFits s id (beginIssueRule s id desk) := by
  unfold beginIssueRule
  simp only []
  split
  · next old hold =>
    split
    · intro e c hu
      cases hu
      exact ⟨rfl, fun _ => changeFits_constrained h0 hd (.inl (by simp [hold]))⟩
    · exact UpdateFits.refused s id _
  · exact storeOrFull_fits (e := { ident := id, cls := .pending, expiry := 10, desk := desk }) h0
      fun _ => hd

theorem markRule_fits (cls : EntryClass) (expiry : Option Nat) :
    UpdateFits s id (markRule s id cls expiry) :=
  storeOrFull_fits (e := { ident := id, cls := cls, expiry := expiry.getD 0, desk := none }) h0
    fun _ _ h => nomatch h

theorem answerRule_fits (cls : EntryClass) (expiry : Option Nat) :
    UpdateFits s id (answerRule s id cls expiry) := by
  cases cls with
  | issued => exact issueRule_fits h0 nofun
  | pending =>
    exact storeOrFull_fits
      (e := { ident := id, cls := .pending, expiry := expiry.getD 10, desk := s.keptDesk id }) h0
      keptDesk_fits
  | barred => exact markRule_fits h0 _ expiry
  | lost => exact markRule_fits h0 _ expiry

end

theorem removeRule_fits (p : EntryClass → Bool) (s : State) (id : Ident) :
    UpdateFits s id (removeRule p s id) := by
  unfold removeRule
  split
  · split
    · exact nofun
    · exact UpdateFits.refused s id _
  · exact UpdateFits.refused s id _

/-- A rule that is asked only where the fields are good. -/
theorem UpdateFits.checked {s : State} {id : Ident} {desk : Option Nat} {u : Update}
    (h : id ≠ 0 → (∀ d, desk = some d → d ≤ 31) → UpdateFits s id u) :
    UpdateFits s id (if badFields id desk then .refused .range else u) := by
  split
  · exact UpdateFits.refused s id _
  · next hbad =>
    obtain ⟨h0, hd⟩ := badFields_false (Bool.not_eq_true _ ▸ hbad)
    exact h h0 hd

/-! ## Updates and answers -/

theorem runUpdate_runs {k : RequestKind} {kind : ChangeKind} {ref : Byte} {id : Ident} {u : Update}
    {s : State} (hp : placesUsed s < 8) (hu : UpdateFits s id u) :
    Runs s (runUpdate k kind ref id u s) := by
  cases u with
  | refused st => exact (RunsQuiet.refl s).reply hp ..
  | store e c =>
    obtain ⟨hid, hfit⟩ := hu e c rfl
    exact (applyChange_runs (fun x hx => by cases hx; exact hid) hfit).reply hp ..
  | remove => exact (applyChange_runs (fun _ h => by cases h) fun _ => changeFits_none s id).reply hp ..

theorem setQueryList_runs {s : State} {qs : List Query}
    (h : QueriesFit s → QueriesFit (s.setQueryList qs)) : RunsQuiet s (s.setQueryList qs) :=
  runsQuiet_of_piece (.queries (setQueryList_only s qs) h) (setQueryList_only s qs) (by decide)

/-- A shorter query list keeps the bounds of the query list. -/
theorem queriesFit_sublist {s : State} {qs : List Query} (h : qs.Sublist s.queries.list)
    (hs : QueriesFit s) : QueriesFit (s.setQueryList qs) := by
  obtain ⟨hlen, hid, hnum, hzero, hnext⟩ := hs
  exact ⟨h.length_le.trans hlen, hid.sublist (h.map _), hnum.sublist (h.map _),
    fun q hq => hzero q (h.subset hq), hnext⟩

theorem withoutQuery_runs (id : Ident) (s : State) :
    RunsQuiet s (s.setQueryList (withoutQuery id s.queries.list)) :=
  setQueryList_runs (queriesFit_sublist List.filter_sublist)

theorem modifyTrack_runs {f : Track → Track} (hf : Retouches f) (id : Ident) (s : State) :
    RunsQuiet s (s.modifyTrack id f) := by
  refine runsQuiet_of_piece (.tracks (f := fun t => if t.ident == id then f t else t)
    (modifyTrack_only s id f) (fun x => ?_) rfl) (modifyTrack_only s id f) (by decide)
  simp only []
  split
  · exact hf x
  · exact ⟨rfl, fun _ => le_rfl, fun _ _ => Iff.rfl⟩

theorem retouches_answer (a : HostAnswer) : Retouches fun t => { t with answer := some a } :=
  fun _ => ⟨rfl, fun _ => le_rfl, fun _ _ => Iff.rfl⟩

theorem retouches_mark (m : QueryMark) : Retouches fun t => { t with mark := m } :=
  fun _ => ⟨rfl, fun _ => le_rfl, fun _ _ => Iff.rfl⟩

theorem matchAnswer_runs (id : Ident) (a : HostAnswer) (s : State) :
    RunsQuiet s (matchAnswer id a s) :=
  ((withoutQuery_runs id s).trans (modifyTrack_runs (retouches_answer a) id _)).trans
    (handAnswer_runs ..)

theorem lapseQuery_runs (q : Query) (s : State) : RunsQuiet s (lapseQuery q s) :=
  ((withoutQuery_runs q.ident s).trans (modifyTrack_runs (retouches_mark .lapsed) q.ident _)).trans
    (handLapse_runs ..)

theorem storeAnswer_runs {id : Ident} {u : Update} {s : State} (hu : UpdateFits s id u) :
    RunsQuiet s (storeAnswer id u s) := by
  cases u with
  | refused st => exact .refl s
  | remove => exact .refl s
  | store e c =>
    obtain ⟨hid, hfit⟩ := hu e c rfl
    exact applyChange_runs (fun x hx => by cases hx; exact hid) hfit

theorem takeAnswer_runs {ref n : Byte} {id : Ident} {r : Byte} {e : Option Nat} {s : State}
    (hp : placesUsed s < 8) : Runs s (takeAnswer ref n id r e s) := by
  unfold takeAnswer
  split
  · exact (RunsQuiet.refl s).reply hp ..
  · next h0 =>
    split
    · next a ha =>
      have hmatch : RunsQuiet s (if s.answerMatches n id then matchAnswer id a s else s) :=
        .ite (fun _ => matchAnswer_runs ..) fun _ => .refl s
      refine RunsQuiet.reply (hmatch.trans ?_) hp ..
      cases a with
      | entry c => exact storeAnswer_runs (answerRule_fits h0 c e)
      | noException => exact .refl _
    · exact (RunsQuiet.refl s).reply hp ..

/-! ## Aging -/

theorem ageTable_runs (s : State) : RunsQuiet s (ageTable s) := by
  have haged : RunsQuiet s (s.setSegments
      (mapVector (fun g => { g with entries := g.entries.filterMap Entry.aged }) s.segments)) := by
    refine setSegments_runs fun hs i => ?_
    rw [mapVector_get]
    exact (hs.1 i).aged
  exact haged.trans (RunsQuiet.foldl (fun s id => forward_runs id none s) _ _)

/-! ## The refresh unit, TRUST and the supervisor -/

theorem takeSegBegin_runs {ref i : Byte} {n : Nat} {s : State} (hp : placesUsed s < 8) :
    Runs s (takeSegBegin ref i n s) := by
  unfold takeSegBegin
  split
  · exact (RunsQuiet.refl s).reply hp ..
  · split
    · next h =>
      refine (setRefresh_runs fun _ r hr => ?_).reply hp ..
      cases hr
      exact ⟨h.2, Nat.zero_le _, le_rfl, le_rfl, .nil _, Nat.zero_le _,
        fun c hc => by cases hc⟩
    · exact (RunsQuiet.refl s).reply hp ..

/-- The content of a refresh goes live (R101). -/
theorem swap_runs {r : RefreshRecord} {s : State} (h : TableFits s → RefreshFits r) :
    RunsQuiet s (swap r s) := by
  have hlive : RunsQuiet s (s.setSegments
      (s.segments.set r.segment { state := .fresh, entries := r.replayed.1 })) := by
    refine setSegments_runs fun hs i => ?_
    rw [set_get]
    split
    · next hi => subst hi; exact replayed_fits (h hs)
    · exact hs.1 i
  exact (hlive.trans (clearRefresh_runs _)).trans (swapLookup_runs r.segment _)

/-- The idle deadline is reloaded (R99). -/
theorem RefreshFits.reload {r : RefreshRecord} (h : RefreshFits r) (t : Time) :
    RefreshFits { r with idleAt := t } := h

theorem takeSegBlock_runs {ref i : Byte} {b : Word16} {last : Bool} {es : List BlockEntry} {s : State}
    (hp : placesUsed s < 8) : Runs s (takeSegBlock ref i b last es s) := by
  unfold takeSegBlock
  split
  · exact (RunsQuiet.refl s).reply hp ..
  · next r hr =>
    split
    · exact (RunsQuiet.refl s).reply hp ..
    · split
      · refine (setRefresh_runs fun hs x hx => ?_).reply hp ..
        rw [← Option.some.inj hx]
        exact (hs.2 r hr).reload _
      · unfold takeGoodBlock
        split
        · exact (clearRefresh_runs s).reply hp ..
        · next hcount =>
          have hfit : TableFits s → RefreshFits (r.takeBlock s.clock.now es) :=
            fun hs => (hs.2 r hr).takeBlock _ es (not_lt.1 hcount)
          simp only []
          split
          · exact (setRefresh_runs fun hs x hx => by cases hx; exact hfit hs).reply hp ..
          · split
            · exact (clearRefresh_runs s).reply hp ..
            · exact (swap_runs hfit).reply hp ..

/-- A change of segment states alone keeps the bounds of the table. -/
theorem setStates_runs {s : State} {v : Vector Segment 64}
    (h : ∀ i : Fin 64, v[i].entries = s.segments[i].entries) : RunsQuiet s (s.setSegments v) :=
  setSegments_runs fun hs i => by rw [h i]; exact hs.1 i

theorem takeTrust_runs {ref : Byte} {set : BitVec 64} {s : State} (hp : placesUsed s < 8) :
    Runs s (takeTrust ref set s) := by
  refine (setStates_runs fun i => ?_).reply hp ..
  simp only [Fin.getElem_fin, Vector.getElem_ofFn]
  split <;> rfl

theorem setSupervisor_runs (v : Supervisor) (s : State) : RunsQuiet s (s.setSupervisor v) :=
  runsQuiet_of_calm (only_setSupervisor s v)
    (calm_of_only (only_setSupervisor s v) (by decide) (by decide)) (by decide)

theorem takeSupervise_runs {ref : Byte} {n : Nat} {s : State} (hp : placesUsed s < 8) :
    Runs s (takeSupervise ref n s) := by
  unfold takeSupervise
  split
  · exact (RunsQuiet.refl s).reply hp ..
  · exact (setSupervisor_runs ..).reply hp ..

theorem supervisorExpires_runs (n : Nat) (s : State) : RunsQuiet s (supervisorExpires n s) := by
  unfold supervisorExpires
  simp only []
  have hstates : RunsQuiet s (s.setSegments (mapVector Segment.distrusted s.segments)) :=
    setStates_runs fun i => by rw [mapVector_get]; rfl
  refine hstates.trans (RunsQuiet.trans ?_ ((notice_runs .linkSilent _).trans
    (setSupervisor_runs (.expired n) _)))
  split
  · exact abortRefresh_runs ..
  · exact .refl _

theorem countGoodFrame_runs (s : State) : RunsQuiet s (countGoodFrame s) := by
  unfold countGoodFrame
  split
  · exact .refl s
  · exact setSupervisor_runs ..
  · exact (setSupervisor_runs ..).trans (notice_runs ..)

end Sys2Proof.Machine
end

section
/-! PROOFS. The operations of tracks, passages, beams, modes and settings as chains of pieces, and the
bounds of the open passages (R60, R62, R63, R68, R74) through each of them. -/

namespace Sys2Proof.Machine

/-! ## An aisle's record within its bounds -/

/-- The bounds of an aisle's record (R60, R68). -/
def AisleRecord.Bounded (r : AisleRecord) : Prop :=
  r.opens.length ≤ 3 ∧ ∀ p ∈ r.opens, p.items.length ≤ 10

/-- No passage is open in the aisle, and its CROWDED flag is clear (R62). -/
def AisleRecord.Empty (r : AisleRecord) : Prop := r.opens = [] ∧ r.crowded = false

theorem passagesFit_iff {s : State} :
    PassagesFit s ↔ ∀ a : Aisle, s.passages.aisles[a].Bounded
      ∧ (s.modes.stored[a] = .off → s.passages.aisles[a].Empty)
      ∧ (s.bothClear a = true → s.passages.aisles[a].Empty)
      ∧ (s.site.aisles ≤ a.val → s.modes.stored[a] = .off) :=
  forall_congr' fun _ => (and_assoc (a := _ ≤ 3)).symm

theorem AisleRecord.empty_bounded {r : AisleRecord} (h : r.Empty) : r.Bounded :=
  ⟨by simp [h.1], by simp [h.1]⟩

/-- A change of an aisle's record that keeps it bounded, and empty where it was. -/
structure KeepsAisle (r r' : AisleRecord) : Prop where
  bounded : r.Bounded → r'.Bounded
  empty : r.Empty → r'.Empty

theorem KeepsAisle.refl (r : AisleRecord) : KeepsAisle r r := ⟨id, id⟩

theorem KeepsAisle.of_eq {r r' : AisleRecord} (h : r' = r) : KeepsAisle r r' := h ▸ .refl r

theorem KeepsAisle.trans {r r' r'' : AisleRecord} (h : KeepsAisle r r') (k : KeepsAisle r' r'') :
    KeepsAisle r r'' := ⟨k.bounded ∘ h.bounded, k.empty ∘ h.empty⟩

/-- A change of the state that keeps every aisle's record bounded, and empty where it was. -/
def KeepsRecords (s t : State) : Prop :=
  ∀ a : Aisle, KeepsAisle s.passages.aisles[a] t.passages.aisles[a]

theorem KeepsRecords.of_passages {s t : State} (h : t.passages = s.passages) : KeepsRecords s t :=
  fun a => .of_eq (congrArg (fun p : PassageTracker => p.aisles[a]) h)

theorem KeepsRecords.trans {s t u : State} (h : KeepsRecords s t) (k : KeepsRecords t u) :
    KeepsRecords s u := fun a => (h a).trans (k a)

/-- What keeps every aisle's record, and reads neither modes, beams nor settings anew. -/
theorem passagesFit_of_aisles {s t : State} (hstored : t.modes.stored = s.modes.stored)
    (hclear : ∀ a, t.bothClear a = s.bothClear a) (hsite : t.site.aisles = s.site.aisles)
    (h : KeepsRecords s t) (hs : PassagesFit s) :
    PassagesFit t := by
  refine passagesFit_iff.2 fun a => ?_
  obtain ⟨hb, hoff, hclr, hn⟩ := passagesFit_iff.1 hs a
  rw [hstored, hclear, hsite]
  exact ⟨(h a).bounded hb, (h a).empty ∘ hoff, (h a).empty ∘ hclr, hn⟩

/-- The same for a change of other components than modes, beams and settings. -/
theorem passagesFit_of_only_aisles {cs : List Component} {s t : State} (frame : Only cs s t)
    (hcs : ∀ c ∈ cs, c ∉ [Component.modes, .beams, .site])
    (h : KeepsRecords s t) (hs : PassagesFit s) :
    PassagesFit t := by
  have hnot : ∀ c ∈ [Component.modes, .beams, .site], c ∉ cs := fun c hc hmem => hcs c hmem hc
  refine passagesFit_of_aisles ?_ (fun a => frame.bothClear (hnot _ (by decide)) a) ?_ h hs
  · rw [frame.modes (hnot _ (by decide))]
  · rw [frame.site (hnot _ (by decide))]

/-- A passage leaves the list. -/
theorem KeepsAisle.erase (r : AisleRecord) (p : Passage) :
    KeepsAisle r { r with opens := r.opens.erase p } := by
  refine ⟨fun h => ⟨?_, fun q hq => h.2 q (List.mem_of_mem_erase hq)⟩, fun h => ⟨?_, h.2⟩⟩
  · exact (List.length_erase_le ..).trans h.1
  · simp [h.1]

theorem leaveList_aisle (a b : Aisle) (p : Passage) (s : State) :
    (leaveList a p s).passages.aisles[b] =
      if a = b then { s.passages.aisles[a] with opens := (s.opens a).erase p }
      else s.passages.aisles[b] := setAisle_aisle ..

theorem leaveList_keeps (a : Aisle) (p : Passage) (s : State) : KeepsRecords s (leaveList a p s) := by
  intro b
  rw [leaveList_aisle]
  split
  · next h => subst h; exact .erase _ p
  · exact .refl _

theorem closePassage_runs {a : Aisle} {p : Passage} (o : PassageOutcome) {s : State}
    (hp : p ∈ s.opens a) : RunsQuiet s (closePassage a o s p) :=
  ⟨⟨.single (.closes o hp), passagesFit_of_only_aisles (closePassage_only a o s p) (by decide)
    ((leaveList_keeps a p s).trans (.of_passages (closePassage_passages a o s p)))⟩,
    (closePassage_calm a o s p).places⟩

theorem completePassage_keeps (a : Aisle) (s : State) (p : Passage) :
    KeepsRecords s (completePassage a s p) :=
  (leaveList_keeps a p s).trans (.of_passages (completePassage_passages a s p))

/-! ## Sightings -/

/-- The first passage of a list that has room is changed, and every other stands. -/
theorem changeFirst_forall {q : Passage → Bool} {f : Passage → Passage} {P : Passage → Prop}
    (hf : ∀ p, q p = true → P p → P (f p)) {l : List Passage} (h : ∀ p ∈ l, P p) :
    ∀ p ∈ changeFirst q f l, P p := by
  induction l with
  | nil => exact h
  | cons x l ih =>
    obtain ⟨hx, hl⟩ := List.forall_mem_cons.1 h
    unfold changeFirst
    split
    · next hq => exact List.forall_mem_cons.2 ⟨hf x hq hx, hl⟩
    · exact List.forall_mem_cons.2 ⟨hx, ih hl⟩

theorem changeFirst_length (q : Passage → Bool) (f : Passage → Passage) (l : List Passage) :
    (changeFirst q f l).length = l.length := by
  induction l with
  | nil => rfl
  | cons x l ih => unfold changeFirst; split <;> simp [ih]

theorem KeepsAisle.changeFirst {r : AisleRecord} {q : Passage → Bool} {f : Passage → Passage}
    (hf : ∀ p, q p = true → p.items.length ≤ 10 → (f p).items.length ≤ 10) :
    KeepsAisle r { r with opens := changeFirst q f r.opens } := by
  refine ⟨fun h => ⟨by rw [changeFirst_length]; exact h.1, changeFirst_forall hf h.2⟩,
    fun h => ⟨?_, h.2⟩⟩
  simp only [h.1]
  rfl

theorem bindAttributed_keeps (id : Ident) (a : Aisle) (s : State) :
    KeepsRecords s (bindAttributed id a s) := by
  have hset : ∀ (q : Passage → Bool) (f : Passage → Passage),
      (∀ p, q p = true → p.items.length ≤ 10 → (f p).items.length ≤ 10) →
      KeepsRecords s (s.setOpens a (changeFirst q f (s.opens a))) := by
    intro q f hf b
    by_cases hab : b = a
    · subst hab
      rw [State.setOpens, Fin.getElem_fin, Fin.getElem_fin, setAisle_self]
      exact .changeFirst hf
    · exact .of_eq (setOpens_ne s _ hab)
  unfold bindAttributed
  split
  · refine hset _ _ fun p hp _ => ?_
    have : p.items.length < 10 := by simpa [Passage.hasRoom] using hp
    simpa using this
  · exact hset _ _ fun _ _ h => h

theorem attributionEvent_keeps (id : Ident) (a : Aisle) (s : State) :
    KeepsRecords s (attributionEvent id a s) :=
  (bindAttributed_keeps id a s).trans
    (.of_passages ((makeQuery_only id a (bindAttributed id a s)).passages (by decide)))

theorem attributeTrack_keeps (id : Ident) (a : Aisle) (s : State) :
    KeepsRecords s (attributeTrack id a s) :=
  attributionEvent_keeps id a (s.modifyTrack id _)

theorem testOutcome_keeps (id : Ident) (a : Aisle) (st : TrackState) (s : State) :
    KeepsRecords s (testOutcome id a st s) := by
  unfold testOutcome
  split
  · exact attributeTrack_keeps id a s
  · split
    · exact .of_passages rfl
    · exact attributeTrack_keeps id a s
  · exact .of_passages rfl
  · exact .of_passages rfl

theorem setTracks_keeps (s : State) (ts : List Track) : KeepsRecords s (s.setTracks ts) :=
  .of_passages rfl

theorem hearTrack_keeps (x : Track) (a : Aisle) (c : Nat) (g : Bool) (s : State) :
    KeepsRecords s (hearTrack x a c g s) := by
  unfold hearTrack
  dsimp only
  split
  · next b _ => exact (setTracks_keeps s _).trans (testOutcome_keeps x.ident b x.state _)
  · exact setTracks_keeps s _

theorem hearTrack_runs {x : Track} {a : Aisle} {c : Nat} {g : Bool} {s : State} (h0 : x.ident ≠ 0)
    (known : s.track? x.ident = some x ∨ s.track? x.ident = none
        ∧ s.tracking.tracks.length < 256 ∧ x = newTrack x.ident g s.clock.now) :
    RunsQuiet s (hearTrack x a c g s) :=
  ⟨⟨.single (.hears a c g h0 known), passagesFit_of_only_aisles (hearTrack_only x a c g s)
    (by decide) (hearTrack_keeps x a c g s)⟩,
    (calm_of_only (hearTrack_only x a c g s) (by decide) (by decide)).places⟩

theorem trackGone_runs (id : Ident) (s : State) : RunsQuiet s (trackGone id s) :=
  .ite (fun _ => (withoutQuery_runs id s).trans (handLapse_runs id _)) fun _ => .refl s

theorem freeTrack_runs {id : Ident} {s : State} (h : Freeable s id) :
    RunsQuiet s (freeTrack s id) :=
  RunsQuiet.trans (runsQuiet_of_piece (.frees id h) (setTracks_only s _) (by decide))
    (trackGone_runs id _)

theorem victim_freeable {s : State} {v : Track} (h : s.victim = some v) : Freeable s v.ident := by
  obtain ⟨hmem, hfree, -⟩ := victim_spec h
  exact .inr ⟨v, hmem, rfl, isBound_false.2 hfree⟩

theorem evictTrack_runs (s : State) : RunsQuiet s (evictTrack s) := by
  unfold evictTrack
  split
  · next v hv => exact freeTrack_runs (victim_freeable hv)
  · exact .refl s

theorem evictTrack_none {s : State} {i : Ident} (h : s.track? i = none) :
    (evictTrack s).track? i = none := by
  unfold evictTrack
  split
  · refine ((freeTrack_rejudged s _).track? i).1 ?_
    rw [track?_dropKeyed]
    split
    · rfl
    · exact h
  · exact h

theorem takeSighting_runs {id : Ident} {a : Aisle} {c : Nat} {g : Bool} {s : State} (h0 : id ≠ 0) :
    RunsQuiet s (takeSighting id a c g s) := by
  unfold takeSighting
  split
  · next x hx =>
    obtain rfl := (track?_mem hx).2
    exact hearTrack_runs h0 (.inl hx)
  · next hnone =>
    have hevict : RunsQuiet s (if s.tracking.tracks.length < 256 then s else evictTrack s) :=
      .ite (fun _ => .refl s) fun _ => evictTrack_runs s
    have hclock : (if s.tracking.tracks.length < 256 then s else evictTrack s).clock = s.clock := by
      split
      · rfl
      · exact (evictTrack_only s).clock (by decide)
    have hfree : (if s.tracking.tracks.length < 256 then s else evictTrack s).track? id = none := by
      split
      · exact hnone
      · exact evictTrack_none hnone
    refine hevict.trans (.ite (fun hlt => hearTrack_runs h0 (.inr ⟨hfree, hlt, ?_⟩)) fun _ => .refl _)
    rw [hclock]
    rfl

theorem intakeRecord_runs (p : Pedestal) (s : State) (r : SightingRecord) :
    RunsQuiet s (intakeRecord p s r) := by
  unfold intakeRecord
  refine .ite (fun _ => .refl s) fun h0 => ?_
  split
  · exact .refl s
  · exact .ite (fun _ => .refl s) fun _ => .ite (fun _ => .refl s) fun _ => takeSighting_runs h0

/-! ## Decay -/

theorem isBound_retouches {f : Track → Track} (hf : Retouches f) (x : Track) :
    (f x).isBound = x.isBound := by
  rw [Bool.eq_iff_iff, ← not_iff_not, Bool.not_eq_true, Bool.not_eq_true, isBound_false,
    isBound_false]
  exact forall₂_congr fun a n => not_congr ((hf x).2.2 a n)

/-- Writing verdicts rewrites SPENT tracks only. -/
theorem verdictOnly_retouches {f : Track → Track} (hf : VerdictOnly f) : Retouches f := by
  intro x
  obtain ⟨st, hx, hother, hspent⟩ := hf x
  rw [hx]
  refine ⟨rfl, fun _ => le_rfl, fun a n => ?_⟩
  by_cases h : ∃ b m v, x.state = .spent b m v
  · obtain ⟨b, m, v, h⟩ := h
    obtain ⟨v', h'⟩ := hspent b m v h
    simp [h, h']
  · rw [hother fun b m v hs => h ⟨b, m, v, hs⟩]

/-- A decay step rewrites every track (R43). -/
theorem retouches_decayed : Retouches Track.decayed := by
  refine fun x => ⟨rfl, fun a => ?_, fun _ _ => Iff.rfl⟩
  rw [Track.decayed_get]
  omega

/-- A track that may be freed still may after another has been freed. -/
theorem Freeable.free {s : State} {i : Ident} (h : Freeable s i) (j : Ident) :
    Freeable (freeTrack s j) i := by
  have hr := freeTrack_rejudged s j
  have hnone : s.track? i = none → (freeTrack s j).track? i = none := fun hi =>
    (hr.track? i).1 (by rw [track?_dropKeyed, hi, ite_self])
  by_cases hij : i = j
  · exact .inl ((hr.track? i).1 (by rw [track?_dropKeyed, if_pos hij]))
  rcases h with hi | ⟨x, hx, rfl, hfree⟩
  · exact .inl (hnone hi)
  · obtain ⟨-, f, hf, hmap⟩ := hr
    refine .inr ⟨f x, ?_, (verdictOnly_retouches hf x).1, (isBound_retouches
      (verdictOnly_retouches hf) x).trans hfree⟩
    rw [hmap]
    refine List.mem_map_of_mem (List.mem_filter.2 ⟨hx, ?_⟩)
    simpa [Track.key, BitVec.toNat_inj] using hij

theorem decayTracks_runs (s : State) : RunsQuiet s (decayTracks s) := by
  have hmap : RunsQuiet s (s.setTracks (s.tracking.tracks.map Track.decayed)) :=
    runsQuiet_of_piece (.tracks (setTracks_only s _) retouches_decayed rfl) (setTracks_only s _)
      (by decide)
  refine hmap.trans ?_
  suffices ∀ (ids : List Ident) (t : State), (∀ i ∈ ids, Freeable t i) →
      RunsQuiet t (ids.foldl freeTrack t) by
    refine this _ _ fun i hi => ?_
    obtain ⟨x, hx, rfl⟩ := List.mem_map.1 hi
    obtain ⟨hmem, hfaded⟩ := List.mem_filter.1 hx
    exact .inr ⟨x, hmem, rfl, isBound_false.2 ((Track.faded_iff x).1 hfaded).1⟩
  intro ids
  induction ids with
  | nil => exact fun t _ => .refl t
  | cons i ids ih =>
    intro t ht
    obtain ⟨hi, hrest⟩ := List.forall_mem_cons.1 ht
    exact (freeTrack_runs hi).trans (ih _ fun j hj => (hrest j hj).free i)

end Sys2Proof.Machine
end

section
/-! PROOFS. Beam events, modes, annunciators and settings as chains of pieces. -/

namespace Sys2Proof.Machine

/-! ## Chains of pieces that take no place -/

/-- A chain of pieces that takes no further place of the reply queue, whatever it makes of the bounds of
the open passages. -/
structure Moves (s t : State) : Prop where
  pieces : Relation.ReflTransGen Piece s t
  places : placesUsed t ≤ placesUsed s

theorem Moves.refl (s : State) : Moves s s := ⟨.refl, le_rfl⟩

theorem Moves.trans {s t u : State} (h : Moves s t) (k : Moves t u) : Moves s u :=
  ⟨h.pieces.trans k.pieces, k.places.trans h.places⟩

theorem RunsQuiet.moves {s t : State} (h : RunsQuiet s t) : Moves s t := ⟨h.pieces, h.places⟩

theorem Moves.quiet {s t : State} (h : Moves s t) (k : PassagesFit s → PassagesFit t) :
    RunsQuiet s t := ⟨⟨h.pieces, k⟩, h.places⟩

theorem Moves.of_piece {cs : List Component} {s t : State} (h : Piece s t) (frame : Only cs s t)
    (hcs : ∀ c ∈ cs, c ∉ [Component.bus, .link]) : Moves s t :=
  have hnot : ∀ c ∈ [Component.bus, .link], c ∉ cs := fun c hc hmem => hcs c hmem hc
  ⟨.single h, (calm_of_only frame (hnot _ (by decide)) (hnot _ (by decide))).places⟩

theorem completePassage_moves {a : Aisle} {p : Passage} {s : State} (hp : p ∈ s.opens a) :
    Moves s (completePassage a s p) := ⟨.single (.completes hp), (completePassage_calm a s p).places⟩

theorem sweepPassage_moves {a : Aisle} {p : Passage} {s : State} (hp : p ∈ s.opens a) :
    Moves s (sweepPassage a s p) := by
  unfold sweepPassage
  split
  · exact completePassage_moves hp
  · exact (closePassage_runs .turnedBack hp).moves

theorem markAisle_moves {a : Aisle} {r : AisleRecord} {s : State}
    (h : r.opens.map Passage.holds = (s.opens a).map Passage.holds) : Moves s (s.setAisle a r) :=
  .of_piece (.marks a r h) (setAisle_only s a r) (by decide)

/-- Every open passage of an aisle leaves, oldest first. -/
theorem foldl_leave_moves {a : Aisle} {f : State → Passage → State}
    (hf : ∀ s p, p ∈ s.opens a → Moves s (f s p))
    (hl : ∀ s p, (f s p).passages = (leaveList a p s).passages) (l : List Passage) (s : State)
    (h : s.opens a = l) : Moves s (l.foldl f s) := by
  induction l generalizing s with
  | nil => exact .refl s
  | cons p l ih =>
    have hopens : (f s p).opens a = l := by
      have : (f s p).opens a = (leaveList a p s).opens a := by simp only [State.opens, hl]
      rw [this, leaveList_opens, h]
      simp
    exact (hf s p (by simp [h])).trans (ih _ hopens)

theorem sweepAisle_moves (a : Aisle) (s : State) : Moves s (sweepAisle a s) :=
  (foldl_leave_moves (fun _ _ => sweepPassage_moves) (sweepPassage_passages a) _ s rfl).trans
    (markAisle_moves rfl)

theorem dismissAisle_moves (a : Aisle) (s : State) : Moves s (dismissAisle a s) :=
  (foldl_leave_moves (fun _ _ hp => (closePassage_runs .dismissed hp).moves)
    (fun s p => closePassage_passages a .dismissed s p) _ s rfl).trans (markAisle_moves rfl)

/-! ## Breaks and clears -/

theorem openPassage_calm (a : Aisle) (b : Beam) (s : State) : Calm s (openPassage a b s) :=
  calm_of_only (openPassage_only a b s) (by decide) (by decide)

theorem setOpens_moves {a : Aisle} {ps : List Passage} {s : State}
    (h : ps.map Passage.holds = (s.opens a).map Passage.holds) : Moves s (s.setOpens a ps) :=
  markAisle_moves h

theorem changeFirst_holds (q : Passage → Bool) {f : Passage → Passage}
    (hf : ∀ p, (f p).holds = p.holds) (l : List Passage) :
    (changeFirst q f l).map Passage.holds = l.map Passage.holds := by
  induction l with
  | nil => rfl
  | cons p l ih => unfold changeFirst; split <;> simp [hf, ih]

theorem sawBreak_holds (b : Beam) (p : Passage) : (p.sawBreak b).holds = p.holds := by
  unfold Passage.sawBreak; split <;> rfl

theorem takeBreak_moves (a : Aisle) (b : Beam) (s : State) : Moves s (takeBreak a b s) := by
  unfold takeBreak
  dsimp only
  have hsaw : Moves s (s.setOpens a ((s.opens a).map (Passage.sawBreak b))) :=
    setOpens_moves (by simp [sawBreak_holds])
  refine hsaw.trans ?_
  split
  · exact setOpens_moves (changeFirst_holds _ (f := fun p => { p with phase := .crossing })
      (fun _ => rfl) _)
  · split
    · next hroom => exact .of_piece (.opens a b hroom) (openPassage_only a b _) (by decide)
    · exact markAisle_moves rfl

/-- The first part of a clear (R63, steps 1 and 2): a passage completes, turns back, or none does. -/
def firstOfClear (a : Aisle) (b : Beam) (s : State) : State :=
  match (s.opens a).find? (Passage.completes b) with
  | some p => completePassage a s p
  | none =>
    match s.turnsBack a b with
    | some p => closePassage a .turnedBack s p
    | none => s

theorem takeClear_eq (a : Aisle) (b : Beam) (s : State) :
    takeClear a b s = if (firstOfClear a b s).bothClear a then sweepAisle a (firstOfClear a b s)
      else firstOfClear a b s := rfl

theorem turnsBack_mem {s : State} {a : Aisle} {b : Beam} {p : Passage} (h : s.turnsBack a b = some p) :
    s.opens a = [p] ∧ p.phase = .opened ∧ p.direction.near = b ∧ p.farBroken = false := by
  unfold State.turnsBack at h
  split at h
  · next q hq =>
    split at h
    · next hcond => cases h; exact ⟨hq, hcond⟩
    · cases h
  · cases h

/-- Steps 1 and 2 of a clear take an open passage out of the list, or do nothing. -/
theorem firstOfClear_cases (a : Aisle) (b : Beam) (s : State) :
    (∃ p ∈ s.opens a, firstOfClear a b s = completePassage a s p)
      ∨ (∃ p ∈ s.opens a, firstOfClear a b s = closePassage a .turnedBack s p)
      ∨ firstOfClear a b s = s := by
  unfold firstOfClear
  split
  · next p hp => exact .inl ⟨p, List.mem_of_find?_eq_some hp, rfl⟩
  · split
    · next p hp => exact .inr (.inl ⟨p, by simp [(turnsBack_mem hp).1], rfl⟩)
    · exact .inr (.inr rfl)

theorem firstOfClear_moves (a : Aisle) (b : Beam) (s : State) : Moves s (firstOfClear a b s) := by
  rcases firstOfClear_cases a b s with ⟨p, hp, h⟩ | ⟨p, hp, h⟩ | h <;> rw [h]
  · exact completePassage_moves hp
  · exact (closePassage_runs _ hp).moves
  · exact .refl s

theorem takeClear_moves (a : Aisle) (b : Beam) (s : State) : Moves s (takeClear a b s) := by
  rw [takeClear_eq]
  split
  · exact (firstOfClear_moves a b s).trans (sweepAisle_moves a _)
  · exact firstOfClear_moves a b s

/-! ## Breaks and clears and the bounds of the aisle -/

/-- The records of the other aisles stand. -/
def OthersStand (a : Aisle) (s t : State) : Prop :=
  ∀ c : Aisle, c ≠ a → t.passages.aisles[c] = s.passages.aisles[c]

/-- The passage that opens, with the loose tracks it binds (R58, R59, R61, R70). -/
def openedPassage (a : Aisle) (b : Beam) (s : State) : Passage where
  number := s.passages.next
  direction := openingDirection b
  phase := .opened
  farBroken := false
  openedAt := s.clock.now
  deadline := after s.clock.now s.site.transit
  flags := { Flags.none with full := 10 < ((s.looseTracks a).map (·.ident)).length }
  items := ((s.looseTracks a).map (·.ident)).take 10

/-- The state in which it has joined the list, before its tracks are bound. -/
def joinedList (a : Aisle) (b : Beam) (s : State) : State :=
  (s.setPassages { s.passages with next := nextPassageNumber s.passages.next }).setOpens a
    (s.opens a ++ [openedPassage a b s])

theorem openPassage_eq (a : Aisle) (b : Beam) (s : State) :
    openPassage a b s = (openedPassage a b s).items.foldl
      (fun t id => t.modifyTrack id (Track.bind a s.passages.next)) (joinedList a b s) := rfl

theorem openPassage_passages (a : Aisle) (b : Beam) (s : State) :
    (openPassage a b s).passages = (joinedList a b s).passages := by
  rw [openPassage_eq]
  exact (foldl_modifyTrack_only _ _ _).passages (by decide)

theorem openPassage_aisle (a : Aisle) (b : Beam) (s : State) :
    OthersStand a s (openPassage a b s)
      ∧ (openPassage a b s).passages.aisles[a] =
          { s.passages.aisles[a] with opens := s.opens a ++ [openedPassage a b s] } := by
  rw [OthersStand, openPassage_passages]
  exact ⟨fun c hc => setOpens_ne _ _ hc, setAisle_self ..⟩

theorem openedPassage_length (a : Aisle) (b : Beam) (s : State) :
    (openedPassage a b s).items.length ≤ 10 := by simp [openedPassage]

theorem takeBreak_aisle (a : Aisle) (b : Beam) (s : State) :
    OthersStand a s (takeBreak a b s)
      ∧ (s.passages.aisles[a].Bounded → (takeBreak a b s).passages.aisles[a].Bounded) := by
  set s1 := s.setOpens a ((s.opens a).map (Passage.sawBreak b)) with hs1
  have hothers : OthersStand a s s1 := fun c hc => setOpens_ne s _ hc
  have hself : s1.passages.aisles[a] = { s.passages.aisles[a] with
      opens := (s.opens a).map (Passage.sawBreak b) } := setAisle_self ..
  have hbound : s.passages.aisles[a].Bounded → s1.passages.aisles[a].Bounded := by
    rintro ⟨hlen, hitems⟩
    rw [hself]
    refine ⟨(List.length_map _).trans_le hlen, fun p hp => ?_⟩
    obtain ⟨q, hq, rfl⟩ := List.mem_map.1 hp
    have := congrArg (fun x => x.2.length) (sawBreak_holds b q)
    exact this.trans_le (hitems q hq)
  unfold takeBreak
  dsimp only
  rw [← hs1]
  split
  · refine ⟨fun c hc => (setOpens_ne s1 _ hc).trans (hothers c hc), fun h => ?_⟩
    refine Eq.mpr (congrArg AisleRecord.Bounded (setAisle_self s1 a _)) ?_
    exact (KeepsAisle.changeFirst (f := fun p => { p with phase := .crossing })
      fun _ _ h => h).bounded (hbound h)
  · split
    · next hroom =>
      obtain ⟨ho, hrec⟩ := openPassage_aisle a b s1
      refine ⟨fun c hc => (ho c hc).trans (hothers c hc), fun h => ?_⟩
      rw [hrec]
      refine ⟨by simpa using hroom, fun q hq => ?_⟩
      rcases List.mem_append.1 hq with hq | hq
      · exact (hbound h).2 q hq
      · rw [List.mem_singleton.1 hq]; exact openedPassage_length a b s1
    · refine ⟨fun c hc => (setAisle_ne s1 _ hc).trans (hothers c hc), fun h => ?_⟩
      exact Eq.mpr (congrArg AisleRecord.Bounded (setAisle_self s1 a _)) (hbound h)

theorem leaves_aisle {a : Aisle} {p : Passage} {s t : State}
    (h : t.passages = (leaveList a p s).passages) :
    OthersStand a s t ∧ KeepsAisle s.passages.aisles[a] t.passages.aisles[a] := by
  rw [OthersStand, h]
  exact ⟨fun c hc => setOpens_ne s _ hc, leaveList_keeps a p s a⟩

theorem firstOfClear_aisle (a : Aisle) (b : Beam) (s : State) :
    OthersStand a s (firstOfClear a b s)
      ∧ KeepsAisle s.passages.aisles[a] (firstOfClear a b s).passages.aisles[a] := by
  rcases firstOfClear_cases a b s with ⟨p, -, h⟩ | ⟨p, -, h⟩ | h <;> rw [h]
  · exact leaves_aisle (completePassage_passages a s p)
  · exact leaves_aisle (closePassage_passages a _ s p)
  · exact ⟨fun _ _ => rfl, .refl _⟩

theorem takeClear_aisle (a : Aisle) (b : Beam) (s : State) :
    OthersStand a s (takeClear a b s)
      ∧ (s.passages.aisles[a].Bounded → (takeClear a b s).passages.aisles[a].Bounded)
      ∧ ((takeClear a b s).bothClear a = true → (takeClear a b s).passages.aisles[a].Empty) := by
  obtain ⟨hothers, hkeeps⟩ := firstOfClear_aisle a b s
  rw [takeClear_eq]
  split
  · obtain ⟨hself, hrest, -⟩ := sweepAisle_spec a (firstOfClear a b s)
    have hempty : (sweepAisle a (firstOfClear a b s)).passages.aisles[a].Empty := by
      rw [hself]; exact ⟨rfl, rfl⟩
    exact ⟨fun c hc => (hrest c hc).trans (hothers c hc), fun _ => AisleRecord.empty_bounded hempty,
      fun _ => hempty⟩
  · next hclear => exact ⟨hothers, hkeeps.bounded, fun h => absurd h hclear⟩

/-! ## Beam events -/

theorem acceptBeam_bothClear {a c : Aisle} (b : Beam) (s : State) (h : c ≠ a) :
    (acceptBeam a b s).bothClear c = s.bothClear c := by
  have hbeam : ∀ b', (acceptBeam a b s).beam c b' = s.beam c b' := fun b' =>
    (setBeam_beam ..).trans (if_neg fun hc => h hc.1.symm)
  have hi : (acceptBeam a b s).beams.inner[c] = s.beams.inner[c] := hbeam .inner
  have ho : (acceptBeam a b s).beams.outer[c] = s.beams.outer[c] := hbeam .outer
  unfold State.bothClear
  rw [hi, ho]

theorem acceptBeam_beam (a : Aisle) (b : Beam) (s : State) :
    (acceptBeam a b s).beam a b = (s.beam a b).accept :=
  (setBeam_beam ..).trans (if_pos ⟨rfl, rfl⟩)

/-- A beam accepted as broken leaves its aisle's beams not both clear. -/
theorem bothClear_of_broken {s : State} {a : Aisle} {b : Beam} (h : (s.beam a b).accepted = true) :
    s.bothClear a = false := by
  unfold State.bothClear
  cases b with
  | inner =>
    have hi : s.beams.inner[a].accepted = true := h
    rw [hi]; rfl
  | outer =>
    have ho : s.beams.outer[a].accepted = true := h
    rw [ho]; simp

theorem beamEvent_moves (a : Aisle) (b : Beam) (l : Bool) (s : State) :
    Moves s (beamEvent a b l s) := by
  have haccept : Moves s (acceptBeam a b s) :=
    .of_piece (.beams (acceptBeam_only a b s)) (acceptBeam_only a b s) (by decide)
  unfold beamEvent
  dsimp only
  split
  · refine haccept.trans ?_
    split
    · exact takeBreak_moves a b _
    · exact takeClear_moves a b _
  · exact haccept

/-- What a beam event does to the record of its aisle: nothing where the aisle does not detect, else a
break or a clear. -/
theorem beamEvent_aisle {a : Aisle} {b : Beam} {l : Bool} {s : State} (hdue : s.beamDue a b l = true)
    (hs : PassagesFit s) :
    OthersStand a s (beamEvent a b l s)
      ∧ (beamEvent a b l s).passages.aisles[a].Bounded
      ∧ (s.modes.stored[a] = .off → (beamEvent a b l s).passages.aisles[a].Empty)
      ∧ ((beamEvent a b l s).bothClear a = true → (beamEvent a b l s).passages.aisles[a].Empty) := by
  obtain ⟨hb, hoff, hclr, hn⟩ := passagesFit_iff.1 hs a
  have hpass : (acceptBeam a b s).passages = s.passages :=
    (acceptBeam_only a b s).passages (by decide)
  have hothers : OthersStand a s (acceptBeam a b s) := fun c _ => by rw [hpass]
  have hbound : (acceptBeam a b s).passages.aisles[a].Bounded := by rw [hpass]; exact hb
  unfold beamEvent
  dsimp only
  by_cases hdet : s.detects a = true
  · rw [if_pos hdet]
    have hnot : s.modes.stored[a] ≠ .off := by
      simp only [State.detects, Bool.and_eq_true, bne_iff_ne] at hdet
      exact hdet.2
    cases l with
    | true =>
      obtain ⟨ho, hbr⟩ := takeBreak_aisle a b (acceptBeam a b s)
      refine ⟨fun c hc => (ho c hc).trans (hothers c hc), hbr hbound, fun h => absurd h hnot,
        fun h => ?_⟩
      have hbroken : ((takeBreak a b (acceptBeam a b s)).beam a b).accepted = true := by
        rw [(takeBreak_only a b _).beam (by decide), acceptBeam_beam, (Filter.due_true hdue).2.2]
      rw [if_pos rfl, bothClear_of_broken hbroken] at h
      cases h
    | false =>
      obtain ⟨ho, hcl, hem⟩ := takeClear_aisle a b (acceptBeam a b s)
      exact ⟨fun c hc => (ho c hc).trans (hothers c hc), hcl hbound, fun h => absurd h hnot, hem⟩
  · rw [if_neg hdet]
    have hempty : s.passages.aisles[a].Empty := by
      refine hoff ?_
      by_contra hne
      refine hdet ?_
      have hlt : a.val < s.site.aisles := by
        by_contra hge
        exact hne (hn (by omega))
      simpa [State.detects, hlt] using hne
    rw [hpass]
    exact ⟨fun c _ => by rw [hpass], hb, fun _ => hempty, fun _ => hempty⟩

theorem beamEvent_runs {a : Aisle} {b : Beam} {l : Bool} {s : State} (hdue : s.beamDue a b l = true) :
    RunsQuiet s (beamEvent a b l s) := by
  refine (beamEvent_moves a b l s).quiet fun hs => passagesFit_iff.2 fun c => ?_
  have honly := beamEvent_only a b l s
  obtain ⟨hothers, hb, hoff, hclr⟩ := beamEvent_aisle hdue hs
  rw [honly.modes (by decide), honly.site (by decide)]
  obtain ⟨hbc, hoffc, hclrc, hn⟩ := passagesFit_iff.1 hs c
  by_cases hca : c = a
  · subst hca
    exact ⟨hb, hoff, hclr, hn⟩
  · have hclear : (beamEvent a b l s).bothClear c = s.bothClear c := by
      rw [← acceptBeam_bothClear b s hca]
      unfold State.bothClear
      rw [beamEvent_beams]
    rw [hothers c hca, hclear]
    exact ⟨hbc, hoffc, hclrc, hn⟩

theorem settleBeam_runs (a : Aisle) (b : Beam) (s : State) : RunsQuiet s (settleBeam a b s) := by
  unfold settleBeam
  split
  · next h => exact beamEvent_runs h
  · split
    · next h => exact beamEvent_runs h
    · exact .refl s

end Sys2Proof.Machine
end

section
/-! PROOFS. Annunciators, modes and settings as chains of pieces (R9, R11, R14, R146, R153). -/

namespace Sys2Proof.Machine

/-! ## Annunciators and the key -/

/-- No annunciator comes on. -/
theorem lights_runs {s t : State} (frame : Only [.annunciators] s t)
    (h : ∀ a : Aisle, t.annunciators[a] ≠ .quiet → s.annunciators[a] ≠ .quiet) : RunsQuiet s t :=
  runsQuiet_of_piece (.lights (frame.mono (by decide)) fun hs a ha => by
    rw [frame.effective (by decide)]
    exact hs a (h a ha)) frame (by decide)

theorem silenced_quiet {x : Annunciator} (h : x.silenced ≠ .quiet) : x ≠ .quiet := by
  rintro rfl
  exact h rfl

theorem silenceAisles_runs (as : List Aisle) (s : State) : RunsQuiet s (silenceAisles as s) := by
  refine lights_runs (silenceAisles_only as s) fun a ha => ?_
  rw [silenceAisles_get] at ha
  split at ha
  · exact silenced_quiet ha
  · exact ha

theorem quietAisle_runs (a : Aisle) (s : State) : RunsQuiet s (quietAisle a s) := by
  refine lights_runs (quietAisle_only a s) fun b hb => ?_
  have hget : (quietAisle a s).annunciators[b] = if a = b then .quiet else s.annunciators[b] :=
    setAnnunciator_get ..
  rw [hget] at hb
  split at hb
  · exact absurd rfl hb
  · exact hb

theorem durationExpires_runs (a : Aisle) (s : State) : RunsQuiet s (durationExpires a s) := by
  unfold durationExpires
  split
  · exact .ite (fun _ => quietAisle_runs a s) fun _ => .refl s
  · exact .refl s

/-- The filters change, and no beam is accepted anew. -/
theorem filters_runs {s t : State} (frame : Only [.beams] s t)
    (h : ∀ a, t.bothClear a = s.bothClear a) : RunsQuiet s t :=
  (Moves.of_piece (.beams frame) frame (by decide)).quiet
    (passagesFit_of_aisles (congrArg ModeControl.stored (frame.modes (by decide))) h
      (congrArg SiteSettings.aisles (frame.site (by decide)))
      (.of_passages (frame.passages (by decide))))

theorem acceptKey_runs (s : State) : RunsQuiet s (acceptKey s) :=
  filters_runs (acceptKey_only s) fun _ => rfl

theorem pressKey_runs (s : State) : RunsQuiet s (pressKey s) :=
  (acceptKey_runs s).trans (silenceAisles_runs ..)

theorem settleKey_runs (s : State) : RunsQuiet s (settleKey s) :=
  .ite (fun _ => pressKey_runs s) fun _ => .ite (fun _ => acceptKey_runs s) fun _ => .refl s

theorem keyInput_runs (now : Time) (l : Bool) (s : State) :
    RunsQuiet s (s.setBeams { s.beams with key := s.beams.key.input now l }) :=
  filters_runs (only_setBeams s _) fun _ => rfl

theorem beamInput_bothClear (a c : Aisle) (b : Beam) (now : Time) (l : Bool) (s : State) :
    (s.setBeam a b ((s.beam a b).input now l)).bothClear c = s.bothClear c := by
  have hacc : ∀ b', ((s.setBeam a b ((s.beam a b).input now l)).beam c b').accepted
      = (s.beam c b').accepted := by
    intro b'
    rw [setBeam_beam]
    split
    · next h => rw [← h.1, ← h.2]; rfl
    · rfl
  have hi : ((s.setBeam a b ((s.beam a b).input now l)).beams.inner[c]).accepted
      = s.beams.inner[c].accepted := hacc .inner
  have ho : ((s.setBeam a b ((s.beam a b).input now l)).beams.outer[c]).accepted
      = s.beams.outer[c].accepted := hacc .outer
  unfold State.bothClear
  rw [hi, ho]

theorem beamInput_runs (a : Aisle) (b : Beam) (now : Time) (l : Bool) (s : State) :
    RunsQuiet s (s.setBeam a b ((s.beam a b).input now l)) :=
  filters_runs (setBeam_only s a b _) fun c => beamInput_bothClear a c b now l s

/-! ## Modes -/

/-- Modes and annunciators change, and no stored mode does. -/
theorem evac_runs {s t : State} (frame : Only [.modes, .annunciators] s t)
    (hstored : t.modes.stored = s.modes.stored) (h : AnnunciatorsFit s → AnnunciatorsFit t) :
    RunsQuiet s t :=
  (Moves.of_piece (.lights frame h) frame (by decide)).quiet
    (passagesFit_of_aisles hstored (frame.bothClear (by decide))
      (congrArg SiteSettings.aisles (frame.site (by decide)))
      (.of_passages (frame.passages (by decide))))

theorem effective_evac {s t : State} (hm : t.modes.evac.accepted = s.modes.evac.accepted)
    (hs : t.modes.stored = s.modes.stored) (a : Aisle) : t.effective a = s.effective a := by
  unfold State.effective
  rw [hm, hs]

theorem effective_free {s : State} (h : s.modes.evac.accepted = true) (a : Aisle) :
    s.effective a = .free := by
  unfold State.effective
  rw [h]
  rfl

theorem evacInput_runs (now : Time) (l : Bool) (s : State) :
    RunsQuiet s (s.setModes { s.modes with evac := s.modes.evac.input now l }) :=
  evac_runs ((only_setModes s _).mono (by decide)) rfl fun hs a ha =>
    (effective_evac (s := s) rfl rfl a).trans (hs a ha)

theorem quietAisles_get (as : List Aisle) (s : State) (b : Aisle) :
    (as.foldl (fun s a => quietAisle a s) s).annunciators[b] =
      if b ∈ as then .quiet else s.annunciators[b] := by
  induction as generalizing s with
  | nil => simp
  | cons a as ih =>
    have hget : (quietAisle a s).annunciators[b] = if a = b then .quiet else s.annunciators[b] :=
      setAnnunciator_get ..
    rw [List.foldl_cons, ih, hget]
    by_cases hb : b ∈ as
    · simp [hb]
    · by_cases hab : a = b
      · simp [hb, hab]
      · simp [hb, hab, Ne.symm hab]

/-- The aisles in GUARD go QUIET, and only those. -/
theorem guarded_quiet {s : State} (hs : AnnunciatorsFit s) (b : Aisle) :
    (s.guardedAisles.foldl (fun s a => quietAisle a s) (acceptEvac s)).annunciators[b] = .quiet := by
  rw [quietAisles_get]
  split
  · rfl
  · next hb =>
    by_contra hne
    refine hb (List.mem_filter.2 ⟨mem_allAisles b, ?_⟩)
    rw [hs b hne]
    rfl

theorem assertEvac_runs {s : State} : RunsQuiet s (assertEvac s) := by
  have honly : Only [.annunciators] (acceptEvac s)
      (s.guardedAisles.foldl (fun s a => quietAisle a s) (acceptEvac s)) :=
    Only.foldl (fun s a => quietAisle_only a s) _ _
  refine RunsQuiet.trans (evac_runs (((acceptEvac_only s).mono (by decide)).trans
    (honly.mono (by decide))) ?_ fun hs b hb => absurd (guarded_quiet hs b) hb) (notice_runs ..)
  rw [honly.modes (by decide)]
  rfl

theorem releaseEvac_runs {s : State} (hdue : s.evacDue false = true) : RunsQuiet s (releaseEvac s) := by
  refine RunsQuiet.trans (evac_runs ((acceptEvac_only s).mono (by decide)) rfl fun hs b hb => ?_)
    (notice_runs ..)
  have hfree := effective_free (Filter.due_true hdue).2.1 b
  have hguard := hs b hb
  rw [hfree] at hguard
  cases hguard

theorem settleEvac_runs (s : State) : RunsQuiet s (settleEvac s) := by
  unfold settleEvac
  split
  · exact assertEvac_runs
  · split
    · next h => exact releaseEvac_runs h
    · exact .refl s

/-- The stored mode is set, before its handovers. -/
def modeSet (m : Mode) (s : State) (a : Aisle) : State :=
  s.setModes { s.modes with stored := s.modes.stored.set a m }

/-- An aisle that has left effective GUARD goes QUIET (R153). -/
def modeHandedOver (m : Mode) (s : State) (a : Aisle) : State :=
  if s.effective a = .guard ∧ (modeSet m s a).effective a ≠ .guard then quietAisle a (modeSet m s a)
  else modeSet m s a

theorem changeMode_eq (m : Mode) (s : State) (a : Aisle) :
    changeMode m s a = if s.modes.stored[a] = .watch ∧ m = .off
      then dismissAisle a (modeHandedOver m s a) else modeHandedOver m s a := rfl

theorem modeHandedOver_only (m : Mode) (s : State) (a : Aisle) :
    Only [.modes, .annunciators] s (modeHandedOver m s a) := by
  have h : Only [.modes, .annunciators] s (modeSet m s a) := (only_setModes s _).mono (by decide)
  exact Only.ite (h.trans ((quietAisle_only a _).mono (by decide))) h

theorem modeSet_effective (m : Mode) (s : State) {a b : Aisle} (h : b ≠ a) :
    (modeSet m s a).effective b = s.effective b := by
  unfold State.effective modeSet
  simp only [State.setModes_modes]
  rw [set_get, if_neg h.symm]
  rfl

theorem modeHandedOver_effective (m : Mode) (s : State) (a b : Aisle) :
    (modeHandedOver m s a).effective b = (modeSet m s a).effective b := by
  unfold modeHandedOver
  split
  · exact (quietAisle_only a _).effective (by decide) b
  · rfl

theorem modeHandedOver_fits {m : Mode} {s : State} {a : Aisle} (hs : AnnunciatorsFit s) :
    AnnunciatorsFit (modeHandedOver m s a) := by
  intro b hb
  rw [modeHandedOver_effective]
  have hget : ∀ b : Aisle, (quietAisle a (modeSet m s a)).annunciators[b] =
      if a = b then .quiet else s.annunciators[b] := fun b => setAnnunciator_get ..
  by_cases hleft : s.effective a = .guard ∧ (modeSet m s a).effective a ≠ .guard
  · rw [modeHandedOver, if_pos hleft, hget] at hb
    split at hb
    · exact absurd rfl hb
    · next hab => rw [modeSet_effective m s (Ne.symm hab)]; exact hs b hb
  · rw [modeHandedOver, if_neg hleft] at hb
    have hguard : s.effective b = .guard := hs b hb
    by_cases hab : b = a
    · subst hab
      by_contra hne
      exact hleft ⟨hguard, hne⟩
    · rw [modeSet_effective m s hab]; exact hguard

theorem changeMode_moves (m : Mode) (s : State) (a : Aisle) : Moves s (changeMode m s a) := by
  have hset : Moves s (modeHandedOver m s a) :=
    .of_piece (.lights (modeHandedOver_only m s a) modeHandedOver_fits) (modeHandedOver_only m s a)
      (by decide)
  rw [changeMode_eq]
  split
  · exact hset.trans (dismissAisle_moves a _)
  · exact hset

/-- A transition that is not refused leaves an aisle that becomes OFF empty, and one above N alone. -/
theorem changeMode_runs {m : Mode} {s : State} {a : Aisle} (hn : a.val < s.site.aisles)
    (ht : transition s.modes.stored[a] m ≠ .refused) : RunsQuiet s (changeMode m s a) := by
  refine (changeMode_moves m s a).quiet fun hs => passagesFit_iff.2 fun b => ?_
  obtain ⟨hb, hoff, hclr, habove⟩ := passagesFit_iff.1 hs b
  have honly := changeMode_only m s a
  have hempty : ({ opens := [], crowded := false } : AisleRecord).Empty := ⟨rfl, rfl⟩
  rw [honly.site (by decide), honly.bothClear (by decide), changeMode_aisle, changeMode_stored]
  by_cases hdis : a = b ∧ s.modes.stored[a] = .watch ∧ m = .off
  · rw [if_pos hdis]
    refine ⟨AisleRecord.empty_bounded hempty, fun _ => hempty, fun _ => hempty, fun h => ?_⟩
    rw [← hdis.1] at h
    omega
  · rw [if_neg hdis, set_get]
    refine ⟨hb, fun h => ?_, hclr, fun h => ?_⟩
    · split at h
      · next hab =>
        subst hab h
        refine hoff ?_
        cases hst : s.modes.stored[a] with
        | off => rfl
        | watch => exact absurd ⟨rfl, hst, rfl⟩ hdis
        | guard => rw [hst] at ht; exact absurd rfl ht
      · exact hoff h
    · split
      · next hab => subst hab; omega
      · exact habove h

theorem transition_self (m : Mode) : transition m m = .unchanged := by cases m <;> rfl

theorem changeModes_runs {m : Mode} (as : List Aisle) (s : State) (hn : ∀ a ∈ as, a.val < s.site.aisles)
    (ht : ∀ a ∈ as, transition s.modes.stored[a] m ≠ .refused) :
    RunsQuiet s (as.foldl (changeMode m) s) := by
  induction as generalizing s with
  | nil => exact .refl s
  | cons a as ih =>
    obtain ⟨hna, hnas⟩ := List.forall_mem_cons.1 hn
    obtain ⟨hta, htas⟩ := List.forall_mem_cons.1 ht
    refine (changeMode_runs hna hta).trans (ih _ (fun b hb => ?_) fun b hb => ?_)
    · rw [(changeMode_only m s a).site (by decide)]; exact hnas b hb
    · rw [changeMode_stored, set_get]
      split
      · rw [transition_self]; decide
      · exact htas b hb

theorem namedAisles_lt {n : Nat} {b : Byte} {as : List Aisle} (h : namedAisles n b = some as) :
    ∀ a ∈ as, a.val < n := by
  unfold namedAisles at h
  split at h
  · cases h
    intro a ha
    simpa [aislesInUse] using (List.mem_filter.1 ha).2
  · split at h
    · next hb =>
      cases h
      intro a ha
      rw [List.mem_singleton.1 ha]
      simp only
      omega
    · cases h

theorem takeSetMode_runs {ref a m : Byte} {s : State} (hp : placesUsed s < 8) :
    Runs s (takeSetMode ref a m s) := by
  unfold takeSetMode
  split
  · next as m has _ =>
    split
    · exact (RunsQuiet.refl s).reply hp ..
    · next hnone =>
      refine RunsQuiet.reply (changeModes_runs _ s (fun b hb => ?_) fun b hb => ?_) hp ..
      · exact namedAisles_lt has b (List.mem_filter.1 hb).1
      · have := (List.mem_filter.1 hb).2
        rw [beq_iff_eq] at this
        rw [this]
        decide
  · exact (RunsQuiet.refl s).reply hp ..

theorem takeSilence_runs {ref a : Byte} {s : State} (hp : placesUsed s < 8) :
    Runs s (takeSilence ref a s) := by
  unfold takeSilence
  split
  · exact (silenceAisles_runs ..).reply hp ..
  · exact (RunsQuiet.refl s).reply hp ..

/-! ## Settings -/

theorem changeAisles_fits {g : Bool} {x : Activity} (n : Nat) (h : x.fits g) :
    (x.changeAisles n).fits g := by cases x <;> exact h

theorem changeAisles_pass? (n : Nat) (x : Activity) : (x.changeAisles n).pass? = x.pass? := by
  cases x <;> rfl

theorem healthWithin_fits {n : Nat} {v : Vector Health 9} (h : ∀ p : Pedestal, v[p].fits)
    (p : Pedestal) : (healthWithin n v)[p].fits := by
  have hget : (healthWithin n v)[p] = if n < p.val then { faulted := false, count := 0 } else v[p] := by
    unfold healthWithin
    rw [Fin.getElem_fin, Vector.getElem_ofFn]
  rw [hget]
  split
  · exact Health.fits_clean
  · exact h p

theorem aislesChanged_calm (s : State) : Calm s (aislesChanged s) := by
  unfold aislesChanged
  dsimp only
  split
  · next hidle =>
    obtain ⟨hrec, -, hact⟩ := startRound_spec s.clock.now s.site.aisles
      { s.bus with
        health := healthWithin s.site.aisles s.bus.health
        activity := s.bus.activity.changeAisles s.site.aisles }
    refine setBus_calm (places_le hrec.grant ?_) fun hf => busFits_iff.2 ⟨?_, ?_⟩
    · simp [Activity.pass?_of_firstPoll hact]
    · rw [hrec.health]; exact healthWithin_fits hf.1
    · have hgrant : s.bus.grant.isSome = false := by
        have := hf.2
        rwa [hidle] at this
      rw [hrec.grant]
      exact hgrant ▸ Activity.fits_of_firstPoll hact
  · refine setBus_calm (places_le rfl (by rw [changeAisles_pass?]; exact id)) fun hf => ?_
    exact busFits_iff.2 ⟨healthWithin_fits hf.1, changeAisles_fits _ hf.2⟩

theorem calm_moves {cs : List Component} {s t : State} (h : Only cs s t) (hc : Calm s t)
    (hsub : ∀ c ∈ cs, c ∈ restParts) : Moves s t :=
  ⟨.single (.rest (h.mono hsub) hc.keeps), hc.places⟩

theorem setDecayAt_moves (s : State) (t : Time) :
    Moves s (s.setTracking { s.tracking with decayAt := t }) :=
  .of_piece (.tracks (f := id) (only_setTracking s _) (fun _ => ⟨rfl, fun _ => le_rfl, fun _ _ => .rfl⟩)
    (by simp)) (only_setTracking s _) (by decide)

theorem applyRecord_moves (r : SiteSettings) (s : State) : Moves s (applyRecord r s) := by
  have hsite : Moves s (s.setSite r) := calm_moves (only_setSite s r)
    (calm_of_only (only_setSite s r) (by decide) (by decide)) (by decide)
  have hdecay := hsite.trans (setDecayAt_moves _ (after s.clock.now r.decay))
  unfold applyRecord
  dsimp only
  split
  · exact hdecay
  · exact hdecay.trans (calm_moves (aislesChanged_only _) (aislesChanged_calm _) (by decide))

/-- A record that passes the aisle-count check (R6) keeps the bounds of the open passages. -/
theorem applyRecord_runs {r : SiteSettings} {s : State}
    (h : r.aisles = s.site.aisles ∨ ∀ a : Aisle, s.modes.stored[a] = .off) :
    RunsQuiet s (applyRecord r s) := by
  refine (applyRecord_moves r s).quiet fun hs => passagesFit_iff.2 fun a => ?_
  have honly := applyRecord_only r s
  obtain ⟨hb, hoff, hclr, hn⟩ := passagesFit_iff.1 hs a
  rw [honly.passages (by decide), honly.modes (by decide), honly.bothClear (by decide),
    applyRecord_site]
  refine ⟨hb, hoff, hclr, fun ha => ?_⟩
  rcases h with h | h
  · exact hn (h ▸ ha)
  · exact h a

theorem setChoice_runs (s : State) (n : Nat) : RunsQuiet s (s.setChoice n) :=
  runsQuiet_of_calm (only_setChoice s n) (calm_of_only (only_setChoice s n) (by decide) (by decide))
    (by decide)

theorem afterPick_runs {α : Type} (s : State) (l : List α) : RunsQuiet s (s.afterPick l) :=
  .ite (fun _ => .refl s) fun _ => setChoice_runs s _

theorem settleInput_runs (i : DebouncedInput) (s : State) : RunsQuiet s (settleInput i s) := by
  cases i with
  | beam a b => exact settleBeam_runs a b s
  | key => exact settleKey_runs s

theorem settleInputs_runs (n : Nat) (s : State) : RunsQuiet s (settleInputs n s) := by
  induction n generalizing s with
  | zero => exact .refl s
  | succ n ih =>
    unfold settleInputs
    split
    · exact .refl s
    · exact ((afterPick_runs s _).trans (settleInput_runs _ _)).trans (ih _)

theorem takeSetSite_runs {ref : Byte} {f : SiteFields} {s : State} (hp : placesUsed s < 8) :
    Runs s (takeSetSite ref f s) := by
  unfold takeSetSite
  split
  · split
    · next hallowed =>
      refine RunsQuiet.reply (RunsQuiet.trans (applyRecord_runs ?_) (settleInputs_runs 17 _)) hp ..
      rcases State.aisleCountAllowed_iff.1 hallowed with h | h
      · exact .inl h
      · exact .inr h
    · exact (RunsQuiet.refl s).reply hp ..
  · exact (RunsQuiet.refl s).reply hp ..

end Sys2Proof.Machine
end

section
/-! PROOFS. The bus, the host link, the restarts and the step itself as chains of pieces. -/

namespace Sys2Proof.Machine

/-! ## Answers of readers -/

theorem busLink_runs {s t : State} (h : Only [.bus, .link] s t) (hc : Calm s t) : RunsQuiet s t :=
  runsQuiet_of_calm h hc (by decide)

theorem setBus_runs {s : State} {b : BusController} (h : Calm s (s.setBus b)) :
    RunsQuiet s (s.setBus b) := busLink_runs ((only_setBus s b).mono (by decide)) h

theorem restoreProbed_runs (t : Turn) (s : State) : RunsQuiet s (restoreProbed t s) :=
  busLink_runs (restoreProbed_only t s) (restoreProbed_calm t s)

theorem endTurn_runs (t : Turn) (mute : Bool) (s : State) : RunsQuiet s (endTurn t mute s) :=
  busLink_runs (endTurn_only t mute s) (endTurn_calm t mute s)

theorem afterDraw_runs (s : State) (n : Nat) : RunsQuiet s (s.afterDraw n) :=
  .ite (fun _ => .refl s) fun _ => setChoice_runs s _

/-- The part of a poll that is open, or of an answer being taken, fits. -/
abbrev TurnFits (s : State) (t : Turn) : Prop := s.bus.activity.fits s.bus.grant.isSome → t.fits

theorem turnFits_of_hearing {s : State} {t : Turn} {bytes : List Byte}
    (h : s.hearing = some (t, bytes)) : TurnFits s t := by
  intro hf
  unfold State.hearing at h
  split at h
  · next heq => cases h; rw [heq] at hf; exact hf
  · next heq => cases h; rw [heq] at hf; exact hf.1
  · cases h

theorem turnFits_of_polled {s : State} {t : Turn} (h : s.polled = some t) : TurnFits s t := by
  obtain ⟨⟨t', bytes⟩, hx, rfl⟩ := Option.map_eq_some_iff.1 h
  exact turnFits_of_hearing hx

theorem takeSightings_runs {s : State} {t : Turn} (ht : TurnFits s t) {more : Bool}
    {rs : List SightingRecord} (hl : rs.length ≤ 6) : RunsQuiet s (takeSightings t more rs s) := by
  unfold takeSightings
  dsimp only
  obtain ⟨-, hact, hg, -⟩ := restoreProbed_spec t s
  have hpast := (restoreProbed_runs t s).trans (afterDraw_runs _ rs.length)
  have htaken := hpast.trans (RunsQuiet.foldl (intakeRecord_runs t.pedestal)
    (rs.take ((restoreProbed t s).drawn rs.length + 1)) _)
  refine htaken.trans (busLink_runs (deliver_only ..) (deliver_calm (fun hf => ?_) fun _ => ?_))
  · rw [(intake_only t.pedestal _ _).bus (by decide), (afterDraw_only _ _).bus (by decide), hact, hg]
      at hf
    exact ht hf
  · rw [List.length_drop]
    omega

theorem takeReaderAnswer_runs {s : State} {t : Turn} (ht : TurnFits s t) {a : Answer}
    (ha : ∀ more rs, a = .sightings more rs → rs.length ≤ 6) :
    RunsQuiet s (takeReaderAnswer t a s) := by
  cases a with
  | sightings more rs => exact takeSightings_runs ht (ha more rs rfl)
  | extend n => exact busLink_runs (takeExtension_only ..) (takeExtension_calm ht n)
  | extendOn => exact busLink_runs (takeExtension_only ..) (takeExtension_calm ht 1)

theorem takeRecord_runs (s : State) : RunsQuiet s (takeRecord s) := by
  unfold takeRecord
  split
  · exact busLink_runs (finishAnswer_only ..) (finishAnswer_calm ..)
  · next t more r rs hact =>
    refine (intakeRecord_runs t.pedestal s r).trans (busLink_runs (deliver_only ..)
      (deliver_calm (fun hf => ?_) fun hf => ?_))
    all_goals
      rw [(intakeRecord_only t.pedestal s r).bus (by decide), hact] at hf
    · exact hf.1
    · exact Nat.le_of_succ_le hf.2.2
  · exact .refl s

theorem readRecords_length (bs : List Byte) (n i : Nat) : (readRecords bs n i).length = n := by
  induction n generalizing i with
  | zero => rfl
  | succ n ih => simp [readRecords, ih]

theorem answerLength_le {bs : List Byte} {n : Nat} (h : answerLength bs = some n) :
    n ≤ 70 ∧ (byteAt bs 1 = 0x81 → recordCount bs ≤ 6) := by
  unfold answerLength at h
  split_ifs at h with h1 h2 h3 h4 <;> cases h
  · exact ⟨by omega, fun _ => h2⟩
  · exact ⟨by omega, fun hc => absurd hc h1⟩
  · exact ⟨by omega, fun hc => absurd hc h1⟩

/-- Bytes that do not yet make a frame are fewer than the longest frame (R181). -/
theorem judgeAnswer_partially {p : Pedestal} {bs : List Byte} (h : judgeAnswer p bs = .partially) :
    bs.length < 70 := by
  unfold judgeAnswer at h
  split at h
  · omega
  · split at h
    · cases h
    · next n hn =>
      split at h
      · have := (answerLength_le hn).1
        omega
      · split at h
        · cases h
        · split at h <;> cases h

/-- A SIGHTINGS answer read from bytes holds at most 6 records (R182). -/
theorem judgeAnswer_sightings {p : Pedestal} {bs : List Byte} {more : Bool} {rs : List SightingRecord}
    (h : judgeAnswer p bs = .answer (.sightings more rs)) : rs.length ≤ 6 := by
  unfold judgeAnswer at h
  split at h
  · cases h
  · split at h
    · cases h
    · next n hn =>
      split at h
      · cases h
      · split at h
        · cases h
        · split at h
          · next a ha =>
            cases h
            unfold answerFields at ha
            split_ifs at ha with h1 h2 h3 <;> cases ha
            rw [readRecords_length]
            exact (answerLength_le hn).2 h1
          · cases h

theorem takeBytes_runs {s : State} {t : Turn} (ht : TurnFits s t) {bytes : List Byte}
    (hb : bytes ≠ []) : RunsQuiet s (takeBytes t bytes s) := by
  unfold takeBytes
  split
  · next h =>
    exact setBus_runs (setBus_calm_of_turn rfl rfl rfl fun hf =>
      ⟨ht hf, hb, judgeAnswer_partially h⟩)
  · exact endTurn_runs ..
  · next a h => exact takeReaderAnswer_runs ht fun more rs ha => judgeAnswer_sightings (ha ▸ h)

/-! ## Timers of the bus and the hold -/

theorem sendRepoll_runs {s : State} {t : Turn} {w : Time} (h : s.bus.activity = .waiting t w) :
    RunsQuiet s (s.changeBus fun now _ b => sendRepoll now t b) :=
  setBus_runs (setBus_calm_of_turn rfl rfl rfl fun hf => by rw [h] at hf; exact hf)

theorem startRound_runs {s : State} (h : s.bus.activity = .idle) :
    RunsQuiet s (s.changeBus startRound) := by
  obtain ⟨hrec, -, hact⟩ := startRound_spec s.clock.now s.site.aisles s.bus
  refine setBus_runs (setBus_calm_of_records hrec (fun hf => ?_) hact)
  have := hf.2
  rwa [h] at this

theorem probeTimer_runs (s : State) : RunsQuiet s
    (s.setBus { s.bus with probeDue := true, probeAt := after s.bus.probeAt 1000 }) :=
  setBus_runs (setBus_calm (places_le rfl id) id)

theorem reply_only_busLink (k : RequestKind) (ref : Byte) (st : Status) (body : List Byte) (s : State)
    (b : BusController) : Only [.bus, .link] s (reply k ref st body (s.setBus b)) :=
  ((only_setBus s b).mono (by decide)).trans ((reply_only ..).mono (by decide))

/-! ## The host link -/

theorem setLink_runs {s : State} {l : LinkUnit} (hr : l.reports ≤ s.link.reports)
    (hp : l.replies.length ≤ s.link.replies.length) : RunsQuiet s (s.setLink l) := by
  refine runsQuiet_of_calm (only_setLink s l) ⟨hr.trans, ?_, id⟩ (by decide)
  rw [placesUsed_eq, placesUsed_eq]
  exact Nat.add_le_add_right hp _

theorem setRx_runs (s : State) (bs : List RxByte) : RunsQuiet s (s.setRx bs) :=
  setLink_runs le_rfl le_rfl

theorem markSent_map {α : Type} (f : Query → α) (h : ∀ q : Query, f { q with sent := true } = f q)
    (qs : List Query) : (markSent qs).map f = qs.map f := by
  induction qs with
  | nil => rfl
  | cons q qs ih => unfold markSent; split <;> simp [h, ih]

theorem markSent_runs (s : State) : RunsQuiet s (s.setQueryList (markSent s.queries.list)) := by
  refine setQueryList_runs fun ⟨hlen, hid, hnum, hzero, hnext⟩ => ⟨?_, ?_, ?_, ?_, hnext⟩
  · have := congrArg List.length (markSent_map (·.number) (fun _ => rfl) s.queries.list)
    simp only [List.length_map] at this
    exact this.trans_le hlen
  · exact (markSent_map (·.ident) (fun _ => rfl) s.queries.list).symm ▸ hid
  · exact (markSent_map (·.number) (fun _ => rfl) s.queries.list).symm ▸ hnum
  · have hall : ∀ n ∈ (markSent s.queries.list).map (·.number), n ≠ 0 := by
      rw [markSent_map (·.number) (fun _ => rfl)]
      exact List.forall_mem_map.2 hzero
    exact fun q hq => hall q.number (List.mem_map_of_mem hq)

theorem sendReport_runs (s : State) : RunsQuiet s (sendReport s) := by
  unfold sendReport
  split
  · next r rest h => exact setLink_runs (by simp [LinkUnit.reports, h]) le_rfl
  · next h =>
    split
    · next r rest h' => exact setLink_runs (by simp [LinkUnit.reports, h']) le_rfl
    · exact .refl s

theorem arbitrate_runs (s : State) : RunsQuiet s (arbitrate s) := by
  unfold arbitrate
  split
  · next r rest h => exact setLink_runs le_rfl (by simp [h])
  · split
    · exact (markSent_runs s).trans (setLink_runs le_rfl le_rfl)
    · exact sendReport_runs s

theorem takeRestart_runs {ref k : Byte} {s : State} (hp : placesUsed s < 8) :
    Runs s (takeRestart ref k s) := by
  unfold takeRestart
  split
  · next w _ =>
    have hwait : RunsQuiet s (s.setLink { s.link with restart := some { kind := w, left := false } }) :=
      setLink_runs le_rfl le_rfl
    exact hwait.reply hp ..
  · exact (RunsQuiet.refl s).reply hp ..

theorem takeStatus_runs {ref v : Byte} {s : State} (hp : placesUsed s < 8) :
    Runs s (takeStatus ref v s) := by
  unfold takeStatus
  split
  · exact (RunsQuiet.refl s).reply hp ..
  · split <;> exact (RunsQuiet.refl s).reply hp ..

theorem removeUpdate_runs {k : RequestKind} {kind : ChangeKind} {ref : Byte} {id : Ident} {s : State}
    (p : EntryClass → Bool) (hp : placesUsed s < 8) :
    Runs s (runUpdate k kind ref id (if badFields id none then .refused .range else removeRule p s id)
      s) := runUpdate_runs hp (.checked fun _ _ => removeRule_fits p s id)

theorem takeMark_runs {ref : Byte} {id : Ident} {c : Byte} {e d : Option Nat} {s : State}
    (hp : placesUsed s < 8) : Runs s (takeMark ref id c e d s) := by
  refine runUpdate_runs hp (.checked (desk := d) fun h0 _ => ?_)
  split
  · exact markRule_fits h0 _ e
  · exact UpdateFits.refused s id _

/-- Every dispatched request finds a free place. -/
theorem takeRequest_runs (ref : Byte) (r : Request) {s : State} (hp : placesUsed s < 8) :
    Runs s (takeRequest ref r s) := by
  have quiet := RunsQuiet.refl s
  cases r with
  | describe o => exact .ite (fun _ => quiet.reply hp ..) fun _ => quiet.reply hp ..
  | status v => exact takeStatus_runs hp
  | restart k => exact takeRestart_runs hp
  | setSite f => exact takeSetSite_runs hp
  | setMode a m => exact takeSetMode_runs hp
  | silence a => exact takeSilence_runs hp
  | issue id e d => exact runUpdate_runs hp (.checked fun h0 hd => issueRule_fits h0 hd)
  | beginIssue id d => exact runUpdate_runs hp (.checked fun h0 hd => beginIssueRule_fits h0 hd)
  | cancelIssue id => exact removeUpdate_runs _ hp
  | returnItem id => exact removeUpdate_runs _ hp
  | mark id c e d => exact takeMark_runs hp
  | unmark id => exact removeUpdate_runs _ hp
  | lookup id => exact .ite (fun _ => quiet.reply hp ..) fun _ => quiet.reply hp ..
  | segBegin i n => exact takeSegBegin_runs hp
  | segBlock i b l es => exact takeSegBlock_runs hp
  | trust set => exact takeTrust_runs hp
  | supervise p => exact takeSupervise_runs hp
  | answer n id x e => exact takeAnswer_runs hp
  | busTake => exact runs_of_keeps (takeBusTake_only ref s) (takeBusTake_keeps hp) (by decide)
  | busGive => exact runs_of_keeps (takeBusGive_only ref s) (takeBusGive_keeps hp) (by decide)
  | readerPass p bs =>
    exact runs_of_keeps (takeReaderPass_only ref p bs s) (takeReaderPass_keeps hp) (by decide)

theorem rejectFrame_runs (f : Frame) (st : Status) {s : State} (hp : placesUsed s < 8) :
    Runs s (rejectFrame f st s) :=
  runs_of_keeps (placeReply_only ..) (placeReply_keeps hp) (by decide)

theorem handOn_runs (s : State) (f : Frame) : Runs s (handOn s f) := by
  have hcount := (countGoodFrame_runs s).toRuns
  unfold handOn
  refine .ite (fun _ => hcount) fun _ => .ite (fun _ => hcount) fun hp => hcount.trans ?_
  have hp : placesUsed (countGoodFrame s) < 8 := by omega
  unfold dispatch
  split
  · exact rejectFrame_runs f .kind hp
  · exact rejectFrame_runs f .format hp
  · exact takeRequest_runs _ _ hp

theorem goodFrame_runs (k ref : Byte) (p : List Byte) (s : State) : Runs s (goodFrame k ref p s) :=
  (setRx_runs s []).toRuns.trans (handOn_runs ..)

theorem receive_runs (silent : Bool) (bytes : List Byte) (s : State) :
    Runs s (receive silent bytes s) :=
  (setRx_runs s _).toRuns.trans (.foldl handOn_runs _ _)

/-! ## Restarts -/

theorem restarted_fits (now : Time) (n : Nat) :
    BusFits (BusController.restarted now n) ∧ (BusController.restarted now n).places = 0 := by
  obtain ⟨hrec, -, hact⟩ := startRound_spec now n
    { health := Vector.replicate 9 { faulted := false, count := 0 }
      activity := .idle
      grant := none
      round := { probePhase := false, next := 0, faultedAtStart := [], probed := [] }
      probeDue := false
      probeAt := after now 1000
      sent := [] }
  have hgrant : (BusController.restarted now n).grant = none := hrec.grant
  refine ⟨busFits_iff.2 ⟨fun p => ?_, ?_⟩, ?_⟩
  · rw [BusController.restarted, hrec.health, Fin.getElem_fin, Vector.getElem_replicate]
    exact Health.fits_clean
  · rw [hgrant]; exact Activity.fits_of_firstPoll hact
  · have hpass : (BusController.restarted now n).activity.pass? = none :=
      Activity.pass?_of_firstPoll hact
    simp [BusController.places, hgrant, hpass]

theorem restarted_aisle (n : Word16) (a : Aisle) :
    (PassageTracker.restarted n).aisles[a].Empty := by
  have : (PassageTracker.restarted n).aisles[a] = { opens := [], crowded := false } := by
    rw [PassageTracker.restarted, Fin.getElem_fin, Vector.getElem_replicate]
  rw [this]
  exact ⟨rfl, rfl⟩

/-- What both restarts leave. -/
structure Restarted (s t : State) : Prop where
  bus : ∃ now n, t.bus = BusController.restarted now n
  tracks : t.tracking.tracks = []
  passages : ∃ n, t.passages = PassageTracker.restarted n
  queries : t.queries = QueryUnit.restarted
  judging : t.judging = []
  annunciators : t.annunciators = Vector.replicate 8 .quiet
  refresh : t.refresh = none
  reports : s.link.reports ≤ 48 → t.link.reports ≤ 48
  replies : t.link.replies = []
  entries : (∀ i : Fin 64, t.segments[i].entries = []) ∨ t.segments = s.segments
  stored : PassagesFit s → ∀ a : Aisle, t.site.aisles ≤ a.val → t.modes.stored[a] = .off

theorem Restarted.afresh {s t : State} (h : Restarted s t) : Afresh t where
  tracks := h.tracks
  opens a := by
    obtain ⟨n, hn⟩ := h.passages
    rw [State.opens, hn]
    exact (restarted_aisle n a).1
  queries := h.queries
  judging := h.judging
  quiet a := by rw [h.annunciators, Fin.getElem_fin, Vector.getElem_replicate]

theorem Restarted.runs {s t : State} (h : Restarted s t) : Runs s t where
  pieces := by
    obtain ⟨now, n, hbus⟩ := h.bus
    obtain ⟨hfits, hplaces⟩ := restarted_fits now n
    refine .single (.restarts h.afresh (fun hs => ⟨fun i => ?_, fun r hr => ?_⟩) ⟨h.reports, ?_, ?_⟩)
    · rcases h.entries with he | he
      · rw [he i]; exact EntriesFit.nil i
      · rw [he]; exact hs.1 i
    · rw [h.refresh] at hr; cases hr
    · intro _
      rw [placesUsed_eq, h.replies, hbus, hplaces]
      decide
    · intro _
      rw [hbus]
      exact hfits
  passages hs := by
    refine passagesFit_iff.2 fun a => ?_
    obtain ⟨n, hn⟩ := h.passages
    rw [hn]
    have hempty := restarted_aisle n a
    exact ⟨AisleRecord.empty_bounded hempty, fun _ => hempty, fun _ => hempty, h.stored hs a⟩

theorem fullReset_restarted (c : RestartCause) (s : State) : Restarted s (fullReset c s) where
  bus := ⟨0, SiteSettings.default.aisles, rfl⟩
  tracks := rfl
  passages := ⟨1, rfl⟩
  queries := rfl
  judging := rfl
  annunciators := rfl
  refresh := rfl
  reports _ := createReport_length (Nat.zero_le 48)
  replies := notice_replies ..
  entries := .inl fun i => congrArg Segment.entries (Vector.getElem_replicate i.isLt)
  stored _ a _ := Vector.getElem_replicate a.isLt

theorem detectionRestart_restarted (s : State) : Restarted s (detectionRestart s) where
  bus := ⟨s.clock.now, s.site.aisles, rfl⟩
  tracks := rfl
  passages := ⟨s.passages.next, rfl⟩
  queries := rfl
  judging := rfl
  annunciators := rfl
  refresh := rfl
  reports h := createReport_length h
  replies := notice_replies ..
  entries := .inr rfl
  stored hs a := (hs a).2.2.2.2

/-! ## The step -/

theorem setClock_runs (s : State) (c : Clock) : RunsQuiet s (s.setClock c) :=
  runsQuiet_of_calm (only_setClock s c) (calm_of_only (only_setClock s c) (by decide) (by decide))
    (by decide)

theorem setPending_runs (s : State) (q : List Instr) : RunsQuiet s (s.setPending q) :=
  runsQuiet_of_calm (only_setPending s q)
    (calm_of_only (only_setPending s q) (by decide) (by decide)) (by decide)

theorem idle_runs (s : State) : RunsQuiet s (idle s) := by
  unfold idle
  split
  · exact setClock_runs s _
  · split
    · exact (afterPick_runs s _).trans (setPending_runs _ _)
    · exact (afterPick_runs s _).trans (takeRecord_runs _)

/-- Where a command runs on to another state, it is a chain of pieces. -/
def RunsOn (s : State) (o : Host.Outcome State Fault Refusal) : Prop := ∀ t, o = .next t → Runs s t

theorem RunsOn.next {s t : State} (h : Runs s t) : RunsOn s (.next t) := by
  intro u hu
  cases hu
  exact h

theorem RunsOn.stay (s : State) : RunsOn s (.next s) := .next (.refl s)

theorem RunsOn.ite {s : State} {p : Prop} [Decidable p] {x y : Host.Outcome State Fault Refusal}
    (h : p → RunsOn s x) (k : ¬ p → RunsOn s y) : RunsOn s (if p then x else y) := by
  split
  · exact h ‹_›
  · exact k ‹_›

theorem RunsOn.when {s t : State} {p : Prop} [Decidable p] (h : p → Runs s t) :
    RunsOn s (if p then .next t else .next s) := .ite (fun hp => .next (h hp)) fun _ => .stay s

end Sys2Proof.Machine
end

section
/-! PROOFS. Every command and the idle step as a chain of pieces. -/

namespace Sys2Proof.Machine

variable (s : State)

/-! ## Events of the bus -/

theorem sightingsAnswer_runs (more : Bool) (rs : List SightingRecord) :
    RunsOn s (execSightingsAnswer more rs s) := by
  unfold execSightingsAnswer
  split
  · next t ht =>
    refine .ite (fun hl => .next ?_) fun _ => .next (endTurn_runs ..).toRuns
    refine (takeReaderAnswer_runs (turnFits_of_polled ht) fun more rs h => ?_).toRuns
    cases h
    exact hl
  · exact .stay s

theorem extension_runs {t : Turn} (ht : s.polled = some t) {a : Answer}
    (ha : ∀ more rs, a ≠ .sightings more rs) : RunsOn s (.next (takeReaderAnswer t a s)) :=
  .next (takeReaderAnswer_runs (turnFits_of_polled ht) fun more rs h => absurd h (ha more rs)).toRuns

theorem extendAnswer_runs (n : Byte) : RunsOn s (execExtendAnswer n s) := by
  unfold execExtendAnswer
  split
  · next t ht => exact .ite (fun _ => extension_runs s ht nofun) fun _ => .next (endTurn_runs ..).toRuns
  · exact .stay s

theorem extendOnAnswer_runs : RunsOn s (execExtendOnAnswer s) := by
  unfold execExtendOnAnswer
  split
  · next t ht => exact extension_runs s ht nofun
  · exact .stay s

theorem badAnswer_runs (frame : List Byte) : RunsOn s (execBadAnswer frame s) := by
  unfold execBadAnswer
  split
  · next t bytes h =>
    refine .ite (fun _ => .stay s) fun hne => .next ?_
    exact (takeBytes_runs (turnFits_of_hearing h) (by simp [hne])).toRuns
  · exact .stay s

theorem answerSlotGap_runs : RunsOn s (execAnswerSlotGap s) := by
  unfold execAnswerSlotGap
  split
  · exact .next (endTurn_runs ..).toRuns
  · exact .when fun _ => (endTurn_runs ..).toRuns
  · exact .stay s

theorem answerWindowClose_runs : RunsOn s (execAnswerWindowClose s) := by
  unfold execAnswerWindowClose
  split
  · exact .when fun _ => (endTurn_runs ..).toRuns
  · exact .stay s

theorem extensionWaitEnd_runs : RunsOn s (execExtensionWaitEnd s) := by
  unfold execExtensionWaitEnd
  split
  · next h => exact .when fun _ => (sendRepoll_runs h).toRuns
  · exact .stay s

theorem execProbeTimer_runs : RunsOn s (execProbeTimer s) := by
  refine .ite (fun _ => .ite (fun h => .next ?_) fun _ => .next ?_) fun _ => .stay s
  · exact ((probeTimer_runs s).trans (startRound_runs (by exact h))).toRuns
  · exact (probeTimer_runs s).toRuns

theorem busGrant_runs : RunsOn s (execBusGrant s) := by
  unfold execBusGrant
  split
  · next hg =>
    exact .next (busLink_runs (grantBus_only _ s) (grantBus_calm hg)).toRuns
  · exact .stay s

theorem readerPassAnswer_runs (frame : List Byte) : RunsOn s (execReaderPassAnswer frame s) := by
  unfold execReaderPassAnswer
  split
  · next hh =>
    split
    · next hp =>
      refine .ite (fun _ => .stay s) fun _ => ?_
      split
      · exact .next (busLink_runs (reply_only_busLink ..) (answerPass_calm hh hp)).toRuns
      · exact .next (setBus_runs (setPass_calm hh (by simp [hp]))).toRuns
    · exact .stay s
  · exact .stay s

theorem readerPassTimeout_runs : RunsOn s (execReaderPassTimeout s) := by
  unfold execReaderPassTimeout
  split
  · next hh =>
    split
    · exact .when fun _ => (busLink_runs (failReaderPass_only _ s) (failReaderPass_calm hh)).toRuns
    · exact .stay s
  · exact .stay s

theorem holdDeadline_runs : RunsOn s (execHoldDeadline s) := by
  unfold execHoldDeadline
  split
  · next hh =>
    exact .when fun _ =>
      ((busLink_runs (endHold_only _ s) (endHold_calm hh)).trans (notice_runs ..)).toRuns
  · exact .stay s

/-! ## Events of the other blocks -/

theorem minuteTick_runs : RunsOn s (execMinuteTick s) :=
  .when fun _ => ((setClock_runs s _).trans (ageTable_runs _)).toRuns

theorem decayStep_runs : RunsOn s (execDecayStep s) := by
  refine .when fun _ => ?_
  have hsame : Retouches id := fun _ => ⟨rfl, fun _ => le_rfl, fun _ _ => .rfl⟩
  have htimer : RunsQuiet s (s.setTracking
      { s.tracking with decayAt := after s.tracking.decayAt s.site.decay }) :=
    runsQuiet_of_piece (.tracks (only_setTracking s _) hsame (by simp)) (only_setTracking s _)
      (by decide)
  exact (htimer.trans (decayTracks_runs _)).toRuns

theorem transitDeadline_runs (a : Aisle) (n : Word16) : RunsOn s (execTransitDeadline a n s) := by
  unfold execTransitDeadline
  split
  · next p hp => exact .next (closePassage_runs .timedOut (List.mem_of_find?_eq_some hp)).toRuns
  · exact .stay s

theorem refreshIdleDeadline_runs : RunsOn s (execRefreshIdleDeadline s) := by
  unfold execRefreshIdleDeadline
  split
  · exact .when fun _ => (abortRefresh_runs ..).toRuns
  · exact .stay s

theorem supervisorExpiry_runs : RunsOn s (execSupervisorExpiry s) := by
  unfold execSupervisorExpiry
  split
  · exact .when fun _ => (supervisorExpires_runs ..).toRuns
  · exact .stay s
  · exact .stay s

theorem queryDeadline_runs (n : Byte) : RunsOn s (execQueryDeadline n s) := by
  unfold execQueryDeadline
  split
  · exact .when fun _ => (lapseQuery_runs ..).toRuns
  · exact .stay s

theorem lineFree_runs : RunsOn s (execLineFree s) := by
  unfold execLineFree
  split
  · next f _ =>
    have hfree : RunsQuiet s (s.setLink { s.link with
        line := none, restart := s.link.restart.map (RestartWait.after f) }) :=
      setLink_runs le_rfl le_rfl
    exact .next hfree.toRuns
  · exact .stay s

/-- The commands that are no frame of the host. -/
theorem event_runs {i : Instr} (h : hostFrame i = none) : RunsOn s (exec i s) := by
  cases i with
  | powerOn => exact .next (fullReset_restarted .power s).runs
  | fullReset => exact .when fun _ => (fullReset_restarted .full s).runs
  | detectionRestart => exact .when fun _ => (detectionRestart_restarted s).runs
  | minuteTick => exact minuteTick_runs s
  | evacInputChange l => exact .next ((settleEvac_runs s).trans (evacInput_runs _ l _)).toRuns
  | evacAssertAccepted => exact .when fun _ => assertEvac_runs.toRuns
  | evacReleaseAccepted => exact .when fun hdue => (releaseEvac_runs hdue).toRuns
  | sightingsAnswer more rs => exact sightingsAnswer_runs s more rs
  | extendAnswer n => exact extendAnswer_runs s n
  | extendOnAnswer => exact extendOnAnswer_runs s
  | badAnswer frame => exact badAnswer_runs s frame
  | answerSlotGap => exact answerSlotGap_runs s
  | answerWindowClose => exact answerWindowClose_runs s
  | extensionWaitEnd => exact extensionWaitEnd_runs s
  | probeTimer => exact execProbeTimer_runs s
  | busGrant => exact busGrant_runs s
  | readerPassAnswer frame => exact readerPassAnswer_runs s frame
  | readerPassTimeout => exact readerPassTimeout_runs s
  | holdDeadline => exact holdDeadline_runs s
  | decayStep => exact decayStep_runs s
  | beamInputChange a b l =>
    exact .next ((settleBeam_runs a b s).trans (beamInput_runs a b _ l _)).toRuns
  | breakEvent a b => exact .when fun hdue => (beamEvent_runs hdue).toRuns
  | clearEvent a b => exact .when fun hdue => (beamEvent_runs hdue).toRuns
  | transitDeadline a n => exact transitDeadline_runs s a n
  | graceDeadline n => exact .when fun _ => (graceExpiry_runs n s).toRuns
  | durationDeadline a => exact .next (durationExpires_runs a s).toRuns
  | silenceKeyInputChange l => exact .next ((settleKey_runs s).trans (keyInput_runs _ l _)).toRuns
  | silenceKeyPress => exact .when fun _ => (pressKey_runs s).toRuns
  | silenceKeyRelease => exact .when fun _ => (acceptKey_runs s).toRuns
  | refreshIdleDeadline => exact refreshIdleDeadline_runs s
  | supervisorExpiry => exact supervisorExpiry_runs s
  | queryDeadline n => exact queryDeadline_runs s n
  | transmitterTake => exact .when fun _ => (arbitrate_runs s).toRuns
  | badFrame bytes => exact .next (receive_runs false bytes s)
  | frameGapTimeout bytes => exact .next (receive_runs true bytes s)
  | lineFree => exact lineFree_runs s
  | _ => cases h

theorem exec_runs (i : Instr) : RunsOn s (exec i s) := by
  cases h : hostFrame i with
  | none => exact event_runs s h
  | some f =>
    rw [exec_hostFrame h]
    exact .next (goodFrame_runs ..)

/-- Every step is a chain of pieces, and keeps the open passages within their bounds. -/
theorem step_runs {t : State} (h : step s = .next t) : Runs s t := by
  unfold step at h
  split at h
  · exact (setPending_runs s _).toRuns.trans (exec_runs _ _ t h)
  · cases h
    exact (idle_runs s).toRuns

end Sys2Proof.Machine
end

section
/-! PROOFS. What every chain of pieces keeps: the track table, the item table, the query list, the verdict
queue, the annunciators, the link and the bus (R34, R40, R77, R78, R114, R115, R132, R146, R161, R164). -/

namespace Sys2Proof.Machine

/-- What every piece keeps, every step keeps. -/
theorem step_keeps {P : State → Prop} (h : ∀ s t, Piece s t → P s → P t) {s t : State} (hs : P s)
    (hstep : step s = .next t) : P t := by
  have hp := (step_runs s hstep).pieces
  clear hstep
  induction hp with
  | refl => exact hs
  | tail _ hpiece ih => exact h _ _ hpiece ih

/-! ## The item table -/

theorem tableFits_of_only {cs : List Component} {s t : State} (h : Only cs s t)
    (hcs : ∀ c ∈ cs, c ∉ [Component.segments, .refresh]) (hs : TableFits s) : TableFits t :=
  have hnot : ∀ c ∈ [Component.segments, .refresh], c ∉ cs := fun c hc hmem => hcs c hmem hc
  tableFits_congr (h.segments (hnot _ (by decide))) (h.refresh (hnot _ (by decide))) hs

theorem Piece.tableFits {s t : State} (h : Piece s t) (hs : TableFits s) : TableFits t := by
  cases h with
  | rest frame => exact tableFits_of_only frame (by decide) hs
  | table _ keeps => exact keeps hs
  | queries frame => exact tableFits_of_only frame (by decide) hs
  | beams frame => exact tableFits_of_only frame (by decide) hs
  | lights frame => exact tableFits_of_only frame (by decide) hs
  | tracks frame => exact tableFits_of_only frame (by decide) hs
  | frees => exact tableFits_of_only (setTracks_only s _) (by decide) hs
  | hears a c g => exact tableFits_of_only (hearTrack_only _ a c g s) (by decide) hs
  | opens a b => exact tableFits_of_only (openPassage_only a b s) (by decide) hs
  | marks a r => exact tableFits_of_only (setAisle_only s a r) (by decide) hs
  | completes => exact tableFits_of_only (completePassage_only _ s _) (by decide) hs
  | closes o => exact tableFits_of_only (closePassage_only _ o s _) (by decide) hs
  | settles => exact tableFits_of_only (settle_only _ s) (by decide) hs
  | restarts _ table => exact table hs

/-- Settles O36. -/
theorem stepsKeepTheItemTable : Obligations.StepsKeepTheItemTable :=
  fun _ _ hs hstep => step_keeps (fun _ _ => Piece.tableFits) hs hstep

/-! ## The link and the bus -/

theorem Piece.keepsLinkAndBus {s t : State} (h : Piece s t) : KeepsLinkAndBus s t := by
  cases h with
  | rest _ keeps => exact keeps
  | table frame => exact (calm_of_only frame (by decide) (by decide)).keeps
  | queries frame => exact (calm_of_only frame (by decide) (by decide)).keeps
  | beams frame => exact (calm_of_only frame (by decide) (by decide)).keeps
  | lights frame => exact (calm_of_only frame (by decide) (by decide)).keeps
  | tracks frame => exact (calm_of_only frame (by decide) (by decide)).keeps
  | frees => exact (calm_of_only (setTracks_only s _) (by decide) (by decide)).keeps
  | hears a c g => exact (calm_of_only (hearTrack_only _ a c g s) (by decide) (by decide)).keeps
  | opens a b => exact (openPassage_calm a b s).keeps
  | marks a r => exact (calm_of_only (setAisle_only s a r) (by decide) (by decide)).keeps
  | completes => exact (completePassage_calm _ s _).keeps
  | closes o => exact (closePassage_calm _ o s _).keeps
  | settles => exact (settle_calm _ s).keeps
  | restarts _ _ keeps => exact keeps

/-- Settles O57. -/
theorem stepsKeepTheLinkAndBusWithinBounds : Obligations.StepsKeepTheLinkAndBusWithinBounds := by
  intro s t ⟨hreports, hplaces⟩ hbus hstep
  refine step_keeps (P := fun s => LinkFits s ∧ BusFits s.bus)
    (fun u v hp ⟨⟨hr, hpl⟩, hb⟩ => ?_) ⟨⟨hreports, hplaces⟩, hbus⟩ hstep
  obtain ⟨reports, places, bus⟩ := hp.keepsLinkAndBus
  exact ⟨⟨reports hr, places hpl⟩, bus hb⟩

/-! ## The track table -/

theorem Piece.tracksFit {s t : State} (h : Piece s t) (hs : TracksFit s) : TracksFit t := by
  have of_only : ∀ {cs : List Component}, Only cs s t → Component.tracking ∉ cs → TracksFit t := by
    intro cs honly hnot
    unfold TracksFit
    rw [honly.tracking hnot]
    exact hs
  have of_same : SameEvidence s t → TracksFit t := fun hsame => TracksOk.same hsame hs
  cases h with
  | rest frame => exact of_only frame (by decide)
  | table frame => exact of_only frame (by decide)
  | queries frame => exact of_only frame (by decide)
  | beams frame => exact of_only frame (by decide)
  | lights frame => exact of_only frame (by decide)
  | tracks _ hf map =>
    unfold TracksFit
    rw [map]
    exact TracksOk.map (fun x => ⟨(hf x).1, (hf x).2.1⟩) hs
  | frees id => exact TracksOk.drop id.toNat hs
  | hears a c g ident known =>
    rcases known with hx | ⟨-, hroom, hnew⟩
    · obtain ⟨hmem, -⟩ := track?_mem hx
      exact hearTrack_tracksOk ident (hs.2.2 _ hmem).2 (.inr ⟨_, hmem, rfl⟩) hs
    · refine hearTrack_tracksOk ident (fun b => ?_) (.inl hroom) hs
      rw [hnew]
      simp [newTrack]
  | opens a b => exact of_same (openPassage_same a b s)
  | marks a r => exact of_only (setAisle_only s a r) (by decide)
  | completes => exact of_same (completePassage_same _ s _)
  | closes o => exact of_same (closePassage_same _ o s _)
  | settles => exact of_same (settle_rejudged _ s).same
  | restarts afresh =>
    unfold TracksFit
    rw [afresh.tracks]
    exact ⟨Nat.zero_le _, rfl, nofun⟩

/-- Settles O25. -/
theorem stepsKeepTheTrackTable : Obligations.StepsKeepTheTrackTable :=
  fun _ _ hs hstep => step_keeps (fun _ _ => Piece.tracksFit) hs hstep

/-! ## The query list -/

theorem nextQueryNumber_ne_zero (k : Byte) : nextQueryNumber k ≠ 0 := by
  unfold nextQueryNumber
  split <;> bv_omega

theorem nextQueryNumber_iterate_ne_zero {k : Byte} (h : k ≠ 0) (n : Nat) :
    nextQueryNumber^[n] k ≠ 0 := by
  induction n generalizing k with
  | zero => exact h
  | succ n ih => exact ih (nextQueryNumber_ne_zero k)

/-- A query is due only where none is outstanding for the identifier (R116). -/
theorem queryDue_fresh {s : State} {id : Ident} {a : Aisle} (h : s.queryDue id a = true) :
    ∀ q ∈ s.queries.list, q.ident ≠ id := by
  simp only [State.queryDue, Bool.and_eq_true, Bool.not_eq_true', State.queried] at h
  intro q hq hqi
  have := List.any_eq_false.1 h.1.2 q hq
  simp [hqi] at this

theorem nodup_append_new {α β : Type} {f : α → β} {l : List α} {x : α} (h : (l.map f).Nodup)
    (hx : ∀ y ∈ l, f y ≠ f x) : ((l ++ [x]).map f).Nodup := by
  rw [List.map_append, List.nodup_append]
  refine ⟨h, by simp, fun y hy z hz => ?_⟩
  obtain ⟨q, hq, rfl⟩ := List.mem_map.1 hy
  rw [List.map_singleton, List.mem_singleton] at hz
  exact hz ▸ hx q hq

/-- The new query is of an identifier without one and takes a number that no other has (R114, R115). -/
theorem create_fits {id : Ident} {a : Aisle} {s : State} (hdue : s.queryDue id a = true)
    (hlen : s.queries.list.length < 16) (hs : QueriesFit s) :
    QueriesFit (s.setQueries (QueryUnit.create s id a)) := by
  obtain ⟨-, hid, hnum, hzero, hnext⟩ := hs
  obtain ⟨n, hn, hfree, -⟩ := freeNumber_firstFree hlen
  have hne : freeNumber s.queries.list 255 s.queries.next ≠ 0 :=
    hn ▸ nextQueryNumber_iterate_ne_zero hnext n
  refine ⟨?_, nodup_append_new hid (queryDue_fresh hdue), nodup_append_new hnum hfree,
    fun q hq => ?_, nextQueryNumber_ne_zero _⟩
  · simpa [QueryUnit.create] using hlen
  · rcases List.mem_append.1 hq with hq | hq
    · exact hzero q hq
    · rw [List.mem_singleton.1 hq]
      exact hne

theorem queriesFit_of_only {cs : List Component} {s t : State} (h : Only cs s t)
    (hq : Component.queries ∉ cs) (hs : QueriesFit s) : QueriesFit t := by
  unfold QueriesFit
  rw [h.queries hq]
  exact hs

theorem makeQuery_queriesFit {id : Ident} {a : Aisle} {s : State} (hs : QueriesFit s) :
    QueriesFit (makeQuery id a s) := by
  unfold makeQuery
  split
  · next hdue =>
    split
    · next hlen =>
      exact queriesFit_of_only (modifyTrack_only ..) (by decide) (create_fits hdue hlen hs)
    · exact queriesFit_of_only (modifyTrack_only ..) (by decide) hs
  · exact hs

theorem attributeTrack_queriesFit {id : Ident} {a : Aisle} {s : State} (hs : QueriesFit s) :
    QueriesFit (attributeTrack id a s) :=
  makeQuery_queriesFit (queriesFit_of_only (bindAttributed_only id a _) (by decide)
    (queriesFit_of_only (modifyTrack_only ..) (by decide) hs))

theorem hearTrack_queriesFit {x : Track} {a : Aisle} {c : Nat} {g : Bool} {s : State}
    (hs : QueriesFit s) : QueriesFit (hearTrack x a c g s) := by
  have hset : ∀ ts, QueriesFit (s.setTracks ts) := fun ts =>
    queriesFit_of_only (setTracks_only s ts) (by decide) hs
  unfold hearTrack
  dsimp only
  split
  · unfold testOutcome
    split
    · exact attributeTrack_queriesFit (hset _)
    · split
      · exact hset _
      · exact attributeTrack_queriesFit (hset _)
    · exact hset _
    · exact hset _
  · exact hset _

theorem Piece.queriesFit {s t : State} (h : Piece s t) (hs : QueriesFit s) : QueriesFit t := by
  cases h with
  | rest frame => exact queriesFit_of_only frame (by decide) hs
  | table frame => exact queriesFit_of_only frame (by decide) hs
  | queries _ keeps => exact keeps hs
  | beams frame => exact queriesFit_of_only frame (by decide) hs
  | lights frame => exact queriesFit_of_only frame (by decide) hs
  | tracks frame => exact queriesFit_of_only frame (by decide) hs
  | frees => exact queriesFit_of_only (setTracks_only s _) (by decide) hs
  | hears => exact hearTrack_queriesFit hs
  | opens a b => exact queriesFit_of_only (openPassage_only a b s) (by decide) hs
  | marks a r => exact queriesFit_of_only (setAisle_only s a r) (by decide) hs
  | completes => exact queriesFit_of_only (completePassage_only _ s _) (by decide) hs
  | closes o => exact queriesFit_of_only (closePassage_only _ o s _) (by decide) hs
  | settles => exact queriesFit_of_only (settle_only _ s) (by decide) hs
  | restarts afresh =>
    unfold QueriesFit
    rw [afresh.queries]
    exact ⟨Nat.zero_le _, .nil, .nil, nofun, by decide⟩

/-- Settles O44. -/
theorem stepsKeepTheQueryList : Obligations.StepsKeepTheQueryList :=
  fun _ _ hs hstep => step_keeps (fun _ _ => Piece.queriesFit) hs hstep

/-! ## The annunciators -/

theorem annunciatorsFit_of_only {cs : List Component} {s t : State} (h : Only cs s t)
    (hcs : ∀ c ∈ cs, c ∉ [Component.modes, .annunciators]) (hs : AnnunciatorsFit s) :
    AnnunciatorsFit t := by
  have hnot : ∀ c ∈ [Component.modes, .annunciators], c ∉ cs := fun c hc hmem => hcs c hmem hc
  intro a ha
  rw [h.annunciators (hnot _ (by decide))] at ha
  rw [h.effective (hnot _ (by decide))]
  exact hs a ha

/-- A verdict reaches the annunciator of an aisle in effective GUARD only (R139). -/
theorem giveVerdict_annunciatorsFit {s : State} (j : Judging) (hs : AnnunciatorsFit s) :
    AnnunciatorsFit (giveVerdict s j) := by
  have hwrite : AnnunciatorsFit (j.items.foldl (writeVerdict j.number) s) :=
    annunciatorsFit_of_only (Only.foldl (writeVerdict_only j.number) j.items s) (by decide) hs
  have heff : ∀ b, (j.items.foldl (writeVerdict j.number) s).effective b = s.effective b :=
    (Only.foldl (writeVerdict_only j.number) j.items s).effective (by decide)
  refine annunciatorsFit_of_only (createReport_only ..) (by decide) ?_
  split
  · next hguard =>
    intro b hb
    rw [(handVerdict_only _ _ _).effective (by decide)]
    by_cases hba : b = j.aisle
    · rw [hba, heff]; exact hguard
    · rw [handVerdict_ne _ _ hba] at hb
      exact hwrite b hb
  · exact hwrite

theorem setJudging_annunciatorsFit {s : State} (v : List Judging) (hs : AnnunciatorsFit s) :
    AnnunciatorsFit (s.setJudging v) := annunciatorsFit_of_only (only_setJudging s v) (by decide) hs

theorem settle_annunciatorsFit {s : State} (f : Judging → Judging) (hs : AnnunciatorsFit s) :
    AnnunciatorsFit (settle f s) := by
  unfold settle
  dsimp only
  generalize (s.judging.map f).filter (fun j => !j.undecided) = given
  have hset := setJudging_annunciatorsFit ((s.judging.map f).filter fun j => j.undecided) hs
  generalize s.setJudging ((s.judging.map f).filter fun j => j.undecided) = u at hset
  induction given generalizing u with
  | nil => exact hset
  | cons j given ih => exact ih _ (giveVerdict_annunciatorsFit j hset)

theorem forceOldest_annunciatorsFit {s : State} (hs : AnnunciatorsFit s) :
    AnnunciatorsFit (forceOldest s) := by
  unfold forceOldest
  split
  · exact hs
  · exact giveVerdict_annunciatorsFit _ (setJudging_annunciatorsFit _ hs)

theorem judgePassage_annunciatorsFit {s : State} (j : Judging) (hs : AnnunciatorsFit s) :
    AnnunciatorsFit (judgePassage j s) := by
  unfold judgePassage
  dsimp only
  split
  · refine setJudging_annunciatorsFit _ ?_
    split
    · exact hs
    · exact forceOldest_annunciatorsFit hs
  · exact giveVerdict_annunciatorsFit j hs

theorem Piece.annunciatorsFit {s t : State} (h : Piece s t) (hs : AnnunciatorsFit s) :
    AnnunciatorsFit t := by
  cases h with
  | rest frame => exact annunciatorsFit_of_only frame (by decide) hs
  | table frame => exact annunciatorsFit_of_only frame (by decide) hs
  | queries frame => exact annunciatorsFit_of_only frame (by decide) hs
  | beams frame => exact annunciatorsFit_of_only frame (by decide) hs
  | lights _ keeps => exact keeps hs
  | tracks frame => exact annunciatorsFit_of_only frame (by decide) hs
  | frees => exact annunciatorsFit_of_only (setTracks_only s _) (by decide) hs
  | hears a c g => exact annunciatorsFit_of_only (hearTrack_only _ a c g s) (by decide) hs
  | opens a b => exact annunciatorsFit_of_only (openPassage_only a b s) (by decide) hs
  | marks a r => exact annunciatorsFit_of_only (setAisle_only s a r) (by decide) hs
  | completes =>
    exact judgePassage_annunciatorsFit _ (annunciatorsFit_of_only (leave_only ..) (by decide) hs)
  | closes o => exact annunciatorsFit_of_only (closePassage_only _ o s _) (by decide) hs
  | settles => exact settle_annunciatorsFit _ hs
  | restarts afresh => exact fun a ha => absurd (afresh.quiet a) ha

/-- Settles O52. -/
theorem stepsKeepAnnunciatorsUnderGuard : Obligations.StepsKeepAnnunciatorsUnderGuard :=
  fun _ _ hs hstep => step_keeps (fun _ _ => Piece.annunciatorsFit) hs hstep

/-! ## The verdict queue -/

/-- The open passages of every aisle are few and short (R60, R68). -/
def OpensBounded (s : State) : Prop := ∀ a : Aisle, s.passages.aisles[a].Bounded

theorem PassagesFit.bounded {s : State} (h : PassagesFit s) : OpensBounded s := fun a =>
  (passagesFit_iff.1 h a).1

theorem opensBounded_of_only {cs : List Component} {s t : State} (h : Only cs s t)
    (hp : Component.passages ∉ cs) (hs : OpensBounded s) : OpensBounded t := by
  unfold OpensBounded
  rw [h.passages hp]
  exact hs

theorem KeepsRecords.opensBounded {s t : State} (h : KeepsRecords s t) (hs : OpensBounded s) :
    OpensBounded t := fun a => (h a).bounded (hs a)

theorem bounded_of_holds {l m : List Passage} {c d : Bool} (h : m.map Passage.holds = l.map Passage.holds)
    (hl : AisleRecord.Bounded ⟨l, c⟩) : AisleRecord.Bounded ⟨m, d⟩ := by
  have hitems : ∀ x ∈ l.map Passage.holds, x.2.length ≤ 10 := List.forall_mem_map.2 hl.2
  rw [← h] at hitems
  refine ⟨?_, List.forall_mem_map.1 hitems⟩
  have := congrArg List.length h
  simp only [List.length_map] at this
  exact this.trans_le hl.1

theorem setAisle_bounded {s : State} {a : Aisle} {r : AisleRecord} (hr : r.Bounded)
    (hs : OpensBounded s) : OpensBounded (s.setAisle a r) := by
  intro b
  rw [setAisle_aisle]
  split
  · exact hr
  · exact hs b

theorem bounded_of_opens {s : State} {a : Aisle} (h : s.opens a = []) :
    s.passages.aisles[a].Bounded := by
  change (s.opens a).length ≤ 3 ∧ ∀ p ∈ s.opens a, p.items.length ≤ 10
  simp [h]

theorem openPassage_bounded {s : State} {a : Aisle} {b : Beam} (room : (s.opens a).length < 3)
    (hs : OpensBounded s) : OpensBounded (openPassage a b s) := by
  obtain ⟨hothers, hself⟩ := openPassage_aisle a b s
  intro c
  by_cases hca : c = a
  · subst hca
    rw [hself]
    refine ⟨by simpa using room, fun q hq => ?_⟩
    rcases List.mem_append.1 hq with hq | hq
    · exact (hs c).2 q hq
    · rw [List.mem_singleton.1 hq]; exact openedPassage_length c b s
  · rw [hothers c hca]; exact hs c

theorem Piece.opensBounded {s t : State} (h : Piece s t) (hs : OpensBounded s) : OpensBounded t := by
  cases h with
  | rest frame => exact opensBounded_of_only frame (by decide) hs
  | table frame => exact opensBounded_of_only frame (by decide) hs
  | queries frame => exact opensBounded_of_only frame (by decide) hs
  | beams frame => exact opensBounded_of_only frame (by decide) hs
  | lights frame => exact opensBounded_of_only frame (by decide) hs
  | tracks frame => exact opensBounded_of_only frame (by decide) hs
  | frees => exact opensBounded_of_only (setTracks_only s _) (by decide) hs
  | hears a c g => exact (hearTrack_keeps _ a c g s).opensBounded hs
  | opens a b room => exact openPassage_bounded room hs
  | marks a r same => exact setAisle_bounded (bounded_of_holds same (hs a)) hs
  | completes => exact (completePassage_keeps _ s _).opensBounded hs
  | closes o =>
    exact ((leaveList_keeps _ _ s).trans
      (.of_passages (closePassage_passages _ o s _))).opensBounded hs
  | settles => exact opensBounded_of_only (settle_only _ s) (by decide) hs
  | restarts afresh => exact fun a => bounded_of_opens (afresh.opens a)

/-- An item of an ENTRY passage is decided at completion (R129). -/
theorem fillItem_entry_decided (s : State) (id : Ident) : (fillItem .entry s id).undecided = false := by
  have hstatus : ∀ l a, ∃ v b, entryPassageStatus l a = .decided v b := by
    intro l a
    unfold entryPassageStatus
    split
    · exact ⟨_, _, rfl⟩
    · exact ⟨_, _, rfl⟩
    · exact ⟨_, _, rfl⟩
    · split <;> exact ⟨_, _, rfl⟩
  obtain ⟨v, b, h⟩ := hstatus (s.lookup id) ((s.track? id).bind (·.answer))
  unfold ItemRecord.undecided
  have : (fillItem .entry s id).status = .decided v b := h
  rw [this]

/-- A completed passage with an undecided item is an EXIT passage (R129). -/
theorem completed_exit {a : Aisle} {p : Passage} {flags : Flags} {s : State}
    (h : (p.completed a flags s).undecided = true) : p.direction = .exit := by
  cases hd : p.direction with
  | exit => rfl
  | entry =>
    obtain ⟨r, hr, hu⟩ := List.any_eq_true.1 h
    obtain ⟨id, -, rfl⟩ := List.mem_map.1 hr
    rw [hd, fillItem_entry_decided] at hu
    cases hu

theorem judgingFits_of_only {cs : List Component} {s t : State} (h : Only cs s t)
    (hj : Component.judging ∉ cs) (hs : JudgingFits s) : JudgingFits t := by
  unfold JudgingFits
  rw [h.judging hj]
  exact hs

theorem giveVerdict_judging (s : State) (j : Judging) : (giveVerdict s j).judging = s.judging :=
  (giveVerdict_only s j).judging (by decide)

theorem foldl_giveVerdict_judging (l : List Judging) (s : State) :
    (l.foldl giveVerdict s).judging = s.judging :=
  (Only.foldl giveVerdict_only l s).judging (by decide)

theorem settle_judging (f : Judging → Judging) (s : State) :
    (settle f s).judging = (s.judging.map f).filter fun j => j.undecided :=
  foldl_giveVerdict_judging ..

theorem settle_judgingFits {f : Judging → Judging} {s : State} (hf : KeepsShape f)
    (hs : JudgingFits s) : JudgingFits (settle f s) := by
  obtain ⟨hlen, hall⟩ := hs
  unfold JudgingFits
  rw [settle_judging]
  refine ⟨((List.length_filter_le ..).trans (List.length_map _).le).trans hlen, fun j hj => ?_⟩
  obtain ⟨hmem, hu⟩ := List.mem_filter.1 hj
  obtain ⟨k, hk, rfl⟩ := List.mem_map.1 hmem
  obtain ⟨hd, -, hl⟩ := hall k hk
  exact ⟨(hf k).1.trans hd, hu, (hf k).2.trans_le hl⟩

/-- The queue once room has been made for another passage (R133). -/
theorem roomMade_judging {s : State} (hs : s.judging.length ≤ 16) :
    (if s.judging.length < 16 then s else forceOldest s).judging.length ≤ 15
      ∧ ∀ j ∈ (if s.judging.length < 16 then s else forceOldest s).judging, j ∈ s.judging := by
  split
  · exact ⟨by omega, fun _ h => h⟩
  · unfold forceOldest
    split
    · next h => simp [h]
    · next j rest h =>
      rw [giveVerdict_judging, State.setJudging_judging, h]
      rw [h, List.length_cons] at hs
      exact ⟨by omega, fun _ hj => List.mem_cons_of_mem _ hj⟩

theorem judgePassage_judgingFits {j : Judging} {s : State} (hd : j.undecided = true → j.direction = .exit)
    (hl : j.items.length ≤ 10) (hs : JudgingFits s) : JudgingFits (judgePassage j s) := by
  unfold judgePassage
  dsimp only
  split
  · next hu =>
    obtain ⟨hlen, hmem⟩ := roomMade_judging hs.1
    refine ⟨?_, fun k hk => ?_⟩
    · rw [State.setJudging_judging, List.length_append]
      exact Nat.add_le_add_right hlen 1
    · rcases List.mem_append.1 hk with hk | hk
      · exact hs.2 k (hmem k hk)
      · rw [List.mem_singleton.1 hk]
        exact ⟨hd hu, hu, hl⟩
  · exact judgingFits_of_only (giveVerdict_only s j) (by decide) hs

theorem completePassage_judgingFits {a : Aisle} {p : Passage} {s : State} (hp : p.items.length ≤ 10)
    (hs : JudgingFits s) : JudgingFits (completePassage a s p) :=
  judgePassage_judgingFits completed_exit ((List.length_map _).trans_le hp)
    (judgingFits_of_only (leave_only a p Track.spend s) (by decide) hs)

theorem Piece.judgingFits {s t : State} (h : Piece s t) (ho : OpensBounded s) (hs : JudgingFits s) :
    JudgingFits t := by
  cases h with
  | rest frame => exact judgingFits_of_only frame (by decide) hs
  | table frame => exact judgingFits_of_only frame (by decide) hs
  | queries frame => exact judgingFits_of_only frame (by decide) hs
  | beams frame => exact judgingFits_of_only frame (by decide) hs
  | lights frame => exact judgingFits_of_only frame (by decide) hs
  | tracks frame => exact judgingFits_of_only frame (by decide) hs
  | frees => exact judgingFits_of_only (setTracks_only s _) (by decide) hs
  | hears a c g => exact judgingFits_of_only (hearTrack_only _ a c g s) (by decide) hs
  | opens a b => exact judgingFits_of_only (openPassage_only a b s) (by decide) hs
  | marks a r => exact judgingFits_of_only (setAisle_only s a r) (by decide) hs
  | @completes a p mem => exact completePassage_judgingFits ((ho a).2 p mem) hs
  | closes o => exact judgingFits_of_only (closePassage_only _ o s _) (by decide) hs
  | settles shape => exact settle_judgingFits shape hs
  | restarts afresh =>
    unfold JudgingFits
    rw [afresh.judging]
    exact ⟨Nat.zero_le _, nofun⟩

/-- Settles O49. -/
theorem stepsKeepTheVerdictQueue : Obligations.StepsKeepTheVerdictQueue := by
  intro s t hpass hs hstep
  exact (step_keeps (P := fun s => OpensBounded s ∧ JudgingFits s)
    (fun _ _ hp ⟨ho, hj⟩ => ⟨hp.opensBounded ho, hp.judgingFits ho hj⟩)
    ⟨hpass.bounded, hs⟩ hstep).2

end Sys2Proof.Machine
end

section
/-! PROOFS. The agreement of BOUND tracks and open passages (R34, R35, R68). -/

namespace Sys2Proof.Machine

/-! ## Where a track is bound -/

/-- The aisle and the passage number a track is BOUND to. -/
def Track.bound? (x : Track) : Option (Aisle × Word16) :=
  match x.state with
  | .bound a n => some (a, n)
  | _ => none

theorem bound?_eq_some {x : Track} {a : Aisle} {n : Word16} :
    x.bound? = some (a, n) ↔ x.state = .bound a n := by
  unfold Track.bound?
  split <;> simp_all

theorem bound?_eq_none {x : Track} : x.bound? = none ↔ x.isBound = false := by
  rw [isBound_false]
  refine ⟨fun h a n hx => ?_, fun h => Option.eq_none_iff_forall_ne_some.2 fun ⟨a, n⟩ hx => ?_⟩
  · rw [bound?_eq_some.2 hx] at h
    cases h
  · exact h a n (bound?_eq_some.1 hx)

theorem bound?_retouched {f : Track → Track} (hf : Retouches f) (x : Track) :
    (f x).bound? = x.bound? := by
  refine Option.ext fun ⟨a, n⟩ => ?_
  rw [bound?_eq_some, bound?_eq_some]
  exact (hf x).2.2 a n

/-- Where the track of an identifier is bound, if it has one that is. -/
def State.bound? (s : State) (i : Ident) : Option (Aisle × Word16) := (s.track? i).bind Track.bound?

/-- The numbers and the items of an aisle's open passages. -/
def State.held (s : State) (a : Aisle) : List (Word16 × List Ident) :=
  (s.opens a).map Passage.holds

/-- An identifier stands in a list of items of this number. -/
def Listed (n : Word16) (i : Ident) (l : List (Word16 × List Ident)) : Prop :=
  ∃ items, (n, items) ∈ l ∧ i ∈ items

theorem listed_cons {n k : Word16} {i : Ident} {items : List Ident} {l : List (Word16 × List Ident)} :
    Listed k i ((n, items) :: l) ↔ k = n ∧ i ∈ items ∨ Listed k i l := by
  simp only [Listed, List.mem_cons, Prod.mk.injEq, or_and_right, exists_or]
  simp only [and_assoc, exists_and_left, exists_eq_left]

theorem Listed.perm {k : Word16} {i : Ident} {l m : List (Word16 × List Ident)} (h : l.Perm m) :
    Listed k i l ↔ Listed k i m :=
  exists_congr fun _ => and_congr_left fun _ => h.mem_iff

theorem Listed.mem_flatMap {k : Word16} {i : Ident} {l : List (Word16 × List Ident)}
    (h : Listed k i l) : i ∈ l.flatMap (·.2) := by
  obtain ⟨items, hl, hi⟩ := h
  exact List.mem_flatMap.2 ⟨_, hl, hi⟩

/-- Identifiers bound to passages and lists of items agree: no item twice in an aisle, and an identifier is
bound exactly where it stands in a list. -/
structure Agrees (b : Ident → Option (Aisle × Word16)) (o : Aisle → List (Word16 × List Ident)) : Prop where
  nodup : ∀ a, ((o a).flatMap (·.2)).Nodup
  bound : ∀ i a n, b i = some (a, n) ↔ Listed n i (o a)

section
variable {b b' : Ident → Option (Aisle × Word16)} {o o' : Aisle → List (Word16 × List Ident)}
  (h : Agrees b o)
include h

theorem Agrees.congr (hb : b' = b) (ho : o' = o) : Agrees b' o' := hb ▸ ho ▸ h

/-- An identifier that is bound nowhere stands in no list. -/
theorem Agrees.unlisted {i : Ident} (hi : b i = none) (a : Aisle) : i ∉ (o a).flatMap (·.2) := by
  intro hmem
  obtain ⟨⟨n, items⟩, hx, hin⟩ := List.mem_flatMap.1 hmem
  have := (h.bound i a n).2 ⟨items, hx, hin⟩
  rw [hi] at this
  cases this

variable {a : Aisle} {n : Word16} {rest : List (Word16 × List Ident)}

/-- A list leaves, and its items are no longer bound. -/
theorem Agrees.leave {items : List Ident} (hperm : (o a).Perm ((n, items) :: rest)) (ha : o' a = rest)
    (hother : ∀ c, c ≠ a → o' c = o c) (hb : ∀ i, b' i = if i ∈ items then none else b i) :
    Agrees b' o' := by
  have hnodup : ((o a).flatMap (·.2)).Nodup := h.nodup a
  rw [(hperm.flatMap_right _).nodup_iff, List.flatMap_cons, List.nodup_append] at hnodup
  obtain ⟨-, hrest, hdisj⟩ := hnodup
  have hlisted : ∀ k i, Listed k i (o a) ↔ k = n ∧ i ∈ items ∨ Listed k i rest := fun k i =>
    (Listed.perm hperm).trans listed_cons
  have hitem : ∀ i ∈ items, b i = some (a, n) := fun i hi =>
    (h.bound i a n).2 ((hlisted n i).2 (.inl ⟨rfl, hi⟩))
  refine ⟨fun c => ?_, fun i c k => ?_⟩
  · by_cases hc : c = a
    · rw [hc, ha]; exact hrest
    · rw [hother c hc]; exact h.nodup c
  rw [hb]
  by_cases hc : c = a
  · subst hc
    rw [ha]
    by_cases hi : i ∈ items
    · rw [if_pos hi]
      exact ⟨nofun, fun hl => absurd rfl (hdisj i hi i hl.mem_flatMap)⟩
    · rw [if_neg hi, h.bound, hlisted]
      exact or_iff_right fun hl => hi hl.2
  · rw [hother c hc, ← h.bound]
    split
    · next hi =>
      rw [hitem i hi]
      exact ⟨nofun, fun heq => absurd (congrArg Prod.fst (Option.some.inj heq)).symm hc⟩
    · rfl

/-- A list without items joins. -/
theorem Agrees.join (ha : (o' a).Perm ((n, []) :: o a)) (hother : ∀ c, c ≠ a → o' c = o c) :
    Agrees b o' := by
  have hflat := ha.flatMap_right (·.2)
  refine ⟨fun c => ?_, fun i c k => (h.bound i c k).trans ?_⟩
  · by_cases hc : c = a
    · rw [hc, hflat.nodup_iff]; exact h.nodup a
    · rw [hother c hc]; exact h.nodup c
  · by_cases hc : c = a
    · rw [hc, Listed.perm ha, listed_cons]
      exact (or_iff_right fun hl => List.not_mem_nil hl.2).symm
    · rw [hother c hc]

/-- Identifiers that are bound nowhere join the items of a list. -/
theorem Agrees.fill {new old : List Ident} (hnew : new.Nodup) (hfree : ∀ i ∈ new, b i = none)
    (hlist : (o a).Perm ((n, old) :: rest)) (ha : (o' a).Perm ((n, old ++ new) :: rest))
    (hother : ∀ c, c ≠ a → o' c = o c) (hb : ∀ i, b' i = if i ∈ new then some (a, n) else b i) :
    Agrees b' o' := by
  have hlisted : ∀ k i, Listed k i (o' a) ↔ (k = n ∧ i ∈ new) ∨ Listed k i (o a) := fun k i => by
    rw [Listed.perm ha, Listed.perm hlist, listed_cons, listed_cons, List.mem_append]
    tauto
  have hperm : ((o' a).flatMap (·.2)).Perm (new ++ (o a).flatMap (·.2)) := by
    refine (ha.flatMap_right _).trans (.trans ?_ ((hlist.flatMap_right _).symm.append_left new))
    simp only [List.flatMap_cons]
    rw [← List.append_assoc]
    exact List.perm_append_comm.append_right _
  refine ⟨fun c => ?_, fun i c k => ?_⟩
  · by_cases hc : c = a
    · rw [hc, hperm.nodup_iff, List.nodup_append]
      exact ⟨hnew, h.nodup a, fun i hi j hj hij => h.unlisted (hfree i hi) a (hij ▸ hj)⟩
    · rw [hother c hc]; exact h.nodup c
  rw [hb]
  by_cases hc : c = a
  · subst hc
    rw [hlisted, ← h.bound]
    split
    · next hi => simp [hfree i hi, hi, eq_comm]
    · next hi => simp [hi]
  · rw [hother c hc, ← h.bound]
    split
    · next hi =>
      rw [hfree i hi]
      exact ⟨fun heq => absurd (congrArg Prod.fst (Option.some.inj heq)).symm hc, nofun⟩
    · rfl

end

/-- Tracks and open passages agree. -/
abbrev Bound (s : State) : Prop := Agrees s.bound? s.held

end Sys2Proof.Machine
end

section
/-! PROOFS. Every piece keeps the agreement of BOUND tracks and open passages, and at most 240 tracks are
BOUND (R34, R35, R68 to R70). -/

namespace Sys2Proof.Machine

/-! ## What binds and unbinds -/

theorem bound?_of_only {cs : List Component} {s t : State} (h : Only cs s t)
    (hc : Component.tracking ∉ cs) : t.bound? = s.bound? := by
  funext i
  unfold State.bound?
  rw [h.track? hc]

theorem held_of_only {cs : List Component} {s t : State} (h : Only cs s t)
    (hc : Component.passages ∉ cs) : t.held = s.held := by
  funext a
  unfold State.held
  rw [h.opens hc]

theorem bound_of_only {cs : List Component} {s t : State} (h : Only cs s t)
    (hcs : ∀ c ∈ cs, c ∉ [Component.tracking, .passages]) (hs : Bound s) : Bound t :=
  have hnot : ∀ c ∈ [Component.tracking, .passages], c ∉ cs := fun c hc hmem => hcs c hmem hc
  hs.congr (bound?_of_only h (hnot _ (by decide))) (held_of_only h (hnot _ (by decide)))

theorem bound?_map {s t : State} {f : Track → Track} (hf : Retouches f)
    (map : t.tracking.tracks = s.tracking.tracks.map f) : t.bound? = s.bound? := by
  funext i
  have htrack : t.track? i = (s.track? i).map f := by
    unfold State.track?
    rw [map]
    exact find_map_key (f := Track.ident) (fun x => (hf x).1) s.tracking.tracks i
  unfold State.bound?
  rw [htrack]
  cases s.track? i with
  | none => rfl
  | some x => exact bound?_retouched hf x

theorem Rejudged.bound? {s t : State} (h : Rejudged s t) : t.bound? = s.bound? := by
  obtain ⟨-, f, hf, hmap⟩ := h
  exact bound?_map (verdictOnly_retouches hf) hmap

theorem bound?_modifyTrack {f : Track → Track} (hf : ∀ x, (f x).ident = x.ident) (s : State)
    (id i : Ident) : (s.modifyTrack id f).bound? i =
      if i = id then ((s.track? id).map f).bind Track.bound? else s.bound? i := by
  unfold State.bound?
  rw [track?_modifyTrack s id f hf]
  split <;> rfl

/-- Rewriting the tracks of a list so that none is bound any more, or all are bound to one passage. -/
theorem bound?_foldl_modifyTrack {f : Track → Track} (hf : ∀ x, (f x).ident = x.ident)
    (hff : ∀ x, f (f x) = f x) {o : Option (Aisle × Word16)} (hb : ∀ x, (f x).bound? = o)
    {ids : List Ident} {s : State} (hids : ∀ i ∈ ids, (s.track? i).isSome = true ∨ o = none)
    (i : Ident) :
    (ids.foldl (fun t id => t.modifyTrack id f) s).bound? i = if i ∈ ids then o else s.bound? i := by
  unfold State.bound?
  rw [track?_foldl_modifyTrack hf hff]
  split
  · next hi =>
    cases hx : s.track? i with
    | some x => exact hb x
    | none =>
      rcases hids i hi with h | h
      · rw [hx] at h; cases h
      · exact h.symm
  · rfl

theorem bound?_spend (x : Track) : x.spend.bound? = none := by
  rw [bound?_eq_none, isBound_false]
  unfold Track.spend
  split
  · nofun
  · next h => exact h

theorem bound?_unbind (now : Time) (x : Track) : (x.unbind now).bound? = none := by
  rw [bound?_eq_none, isBound_false]
  unfold Track.unbind
  split
  · nofun
  · next h => exact h

theorem bound?_bind (a : Aisle) (n : Word16) (x : Track) : (x.bind a n).bound? = some (a, n) := rfl

/-! ## Passages that leave -/

theorem held_setOpens (s : State) (a : Aisle) (ps : List Passage) :
    (s.setOpens a ps).held a = ps.map Passage.holds := by
  unfold State.held
  rw [setOpens_self]

theorem held_ne {a : Aisle} {s t : State} (h : OthersStand a s t) {c : Aisle} (hc : c ≠ a) :
    t.held c = s.held c := by
  have : t.opens c = s.opens c := congrArg AisleRecord.opens (h c hc)
  unfold State.held
  rw [this]

/-- A passage leaves with its items, and its tracks are unbound. -/
theorem leave_bound {a : Aisle} {p : Passage} {f : Track → Track} {s : State} (hp : p ∈ s.opens a)
    (hf : ∀ x, (f x).ident = x.ident) (hff : ∀ x, f (f x) = f x) (hb : ∀ x, (f x).bound? = none)
    (hs : Bound s) : Bound (p.items.foldl (fun x id => x.modifyTrack id f) (leaveList a p s)) := by
  have honly := foldl_modifyTrack_only f p.items (leaveList a p s)
  refine hs.leave (a := a) (n := p.number) (items := p.items)
    (rest := ((s.opens a).erase p).map Passage.holds) ?_ ?_ (fun c hc => ?_) fun i => ?_
  · exact ((List.perm_cons_erase hp).map Passage.holds)
  · rw [held_of_only honly (by decide)]
    exact held_setOpens ..
  · rw [held_of_only honly (by decide)]
    exact held_ne (fun d hd => setOpens_ne s _ hd) hc
  · rw [bound?_foldl_modifyTrack hf hff hb fun _ _ => .inr rfl,
      bound?_of_only (leaveList_only a p s) (by decide)]

theorem completePassage_bound {a : Aisle} {p : Passage} {s : State} (hp : p ∈ s.opens a)
    (hs : Bound s) : Bound (completePassage a s p) := by
  refine (leave_bound hp (f := Track.spend) Track.spend_ident Track.spend_spend bound?_spend hs).congr
    (judgePassage_rejudged ..).bound? ?_
  exact held_of_only (judgePassage_only ..) (by decide)

theorem closePassage_bound {a : Aisle} {p : Passage} (o : PassageOutcome) {s : State}
    (hp : p ∈ s.opens a) (hs : Bound s) : Bound (closePassage a o s p) :=
  bound_of_only (createReport_only ..) (by decide)
    (leave_bound hp (Track.unbind_ident _) (Track.unbind_unbind _) (bound?_unbind _) hs)

/-! ## Passages that open -/

theorem looseIn_unbound {a : Aisle} {x : Track} (h : x.looseIn a = true) : x.bound? = none := by
  rw [bound?_eq_none, isBound_false]
  intro b n hx
  unfold Track.looseIn at h
  rw [hx] at h
  cases h

/-- A track table in canonical form has one track for an identifier. -/
theorem track_idents_nodup {l : List Track} (h : risingKeys Track.key l = true) :
    (l.map (·.ident)).Nodup := by
  induction l with
  | nil => exact .nil
  | cons x l ih =>
    obtain ⟨hlt, hl⟩ := risingKeys_cons.1 h
    refine List.nodup_cons.2 ⟨fun hx => ?_, ih hl⟩
    obtain ⟨y, hy, heq⟩ := List.mem_map.1 hx
    exact (hlt y hy).ne ((Track.key_iff x y).2 heq.symm)

theorem allAisles_nodup : allAisles.Nodup := by decide

/-- The tracks that a passage binds as it opens are different tracks of the table, bound nowhere. -/
theorem openedPassage_items {a : Aisle} {b : Beam} {s : State} (ht : TracksFit s) :
    (openedPassage a b s).items.Nodup
      ∧ ∀ i ∈ (openedPassage a b s).items, ∃ x, s.track? i = some x ∧ x.bound? = none := by
  obtain ⟨hperm, -⟩ := looseTracks_spec s a
  have hkeys := ht.2.1
  constructor
  · refine List.Nodup.sublist (List.take_sublist ..) ?_
    rw [(hperm.map (·.ident)).nodup_iff]
    exact (track_idents_nodup hkeys).sublist (List.filter_sublist.map _)
  · intro i hi
    obtain ⟨x, hx, rfl⟩ := List.mem_map.1 (List.mem_of_mem_take hi)
    obtain ⟨hmem, hloose⟩ := List.mem_filter.1 (hperm.mem_iff.1 hx)
    exact ⟨x, track?_of_mem hkeys hmem, looseIn_unbound hloose⟩

theorem openPassage_bound {a : Aisle} {b : Beam} {s : State} (ht : TracksFit s) (hs : Bound s) :
    Bound (openPassage a b s) := by
  obtain ⟨hnodup, hitems⟩ := openedPassage_items (a := a) (b := b) ht
  obtain ⟨hothers, hself⟩ := openPassage_aisle a b s
  have hself : (openPassage a b s).opens a = s.opens a ++ [openedPassage a b s] :=
    congrArg AisleRecord.opens hself
  have hjoined : (joinedList a b s).track? = s.track? := rfl
  have hempty : Agrees s.bound? fun c =>
      if c = a then (s.passages.next, []) :: s.held a else s.held c := by
    refine hs.join (a := a) (n := s.passages.next) ?_ fun c hc => if_neg hc
    rw [if_pos rfl]
  refine hempty.fill (a := a) (n := s.passages.next) (old := []) (rest := s.held a) hnodup
    (fun i hi => ?_) ?_ ?_ (fun c hc => ?_) fun i => ?_
  · obtain ⟨x, hx, hfree⟩ := hitems i hi
    unfold State.bound?
    rw [hx]
    exact hfree
  · rw [if_pos rfl]
  · unfold State.held
    rw [hself, List.map_append]
    exact List.perm_append_comm
  · rw [if_neg hc]; exact held_ne hothers hc
  · rw [openPassage_eq]
    refine bound?_foldl_modifyTrack (f := Track.bind a s.passages.next) (fun _ => rfl) (fun _ => rfl)
      (bound?_bind a _) (fun j hj => .inl ?_) i
    obtain ⟨x, hx, -⟩ := hitems j hj
    rw [hjoined, hx]
    rfl

/-! ## Sightings -/

theorem bindAttributed_bound {id : Ident} {a : Aisle} {s : State} {x : Track}
    (hx : s.track? id = some x) (hfree : x.bound? = none) (hs : Bound s) :
    Bound (bindAttributed id a s) := by
  have hid : s.bound? id = none := by
    unfold State.bound?
    rw [hx]
    exact hfree
  unfold bindAttributed
  split
  · next p hp =>
    obtain ⟨hroom, l, m, hopens, hl⟩ := List.find?_eq_some_iff_append.1 hp
    have hchanged : changeFirst Passage.hasRoom (fun p => { p with items := p.items ++ [id] })
        (s.opens a) = l ++ { p with items := p.items ++ [id] } :: m := by
      rw [hopens]
      exact changeFirst_append (fun y hy => by simpa using hl y hy) hroom
    rw [hchanged]
    have hbind := modifyTrack_only (s.setOpens a (l ++ { p with items := p.items ++ [id] } :: m)) id
      (Track.bind a p.number)
    refine hs.fill (a := a) (n := p.number) (old := p.items) (new := [id])
      (rest := (l ++ m).map Passage.holds) (by simp) (by simpa using hid) ?_ ?_ (fun c hc => ?_)
      fun i => ?_
    · unfold State.held
      rw [hopens]
      exact List.perm_middle.map Passage.holds
    · rw [held_of_only hbind (by decide), held_setOpens]
      exact List.perm_middle.map Passage.holds
    · rw [held_of_only hbind (by decide)]
      exact held_ne (fun d hd => setOpens_ne s _ hd) hc
    · rw [bound?_modifyTrack (f := Track.bind a p.number) fun _ => rfl]
      by_cases hi : i = id
      · rw [if_pos hi, if_pos (by simp [hi])]
        change ((s.track? id).map _).bind _ = _
        rw [hx]
        rfl
      · rw [if_neg hi, if_neg (by simp [hi])]
        rfl
  · refine hs.congr rfl (funext fun c => ?_)
    by_cases hc : c = a
    · subst hc
      rw [held_setOpens]
      exact changeFirst_holds _
        (f := fun p => { p with flags := { p.flags with full := true } }) (fun _ => rfl) _
    · exact held_ne (fun d hd => setOpens_ne s _ hd) hc

theorem makeQuery_bound {id : Ident} {a : Aisle} {s : State} (hs : Bound s) :
    Bound (makeQuery id a s) := by
  have hmark : ∀ (t : State) (m : QueryMark), t.bound? = s.bound? → t.held = s.held →
      Bound (t.modifyTrack id fun x => { x with mark := m }) := by
    intro t m hb hh
    refine hs.congr ((bound?_map (f := fun x => if x.ident == id then { x with mark := m } else x)
      (fun x => ?_) rfl).trans hb) hh
    dsimp only
    split <;> exact ⟨rfl, fun _ => le_rfl, fun _ _ => .rfl⟩
  unfold makeQuery
  split
  · split
    · exact hmark _ _ rfl rfl
    · exact hmark _ _ rfl rfl
  · exact hs

/-- A track that is not BOUND is attributed, and bound where a passage has room (R47, R69). -/
theorem attributeTrack_bound {id : Ident} {a : Aisle} {s : State} {x : Track}
    (hx : s.track? id = some x) (hfree : x.bound? = none) (hs : Bound s) :
    Bound (attributeTrack id a s) := by
  have hset : ∀ f : Track → Track, (∀ y, (f y).ident = y.ident) → (f x).bound? = none →
      Bound (s.modifyTrack id f) := by
    intro f hf hfx
    refine hs.congr (funext fun i => ?_) rfl
    rw [bound?_modifyTrack hf]
    split
    · next hi =>
      rw [hi]
      unfold State.bound?
      rw [hx]
      exact hfx.trans hfree.symm
    · rfl
  have hnow := track?_modifyTrack_self hx
    (f := fun t => { t with state := .attributed a s.clock.now }) fun _ => rfl
  exact makeQuery_bound (bindAttributed_bound hnow rfl (hset _ (fun _ => rfl) rfl))

theorem hearTrack_bound {x : Track} {a : Aisle} {c : Nat} {g : Bool} {s : State}
    (known : s.track? x.ident = some x ∨ s.track? x.ident = none
      ∧ s.tracking.tracks.length < 256 ∧ x = newTrack x.ident g s.clock.now)
    (hs : Bound s) : Bound (hearTrack x a c g s) := by
  set y : Track := { x with
    evidence := addEvidence x.evidence a c, guard := g, lastSeen := s.clock.now } with hy
  have hput : ∀ i, (s.setTracks (putKeyed Track.key y s.tracking.tracks)).track? i =
      if x.ident = i then some y else s.track? i := fun i =>
    find_putKeyed (f := Track.ident) Track.key_iff y s.tracking.tracks i
  have hself := (hput x.ident).trans (if_pos rfl)
  have hset : Bound (s.setTracks (putKeyed Track.key y s.tracking.tracks)) := by
    refine hs.congr (funext fun i => ?_) rfl
    unfold State.bound?
    rw [hput]
    split
    · next hi =>
      subst hi
      rcases known with h | ⟨h, -, hnew⟩
      · rw [h]; rfl
      · rw [h]
        change x.bound? = none
        rw [hnew]
        rfl
    · rfl
  unfold hearTrack
  dsimp only
  rw [← hy]
  split
  · next b _ =>
    unfold testOutcome
    split
    · next hst => exact attributeTrack_bound hself (by unfold Track.bound?; rw [hy, hst]) hset
    · next hst =>
      split
      · exact hset
      · exact attributeTrack_bound hself (by unfold Track.bound?; rw [hy, hst]) hset
    · exact hset
    · exact hset
  · exact hset

/-! ## Every piece -/

theorem frees_bound {id : Ident} {s : State} (ht : TracksFit s) (free : Freeable s id) (hs : Bound s) :
    Bound (s.setTracks (dropKeyed Track.key id.toNat s.tracking.tracks)) := by
  have hnone : s.bound? id = none := by
    unfold State.bound?
    rcases free with h | ⟨x, hx, rfl, hfree⟩
    · rw [h]; rfl
    · rw [track?_of_mem ht.2.1 hx]
      exact bound?_eq_none.2 hfree
  refine hs.congr (funext fun i => ?_) rfl
  unfold State.bound?
  rw [track?_dropKeyed]
  split
  · next hi => rw [hi]; exact hnone.symm
  · rfl

theorem marks_bound {a : Aisle} {r : AisleRecord} {s : State}
    (same : r.opens.map Passage.holds = (s.opens a).map Passage.holds) (hs : Bound s) :
    Bound (s.setAisle a r) := by
  refine hs.congr rfl (funext fun c => ?_)
  unfold State.held
  by_cases hc : c = a
  · subst hc
    have : (s.setAisle c r).opens c = r.opens := congrArg AisleRecord.opens (setAisle_self s c r)
    rw [this, same]
  · have : (s.setAisle a r).opens c = s.opens c := congrArg AisleRecord.opens (setAisle_ne s r hc)
    rw [this]

theorem Piece.bound {s t : State} (h : Piece s t) (ht : TracksFit s) (hs : Bound s) : Bound t := by
  cases h with
  | rest frame => exact bound_of_only frame (by decide) hs
  | table frame => exact bound_of_only frame (by decide) hs
  | queries frame => exact bound_of_only frame (by decide) hs
  | beams frame => exact bound_of_only frame (by decide) hs
  | lights frame => exact bound_of_only frame (by decide) hs
  | tracks frame hf map =>
    exact hs.congr (bound?_map hf map) (held_of_only frame (by decide))
  | frees id free => exact frees_bound ht free hs
  | hears a c g _ known => exact hearTrack_bound known hs
  | opens a b => exact openPassage_bound ht hs
  | marks a r same => exact marks_bound same hs
  | completes mem => exact completePassage_bound mem hs
  | closes o mem => exact closePassage_bound o mem hs
  | settles =>
    exact hs.congr (settle_rejudged _ s).bound? (held_of_only (settle_only _ s) (by decide))
  | restarts afresh =>
    have hheld : ∀ a, t.held a = [] := fun a => by unfold State.held; rw [afresh.opens]; rfl
    have hbound : ∀ i, t.bound? i = none := fun i => by
      unfold State.bound? State.track?
      rw [afresh.tracks]
      rfl
    refine ⟨fun a => by rw [hheld]; exact .nil, fun i a n => ?_⟩
    rw [hbound, hheld]
    exact ⟨nofun, nofun⟩

/-! ## The agreement as the obligation states it -/

theorem bound_of_bindingFits {s : State} (h : BindingFits s) : Bound s := by
  obtain ⟨hnodup, hitem, htrack, -⟩ := h
  refine ⟨fun a => ?_, fun i a n => ?_⟩
  · have := (List.nodup_flatMap.1 hnodup).1 a (mem_allAisles a)
    unfold State.held
    rwa [List.flatMap_map]
  · constructor
    · intro hb
      obtain ⟨x, hx, hbound⟩ := Option.bind_eq_some_iff.1 hb
      obtain ⟨hmem, rfl⟩ := track?_mem hx
      obtain ⟨p, hp, rfl, hin⟩ := htrack x hmem a n (bound?_eq_some.1 hbound)
      exact ⟨p.items, List.mem_map.2 ⟨p, hp, rfl⟩, hin⟩
    · rintro ⟨items, hl, hi⟩
      obtain ⟨p, hp, heq⟩ := List.mem_map.1 hl
      cases heq
      obtain ⟨x, hx, hst⟩ := hitem a p hp i hi
      unfold State.bound?
      rw [hx]
      exact bound?_eq_some.2 hst

/-- The items of all open passages. -/
def State.items (s : State) : List Ident :=
  allAisles.flatMap fun a => (s.opens a).flatMap (·.items)

theorem items_length {s : State} (hp : OpensBounded s) : s.items.length ≤ 240 := by
  have hsum : ∀ {α β : Type} (l : List α) (f : α → List β) (k : Nat),
      (∀ x ∈ l, (f x).length ≤ k) → (l.flatMap f).length ≤ l.length * k := by
    intro α β l f k hk
    rw [List.length_flatMap]
    exact (List.sum_le_card_nsmul _ k (List.forall_mem_map.2 hk)).trans (by simp)
  refine (hsum allAisles _ 30 fun a _ => ?_).trans (by decide)
  obtain ⟨hlen, hitems⟩ := hp a
  exact (hsum (s.opens a) _ 10 hitems).trans (Nat.mul_le_mul_right 10 hlen)

theorem bindingFits_of_bound {s : State} (ht : TracksFit s) (hp : OpensBounded s) (h : Bound s) :
    BindingFits s := by
  have hitem : ∀ a, ∀ p ∈ s.opens a, ∀ i ∈ p.items, s.bound? i = some (a, p.number) :=
    fun a p hp i hi => (h.bound i a p.number).2 ⟨p.items, List.mem_map.2 ⟨p, hp, rfl⟩, hi⟩
  have htrack : ∀ x ∈ s.tracking.tracks, ∀ a n, x.state = .bound a n →
      ∃ p ∈ s.opens a, p.number = n ∧ x.ident ∈ p.items := by
    intro x hx a n hst
    have hb : s.bound? x.ident = some (a, n) := by
      unfold State.bound?
      rw [track?_of_mem ht.2.1 hx]
      exact bound?_eq_some.2 hst
    obtain ⟨items, hl, hi⟩ := (h.bound _ a n).1 hb
    obtain ⟨p, hp, heq⟩ := List.mem_map.1 hl
    cases heq
    exact ⟨p, hp, rfl, hi⟩
  refine ⟨List.nodup_flatMap.2 ⟨fun a _ => ?_, ?_⟩, fun a p hp i hi => ?_, htrack, ?_⟩
  · have := h.nodup a
    unfold State.held at this
    rwa [List.flatMap_map] at this
  · refine allAisles_nodup.imp fun {a c} hac i hi hj => ?_
    obtain ⟨p, hp, hip⟩ := List.mem_flatMap.1 hi
    obtain ⟨q, hq, hiq⟩ := List.mem_flatMap.1 hj
    have := (hitem a p hp i hip).symm.trans (hitem c q hq i hiq)
    exact hac (congrArg Prod.fst (Option.some.inj this))
  · obtain ⟨x, hx, hb⟩ := Option.bind_eq_some_iff.1 (hitem a p hp i hi)
    exact ⟨x, hx, bound?_eq_some.1 hb⟩
  · have hnodup : ((s.tracking.tracks.filter fun x => x.isBound).map (·.ident)).Nodup :=
      (track_idents_nodup ht.2.1).sublist (List.filter_sublist.map _)
    have hsub : ((s.tracking.tracks.filter fun x => x.isBound).map (·.ident)) ⊆ s.items := by
      intro i hi
      obtain ⟨x, hx, rfl⟩ := List.mem_map.1 hi
      obtain ⟨hmem, hbound⟩ := List.mem_filter.1 hx
      have hne : x.bound? ≠ none := fun hb => by rw [bound?_eq_none.1 hb] at hbound; cases hbound
      obtain ⟨⟨a, n⟩, hb⟩ := Option.ne_none_iff_exists'.1 hne
      obtain ⟨p, hp, -, hin⟩ := htrack x hmem a n (bound?_eq_some.1 hb)
      exact List.mem_flatMap.2 ⟨a, mem_allAisles a, List.mem_flatMap.2 ⟨p, hp, hin⟩⟩
    have := (List.subperm_of_subset hnodup hsub).length_le
    rw [List.length_map] at this
    exact this.trans (items_length hp)

/-- Settles O30: a step as a whole keeps the bounds of the open passages, and each of its pieces the
agreement of tracks and passages. -/
theorem stepsKeepTheOpenPassages : Obligations.StepsKeepTheOpenPassages := by
  refine ⟨fun s t hs hstep => (step_runs s hstep).passages hs, fun s t hp ht hb hstep => ?_⟩
  obtain ⟨htracks, hbound⟩ := step_keeps (P := fun s => TracksFit s ∧ Bound s)
    (fun _ _ hpiece ⟨ht, hb⟩ => ⟨hpiece.tracksFit ht, hpiece.bound ht hb⟩)
    ⟨ht, bound_of_bindingFits hb⟩ hstep
  exact bindingFits_of_bound htracks ((step_runs s hstep).passages hp).bounded hbound

end Sys2Proof.Machine
end


section
/-! PROOFS. The step (R2, R26), and the queue of waiting commands. -/

namespace Sys2Proof.Machine

/-- Settles O1: the two arms of the step, at a queue that is not empty. -/
theorem stepRunsTheFrontCommand : Obligations.StepRunsTheFrontCommand := fun _ _ _ => rfl

/-- No command has the queue among the components it may change. -/
theorem pending_not_mem_commandParts (c : Instr) : Component.pending ∉ commandParts c := by
  cases c <;> exact of_decide_eq_true rfl

/-- Settles O3: the queue is outside the frame of every command. -/
theorem commandsKeepTheQueue : Obligations.CommandsKeepTheQueue := fun c _ _ h =>
  (exec_next_only h).pending (pending_not_mem_commandParts c)

/-- Records wait for intake exactly while an answer is being delivered. -/
theorem delivering_iff {s : State} :
    s.delivering = true ↔ ∃ t more rs, s.bus.activity = .delivering t more rs := by
  unfold State.delivering
  split
  · next h => exact iff_of_true rfl ⟨_, _, _, h⟩
  · next h => exact iff_of_false (by decide) fun ⟨t, more, rs, ht⟩ => h t more rs ht

/-- What the idle step may do is an event that is due, or, while an answer is being delivered, to take
its next record. -/
theorem mem_idleChoices {s : State} {o : Option Instr} :
    o ∈ idleChoices s ↔ (∃ i ∈ dueEvents s, o = some i) ∨ (o = none ∧ s.delivering = true) := by
  unfold idleChoices
  cases hd : s.delivering <;> simp [eq_comm]

/-- The idle step counts a millisecond where there is nothing else to do, and otherwise does one of what
there is, after the draw that chose it. -/
theorem idle_cases (s : State) :
    (idleChoices s = [] ∧ idle s = tick s)
      ∨ ∃ c, (∃ i ∈ dueEvents s, idle s = (s.setChoice c).setPending [i])
          ∨ (s.delivering = true ∧ idle s = takeRecord (s.setChoice c)) := by
  unfold idle
  split
  · next h => exact .inl ⟨h, rfl⟩
  · next first others h =>
    obtain ⟨c, hc⟩ := afterPick_choice s others
    have hmem : s.pick first others ∈ idleChoices s := h ▸ pick_mem s first others
    rw [hc]
    refine .inr ⟨c, ?_⟩
    obtain ⟨i, hi, hsome⟩ | ⟨hnone, hd⟩ := mem_idleChoices.1 hmem
    · exact .inl ⟨i, hi, by rw [hsome]⟩
    · exact .inr ⟨hd, by rw [hnone]⟩

/-- Settles O2: the idle step's own cases; the record taken is the first of those that wait. -/
theorem idleStepRaisesAnEventOrCounts : Obligations.IdleStepRaisesAnEventOrCounts := by
  intro s hp
  have hstep : step s = .next (idle s) := by unfold step; rw [hp]
  refine ⟨idle s, hstep, fun hdue hdel => ?counts, fun hwork => ?works⟩
  case counts =>
    have hd : s.delivering ≠ true := fun h =>
      have ⟨t, more, rs, ht⟩ := delivering_iff.1 h
      hdel t more rs ht
    obtain ⟨-, h⟩ | ⟨c, ⟨i, hi, -⟩ | ⟨h, -⟩⟩ := idle_cases s
    · rw [h]
      exact ⟨rfl, rfl, tick_only s⟩
    · rw [hdue] at hi
      cases hi
    · exact absurd h hd
  case works =>
    obtain ⟨hnone, -⟩ | ⟨c, ⟨i, hi, h⟩ | ⟨hd, h⟩⟩ := idle_cases s
    · have hempty : ∀ o, o ∉ idleChoices s := by simp [hnone]
      obtain hdue | hdel := hwork
      · obtain ⟨i, hi⟩ := List.exists_mem_of_ne_nil _ hdue
        exact absurd (mem_idleChoices.2 (.inl ⟨i, hi, rfl⟩)) (hempty _)
      · exact absurd (mem_idleChoices.2 (.inr ⟨rfl, delivering_iff.2 hdel⟩)) (hempty _)
    · refine .inl ⟨i, hi, by rw [h]; rfl, ?_⟩
      rw [h]
      exact ((only_setChoice s c).mono (by decide)).trans
        ((only_setPending _ _).mono (by decide))
    · obtain ⟨t, more, rs, ht⟩ := delivering_iff.1 hd
      refine .inr ⟨t, more, rs, c, ht, ?_⟩
      rw [h]
      exact takeRecord_goesOn (s := s.setChoice c) ht

end Sys2Proof.Machine
end


section
/-! PROOFS. Reports (R163, R164), restarts (R15, R33, R170), and the reset state. -/

namespace Sys2Proof.Machine

theorem createReport_rate (urgent : Bool) (body : ReportBody) (s : State) :
    (createReport urgent body s).link.rate = s.link.rate := by
  rw [createReport_link]

/-- The report that is created, and the list of its class it joins behind what the eviction left. -/
theorem createReport_joins (urgent : Bool) (body : ReportBody) (s : State) :
    ∃ report : Report, report = { number := s.link.nextReport, stamp := s.clock.now, body := body }
      ∧ (createReport urgent body s).link.urgent
          = (evictReport s.link).urgent ++ (if urgent then [report] else [])
      ∧ (createReport urgent body s).link.routine
          = (evictReport s.link).routine ++ (if urgent then [] else [report]) := by
  refine ⟨_, rfl, ?_⟩
  cases urgent
  · exact ⟨(List.append_nil _).symm, rfl⟩
  · exact ⟨rfl, (List.append_nil _).symm⟩

/-- Settles O56: the report joins its list behind what `evictReport_spec` leaves. -/
theorem reportsAreNumberedAndEvicted : Obligations.ReportsAreNumberedAndEvicted := by
  intro s urgent body
  refine ⟨createReport_nextReport .., createReport_only .., ?_⟩
  rintro _ _ rfl rfl
  obtain ⟨report, hreport, hu, hr⟩ := createReport_joins urgent body s
  obtain ⟨hroom, hfull⟩ := evictReport_spec s.link
  refine ⟨report, hreport, fun h => ?_, fun h => ⟨fun hne => ?_, fun hnil => ?_⟩⟩
  · obtain ⟨eu, er⟩ := hroom h
    rw [hu, hr, eu, er]
    exact ⟨rfl, rfl⟩
  · obtain ⟨eu, er⟩ := (hfull h).1 hne
    rw [hu, hr, eu, er]
    exact ⟨rfl, rfl⟩
  · obtain ⟨eu, er⟩ := (hfull h).2 hnil
    rw [hu, hr, eu, er]
    exact ⟨rfl, rfl⟩

/-! ## What each block takes at a restart -/

/-- With every pedestal HEALTHY and no probe due, the round of a restart opens with the POLL to
pedestal 0 (R17, R33). -/
theorem restarted_bus (now : Time) (n : Nat) :
    let b := BusController.restarted now n
    (∀ p : Pedestal, b.health[p] = { faulted := false, count := 0 })
      ∧ b.activity = .polling (Turn.first 0 false) (now + 2) ∧ b.sent = [0x00, 0x01, 0xFF]
      ∧ b.grant = none ∧ b.probeDue = false ∧ b.probeAt = now + 1000 := by
  have hround := startRound_newRound now n
    { health := Vector.replicate 9 { faulted := false, count := 0 }
      activity := .idle
      grant := none
      round := { probePhase := false, next := 0, faultedAtStart := [], probed := [] }
      probeDue := false
      probeAt := after now 1000
      sent := [] }
  have hfirst := (hround.ordinary 0 (.inl rfl)
    ⟨⟨Nat.zero_le n, rfl⟩, fun q hq => absurd hq (Nat.not_lt_zero _)⟩).1
  obtain ⟨hhealth, hgrant, hprobe⟩ := hround.records
  refine ⟨fun p => ?_, hfirst.poll, hfirst.sent, hgrant, hround.cleared, hprobe⟩
  rw [BusController.restarted, hhealth, Fin.getElem_fin, Vector.getElem_replicate]

/-- The accepted states of beams and key are read from the levels that stand (R76, R155). -/
theorem restarted_beams (b : BeamUnit) :
    (∀ a : Aisle, b.restarted.inner[a] = Filter.atReset b.inner[a].raw
        ∧ b.restarted.outer[a] = Filter.atReset b.outer[a].raw)
      ∧ b.restarted.key = Filter.atReset b.key.raw :=
  ⟨fun _ => ⟨mapVector_get .., mapVector_get ..⟩, rfl⟩

/-- No aisle has an open passage or the CROWDED flag after a restart (R76). -/
theorem restarted_aisles (n : Word16) (a : Aisle) :
    (PassageTracker.restarted n).aisles[a] = { opens := [], crowded := false } :=
  Vector.getElem_replicate a.isLt

/-- Every annunciator is QUIET after a restart. -/
theorem replicate_quiet (a : Aisle) : (Vector.replicate 8 Annunciator.quiet)[a] = .quiet :=
  Vector.getElem_replicate a.isLt

/-- The rate that the straps give, as the table of R156 reads. -/
theorem ofStraps_eq (x y : Bool) :
    LineRate.ofStraps x y =
      if x then (if y then .b460800 else .b57600) else (if y then .b230400 else .b115200) := by
  cases x <;> cases y <;> rfl

/-- The two commands that run a full reset do so, each with its cause. -/
theorem exec_fullReset {s : State} {c : Instr} {cause : RestartCause}
    (h : (c = .powerOn ∧ cause = .power)
      ∨ (c = .fullReset ∧ cause = .full ∧ s.restartReady .full = true)) :
    exec c s = .next (fullReset cause s) := by
  obtain ⟨rfl, rfl⟩ | ⟨rfl, rfl, hready⟩ := h
  · rfl
  · exact if_pos hready

/-- Settles O4: block by block, from what `fullReset` puts there. -/
theorem fullResetGivesFullResetValues : Obligations.FullResetGivesFullResetValues := by
  intro s c cause h
  obtain ⟨hhealth, hpoll, hsent, hgrant, hdue, hprobe⟩ :=
    restarted_bus 0 SiteSettings.default.aisles
  obtain ⟨hbeams, hkey⟩ := restarted_beams s.beams
  refine ⟨fullReset cause s, exec_fullReset h, rfl, rfl, fun a => Vector.getElem_replicate a.isLt,
    rfl, hhealth, hpoll, hsent, hgrant, hdue, hprobe, rfl, hbeams, hkey, restarted_aisles 1, rfl,
    fun i => Vector.getElem_replicate i.isLt, rfl, rfl, rfl, rfl, replicate_quiet, ?_⟩
  rw [← ofStraps_eq]
  rfl

/-- Settles O5: block by block, from what `detectionRestart` puts there; the notice joins the reports that
are kept. -/
theorem detectionRestartKeepsTheConfiguration :
    Obligations.DetectionRestartKeepsTheConfiguration := by
  intro s hready
  obtain ⟨hhealth, hpoll, -, hgrant, hdue, hprobe⟩ := restarted_bus s.clock.now s.site.aisles
  obtain ⟨hbeams, hkey⟩ := restarted_beams s.beams
  refine ⟨detectionRestart s, if_pos hready, detectionRestart_only s, hhealth, hpoll, hgrant, hdue,
    hprobe, rfl, hbeams, hkey, restarted_aisles _, rfl, rfl, rfl, rfl, replicate_quiet,
    ?rate, notice_rx .., notice_replies .., notice_line .., notice_restart .., rfl, ?lists⟩
  case rate => exact createReport_rate _ _ _
  case lists =>
    obtain ⟨hroom, hfull⟩ := evictReport_spec s.link.detectionRestart
    have hlists : (detectionRestart s).link.urgent = (evictReport s.link.detectionRestart).urgent
          ++ [{ number := s.link.nextReport, stamp := s.clock.now
                body := .notice (.restarted .detection) }]
        ∧ (detectionRestart s).link.routine = (evictReport s.link.detectionRestart).routine :=
      ⟨rfl, rfl⟩
    rw [hlists.1, hlists.2]
    refine ⟨fun h => ?_, fun h => ?_⟩
    · obtain ⟨eu, er⟩ := hroom h
      rw [eu, er]
      exact ⟨rfl, rfl⟩
    · by_cases hnil : s.link.routine = []
      · obtain ⟨eu, er⟩ := (hfull h).2 hnil
        rw [eu, er, if_pos hnil, hnil]
        exact ⟨rfl, rfl⟩
      · obtain ⟨eu, er⟩ := (hfull h).1 hnil
        rw [eu, er, if_neg hnil]
        exact ⟨rfl, rfl⟩

/-! ## The reset state -/

theorem reset_opens (a : Aisle) : State.reset.passages.aisles[a] = { opens := [], crowded := false } :=
  Vector.getElem_replicate a.isLt

theorem reset_stored (a : Aisle) : State.reset.modes.stored[a] = .off :=
  Vector.getElem_replicate a.isLt

theorem reset_busFits : BusFits State.reset.bus := by
  refine ⟨fun p => ?_, Nat.zero_le _, Nat.zero_le _⟩
  have hp : State.reset.bus.health[p] = { faulted := false, count := 0 } :=
    Vector.getElem_replicate p.isLt
  rw [hp]
  exact ⟨Nat.zero_le _, fun h => by cases h⟩

theorem reset_tableFits : TableFits State.reset := by
  refine ⟨fun i => ?_, fun r h => by cases h⟩
  have hi : State.reset.segments[i].entries = [] :=
    congrArg Segment.entries (Vector.getElem_replicate i.isLt)
  rw [hi]
  exact EntriesFit.nil i

theorem reset_passagesFit : PassagesFit State.reset :=
  passagesFit_iff.2 fun a => by
    have hempty : State.reset.passages.aisles[a].Empty := by rw [reset_opens]; exact ⟨rfl, rfl⟩
    exact ⟨AisleRecord.empty_bounded hempty, fun _ => hempty, fun _ => hempty,
      fun _ => reset_stored a⟩

/-- Settles O6: at reset every list is empty, and the round has begun with a POLL. -/
theorem resetMeetsTheInvariants : Obligations.ResetMeetsTheInvariants := by
  refine ⟨reset_busFits, ⟨by decide, by decide⟩, ⟨by decide, rfl, fun t h => by cases h⟩,
    reset_tableFits, reset_passagesFit,
    ⟨by decide, List.nodup_nil, List.nodup_nil, (fun q h => by cases h), by decide⟩,
    ⟨by decide, fun j h => by cases h⟩, fun a h => absurd (replicate_quiet a) h,
    ⟨by decide, fun a p hp => ?_, fun x h => (by cases h), by decide⟩⟩
  have hnone : State.reset.opens a = [] := congrArg AisleRecord.opens (reset_opens a)
  rw [hnone] at hp
  cases hp

end Sys2Proof.Machine
end


section
/-! PROOFS. Commands that stand for an event of the part, before its time. -/

namespace Sys2Proof.Machine

/-- A guard that does not hold leaves the state. -/
theorem guarded_stays {c : Bool} {s t : State} (h : c = false) :
    (if c = true then Host.Outcome.next t else .next s : Host.Outcome State Fault Refusal) = .next s :=
  if_neg (ne_true_of_eq_false h)

/-- The timers of the bus controller, each in its own activity (R16, R19, R23, R182). -/
theorem busTimer_early (s : State) :
    (∀ t w, s.bus.activity = .polling t w → passed s.clock.now w = false →
        exec .answerWindowClose s = .next s)
    ∧ (∀ t bytes last, s.bus.activity = .receiving t bytes last →
        passed s.clock.now (last + 1) = false → exec .answerSlotGap s = .next s)
    ∧ (∀ t w, s.bus.activity = .waiting t w → passed s.clock.now w = false →
        exec .extensionWaitEnd s = .next s) := by
  refine ⟨fun t w h hp => ?_, fun t bytes last h hp => ?_, fun t w h hp => ?_⟩
  · change execAnswerWindowClose s = _
    simp only [execAnswerWindowClose, h]
    exact guarded_stays hp
  · change execAnswerSlotGap s = _
    simp only [execAnswerSlotGap, h]
    exact guarded_stays hp
  · change execExtensionWaitEnd s = _
    simp only [execExtensionWaitEnd, h]
    exact guarded_stays hp

/-- With no grant pending, or before the turn has ended, nothing is granted (R28). -/
theorem busGrant_early {s : State} (h : s.bus.grant = none ∨ ∀ p, s.bus.activity ≠ .ended p) :
    exec .busGrant s = .next s := by
  change execBusGrant s = _
  unfold execBusGrant
  split
  · next p ref ha hg =>
    obtain h | h := h
    · rw [h] at hg; cases hg
    · exact absurd ha (h p)
  · rfl

/-- The events of a hold go nowhere while the bus is not HELD. -/
theorem holdEvents_notHeld {s : State} (h : ∀ x, s.bus.activity ≠ .held x) :
    exec .holdDeadline s = .next s ∧ exec .readerPassTimeout s = .next s
      ∧ ∀ f, exec (.readerPassAnswer f) s = .next s := by
  refine ⟨?_, ?_, fun f => ?_⟩
  · change execHoldDeadline s = _
    unfold execHoldDeadline
    split
    · next x hx => exact absurd hx (h x)
    · rfl
  · change execReaderPassTimeout s = _
    unfold execReaderPassTimeout
    split
    · next x hx => exact absurd hx (h x)
    · rfl
  · change execReaderPassAnswer f s = _
    unfold execReaderPassAnswer
    split
    · next x hx => exact absurd hx (h x)
    · rfl

/-- The events of a hold before their deadlines, without a READER-PASS in flight, and after its first
frame (R30, R31). -/
theorem holdEvents_early {s : State} {h : Hold} (ha : s.bus.activity = .held h) :
    (passed s.clock.now h.deadline = false → exec .holdDeadline s = .next s)
    ∧ (h.pass = none → exec .readerPassTimeout s = .next s
        ∧ ∀ f, exec (.readerPassAnswer f) s = .next s)
    ∧ ∀ x, h.pass = some x →
        (passed s.clock.now x.deadline = false → exec .readerPassTimeout s = .next s)
        ∧ (x.heard = true → ∀ f, exec (.readerPassAnswer f) s = .next s) := by
  refine ⟨fun hp => ?_, fun hp => ⟨?_, fun f => ?_⟩, fun x hx => ⟨fun hp => ?_, fun hh f => ?_⟩⟩
  · change execHoldDeadline s = _
    simp only [execHoldDeadline, ha]
    exact guarded_stays hp
  · change execReaderPassTimeout s = _
    simp only [execReaderPassTimeout, ha, hp]
  · change execReaderPassAnswer f s = _
    simp only [execReaderPassAnswer, ha, hp]
  · change execReaderPassTimeout s = _
    simp only [execReaderPassTimeout, ha, hx]
    exact guarded_stays hp
  · change execReaderPassAnswer f s = _
    simp only [execReaderPassAnswer, ha, hx]
    exact if_pos hh

/-- The deadlines of a passage, an annunciator, a query and a refresh, and of the supervisor (R67, R105,
R111, R123, R150). -/
theorem deadline_early (s : State) :
    (∀ a n, s.transitDue a n = none → exec (.transitDeadline a n) s = .next s)
    ∧ (∀ a d, s.annunciators[a].deadline? = some d → passed s.clock.now d = false →
        exec (.durationDeadline a) s = .next s)
    ∧ (∀ n, (∀ q ∈ s.queries.list, q.number = n → passed s.clock.now q.deadline = false) →
        exec (.queryDeadline n) s = .next s)
    ∧ (∀ r, s.refresh = some r → passed s.clock.now r.idleAt = false →
        exec .refreshIdleDeadline s = .next s)
    ∧ (∀ p d, s.supervisor = .running p d → passed s.clock.now d = false →
        exec .supervisorExpiry s = .next s) := by
  refine ⟨fun a n h => ?_, fun a d h hp => ?_, fun n h => ?_, fun r h hp => ?_, fun p d h hp => ?_⟩
  · change execTransitDeadline a n s = _
    simp only [execTransitDeadline, h]
  · refine congrArg Host.Outcome.next ?_
    simp only [durationExpires, h]
    exact if_neg (ne_true_of_eq_false hp)
  · change execQueryDeadline n s = _
    unfold execQueryDeadline
    split
    · next q hq =>
      have hn := List.find?_some (p := fun q : Query => q.number == n) hq
      exact guarded_stays (h q (List.mem_of_find?_eq_some hq) (beq_iff_eq.1 hn))
    · rfl
  · change execRefreshIdleDeadline s = _
    simp only [execRefreshIdleDeadline, h]
    exact guarded_stays hp
  · change execSupervisorExpiry s = _
    simp only [execSupervisorExpiry, h]
    exact guarded_stays hp

/-- The transmitter takes nothing while a frame is on the line, and no line is freed that is free (R162). -/
theorem line_early (s : State) :
    (∀ l, s.link.line = some l → exec .transmitterTake s = .next s)
    ∧ (s.link.line = none → exec .lineFree s = .next s) := by
  refine ⟨fun l h => ?_, fun h => ?_⟩
  · exact guarded_stays (by rw [h]; rfl)
  · change execLineFree s = _
    simp only [execLineFree, h]

/-- Settles O7: each command's guard, or the state's lack of what it acts on. -/
theorem eventsBeforeTheirTimeChangeNothing : Obligations.EventsBeforeTheirTimeChangeNothing := by
  intro s
  obtain ⟨hwindow, hgap, hwait⟩ := busTimer_early s
  obtain ⟨htransit, hduration, hquery, hidle, hsuper⟩ := deadline_early s
  obtain ⟨htake, hfree⟩ := line_early s
  exact ⟨fun h => if_neg (Nat.not_le.2 h), guarded_stays, guarded_stays, hwindow, hgap, hwait,
    fun h => if_neg (ne_true_of_eq_false h), busGrant_early, holdEvents_notHeld, fun _ => holdEvents_early, guarded_stays,
    fun _ _ => guarded_stays, fun _ _ => guarded_stays, guarded_stays, guarded_stays, htransit,
    fun _ => guarded_stays, hduration, hquery, hidle, hsuper, htake, hfree, guarded_stays,
    guarded_stays⟩

end Sys2Proof.Machine
end


section
/-! PROOFS. Debounced inputs: raw levels, accepted changes of EVAC, and beam events that go nowhere (R14,
R56, R57, R152). -/

namespace Sys2Proof.Machine

/-- A change to one level is due only while the raw level is that one. -/
theorem Filter.due_other {now : Time} {ms : Nat} {l : Bool} {f : Filter}
    (h : f.due now ms l = true) : f.due now ms (!l) = false := by
  by_contra hne
  have hraw := (Filter.due_true h).1.symm.trans (Filter.due_true (Bool.not_eq_false _ ▸ hne)).1
  cases l <;> cases hraw

/-! ## EVAC -/

theorem settleEvac_none {s : State} (ht : s.evacDue true = false) (hf : s.evacDue false = false) :
    settleEvac s = s := by
  simp [settleEvac, ht, hf]

theorem settleEvac_due {s : State} {l : Bool} (h : s.evacDue l = true) :
    settleEvac s = if l then assertEvac s else releaseEvac s := by
  cases l with
  | true => exact if_pos h
  | false => exact (if_neg (ne_true_of_eq_false (Filter.due_other h))).trans (if_pos h)

/-- The command that accepts a due change of EVAC settles it. -/
theorem exec_evacAccepted {s : State} {l : Bool} (h : s.evacDue l = true) :
    exec (if l then .evacAssertAccepted else .evacReleaseAccepted) s = .next (settleEvac s) := by
  rw [settleEvac_due h]
  cases l <;> exact if_pos h

theorem foldl_quietAisle_only (as : List Aisle) (s : State) :
    Only [.annunciators] s (as.foldl (fun s a => quietAisle a s) s) :=
  Only.foldl (fun s a => quietAisle_only a s) as s

/-- An assertion changes modes by accepting the change, and nothing else of them. -/
theorem assertEvac_modes (s : State) : (assertEvac s).modes = (acceptEvac s).modes :=
  (foldl_quietAisle_only s.guardedAisles (acceptEvac s)).modes (by decide)

/-- Once accepted, the change of EVAC is no longer due. -/
theorem settleEvac_settled {s : State} {l : Bool} (h : s.evacDue l = true) :
    settleEvac (settleEvac s) = settleEvac s := by
  have hevac : (settleEvac s).modes.evac = s.modes.evac.accept := by
    rw [settleEvac_due h]
    cases l with
    | true => exact congrArg ModeControl.evac (assertEvac_modes s)
    | false => rfl
  refine settleEvac_none ?_ ?_
  all_goals
    rw [State.evacDue, hevac]
    exact Filter.due_accept ..

/-- Settles O12: both acceptances, component by component. -/
theorem acceptedEvacFreesOrReturnsEveryAisle : Obligations.AcceptedEvacFreesOrReturnsEveryAisle := by
  intro s
  refine ⟨fun h => ?assert, fun h => ?release⟩
  case assert =>
    obtain ⟨-, -, haccept⟩ := Filter.due_true h
    have hmodes := assertEvac_modes s
    have hevac : (assertEvac s).modes.evac = { raw := true, accepted := true, since := none } := by
      rw [hmodes]; exact haccept
    refine ⟨assertEvac s, if_pos h, fun a => effective_free (by rw [hevac]) a, by rw [hmodes]; rfl,
      hevac, fun a => ?_, ?_, assertEvac_only s⟩
    · have hmem : a ∈ s.guardedAisles ↔ s.effective a = .guard := by
        simp [State.guardedAisles, mem_allAisles]
      have hget := quietAisles_get s.guardedAisles (acceptEvac s) a
      simp only [hmem] at hget
      exact hget
    · have hquiet := foldl_quietAisle_only s.guardedAisles (acceptEvac s)
      exact createReport_congr (hquiet.link (by decide)) (hquiet.clock (by decide))
  case release =>
    obtain ⟨-, -, haccept⟩ := Filter.due_true h
    have heff (a : Aisle) : (releaseEvac s).effective a = s.modes.stored[a].effective := by
      have hacc : (releaseEvac s).modes.evac.accepted = false := congrArg Filter.accepted haccept
      unfold State.effective
      rw [hacc]
      rfl
    exact ⟨releaseEvac s, if_pos h, heff, rfl, haccept, createReport_congr rfl rfl, releaseEvac_only s⟩

/-! ## Beams and the key -/

theorem settleBeam_none {s : State} {a : Aisle} {b : Beam} (ht : s.beamDue a b true = false)
    (hf : s.beamDue a b false = false) : settleBeam a b s = s := by
  simp [settleBeam, ht, hf]

theorem settleBeam_due {s : State} {a : Aisle} {b : Beam} {l : Bool} (h : s.beamDue a b l = true) :
    settleBeam a b s = beamEvent a b l s := by
  cases l with
  | true => exact if_pos h
  | false => exact (if_neg (ne_true_of_eq_false (Filter.due_other h))).trans (if_pos h)

/-- The command of a due beam event takes it. -/
theorem exec_beamEvent {s : State} {a : Aisle} {b : Beam} {l : Bool} (h : s.beamDue a b l = true) :
    exec (if l then .breakEvent a b else .clearEvent a b) s = .next (beamEvent a b l s) := by
  cases l <;> exact if_pos h

theorem beamEvent_beam (a : Aisle) (b : Beam) (l : Bool) (s : State) :
    (beamEvent a b l s).beam a b = (s.beam a b).accept := by
  have h : (beamEvent a b l s).beam a b = (acceptBeam a b s).beam a b := by
    unfold State.beam
    rw [beamEvent_beams]
  exact h.trans (acceptBeam_beam a b s)

theorem beamEvent_settled {s : State} {a : Aisle} {b : Beam} (l : Bool) :
    settleBeam a b (beamEvent a b l s) = beamEvent a b l s := by
  refine settleBeam_none ?_ ?_
  all_goals
    rw [State.beamDue, beamEvent_beam]
    exact Filter.due_accept ..

theorem settleKey_none {s : State} (ht : s.keyDue true = false) (hf : s.keyDue false = false) :
    settleKey s = s := by
  simp [settleKey, ht, hf]

theorem settleKey_due {s : State} {l : Bool} (h : s.keyDue l = true) :
    settleKey s = if l then pressKey s else acceptKey s := by
  cases l with
  | true => exact if_pos h
  | false => exact (if_neg (ne_true_of_eq_false (Filter.due_other h))).trans (if_pos h)

/-- The command of a due change of the key settles it. -/
theorem exec_keyAccepted {s : State} {l : Bool} (h : s.keyDue l = true) :
    exec (if l then .silenceKeyPress else .silenceKeyRelease) s = .next (settleKey s) := by
  rw [settleKey_due h]
  cases l <;> exact if_pos h

theorem settleKey_settled {s : State} {l : Bool} (h : s.keyDue l = true) :
    settleKey (settleKey s) = settleKey s := by
  have hkey : (settleKey s).beams.key = s.beams.key.accept := by
    rw [settleKey_due h]
    cases l with
    | true => exact congrArg BeamUnit.key (pressKey_beams s)
    | false => rfl
  refine settleKey_none ?_ ?_
  all_goals
    rw [State.keyDue, hkey]
    exact Filter.due_accept ..

/-- Changing one beam's filter leaves the others and the key. -/
theorem setBeam_spec (s : State) (a : Aisle) (b : Beam) (f : Filter) :
    (s.setBeam a b f).beam a b = f
      ∧ (∀ a' b', (a', b') ≠ (a, b) → (s.setBeam a b f).beam a' b' = s.beam a' b')
      ∧ (s.setBeam a b f).beams.key = s.beams.key ∧ Only [.beams] s (s.setBeam a b f) := by
  refine ⟨(setBeam_beam ..).trans (if_pos ⟨rfl, rfl⟩), fun a' b' hne => ?_, ?_, setBeam_only ..⟩
  · refine (setBeam_beam ..).trans (if_neg ?_)
    rintro ⟨rfl, rfl⟩
    exact hne rfl
  · cases b <;> rfl

/-- Settles O11: each raw level after what was due has been settled; settling twice settles nothing more. -/
theorem rawLevelsStartOrDiscardPendingChanges :
    Obligations.RawLevelsStartOrDiscardPendingChanges := by
  intro s level
  refine ⟨fun ht hf => ?evac, fun l h => ?evacDue, fun a b ht hf => ?beam, fun a b l h => ?beamDue,
    fun ht hf => ?key, fun l h => ?keyDue⟩
  case evac =>
    have hexec : exec (.evacInputChange level) s = .next (s.setModes { s.modes with
        evac := s.modes.evac.input s.clock.now level }) := by
      change execEvacInputChange level s = _
      rw [execEvacInputChange, settleEvac_none ht hf]
    exact ⟨_, hexec, rfl, rfl, only_setModes s _⟩
  case evacDue =>
    refine ⟨_, exec_evacAccepted h, ?_⟩
    change execEvacInputChange level s = execEvacInputChange level _
    unfold execEvacInputChange
    rw [settleEvac_settled h, (settleEvac_only s).clock (by decide)]
  case beam =>
    have hexec : exec (.beamInputChange a b level) s = .next (s.setBeam a b
        ((s.beam a b).input s.clock.now level)) := by
      change execBeamInputChange a b level s = _
      rw [execBeamInputChange, settleBeam_none ht hf]
    exact ⟨_, hexec, setBeam_spec s a b _⟩
  case beamDue =>
    refine ⟨_, exec_beamEvent h, ?_⟩
    change execBeamInputChange a b level s = execBeamInputChange a b level _
    unfold execBeamInputChange
    rw [settleBeam_due h, beamEvent_settled, (beamEvent_only a b l s).clock (by decide)]
  case key =>
    have hexec : exec (.silenceKeyInputChange level) s = .next (s.setBeams { s.beams with
        key := s.beams.key.input s.clock.now level }) := by
      change execSilenceKeyInputChange level s = _
      rw [execSilenceKeyInputChange, settleKey_none ht hf]
    exact ⟨_, hexec, rfl, rfl, rfl, only_setBeams s _⟩
  case keyDue =>
    refine ⟨_, exec_keyAccepted h, ?_⟩
    change execSilenceKeyInputChange level s = execSilenceKeyInputChange level _
    unfold execSilenceKeyInputChange
    rw [settleKey_settled h, (settleKey_only s).clock (by decide)]

theorem detects_false {s : State} {a : Aisle}
    (h : s.site.aisles ≤ a.val ∨ s.modes.stored[a] = .off) : s.detects a = false := by
  unfold State.detects
  obtain h | h := h
  · simp [Nat.not_lt.2 h]
  · rw [h, Bool.and_eq_false_iff]
    exact .inr rfl

/-- The beam's new filter where the change to a level is due. -/
theorem accept_of_beamDue {s : State} {a : Aisle} {b : Beam} {l : Bool}
    (h : s.beamDue a b l = true) :
    (s.beam a b).accept = { raw := l, accepted := l, since := none } :=
  (Filter.due_true h).2.2

/-- Settles O28: where the aisle does not detect, accepting the change is all that happens. -/
theorem beamEventsOfUnusedAislesGoNowhere : Obligations.BeamEventsOfUnusedAislesGoNowhere := by
  intro s a b level hdue hunused
  have hevent : beamEvent a b level s = acceptBeam a b s :=
    if_neg (ne_true_of_eq_false (detects_false hunused))
  refine ⟨acceptBeam a b s, (exec_beamEvent hdue).trans (congrArg _ hevent), ?_⟩
  rw [← accept_of_beamDue hdue]
  exact setBeam_spec s a b _

end Sys2Proof.Machine
end


section
/-! PROOFS. Breaks, clears and transit deadlines at the open passages (R25, R61 to R67, R70). -/

namespace Sys2Proof.Machine

/-! ## Breaks (R61) -/

theorem advances_iff {b : Beam} {p : Passage} :
    p.advances b = true ↔ p.direction.far = b ∧ p.phase = .opened := by
  simp [Passage.advances]

/-- The far beam broken field does not decide which passage advances. -/
theorem advances_sawBreak (b : Beam) (p : Passage) : (p.sawBreak b).advances b = p.advances b := by
  unfold Passage.sawBreak
  split <;> rfl

theorem sawBreak_of_far {b : Beam} {p : Passage} (h : p.direction.far = b) :
    p.sawBreak b = { p with farBroken := true } :=
  if_pos (beq_iff_eq.2 h)

/-- A break with an OPENED passage whose far beam it is (R61, step 1). -/
theorem takeBreak_advances {s : State} {a : Aisle} {b : Beam}
    (h : ∃ p ∈ s.opens a, p.direction.far = b ∧ p.phase = .opened) :
    ∃ l p r, s.opens a = l ++ p :: r ∧ p.direction.far = b ∧ p.phase = .opened
      ∧ (∀ q ∈ l, ¬ (q.direction.far = b ∧ q.phase = .opened))
      ∧ (takeBreak a b s).opens a = l.map (Passage.sawBreak b)
          ++ { p with farBroken := true, phase := .crossing } :: r.map (Passage.sawBreak b)
      ∧ (takeBreak a b s).passages.next = s.passages.next
      ∧ (takeBreak a b s).tracking = s.tracking
      ∧ (takeBreak a b s).passages.aisles[a].crowded = s.passages.aisles[a].crowded := by
  obtain ⟨x, hx, hadv⟩ := h
  obtain ⟨p, hp⟩ := Option.isSome_iff_exists.1
    (List.find?_isSome.2 ⟨x, hx, (advances_iff (b := b)).2 hadv⟩)
  obtain ⟨hfirst, l, r, heq, hbefore⟩ := List.find?_eq_some_iff_append.1 hp
  obtain ⟨hfar, hphase⟩ := advances_iff.1 hfirst
  have hl : ∀ q ∈ l, q.advances b = false := fun q hq => by simpa using hbefore q hq
  have hany : ((s.opens a).map (Passage.sawBreak b)).any (Passage.advances b) = true :=
    List.any_eq_true.2 ⟨_, List.mem_map_of_mem hx, (advances_sawBreak b x).trans (advances_iff.2 hadv)⟩
  have hchange : changeFirst (Passage.advances b) (fun q => { q with phase := .crossing })
      ((s.opens a).map (Passage.sawBreak b)) = l.map (Passage.sawBreak b)
        ++ { p with farBroken := true, phase := .crossing } :: r.map (Passage.sawBreak b) := by
    rw [heq, List.map_append, List.map_cons, changeFirst_append, sawBreak_of_far hfar]
    · intro y hy
      obtain ⟨q, hq, rfl⟩ := List.mem_map.1 hy
      rw [advances_sawBreak, hl q hq]
    · rw [advances_sawBreak, hfirst]
  have hstate : takeBreak a b s = (s.setOpens a ((s.opens a).map (Passage.sawBreak b))).setOpens a
      (changeFirst (Passage.advances b) (fun q => { q with phase := .crossing })
        ((s.opens a).map (Passage.sawBreak b))) := by
    unfold takeBreak
    dsimp only
    rw [setOpens_self, if_pos hany]
  refine ⟨l, p, r, heq, hfar, hphase, fun q hq hadv => ?_, ?_, ?_, ?_, ?_⟩
  · exact absurd (advances_iff.2 hadv) (ne_true_of_eq_false (hl q hq))
  · rw [hstate, setOpens_self, hchange]
  · rw [hstate]; rfl
  · rw [hstate]; rfl
  · rw [hstate, setOpens_crowded, setOpens_crowded]

theorem sawBreak_any {s : State} {a : Aisle} {b : Beam}
    (h : ∀ p ∈ s.opens a, ¬ (p.direction.far = b ∧ p.phase = .opened)) :
    ((s.opens a).map (Passage.sawBreak b)).any (Passage.advances b) ≠ true := by
  rw [Ne, List.any_eq_true]
  rintro ⟨_, hy, hadv⟩
  obtain ⟨q, hq, rfl⟩ := List.mem_map.1 hy
  exact h q hq (advances_iff.1 ((advances_sawBreak b q).symm.trans hadv))

/-- A break with no passage to advance and fewer than 3 open (R61, step 2; R70). -/
theorem takeBreak_opens {s : State} {a : Aisle} {b : Beam}
    (h : ∀ p ∈ s.opens a, ¬ (p.direction.far = b ∧ p.phase = .opened))
    (hroom : (s.opens a).length < 3) :
    (takeBreak a b s).opens a = (s.opens a).map (Passage.sawBreak b) ++ [openedPassage a b s]
      ∧ (takeBreak a b s).passages.next = nextPassageNumber s.passages.next
      ∧ (takeBreak a b s).passages.aisles[a].crowded = s.passages.aisles[a].crowded
      ∧ ∀ i ∈ (openedPassage a b s).items, ∀ x, (takeBreak a b s).track? i = some x →
          x.state = .bound a s.passages.next := by
  set s1 := s.setOpens a ((s.opens a).map (Passage.sawBreak b)) with hs1
  have hopens : s1.opens a = (s.opens a).map (Passage.sawBreak b) := setOpens_self ..
  have hstate : takeBreak a b s = openPassage a b s1 := by
    unfold takeBreak
    dsimp only
    rw [← hs1, hopens, if_neg (sawBreak_any h), if_pos (by rwa [List.length_map])]
  obtain ⟨-, hrec⟩ := openPassage_aisle a b s1
  rw [hstate]
  refine ⟨?_, ?_, ?_, fun i hi x hx => ?_⟩
  · rw [State.opens, hrec, hopens]
    rfl
  · rw [openPassage_passages]
    rfl
  · rw [hrec]
    exact setOpens_crowded ..
  · rw [openPassage_eq, track?_foldl_modifyTrack (f := Track.bind a s1.passages.next)
      (fun _ => rfl) (fun _ => rfl)] at hx
    have hmem : i ∈ (openedPassage a b s1).items := hi
    rw [if_pos hmem, Option.map_eq_some_iff] at hx
    obtain ⟨y, -, rfl⟩ := hx
    rfl

/-- A break with no passage to advance and 3 open (R61, step 3). -/
theorem takeBreak_crowds {s : State} {a : Aisle} {b : Beam}
    (h : ∀ p ∈ s.opens a, ¬ (p.direction.far = b ∧ p.phase = .opened))
    (hfull : 3 ≤ (s.opens a).length) :
    (takeBreak a b s).opens a = (s.opens a).map (Passage.sawBreak b)
      ∧ (takeBreak a b s).passages.aisles[a].crowded = true
      ∧ (takeBreak a b s).passages.next = s.passages.next
      ∧ (takeBreak a b s).tracking = s.tracking := by
  set s1 := s.setOpens a ((s.opens a).map (Passage.sawBreak b)) with hs1
  have hopens : s1.opens a = (s.opens a).map (Passage.sawBreak b) := setOpens_self ..
  have hstate : takeBreak a b s = s1.setAisle a { s1.passages.aisles[a] with crowded := true } := by
    unfold takeBreak
    dsimp only
    rw [← hs1, hopens, if_neg (sawBreak_any h), if_neg (by rw [List.length_map]; omega)]
  have hself : (takeBreak a b s).passages.aisles[a]
      = { s1.passages.aisles[a] with crowded := true } := by
    rw [hstate]
    exact setAisle_self s1 a _
  refine ⟨?_, ?_, ?_, ?_⟩
  · rw [State.opens, hself]
    exact hopens
  · rw [hself]
  · rw [hstate]; rfl
  · rw [hstate]; rfl

/-- Settles O26: the three cases of R61 in the state with the break accepted, which differs from the one
before only in its beams. -/
theorem breakEventAdvancesOpensOrCrowds : Obligations.BreakEventAdvancesOpensOrCrowds := by
  intro s a b hdue hdet
  obtain ⟨hbeam, -, -, honly⟩ := setBeam_spec s a b (s.beam a b).accept
  change Only [.beams] s (acceptBeam a b s) at honly
  set c := acceptBeam a b s
  have hpass : c.passages = s.passages := honly.passages (by decide)
  have htrack : c.tracking = s.tracking := honly.tracking (by decide)
  have hopens : c.opens a = s.opens a := honly.opens (by decide) a
  have hloose : c.looseTracks a = s.looseTracks a := by
    unfold State.looseTracks
    rw [htrack, honly.clock (by decide)]
  have hopened : openedPassage a b c = openedPassage a b s := by
    unfold openedPassage
    rw [hpass, hloose, honly.clock (by decide), honly.site (by decide)]
  have hevent : beamEvent a b true s = takeBreak a b c := if_pos hdet
  refine ⟨takeBreak a b c, (exec_beamEvent (l := true) hdue).trans (congrArg _ hevent), ?beam,
    ?advances, ?opens, (looseTracks_spec s a).1, (looseTracks_spec s a).2, ?others, ?frame⟩
  case beam =>
    rw [(takeBreak_only a b c).beam (by decide)]
    exact hbeam.trans (accept_of_beamDue hdue)
  case advances =>
    rw [← hopens, ← hpass, ← htrack]
    exact takeBreak_advances
  case opens =>
    rw [← hopens]
    refine fun h => ⟨fun hroom => ?_, fun hfull => ?_⟩
    · obtain ⟨ho, hn, hc, hb⟩ := takeBreak_opens h hroom
      rw [hopened] at ho hb
      rw [hpass] at hn hc hb
      have hshape : openedPassage a b s =
          { number := s.passages.next, direction := openingDirection b, phase := .opened
            farBroken := false, openedAt := s.clock.now
            deadline := after s.clock.now s.site.transit
            flags := { Flags.none with full := 10 < (s.looseTracks a).length }
            items := ((s.looseTracks a).map (·.ident)).take 10 } := by
        unfold openedPassage
        rw [List.length_map]
      rw [hshape] at ho
      exact ⟨ho, hn, hc, hb⟩
    · rw [← hpass, ← htrack]
      exact takeBreak_crowds h hfull
  case others =>
    intro a' ha'
    rw [← hpass]
    exact (takeBreak_aisle a b c).1 a' ha'
  case frame =>
    exact (honly.mono (by decide)).trans ((takeBreak_only a b c).mono (by decide))

/-! ## Clears (R63) -/

theorem completes_iff {b : Beam} {p : Passage} :
    p.completes b = true ↔ p.direction.far = b ∧ p.phase = .crossing := by
  simp [Passage.completes]

theorem firstOfClear_completes {s : State} {a : Aisle} {b : Beam} {l r : List Passage} {p : Passage}
    (h : s.opens a = l ++ p :: r) (hfar : p.direction.far = b) (hphase : p.phase = .crossing)
    (hl : ∀ q ∈ l, ¬ (q.direction.far = b ∧ q.phase = .crossing)) :
    firstOfClear a b s = completePassage a s p := by
  have hfind : (s.opens a).find? (Passage.completes b) = some p := by
    rw [List.find?_eq_some_iff_append]
    refine ⟨completes_iff.2 ⟨hfar, hphase⟩, l, r, h, fun q hq => ?_⟩
    rw [Bool.not_eq_true', Bool.eq_false_iff, Ne, completes_iff]
    exact hl q hq
  unfold firstOfClear
  rw [hfind]

theorem firstOfClear_none {s : State} {a : Aisle} {b : Beam}
    (h : ∀ p ∈ s.opens a, ¬ (p.direction.far = b ∧ p.phase = .crossing)) :
    (∀ p, s.turnsBack a b = some p → firstOfClear a b s = closePassage a .turnedBack s p)
      ∧ (s.turnsBack a b = none → firstOfClear a b s = s) := by
  have hfind : (s.opens a).find? (Passage.completes b) = none :=
    List.find?_eq_none.2 fun p hp hc => h p hp (completes_iff.1 hc)
  unfold firstOfClear
  rw [hfind]
  exact ⟨fun p hp => by rw [hp], fun hn => by rw [hn]⟩

theorem turnsBack_some {s : State} {a : Aisle} {b : Beam} {p : Passage} (h : s.opens a = [p])
    (hp : p.phase = .opened ∧ p.direction.near = b ∧ p.farBroken = false) :
    s.turnsBack a b = some p := by
  unfold State.turnsBack
  rw [h]
  exact if_pos hp

theorem turnsBack_none {s : State} {a : Aisle} {b : Beam}
    (h : ∀ p, s.opens a = [p] →
      ¬ (p.phase = .opened ∧ p.direction.near = b ∧ p.farBroken = false)) :
    s.turnsBack a b = none := by
  refine Option.eq_none_iff_forall_ne_some.2 fun p hp => ?_
  obtain ⟨heq, hcond⟩ := turnsBack_mem hp
  exact h p heq hcond

theorem firstOfClear_only (a : Aisle) (b : Beam) (s : State) :
    Only passageParts s (firstOfClear a b s) := by
  obtain ⟨p, -, h⟩ | ⟨p, -, h⟩ | h := firstOfClear_cases a b s <;> rw [h]
  · exact completePassage_only a s p
  · exact (closePassage_only a _ s p).mono (by decide)
  · exact Only.refl _ s

theorem firstOfClear_next (a : Aisle) (b : Beam) (s : State) :
    (firstOfClear a b s).passages.next = s.passages.next := by
  obtain ⟨p, -, h⟩ | ⟨p, -, h⟩ | h := firstOfClear_cases a b s <;> rw [h]
  · rw [completePassage_passages]; rfl
  · rw [closePassage_passages]; rfl

theorem bothClear_iff {s : State} {a : Aisle} :
    s.bothClear a = true ↔ ∀ b, (s.beam a b).accepted = false := by
  constructor
  · intro h b
    by_contra hne
    rw [bothClear_of_broken (Bool.not_eq_false _ ▸ hne)] at h
    cases h
  · intro h
    have hi : s.beams.inner[a].accepted = false := h .inner
    have ho : s.beams.outer[a].accepted = false := h .outer
    unfold State.bothClear
    rw [hi, ho]
    rfl

/-- The sweep: the passages left, in order, and then an empty record (R63, step 3). -/
theorem sweepAisle_swept (a : Aisle) (s : State) :
    ∃ m, Swept a (s.opens a) s m
      ∧ (sweepAisle a s).passages.aisles[a] = { opens := [], crowded := false }
      ∧ (∀ a' : Aisle, a' ≠ a → (sweepAisle a s).passages.aisles[a'] = m.passages.aisles[a'])
      ∧ (sweepAisle a s).passages.next = m.passages.next ∧ Only [.passages] m (sweepAisle a s) :=
  ⟨_, foldl_sweep a (s.opens a) s, (sweepAisle_spec a s).1, fun _ h => setAisle_ne _ _ h, rfl,
    only_setPassages _ _⟩

/-- Settles O27: the two steps of `takeClear` in the state with the clear accepted. -/
theorem clearEventCompletesTurnsBackAndSweeps :
    Obligations.ClearEventCompletesTurnsBackAndSweeps := by
  intro s a b hdue hdet
  obtain ⟨hbeam, hbeams, hkey, honly⟩ := setBeam_spec s a b (s.beam a b).accept
  change Only [.beams] s (acceptBeam a b s) at honly
  set c := acceptBeam a b s
  have hpass : c.passages = s.passages := honly.passages (by decide)
  have hopens : c.opens a = s.opens a := honly.opens (by decide) a
  have hevent : beamEvent a b false s = takeClear a b c := if_pos hdet
  have hclear : (firstOfClear a b c).bothClear a = c.bothClear a :=
    (firstOfClear_only a b c).bothClear (by decide) a
  refine ⟨c, firstOfClear a b c, takeClear a b c,
    (exec_beamEvent (l := false) hdue).trans (congrArg _ hevent),
    hbeam.trans (accept_of_beamDue hdue), hbeams, hkey, honly,
    ?completes, ?turnsBack, ?unswept, ?swept, ?others, ?next, ?frame⟩
  case completes =>
    intro l p r h hfar hphase hl
    rw [firstOfClear_completes (hopens.trans h) hfar hphase hl]
    exact completePassage_completes a c p
  case turnsBack =>
    rw [← hopens]
    refine fun h => ⟨fun p hp hphase hnear hbroken => ?_, fun hnone => ?_⟩
    · rw [(firstOfClear_none h).1 p (turnsBack_some hp ⟨hphase, hnear, hbroken⟩)]
      exact closePassage_closes a .turnedBack c p
    · exact (firstOfClear_none h).2 (turnsBack_none hnone)
  case unswept =>
    rintro ⟨b', hb'⟩
    rw [takeClear_eq, hclear, bothClear_of_broken hb']
    rfl
  case swept =>
    intro h
    rw [takeClear_eq, hclear, bothClear_iff.2 h]
    exact sweepAisle_swept a _
  case others =>
    intro a' ha'
    rw [← hpass]
    exact (takeClear_aisle a b c).1 a' ha'
  case next =>
    rw [← hpass, ← firstOfClear_next a b c, takeClear_eq]
    split
    · exact (sweepAisle_spec a _).2.2
    · rfl
  case frame =>
    exact (honly.mono (by decide)).trans ((takeClear_only a b c).mono (by decide))

/-! ## Sight (R25) and transit deadlines (R67) -/

theorem isHeld_iff {b : BusController} : b.isHeld = true ↔ ∃ h, b.activity = .held h := by
  unfold BusController.isHeld
  split
  · next h hb => exact iff_of_true rfl ⟨h, hb⟩
  · next hb => exact iff_of_false (by decide) fun ⟨h, hh⟩ => hb h hh

/-- The two pedestals that serve an aisle are its left and its right one. -/
theorem between_iff {q q' : Pedestal} {a : Aisle} :
    Between q a q' ↔ q = leftPedestal a ∧ q' = rightPedestal a := by
  simp [Between, leftPedestal, rightPedestal, Fin.ext_iff]

theorem sight_blind_iff (s : State) (a : Aisle) : s.sight a = .blind ↔ s.Blind a := by
  simp only [State.Blind, between_iff, ← isHeld_iff, and_imp, forall_eq, forall_eq_apply_imp_iff]
  unfold State.sight
  cases s.bus.isHeld <;> cases s.bus.health[leftPedestal a].faulted <;>
    cases s.bus.health[rightPedestal a].faulted <;> simp

theorem sight_half_iff (s : State) (a : Aisle) : s.sight a = .half ↔ s.Half a := by
  have hheld : (∀ h, s.bus.activity ≠ .held h) ↔ s.bus.isHeld = false := by
    rw [Bool.eq_false_iff, Ne, isHeld_iff, not_exists]
  simp only [State.Half, between_iff, hheld, and_imp, forall_eq, forall_eq_apply_imp_iff]
  unfold State.sight
  cases s.bus.isHeld <;> cases s.bus.health[leftPedestal a].faulted <;>
    cases s.bus.health[rightPedestal a].faulted <;> simp

/-- The flags of a passage that leaves (R64, R65), in R25's words. -/
theorem leavingFlags_spec (s : State) (a : Aisle) (f : Flags) :
    (s.leavingFlags a f).full = f.full ∧ (s.leavingFlags a f).forced = f.forced
      ∧ ((s.leavingFlags a f).crowded = true ↔
          f.crowded = true ∨ s.passages.aisles[a].crowded = true)
      ∧ ((s.leavingFlags a f).half = true ↔ f.half = true ∨ s.Half a)
      ∧ ((s.leavingFlags a f).blind = true ↔ f.blind = true ∨ s.Blind a) := by
  rw [← sight_half_iff, ← sight_blind_iff]
  simp [State.leavingFlags]

/-- A deadline that is due closes its passage. -/
theorem exec_transitDeadline {s : State} {a : Aisle} {n : Word16} {p : Passage}
    (h : s.transitDue a n = some p) :
    exec (.transitDeadline a n) s = .next (closePassage a .timedOut s p) := by
  change execTransitDeadline a n s = _
  unfold execTransitDeadline
  rw [h]

/-- Settles O29: the passage leaves by `closePassage_closes`, and the flags are `leavingFlags_spec`. -/
theorem transitDeadlineClosesThePassage : Obligations.TransitDeadlineClosesThePassage := by
  intro s a
  refine ⟨fun n p h => ?_, leavingFlags_spec s a, sight_blind_iff s a, sight_half_iff s a⟩
  obtain ⟨m, hleft, heq⟩ := closePassage_closes a .timedOut s p
  obtain ⟨hnext, hcrowded, hothers⟩ := hleft.rest
  have hdue : (p.number == n && passed s.clock.now p.deadline) = true :=
    List.find?_some (p := fun p : Passage => p.number == n && passed s.clock.now p.deadline) h
  rw [Bool.and_eq_true, beq_iff_eq] at hdue
  obtain ⟨rfl, hpassed⟩ := hdue
  refine ⟨_, exec_transitDeadline h, List.mem_of_find?_eq_some h, rfl, hpassed, ?_⟩
  rw [heq]
  refine ⟨hleft.opens, hothers, hcrowded, hnext, fun i x hx => ?_,
    createReport_congr (hleft.frame.link (by decide)) (hleft.frame.clock (by decide)),
    (hleft.frame.mono (by decide)).trans ((createReport_only ..).mono (by decide))⟩
  refine (hleft.tracks i).trans ?_
  rw [hx]
  refine congrArg some ?_
  dsimp only
  by_cases hi : i ∈ p.items
  · simp only [if_pos hi]
    rfl
  · simp only [if_neg hi]
    split <;> rfl

end Sys2Proof.Machine
end


section
/-! PROOFS. Passage verdicts, the verdict queue, and the grace deadline (R130, R131, R133, R138, R139). -/

namespace Sys2Proof.Machine

/-! ## The passage verdict (R130) -/

theorem Verdict.le_max_left (v w : Verdict) : v.strength ≤ (v.max w).strength := by
  unfold Verdict.max
  split
  · next h => exact h.le
  · exact le_rfl

theorem Verdict.le_max_right (v w : Verdict) : w.strength ≤ (v.max w).strength := by
  unfold Verdict.max
  split
  · exact le_rfl
  · next h => exact Nat.not_lt.1 h

theorem Verdict.max_choice (v w : Verdict) : v.max w = v ∨ v.max w = w := by
  unfold Verdict.max
  split
  · exact .inr rfl
  · exact .inl rfl

/-- The strongest of a start and of the items' verdicts: it is none weaker than any, and one of them. -/
theorem foldl_max_verdict (l : List ItemRecord) (v : Verdict) :
    let m := l.foldl (fun v r => v.max r.verdict) v
    v.strength ≤ m.strength ∧ (∀ r ∈ l, r.verdict.strength ≤ m.strength)
      ∧ (m = v ∨ ∃ r ∈ l, m = r.verdict) := by
  induction l generalizing v with
  | nil => exact ⟨le_rfl, fun r h => (List.not_mem_nil h).elim, .inl rfl⟩
  | cons r l ih =>
    obtain ⟨hstart, hitems, hone⟩ := ih (v.max r.verdict)
    refine ⟨(v.le_max_left _).trans hstart, fun q hq => ?_, ?_⟩
    · obtain rfl | hq := List.mem_cons.1 hq
      · exact (v.le_max_right _).trans hstart
      · exact hitems q hq
    · obtain h | ⟨q, hq, h⟩ := hone
      · obtain hv | hv := v.max_choice r.verdict
        · exact .inl (h.trans hv)
        · exact .inr ⟨r, List.mem_cons_self, h.trans hv⟩
      · exact .inr ⟨q, List.mem_cons_of_mem _ hq, h⟩

/-- Settles O46: the fold gives the strongest item verdict, and FULL may raise it to SOFT. -/
theorem passageVerdictIsTheStrongest : Obligations.PassageVerdictIsTheStrongest := by
  intro j
  obtain ⟨-, hitems, hone⟩ := foldl_max_verdict j.items .pass
  cases hfull : j.flags.full with
  | false =>
    have hv : j.verdict = j.items.foldl (fun v r => v.max r.verdict) .pass := by
      simp [Judging.verdict, hfull]
    rw [hv]
    exact ⟨hitems, fun h => (by cases h), hone.imp_right .inl, fun hnil _ => by rw [hnil]; rfl⟩
  | true =>
    have hv : j.verdict =
        (j.items.foldl (fun v r => v.max r.verdict) Verdict.pass).max Verdict.soft := by
      simp [Judging.verdict, hfull]
    rw [hv]
    refine ⟨fun r hr => (hitems r hr).trans (Verdict.le_max_left ..),
      fun _ => Verdict.le_max_right .., ?_, fun _ h => by cases h⟩
    obtain h | h := Verdict.max_choice
      (j.items.foldl (fun v r => v.max r.verdict) Verdict.pass) Verdict.soft
    · rw [h]
      exact hone.imp_right .inl
    · exact .inr (.inr ⟨rfl, h⟩)

/-! ## Completion and forcing (R131, R133) -/

theorem onGuard_decided (r : ItemRecord) (v : Verdict) (b : Basis) (w : Wait) :
    onGuard r v b ≠ .waiting w := by
  unfold onGuard
  exact fun h => by cases h

/-- An item is undecided exactly where it waits for something. -/
theorem undecided_iff {r : ItemRecord} : r.undecided = true ↔ ∃ w, r.status = .waiting w := by
  constructor
  · intro h
    cases hs : r.status with
    | waiting w => exact ⟨w, rfl⟩
    | decided v b => simp [ItemRecord.undecided, hs] at h
  · rintro ⟨w, h⟩
    exact undecided_of_waiting h

theorem judging_undecided_iff {j : Judging} :
    j.undecided = true ↔ ∃ r ∈ j.items, ∃ w, r.status = .waiting w := by
  simp only [Judging.undecided, List.any_eq_true, undecided_iff]

theorem judging_decided_iff {j : Judging} :
    j.undecided = false ↔ ∀ r ∈ j.items, ∀ w, r.status ≠ .waiting w := by
  rw [← Bool.not_eq_true, judging_undecided_iff]
  push Not
  rfl

/-- The items of a changed passage: those that meet the condition changed, the others as they were. -/
theorem mem_change_items {j : Judging} {c : ItemRecord → Bool} {g : ItemRecord → ItemRecord}
    {r : ItemRecord} :
    r ∈ (j.change c g).items ↔ ∃ x ∈ j.items, (if c x then g x else x) = r :=
  List.mem_map

/-- A forced passage has nothing undecided left. -/
theorem forcedOut_decided (j : Judging) : (forcedOut j).undecided = false := by
  refine judging_decided_iff.2 fun r hr w => ?_
  obtain ⟨x, -, rfl⟩ := mem_change_items.1 hr
  split
  · exact onGuard_decided _ _ _ w
  · next h => exact fun hw => h (undecided_of_waiting hw)

/-- Settles O47: the branches of `judgePassage`, with `giveVerdict_given` for each verdict given. -/
theorem completedPassageIsGivenOrQueued : Obligations.CompletedPassageIsGivenOrQueued := by
  intro s j
  refine ⟨giveVerdict_given s j, fun h => if_neg (ne_true_of_eq_false h), fun h => ⟨fun hroom => ?_,
    fun oldest rest hq hfull => ?_⟩⟩
  · unfold judgePassage
    rw [if_pos h, if_pos hroom]
  · have hforce : forceOldest s = giveVerdict (s.setJudging rest) (forcedOut oldest) := by
      unfold forceOldest
      rw [hq, ← forced_eq]
    refine ⟨forceOldest s, hforce ▸ giveVerdict_given .., ?_, forcedOut_decided oldest⟩
    unfold judgePassage
    rw [if_pos h, if_neg (Nat.not_lt.2 hfull)]
    have hrest : (forceOldest s).judging = rest := by rw [hforce, giveVerdict_judging]; rfl
    dsimp only
    rw [hrest]

/-! ## The grace deadline (R138) -/

theorem graceDue_iff {now : Time} {n : Word16} {j : Judging} :
    j.graceDue now n = true ↔ j.number = n ∧ j.gracePassed = false ∧ passed now j.grace = true := by
  simp [Judging.graceDue, and_assoc]

/-- After its grace deadline no item of a passage waits GRACE. -/
theorem graceRunOut_items {s : State} {j : Judging} {r : ItemRecord}
    (hr : r ∈ (graceRunOut s j).items) :
    r.status ≠ .waiting .grace ∧ ∀ w, r.status = .waiting w → r ∈ j.items := by
  obtain ⟨x, hx, rfl⟩ := mem_change_items.1 hr
  split
  · exact ⟨onGuard_decided _ _ _ _, fun w h => absurd h (onGuard_decided _ _ _ w)⟩
  · next h => exact ⟨fun hw => h (by simp [hw]), fun _ _ => hx⟩

/-- Settles O48: the grace deadline settles the passages whose deadline it is. -/
theorem graceDeadlineDecidesWaitingItems : Obligations.GraceDeadlineDecidesWaitingItems := by
  rintro s n ⟨j₀, hj₀, hdue₀⟩ hqueue
  have hexec : exec (.graceDeadline n) s = .next (graceExpiry n s) :=
    if_pos (List.any_eq_true.2 ⟨j₀, hj₀, hdue₀⟩)
  have hjudging : (graceExpiry n s).judging =
      (s.judging.map fun j => if j.graceDue s.clock.now n then j.graceExpires s else j).filter
        fun j => j.undecided := (settle_judged _ s).judging
  have hmem {j : Judging} : j ∈ (graceExpiry n s).judging ↔
      (∃ i ∈ s.judging, (if i.graceDue s.clock.now n then i.graceExpires s else i) = j)
        ∧ j.undecided = true := by
    rw [hjudging, List.mem_filter, List.mem_map]
  refine ⟨graceExpiry n s, hexec, (settle_judged _ s).congr fun j _ => ?same,
    fun j hj hnot => hmem.2 ⟨⟨j, hj, if_neg (ne_true_of_eq_false hnot)⟩, hqueue j hj⟩,
    fun j hj hdue hwait hin => ?leaves, fun j hj => ?others, settle_replies _ s,
    (graceExpiry_only n s).mono (by decide)⟩
  case same =>
    simp only [graceDue_iff, graceExpires_eq]
  case leaves =>
    have hdecided : (graceRunOut s j).undecided = false := judging_decided_iff.2 fun r hr w hw => by
      obtain ⟨hnot, hold⟩ := graceRunOut_items hr
      exact hnot (hwait r (hold w hw) (undecided_of_waiting hw))
    rw [graceExpires_eq] at hin
    exact ne_true_of_eq_false hdecided (hmem.1 hin).2
  case others =>
    obtain ⟨⟨i, hi, rfl⟩, -⟩ := hmem.1 hj
    split
    · rw [graceExpires_eq]
      exact .inr ⟨rfl, fun r hr => (graceRunOut_items hr).1⟩
    · exact .inl hi

end Sys2Proof.Machine
end


section
/-! PROOFS. Sightings, eviction, decay and the ends of queries (R26, R36 to R39, R43, R53, R123, R124). -/

namespace Sys2Proof.Machine

/-! ## Intake (R1, R26, R36, R37) -/

/-- The face of a pedestal serves the aisle that the table of R1 gives. -/
theorem servedAisle_iff {n : Nat} {p : Pedestal} {face : BitVec 2} {a : Aisle} :
    servedAisle n p face = some a ↔ Serves n p face a := by
  have hp := p.isLt
  have ha := a.isLt
  unfold servedAisle Serves
  split
  · next hl =>
    subst hl
    split <;> simp [Fin.ext_iff] <;> omega
  · next hl =>
    split
    · next hr =>
      subst hr
      split <;> simp [Fin.ext_iff] <;> omega
    · next hr => exact iff_of_false (fun h => by cases h) fun h => h.elim (hr ·.1) (hl ·.1)

/-- A record that R26 lets through goes to the track engine with its contribution. -/
theorem intakeRecord_takes {s : State} {p : Pedestal} {r : SightingRecord} {a : Aisle}
    (hid : r.ident ≠ 0) (ha : Serves s.site.aisles p r.face a) (hm : s.modes.stored[a] ≠ .off)
    (hf : s.site.floor < r.strength.toNat) :
    intakeRecord p s r = takeSighting r.ident a (r.strength.toNat - s.site.floor) r.guard s := by
  unfold intakeRecord
  rw [if_neg hid, servedAisle_iff.2 ha]
  dsimp only
  rw [if_neg hm, if_neg (Nat.not_le.2 hf)]

/-- A record of identifier 0, of a face that does not exist, of an aisle that is OFF or of a strength not
above F is discarded (R26). -/
theorem intakeRecord_discards {s : State} {p : Pedestal} {r : SightingRecord}
    (h : r.ident = 0 ∨ (∀ a, ¬ Serves s.site.aisles p r.face a)
      ∨ (∃ a, Serves s.site.aisles p r.face a ∧ s.modes.stored[a] = .off)
      ∨ r.strength.toNat ≤ s.site.floor) : intakeRecord p s r = s := by
  unfold intakeRecord
  split
  · rfl
  · next hid =>
    split
    · rfl
    · next a ha =>
      split
      · rfl
      · next hm =>
        split
        · rfl
        · next hf =>
          obtain h | h | ⟨b, hb, hoff⟩ | h := h
          · exact absurd h hid
          · exact absurd (servedAisle_iff.1 ha) (h a)
          · rw [← servedAisle_iff, ha] at hb
            cases hb
            exact absurd hoff hm
          · exact absurd h hf

/-- Settles O22: `intakeRecord` discards or hands on, and `hearTrack_heard` says what the track engine
then does. -/
theorem sightingAddsItsContribution : Obligations.SightingAddsItsContribution := by
  intro s p r
  refine ⟨intakeRecord_discards, fun a hid ha hm hf => ?_⟩
  rw [intakeRecord_takes hid ha hm hf]
  unfold takeSighting
  refine ⟨fun old hold => ?_, fun hnone hroom => ?_⟩
  · rw [hold]
    exact hearTrack_heard ..
  · rw [hnone]
    unfold hearNew
    simp only [if_pos hroom]
    exact hearTrack_heard s (freshTrack r.ident r.guard s.clock.now) a _ _

/-! ## Eviction (R38, R39) -/

/-- Freeing a track of the table shortens it. -/
theorem freeTrack_length_lt {s : State} {v : Track} (hv : v ∈ s.tracking.tracks) :
    (freeTrack s v.ident).tracking.tracks.length < s.tracking.tracks.length := by
  obtain ⟨-, f, -, htracks⟩ := freeTrack_rejudged s v.ident
  rw [htracks, List.length_map]
  refine List.length_filter_lt_length_iff_exists.2 ⟨v, hv, ?_⟩
  simp [Track.key]

/-- Settles O24: the laws of the victim; a full table frees it, and then has room. -/
theorem evictionVictimComesFirst : Obligations.EvictionVictimComesFirst := by
  intro s
  refine ⟨fun v h => victim_spec h, victim_exists, fun p r a v hid ha hm hf hnone hfull hv => ?_⟩
  obtain ⟨hmem, -⟩ := victim_spec hv
  have hevict : evictTrack s = freeTrack s v.ident := by
    unfold evictTrack
    rw [hv]
  have hroom : (freeTrack s v.ident).tracking.tracks.length < 256 :=
    hfull ▸ freeTrack_length_lt hmem
  refine ⟨freeTrack s v.ident, freeTrack_freed s v.ident, ?_⟩
  rw [intakeRecord_takes hid ha hm hf]
  unfold takeSighting
  rw [hnone]
  unfold hearNew
  simp only [hfull, lt_irrefl, if_false, hevict, if_pos hroom]
  exact hearTrack_heard _ (freshTrack r.ident r.guard s.clock.now) a _ _

/-! ## Items that wait ANSWER -/

/-- No item of the identifier in the passage waits ANSWER. -/
def Judging.AnswerFree (id : Ident) (j : Judging) : Prop :=
  ∀ r ∈ j.items, r.ident = id → r.status ≠ .waiting .answer

/-- No item of the identifier in the verdict queue waits ANSWER. -/
def State.AnswerFree (s : State) (id : Ident) : Prop := ∀ j ∈ s.judging, j.AnswerFree id

/-- A change that leaves nothing waiting ANSWER, done to all items of the identifier that did. -/
theorem Judging.AnswerFree.of_change {id : Ident} {j : Judging} {c : ItemRecord → Bool}
    {g : ItemRecord → ItemRecord} (hg : ∀ x ∈ j.items, (g x).status ≠ .waiting .answer)
    (hrest : ∀ x ∈ j.items, ¬ c x = true → x.ident = id → x.status ≠ .waiting .answer) :
    (j.change c g).AnswerFree id := by
  intro r hr hid
  obtain ⟨x, hx, rfl⟩ := mem_change_items.1 hr
  by_cases hc : c x = true
  · rw [if_pos hc]
    exact hg x hx
  · rw [if_neg hc] at hid ⊢
    exact hrest x hx hc hid

/-- An item of the identifier left out by a change of those that wait ANSWER does not wait it. -/
theorem not_waiting_of_left {id : Ident} {x : ItemRecord}
    (h : ¬ (x.ident == id && x.status == .waiting .answer) = true) (hid : x.ident = id) :
    x.status ≠ .waiting .answer := by
  rintro hw
  exact h (by simp [hid, hw])

theorem byClass_ne_answer (j : Judging) (r : ItemRecord) (fresh : Bool) (b : Basis) (c : EntryClass) :
    byClass j r fresh b c ≠ .waiting .answer := by
  cases c with
  | pending =>
    dsimp only [byClass]
    split
    · exact onGuard_decided _ _ _ _
    · exact fun h => by cases h
  | issued => exact fun h => by cases h
  | barred => exact fun h => by cases h
  | lost => exact fun h => by cases h

theorem lapsed_answerFree (id : Ident) (j : Judging) : (lapsed id j).AnswerFree id :=
  .of_change (fun _ _ => onGuard_decided _ _ _ _) fun _ _ => not_waiting_of_left

theorem Judging.AnswerFree.lapsed {id : Ident} {j : Judging} (h : j.AnswerFree id) (id' : Ident) :
    (lapsed id' j).AnswerFree id :=
  .of_change (fun _ _ => onGuard_decided _ _ _ _) fun x hx _ => h x hx

theorem answered_answerFree (id : Ident) (a : HostAnswer) (fresh : Bool) (j : Judging) :
    (answered id a fresh j).AnswerFree id := by
  refine .of_change (fun x _ => ?_) fun _ _ => not_waiting_of_left
  cases a with
  | entry c => exact byClass_ne_answer _ _ _ _ c
  | noException => exact onGuard_decided _ _ _ _

theorem Judging.AnswerFree.reevaluated {id : Ident} {j : Judging} (h : j.AnswerFree id) (id' : Ident)
    (e : Option Entry) (fresh : Bool) : (reevaluated id' e fresh j).AnswerFree id := by
  refine .of_change (fun x _ => ?_) fun x hx _ => h x hx
  cases e with
  | some e => exact byClass_ne_answer _ _ _ _ e.cls
  | none =>
    dsimp only
    split <;> exact onGuard_decided _ _ _ _

/-- Where every passage is left with nothing of the identifier waiting ANSWER, so is the queue. -/
theorem Judged.answerFree {f : Judging → Judging} {b t : State} {id : Ident} (h : Judged f b t)
    (hf : ∀ j ∈ b.judging, (f j).AnswerFree id) : t.AnswerFree id := by
  intro j hj
  rw [h.judging, List.mem_filter, List.mem_map] at hj
  obtain ⟨⟨k, hk, rfl⟩, -⟩ := hj
  exact hf k hk

/-! ## Tracks that go, and their queries (R53, R124) -/

/-- What freeing a track does to the queries and to the items that wait ANSWER. -/
theorem freeTrack_answers (s : State) (id : Ident) :
    (freeTrack s id).queries = { s.queries with list := withoutQuery id s.queries.list }
      ∧ (∀ i, s.AnswerFree i → (freeTrack s id).AnswerFree i)
      ∧ ((∃ q ∈ s.queries.list, q.ident = id) → (freeTrack s id).AnswerFree id) := by
  obtain ⟨b, -, -, hqueries, hframe, hquiet, hlapse⟩ := (freeTrack_freed s id).gone
  have hjudging : b.judging = s.judging := hframe.judging (by decide)
  by_cases hq : ∃ q ∈ s.queries.list, q.ident = id
  · obtain ⟨hjudged, -, honly⟩ := hlapse hq
    refine ⟨(honly.queries (by decide)).trans hqueries, fun i hi => ?_, fun _ => ?_⟩
    · exact hjudged.answerFree fun j hj => (hi j (hjudging ▸ hj)).lapsed id
    · exact hjudged.answerFree fun j _ => lapsed_answerFree id j
  · have hsame : freeTrack s id = b := hquiet fun q hmem hid => hq ⟨q, hmem, hid⟩
    rw [hsame]
    exact ⟨hqueries, fun i hi j hj => hi j (hjudging ▸ hj), fun h => absurd h hq⟩

/-- Freeing several tracks purges their queries and no others. -/
theorem foldl_freeTrack_answers (ids : List Ident) (s : State) :
    (∀ q, q ∈ (ids.foldl freeTrack s).queries.list ↔ q ∈ s.queries.list ∧ q.ident ∉ ids)
      ∧ (ids.foldl freeTrack s).queries.list.Sublist s.queries.list
      ∧ (ids.foldl freeTrack s).queries.next = s.queries.next
      ∧ (∀ i, s.AnswerFree i → (ids.foldl freeTrack s).AnswerFree i)
      ∧ ∀ q ∈ s.queries.list, q.ident ∈ ids → (ids.foldl freeTrack s).AnswerFree q.ident := by
  induction ids generalizing s with
  | nil => exact ⟨by simp, List.Sublist.refl _, rfl, fun _ h => h, fun _ _ h => by cases h⟩
  | cons id ids ih =>
    obtain ⟨hqueries, hkeep, hpurge⟩ := freeTrack_answers s id
    obtain ⟨hmem, hsub, hnext, hkeeps, hpurges⟩ := ih (freeTrack s id)
    have hlist : (freeTrack s id).queries.list = withoutQuery id s.queries.list := by rw [hqueries]
    have hleft (q : Query) :
        q ∈ (freeTrack s id).queries.list ↔ q ∈ s.queries.list ∧ q.ident ≠ id := by
      rw [hlist, withoutQuery, List.mem_filter, bne_iff_ne]
    refine ⟨fun q => ?_, hsub.trans (hlist ▸ List.filter_sublist), hnext.trans (by rw [hqueries]),
      fun i hi => hkeeps i (hkeep i hi), fun q hq hid => ?_⟩
    · rw [List.foldl_cons, hmem, hleft, List.mem_cons, not_or, and_assoc]
    · by_cases hqid : q.ident = id
      · exact hkeeps _ (hqid ▸ hpurge ⟨q, hq, hqid⟩)
      · exact hpurges q ((hleft q).2 ⟨hq, hqid⟩) ((List.mem_cons.1 hid).resolve_left hqid)

/-! ## Decay (R43) -/

/-- The identifiers of the tracks that a decay step frees. -/
def State.fadedIdents (s : State) : List Ident :=
  ((s.tracking.tracks.map Track.decayed).filter Track.faded).map (·.ident)

theorem decayTracks_eq (s : State) :
    decayTracks s = s.fadedIdents.foldl freeTrack (s.setTracks (s.tracking.tracks.map Track.decayed)) :=
  rfl

theorem track?_decayed (s : State) (i : Ident) :
    (s.setTracks (s.tracking.tracks.map Track.decayed)).track? i = (s.track? i).map Track.decayed :=
  find_map_key (f := Track.ident) (g := Track.decayed) (fun _ => rfl) _ _

/-- An identifier fades exactly where its track has no evidence left after the step and is not BOUND. -/
theorem mem_fadedIdents {s : State} (hk : risingKeys Track.key s.tracking.tracks = true) {i : Ident} :
    i ∈ s.fadedIdents ↔ ∃ x, s.track? i = some x ∧ (∀ b n, x.state ≠ .bound b n)
      ∧ ∀ a : Aisle, 3 * x.evidence[a] / 4 = 0 := by
  simp only [State.fadedIdents, List.mem_map, List.mem_filter]
  constructor
  · rintro ⟨_, ⟨⟨x, hx, rfl⟩, hfaded⟩, rfl⟩
    obtain ⟨hbound, hev⟩ := (Track.faded_iff _).1 hfaded
    exact ⟨x, track?_of_mem hk hx, hbound, fun a => (x.decayed_get a).symm.trans (hev a)⟩
  · rintro ⟨x, hx, hbound, hev⟩
    obtain ⟨hmem, rfl⟩ := track?_mem hx
    exact ⟨x.decayed, ⟨⟨x, hmem, rfl⟩, (Track.faded_iff _).2
      ⟨hbound, fun a => (x.decayed_get a).trans (hev a)⟩⟩, rfl⟩

/-- Settles O23: the evidence is rewritten, and then the faded identifiers are freed one by one. -/
theorem decayStepReducesEvidenceAndFrees : Obligations.DecayStepReducesEvidenceAndFrees := by
  intro s hkeys hdue
  set s0 := s.setTracking { s.tracking with decayAt := after s.tracking.decayAt s.site.decay }
    with hs0
  have hfaded {i : Ident} := mem_fadedIdents (s := s0) hkeys (i := i)
  obtain ⟨hdecay, htracks⟩ := foldl_free freeTrack_rejudged s0.fadedIdents
    (s0.setTracks (s0.tracking.tracks.map Track.decayed))
  obtain ⟨hmem, hsub, hnext, -, hpurges⟩ := foldl_freeTrack_answers s0.fadedIdents
    (s0.setTracks (s0.tracking.tracks.map Track.decayed))
  rw [← decayTracks_eq] at hdecay htracks hmem hsub hnext hpurges
  have hstays {i : Ident} {old : Track} (hold : s.track? i = some old) (hnot : i ∉ s0.fadedIdents) :
      ∃ st, (decayTracks s0).track? i = some { old.decayed with state := st }
        ∧ ((∀ b n v, old.state ≠ .spent b n v) → st = old.state) :=
    (htracks i).2.2 hnot old.decayed ((track?_decayed s0 i).trans (by rw [show s0.track? i = _ from hold]; rfl))
  refine ⟨decayTracks s0, if_pos hdue, hdecay, fun i hi => ?_, fun i old hold => ⟨fun hb hev => ?_,
    fun hkept => ?_⟩, hsub, hnext, fun q hq => ?_, fun q hq hout => ?_, ?_⟩
  · exact (htracks i).2.1 ((track?_decayed s0 i).trans (by rw [show s0.track? i = _ from hi]; rfl))
  · exact (htracks i).1 (hfaded.2 ⟨old, hold, hb, hev⟩)
  · have hnot : i ∉ s0.fadedIdents := fun hi => by
      obtain ⟨x, hx, hb, hev⟩ := hfaded.1 hi
      obtain rfl : old = x := Option.some.inj (hold.symm.trans hx)
      obtain ⟨b, n, h⟩ | ⟨a, h⟩ := hkept
      · exact hb b n h
      · exact h (hev a)
    obtain ⟨st, hst, hsame⟩ := hstays hold hnot
    exact ⟨_, hst, old.decayed_get, rfl, rfl, rfl, rfl, rfl, hsame⟩
  · have hiff : q ∈ (decayTracks s0).queries.list ↔ q.ident ∉ s0.fadedIdents :=
      (hmem q).trans (and_iff_right hq)
    rw [hiff, not_iff_not]
    constructor
    · intro hi
      obtain ⟨x, hx, -⟩ := hfaded.1 hi
      exact ⟨Option.isSome_iff_exists.2 ⟨x, hx⟩, (htracks _).1 hi⟩
    · rintro ⟨hsome, hnone⟩
      obtain ⟨x, hx⟩ := Option.isSome_iff_exists.1 hsome
      by_contra hnot
      obtain ⟨st, hst, -⟩ := hstays hx hnot
      rw [hst] at hnone
      cases hnone
  · refine hpurges q hq ?_
    by_contra hnot
    exact hout ((hmem q).2 ⟨hq, hnot⟩)
  · exact ((only_setTracking s _).mono (by decide)).trans ((decayTracks_only s0).mono (by decide))

/-! ## Query deadlines (R123, R137) -/

/-- A query's deadline that has passed lapses it. -/
theorem exec_queryDeadline {s : State} {n : Byte} {q : Query}
    (h : s.queries.list.find? (fun x => x.number == n) = some q)
    (hp : passed s.clock.now q.deadline = true) :
    exec (.queryDeadline n) s = .next (lapseQuery q s) := by
  change execQueryDeadline n s = _
  unfold execQueryDeadline
  rw [h]
  exact if_pos hp

/-- Changing the track of one identifier, as a map over its lookup. -/
theorem track?_modifyTrack_map (s : State) (id : Ident) (f : Track → Track)
    (hf : ∀ t, (f t).ident = t.ident) (i : Ident) :
    (s.modifyTrack id f).track? i = (s.track? i).map fun x => if i = id then f x else x := by
  rw [track?_modifyTrack s id f hf]
  by_cases h : i = id
  · simp only [h, if_true]
  · simp only [if_neg h, Option.map_id']

/-- Settles O43: a lapse purges, marks and hands over; a freed track is `freeTrack_freed`. -/
theorem queryDeadlineLapsesTheQuery : Obligations.QueryDeadlineLapsesTheQuery := by
  refine ⟨fun s n q hq hp => ?_, freeTrack_freed⟩
  set b := (s.setQueryList (withoutQuery q.ident s.queries.list)).modifyTrack q.ident
    fun t => { t with mark := .lapsed } with hb
  have hlapse : lapseQuery q s = handLapse q.ident b := rfl
  have hjudged : Judged (lapsed q.ident) b (lapseQuery q s) := handLapse_judged q.ident b
  have honly : Only verdictParts b (lapseQuery q s) := handLapse_only q.ident b
  have hmarked (i : Ident) : b.track? i = (s.track? i).map fun x =>
      if i = q.ident then { x with mark := .lapsed } else x :=
    track?_modifyTrack_map (s.setQueryList (withoutQuery q.ident s.queries.list)) q.ident
      (fun t => { t with mark := .lapsed }) (fun _ => rfl) i
  have hqueries : (lapseQuery q s).queries =
      { s.queries with list := withoutQuery q.ident s.queries.list } := honly.queries (by decide)
  refine ⟨b, lapseQuery q s, exec_queryDeadline hq hp, hmarked, ?frame, hjudged,
    by rw [hqueries]; rfl, by rw [hqueries], fun x hx => ?track,
    hjudged.answerFree fun j _ => lapsed_answerFree q.ident j, fun j hj => ?undecided,
    settle_replies _ b, (lapseQuery_only q s).mono (by decide)⟩
  case frame =>
    exact ((setQueryList_only s _).mono (by decide)).trans ((modifyTrack_only _ _ _).mono (by decide))
  case track =>
    have hbx : b.track? q.ident = some { x with mark := .lapsed } := by
      rw [hmarked, hx, Option.map_some, if_pos rfl]
    obtain ⟨st, hst, -⟩ := ((settle_rejudged _ b).track? q.ident).2 _ hbx
    exact ⟨_, hst, rfl, rfl, rfl⟩
  case undecided =>
    rw [hjudged.judging, List.mem_filter] at hj
    exact hj.2

end Sys2Proof.Machine
end


section
/-! PROOFS. The answers of the readers (R16, R18 to R20, R22, R23, R182). -/

namespace Sys2Proof.Machine

/-- With a poll open its turn is the one that is polled. -/
theorem polled_of_hears {s : State} {t : Turn} {bytes : List Byte} (h : s.Hears t bytes) :
    s.polled = some t := by
  unfold State.polled
  rw [hears_iff.1 h]
  rfl

theorem hearing_none {s : State} (h : ∀ t bytes, ¬ s.Hears t bytes) : s.hearing = none :=
  Option.eq_none_iff_forall_ne_some.2 fun x hx => h x.1 x.2 (hears_iff.2 hx)

theorem exec_sightingsAnswer {s : State} {t : Turn} {bytes : List Byte} (h : s.Hears t bytes)
    (more : Bool) (rs : List SightingRecord) :
    exec (.sightingsAnswer more rs) s =
      .next (if rs.length ≤ 6 then takeSightings t more rs s else pollUnanswered t s) := by
  change execSightingsAnswer more rs s = _
  unfold execSightingsAnswer
  rw [polled_of_hears h]
  exact (apply_ite Host.Outcome.next ..).symm

theorem exec_extendAnswer {s : State} {t : Turn} {bytes : List Byte} (h : s.Hears t bytes)
    (n : Byte) :
    exec (.extendAnswer n) s =
      .next (if 1 ≤ n.toNat ∧ n.toNat ≤ 3 then takeExtension t n.toNat s else pollUnanswered t s) := by
  change execExtendAnswer n s = _
  unfold execExtendAnswer
  rw [polled_of_hears h]
  exact (apply_ite Host.Outcome.next ..).symm

theorem exec_extendOnAnswer {s : State} {t : Turn} {bytes : List Byte} (h : s.Hears t bytes) :
    exec .extendOnAnswer s = .next (takeExtension t 1 s) := by
  change execExtendOnAnswer s = _
  unfold execExtendOnAnswer
  rw [polled_of_hears h]
  rfl

theorem exec_badAnswer {s : State} {t : Turn} {bytes bs : List Byte} (h : s.Hears t bytes)
    (hne : bs ≠ []) : exec (.badAnswer bs) s = .next (takeBytes t (bytes ++ bs) s) := by
  change execBadAnswer bs s = _
  unfold execBadAnswer
  rw [hears_iff.1 h]
  exact if_neg hne

/-! ## SIGHTINGS (R18, R26) -/

/-- A number drawn below `n` is below it, and 0 where there is nothing to draw. -/
theorem drawn_le (s : State) (n : Nat) : s.drawn n + 1 ≤ max 1 n := by
  unfold State.drawn
  split
  · omega
  · have := Nat.mod_lt (Config.tieBreak s.choice) (show 0 < n by omega)
    omega

theorem afterDraw_choice (s : State) (n : Nat) : ∃ c, s.afterDraw n = s.setChoice c := by
  unfold State.afterDraw
  split
  · exact ⟨s.choice, rfl⟩
  · exact ⟨_, rfl⟩

/-- Settles O13: the first records are taken by intake, as many as the draw says, and `deliver_goesOn`
says what follows. -/
theorem sightingsAnswerEndsItsPoll : Obligations.SightingsAnswerEndsItsPoll := by
  intro s t bytes more rs h hlen
  obtain ⟨c, hc⟩ := afterDraw_choice (restoreProbed t s) rs.length
  refine ⟨restoreProbed t s, takeSightings t more rs s, c, (restoreProbed t s).drawn rs.length + 1,
    (exec_sightingsAnswer h more rs).trans (congrArg _ (if_pos hlen)), restoreProbed_restored t s,
    Nat.le_add_left .., drawn_le .., ?_, (takeSightings_only t more rs s).mono (by decide)⟩
  rw [← hc]
  exact deliver_goesOn ..

/-! ## Extensions (R19, R20) -/

/-- An extension that passes 32 slots ends the turn as failed, whatever has been answered (R20, R22). -/
theorem endTurn_mute (t : Turn) (s : State) :
    TurnEnds s t false (endTurn { t with answered := true } true s) := by
  obtain ⟨hgrant, hnext, hnotice, hframe⟩ := endTurn_ends { t with answered := true } true s
  exact ⟨hgrant, hnext, hnotice, hframe⟩

/-- A poll that ends unanswered ends its turn, which counts as ANSWERED by an earlier poll alone (R22). -/
theorem pollUnanswered_ends (t : Turn) (s : State) :
    TurnEnds s t t.answered (pollUnanswered t s) := by
  have h := endTurn_ends t false s
  rwa [Bool.not_false, Bool.and_true] at h

/-- Settles O14: the two arms of `takeExtension` in the state with a probed pedestal restored. -/
theorem extensionsAreWaitedOutWithinTheBudget :
    Obligations.ExtensionsAreWaitedOutWithinTheBudget := by
  intro s t bytes c n h hc
  have hexec : exec c s = .next (takeExtension t n s) := by
    obtain ⟨rfl, h1, h3⟩ | ⟨rfl, rfl⟩ := hc
    · have hn : (BitVec.ofNat 8 n).toNat = n := by
        rw [BitVec.toNat_ofNat]
        omega
      rw [exec_extendAnswer h, hn, if_pos ⟨h1, h3⟩]
    · exact exec_extendOnAnswer h
  have hclock : (restoreProbed t s).clock = s.clock := (restoreProbed_only t s).clock (by decide)
  refine ⟨restoreProbed t s, takeExtension t n s, hexec, restoreProbed_restored t s,
    fun hin => ?_, fun hout => ?_, takeExtension_only t n s⟩
  · unfold takeExtension
    dsimp only
    rw [if_pos hin, hclock]
  · unfold takeExtension
    dsimp only
    rw [if_neg (Nat.not_le.2 hout)]
    exact endTurn_mute t _

/-! ## Bytes and silence (R16, R181, R182) -/

/-- With no poll open, answers and bytes are discarded. -/
theorem unheard_stays {s : State} {c : Instr} (h : ∀ t bytes, ¬ s.Hears t bytes)
    (hc : (∃ more rs, c = .sightingsAnswer more rs) ∨ (∃ n, c = .extendAnswer n)
      ∨ c = .extendOnAnswer ∨ (∃ bs, c = .badAnswer bs) ∨ c = .answerSlotGap
      ∨ c = .answerWindowClose) : exec c s = .next s := by
  have hhearing := hearing_none h
  have hpolled : s.polled = none := by unfold State.polled; rw [hhearing]; rfl
  obtain ⟨more, rs, rfl⟩ | ⟨n, rfl⟩ | rfl | ⟨bs, rfl⟩ | rfl | rfl := hc
  · change execSightingsAnswer more rs s = _
    unfold execSightingsAnswer
    rw [hpolled]
  · change execExtendAnswer n s = _
    unfold execExtendAnswer
    rw [hpolled]
  · change execExtendOnAnswer s = _
    unfold execExtendOnAnswer
    rw [hpolled]
  · change execBadAnswer bs s = _
    unfold execBadAnswer
    rw [hhearing]
  · change execAnswerSlotGap s = _
    unfold execAnswerSlotGap
    split
    · next t w ha => exact absurd (.inl ⟨rfl, w, ha⟩) (h t [])
    · next t bytes last ha => exact absurd (.inr ⟨last, ha⟩) (h t bytes)
    · rfl
  · change execAnswerWindowClose s = _
    unfold execAnswerWindowClose
    split
    · next t w ha => exact absurd (.inl ⟨rfl, w, ha⟩) (h t [])
    · rfl

/-- The five ways in which a poll ends without an answer (R16, R22, R182). -/
theorem unanswered_ends {s : State} {c : Instr} {t : Turn} {bytes : List Byte} (h : s.Hears t bytes)
    (hc : (∃ more rs, c = .sightingsAnswer more rs ∧ 6 < rs.length)
      ∨ (∃ n : Byte, c = .extendAnswer n ∧ (n.toNat = 0 ∨ 3 < n.toNat))
      ∨ (∃ bs, c = .badAnswer bs ∧ bs ≠ [] ∧ BadAnswerBytes t.pedestal (bytes ++ bs))
      ∨ (c = .answerSlotGap ∧ ∀ last, s.bus.activity = .receiving t bytes last →
          passed s.clock.now (last + 1) = true)
      ∨ (c = .answerWindowClose
          ∧ ∃ w, s.bus.activity = .polling t w ∧ passed s.clock.now w = true)) :
    exec c s = .next (pollUnanswered t s) := by
  obtain ⟨more, rs, rfl, hlen⟩ | ⟨n, rfl, hn⟩ | ⟨bs, rfl, hne, hbad⟩ | ⟨rfl, hgap⟩ | ⟨rfl, w, ha, hp⟩ :=
    hc
  · rw [exec_sightingsAnswer h, if_neg (Nat.not_le.2 hlen)]
  · rw [exec_extendAnswer h, if_neg (by omega)]
  · rw [exec_badAnswer h hne]
    unfold takeBytes
    rw [(judgeAnswer_cases _ _).1.2 hbad]
  · change execAnswerSlotGap s = _
    obtain ⟨rfl, w, ha⟩ | ⟨last, ha⟩ := h
    · simp only [execAnswerSlotGap, ha]
    · simp only [execAnswerSlotGap, ha]
      exact if_pos (hgap last ha)
  · change execAnswerWindowClose s = _
    simp only [execAnswerWindowClose, ha]
    exact if_pos hp

/-- The records read from bytes, one by one (R181). -/
theorem readRecords_getElem? (bs : List Byte) {n k : Nat} (hk : k < n) (i : Nat) :
    (readRecords bs n i)[k]? = some
      { ident := field64 bs (i + 11 * k)
        face := (byteAt bs (i + 8 + 11 * k)).extractLsb' 0 2
        guard := (byteAt bs (i + 8 + 11 * k)).getLsbD 7
        strength := byteAt bs (i + 9 + 11 * k) } := by
  induction n generalizing i k with
  | zero => exact absurd hk (Nat.not_lt_zero k)
  | succ n ih =>
    cases k with
    | zero => rfl
    | succ k =>
      have hstep : i + 11 + 11 * k = i + 11 * (k + 1) := by omega
      have h8 : i + 11 + 8 + 11 * k = i + 8 + 11 * (k + 1) := by omega
      have h9 : i + 11 + 9 + 11 * k = i + 9 + 11 * (k + 1) := by omega
      rw [readRecords, List.getElem?_cons_succ, ih (Nat.lt_of_succ_lt_succ hk), hstep, h8, h9]

/-- The answer that bytes make is that of their fields. -/
theorem judgeAnswer_answer {p : Pedestal} {bs : List Byte} {a : Answer}
    (h : judgeAnswer p bs = .answer a) :
    answerFields bs = some a ∧ (byteAt bs 1 = 0x81 → recordCount bs ≤ 6) := by
  unfold judgeAnswer at h
  split at h
  · cases h
  · split at h
    · cases h
    · next n hn =>
      split at h
      · cases h
      · split at h
        · cases h
        · split at h
          · next x hx =>
            cases h
            exact ⟨hx, (answerLength_le hn).2⟩
          · cases h

/-- Bytes that are neither bad nor partial are the answer of their fields. -/
theorem judgeAnswer_complete {p : Pedestal} {bs : List Byte} (hpart : ¬ PartialAnswerBytes bs)
    (hbad : ¬ BadAnswerBytes p bs) : ∃ a, judgeAnswer p bs = .answer a := by
  obtain ⟨hbad', hpart'⟩ := judgeAnswer_cases p bs
  cases h : judgeAnswer p bs with
  | partially => exact absurd (hpart'.1 h) hpart
  | bad => exact absurd (hbad'.1 h) hbad
  | answer a => exact ⟨a, rfl⟩

/-- Complete bytes do what the command of their fields does (R181). -/
theorem completeBytes_exec {s : State} {t : Turn} {bytes bs : List Byte} (h : s.Hears t bytes)
    (hne : bs ≠ []) (hpart : ¬ PartialAnswerBytes (bytes ++ bs))
    (hbad : ¬ BadAnswerBytes t.pedestal (bytes ++ bs)) :
    (byteAt (bytes ++ bs) 1 = 0x81 → ∀ rs : List SightingRecord,
        rs = readRecords (bytes ++ bs) (recordCount (bytes ++ bs)) 3 →
        exec (.badAnswer bs) s
          = exec (.sightingsAnswer ((byteAt (bytes ++ bs) 2).getLsbD 7) rs) s)
      ∧ (byteAt (bytes ++ bs) 1 = 0x82 →
          exec (.badAnswer bs) s = exec (.extendAnswer (byteAt (bytes ++ bs) 2)) s)
      ∧ (byteAt (bytes ++ bs) 1 = 0x83 → exec (.badAnswer bs) s = exec .extendOnAnswer s) := by
  obtain ⟨a, hjudge⟩ := judgeAnswer_complete hpart hbad
  obtain ⟨hfields, hcount⟩ := judgeAnswer_answer hjudge
  have hexec : exec (.badAnswer bs) s = .next (takeReaderAnswer t a s) := by
    rw [exec_badAnswer h hne]
    unfold takeBytes
    rw [hjudge]
  unfold answerFields at hfields
  rw [hexec]
  refine ⟨fun hk rs hrs => ?_, fun hk => ?_, fun hk => ?_⟩
  · rw [if_pos hk] at hfields
    cases hfields
    have hlen : rs.length ≤ 6 := by
      rw [hrs, readRecords_length]
      exact hcount hk
    rw [exec_sightingsAnswer h, if_pos hlen, hrs]
    rfl
  · rw [if_neg (by rw [hk]; decide), if_pos hk] at hfields
    split at hfields
    · next hn =>
      cases hfields
      rw [exec_extendAnswer h, if_pos hn]
      rfl
    · cases hfields
  · rw [if_neg (by rw [hk]; decide), if_neg (by rw [hk]; decide)] at hfields
    cases hfields
    rw [exec_extendOnAnswer h]
    rfl

/-- Settles O15: the ways a poll ends unanswered, the bytes that hold it open, and those that are an
answer. -/
theorem unansweredPollsEndTheTurnAsFailed : Obligations.UnansweredPollsEndTheTurnAsFailed := by
  intro s c
  refine ⟨unheard_stays, fun t bytes h => ⟨fun hc => ⟨_, unanswered_ends h hc,
    pollUnanswered_ends t s⟩, ?window, ?empty, ?bytes⟩⟩
  case window =>
    rintro ⟨last, ha⟩
    change execAnswerWindowClose s = _
    simp only [execAnswerWindowClose, ha]
  case empty =>
    change execBadAnswer [] s = _
    unfold execBadAnswer
    rw [hears_iff.1 h]
    exact if_pos rfl
  case bytes =>
    rintro bs _ hne rfl
    refine ⟨fun hpart => ?_, fun hpart hbad => ?_⟩
    · rw [exec_badAnswer h hne]
      unfold takeBytes
      rw [(judgeAnswer_cases t.pedestal _).2.2 hpart]
    · obtain ⟨hsightings, hextend, hextendOn⟩ := completeBytes_exec h hne hpart hbad
      refine ⟨fun hk rs hlen hrecords => hsightings hk rs ?_, hextend, hextendOn⟩
      rw [← recordCount_mod] at hlen
      refine List.ext_getElem? fun k => ?_
      by_cases hlt : k < rs.length
      · rw [hrecords k hlt, readRecords_getElem? _ (hlen ▸ hlt)]
      · rw [List.getElem?_eq_none (Nat.not_lt.1 hlt),
          List.getElem?_eq_none (by rw [readRecords_length]; omega)]

end Sys2Proof.Machine
end


section
/-! PROOFS. The timers of the bus, the hold and READER-PASS (R19, R21, R23, R28 to R31). -/

namespace Sys2Proof.Machine

/-! ## Extension wait and probe timer (R19, R23) -/

/-- A new round reads the health records, the grant and the probe timer of the controller, not what it
was doing. -/
theorem NewRound.of_activity {now : Time} {n : Nat} {b u : BusController} {x : Activity}
    (h : NewRound now n { b with activity := x } u) : NewRound now n b u :=
  ⟨h.probe, h.ordinary, h.nothing, h.cleared, h.faulted, h.records⟩

theorem exec_extensionWaitEnd {s : State} {t : Turn} {w : Time} (h : s.bus.activity = .waiting t w)
    (hp : passed s.clock.now w = true) :
    exec .extensionWaitEnd s = .next (s.setBus { s.bus with
      activity := .polling t (s.clock.now + 2), sent := repollFrame t.pedestal }) := by
  change execExtensionWaitEnd s = _
  simp only [execExtensionWaitEnd, h]
  exact if_pos hp

/-- The bus controller once the probe timer has come due. -/
def BusController.probed (b : BusController) : BusController :=
  { b with probeDue := true, probeAt := b.probeAt + 1000 }

theorem exec_probeTimer {s : State} (hp : passed s.clock.now s.bus.probeAt = true) :
    exec .probeTimer s = .next (s.setBus
      (if s.bus.activity = .idle then startRound s.clock.now s.site.aisles s.bus.probed
       else s.bus.probed)) := by
  change execProbeTimer s = _
  unfold execProbeTimer
  rw [if_pos hp]
  dsimp only
  split <;> rfl

/-- Settles O16: a REPOLL is sent, and a due probe opens a round of an idle controller. -/
theorem busTimersRepollAndProbe : Obligations.BusTimersRepollAndProbe := by
  intro s
  refine ⟨fun t w h hp => ⟨_, exec_extensionWaitEnd h hp, rfl, only_setBus s _⟩,
    fun hp => ⟨_, exec_probeTimer hp, ?_⟩⟩
  by_cases hidle : s.bus.activity = .idle
  · rw [if_pos hidle]
    have hround := startRound_newRound s.clock.now s.site.aisles s.bus.probed
    obtain ⟨hhealth, hgrant, hprobe⟩ := hround.records
    refine ⟨hprobe, hhealth, hgrant, fun h => absurd hidle h,
      fun _ => ⟨hround.cleared, fun p hn hf hfirst => ?_⟩, only_setBus s _⟩
    refine (hround.probe p rfl ⟨⟨hn, hf⟩, fun q hq hcond => ?_⟩).1.poll
    exact ne_true_of_eq_false (hfirst q hq) hcond.2
  · rw [if_neg hidle]
    exact ⟨rfl, rfl, rfl, fun _ => ⟨rfl, rfl⟩, fun h => absurd h hidle, only_setBus s _⟩

/-! ## BUS-TAKE and the grant (R28) -/

theorem exec_busTake {s : State} (ref : Byte) (hd : s.dispatches) :
    exec (.busTake ref []) s = .next (takeBusTake ref s.counted) :=
  exec_request (k := .busTake) rfl hd rfl

theorem exec_busGive {s : State} (ref : Byte) (hd : s.dispatches) :
    exec (.busGive ref []) s = .next (takeBusGive ref s.counted) :=
  exec_request (k := .busGive) rfl hd rfl

/-- Granting in the counted state, as in the one before the frame. -/
theorem grantBus_eq (ref : Byte) (s : State) :
    grantBus ref s = placeReply 0xB8 ref .granted [] (s.setBus { s.bus with
      activity := .held { since := s.clock.now, deadline := after s.clock.now 30000, pass := none }
      grant := none }) := rfl

theorem takeBusTake_busy {ref : Byte} {s : State}
    (h : s.bus.grant.isSome = true ∨ s.bus.isHeld = true) :
    takeBusTake ref s = placeReply 0xB8 ref .busy [] s := by
  unfold takeBusTake
  by_cases hg : s.bus.grant.isSome = true
  · exact if_pos hg
  · obtain ⟨x, hx⟩ := isHeld_iff.1 (h.resolve_left hg)
    rw [if_neg hg, hx]
    rfl

theorem takeBusTake_idle {ref : Byte} {s : State} (hg : s.bus.grant = none)
    (h : s.bus.activity = .idle) : takeBusTake ref s = grantBus ref s := by
  simp [takeBusTake, hg, h]

theorem takeBusTake_turn {ref : Byte} {s : State} {t : Turn} (hg : s.bus.grant = none)
    (h : s.bus.activity.turn? = some t) :
    takeBusTake ref s = s.setBus { s.bus with grant := some ref } := by
  unfold takeBusTake
  rw [if_neg (by rw [hg]; decide)]
  cases ha : s.bus.activity with
  | idle => rw [ha] at h; cases h
  | held => rw [ha] at h; cases h
  | polling => rfl
  | receiving => rfl
  | delivering => rfl
  | waiting => rfl
  | ended => rfl

/-- Settles O17: the rows of R28, in the counted state. -/
theorem busTakeByBusState : Obligations.BusTakeByBusState := by
  intro s ref hd
  rw [exec_busTake ref hd]
  refine ⟨fun h => ?_, fun hg h => ?_, fun t hg h => ?_⟩
  · rw [takeBusTake_busy (by rwa [counted_bus])]
  · rw [takeBusTake_idle (by rwa [counted_bus]) (by rwa [counted_bus]), grantBus_eq, counted_bus,
      counted_clock]
  · rw [takeBusTake_turn (by rwa [counted_bus]) (by rwa [counted_bus]), counted_bus]

/-! ## BUS-GIVE (R29) -/

/-- The reply that a READER-PASS in flight gets when its hold ends. -/
def Hold.unanswered (h : Hold) : List Reply :=
  match h.pass with
  | some x => [{ kind := 0xBA, ref := x.ref, status := .noAnswer, body := [0x00] }]
  | none => []

/-- The end of a hold: NO-ANSWER for a READER-PASS in flight, and a new round (R17, R29, R31). -/
theorem endHold_spec {h : Hold} {s : State} (ha : s.bus.activity = .held h) :
    NewRound s.clock.now s.site.aisles s.bus (endHold h s).bus
      ∧ (endHold h s).link = { s.link with replies := s.link.replies ++ h.unanswered } := by
  have honly := failReaderPass_only h s
  constructor
  · have hround := startRound_newRound s.clock.now s.site.aisles (failReaderPass h s).bus
    rw [failReaderPass_bus ha] at hround
    unfold endHold State.changeBus
    rw [honly.clock (by decide), honly.site (by decide), failReaderPass_bus ha]
    exact hround.of_activity
  · change (failReaderPass h s).link = _
    unfold failReaderPass Hold.unanswered
    cases h.pass with
    | none => rw [List.append_nil]
    | some x => rfl

/-- BUS-GIVE ends a hold. -/
theorem takeBusGive_held {ref : Byte} {s : State} {h : Hold} (ha : s.bus.activity = .held h) :
    takeBusGive ref s = placeReply 0xB9 ref .ok [] (endHold h s) := by
  unfold takeBusGive
  rw [ha]
  rfl

/-- Without a hold, BUS-GIVE withdraws a grant or is refused. -/
theorem takeBusGive_notHeld {ref : Byte} {s : State} (h : s.bus.isHeld = false) :
    (∀ r, s.bus.grant = some r →
        takeBusGive ref s = placeReply 0xB9 ref .ok [] (cancelGrant r s))
      ∧ (s.bus.grant = none → takeBusGive ref s = placeReply 0xB9 ref .notHeld [] s) := by
  unfold takeBusGive
  split
  · next x hx => exact absurd (isHeld_iff.2 ⟨x, hx⟩) (ne_true_of_eq_false h)
  · exact ⟨fun r hr => by rw [hr]; rfl, fun hn => by rw [hn]; rfl⟩

/-- A withdrawn grant: its reply is CANCELLED, a turn in progress goes on, and after one that has ended
the next begins (R29). -/
theorem cancelGrant_spec (r : Byte) (s : State) :
    (cancelGrant r s).link.replies
        = s.link.replies ++ [{ kind := 0xB8, ref := r, status := .cancelled, body := [] }]
      ∧ ((∀ p, s.bus.activity ≠ .ended p) → (cancelGrant r s).bus = { s.bus with grant := none })
      ∧ (∀ p, s.bus.activity = .ended p →
          NextTurn s.clock.now s.site.aisles { s.bus with grant := none } (cancelGrant r s).bus) := by
  unfold cancelGrant
  dsimp only
  split
  · next p hp =>
    exact ⟨rfl, fun h => absurd hp (h p), fun _ _ => nextTurn_follows _ _ _⟩
  · next hnot => exact ⟨rfl, fun _ => rfl, fun p hp => absurd hp (hnot p)⟩

theorem not_ended_of_turn {x : Activity} {t : Turn} (h : x.turn? = some t) : ∀ p, x ≠ .ended p := by
  rintro p rfl
  cases h

theorem isHeld_false {b : BusController}
    (h : (∃ t, b.activity.turn? = some t) ∨ ∃ p, b.activity = .ended p) : b.isHeld = false := by
  rw [Bool.eq_false_iff, Ne, isHeld_iff]
  rintro ⟨x, hx⟩
  obtain ⟨t, ht⟩ | ⟨p, hp⟩ := h
  · rw [hx] at ht; cases ht
  · rw [hx] at hp; cases hp

theorem exec_busGrant {s : State} {p : Pedestal} {r : Byte} (ha : s.bus.activity = .ended p)
    (hg : s.bus.grant = some r) : exec .busGrant s = .next (grantBus r s) := by
  change execBusGrant s = _
  simp only [execBusGrant, ha, hg]

/-- Settles O18: the grant, and the three outcomes of BUS-GIVE in the counted state. -/
theorem busGrantAndBusGive : Obligations.BusGrantAndBusGive := by
  intro s ref
  refine ⟨fun p r ha hg => exec_busGrant ha hg, fun hd => ?_⟩
  have hframe : Only [.bus, .supervisor, .link] s (takeBusGive ref s.counted) :=
    ((takeBusGive_only ref s.counted).mono (by decide)).of_counted (by decide) (by decide)
  refine ⟨fun h ha => ⟨_, exec_busGive ref hd, ?_⟩, fun r hg hturn => ⟨_, exec_busGive ref hd, ?_⟩,
    fun hheld hg => ?_⟩
  · have hspec := endHold_spec (h := h) (s := s.counted) (by rw [counted_bus]; exact ha)
    rw [counted_clock, counted_site, counted_bus] at hspec
    obtain ⟨hround, hlink⟩ := hspec
    have hgive := takeBusGive_held (ref := ref) (h := h) (s := s.counted)
      (by rw [counted_bus]; exact ha)
    refine ⟨?_, ?_, hframe⟩
    · rw [hgive, placeReply_replies, hlink, counted_replies]
      rfl
    · rw [hgive]
      exact hround
  · have hspec := cancelGrant_spec r s.counted
    rw [counted_clock, counted_site, counted_bus, counted_replies] at hspec
    obtain ⟨hreplies, hgoesOn, hnext⟩ := hspec
    have hgive := (takeBusGive_notHeld (ref := ref) (s := s.counted)
      (by rw [counted_bus]; exact isHeld_false hturn)).1 r (by rw [counted_bus]; exact hg)
    refine ⟨?_, fun t ht => ?_, fun p hp => ?_, hframe⟩
    · rw [hgive, placeReply_replies, hreplies, List.append_assoc]
      rfl
    · rw [hgive]
      exact hgoesOn (not_ended_of_turn ht)
    · rw [hgive]
      exact hnext p hp
  · rw [exec_busGive ref hd, (takeBusGive_notHeld (by rwa [counted_bus])).2 (by rwa [counted_bus])]

/-! ## READER-PASS (R30, R31) -/

theorem exec_readerPass {s : State} {ref : Byte} {p : List Byte} (hd : s.dispatches)
    (h1 : 1 ≤ (byteAt p 1).toNat) (h64 : (byteAt p 1).toNat ≤ 64)
    (hl : p.length = 2 + (byteAt p 1).toNat) :
    exec (.readerPass ref p) s = .next (takeReaderPass ref (byteAt p 0) (p.drop 2) s.counted) := by
  refine exec_request (k := .readerPass) rfl hd ?_
  simp only [lengthAllowed, Bool.and_eq_true, decide_eq_true_eq, beq_iff_eq]
  omega

theorem foldl_add_byte (bs : List Byte) (a : Byte) : bs.foldl (· + ·) a = a + bs.foldl (· + ·) 0 := by
  induction bs generalizing a with
  | nil => exact (add_zero a).symm
  | cons b bs ih => rw [List.foldl_cons, List.foldl_cons, ih, ih (0 + b), zero_add, add_assoc]

theorem byteSum_cons (a : Byte) (bs : List Byte) : byteSum (a :: bs) = a + byteSum bs := by
  unfold byteSum
  rw [List.foldl_cons, zero_add, foldl_add_byte]

/-- Settles O19: the checks of R30 in their order, and the frame with its check byte. -/
theorem readerPassIsCheckedAndSent : Obligations.ReaderPassIsCheckedAndSent := by
  intro s ref p hd h1 h64 hl
  rw [exec_readerPass hd h1 h64 hl]
  unfold takeReaderPass
  rw [counted_bus, counted_clock]
  refine ⟨fun hheld => ?_, fun h ha => ⟨fun hp => ?_, fun hp hpass => ?_, fun q hq hpass => ?_⟩⟩
  · split
    · next x hx => exact absurd (isHeld_iff.2 ⟨x, hx⟩) (ne_true_of_eq_false hheld)
    · rfl
  · simp only [ha, dif_neg (Nat.not_le.2 hp)]
    rfl
  · simp only [ha, dif_pos hp, if_pos (Option.isSome_iff_ne_none.2 hpass)]
    rfl
  · have hlt : (byteAt p 0).toNat < 9 := hq ▸ q.isLt
    have hp : (byteAt p 0).toNat ≤ 8 := Nat.le_of_lt_succ hlt
    obtain rfl : q = ⟨(byteAt p 0).toNat, hlt⟩ := Fin.ext hq
    simp only [ha, dif_pos hp, hpass, Option.isSome_none, Bool.false_eq_true, if_false, withCheck,
      byteSum_cons]

/-- A reader's frame of the right shape, with its data (R30). -/
theorem readerData_some {p : Pedestal} {data : List Byte} {check : Byte} (h1 : 1 ≤ data.length)
    (h64 : data.length ≤ 64) (hsum : byteSum (count8 p.val :: data ++ [check]) = 0) :
    readerData p (count8 p.val :: data ++ [check]) = some data := by
  have hlen : (count8 p.val :: data ++ [check]).length = data.length + 2 := by simp
  have hshape : byteAt (count8 p.val :: data ++ [check]) 0 = count8 p.val
      ∧ 3 ≤ (count8 p.val :: data ++ [check]).length
      ∧ (count8 p.val :: data ++ [check]).length ≤ 66
      ∧ byteSum (count8 p.val :: data ++ [check]) = 0 :=
    ⟨rfl, by rw [hlen]; omega, by rw [hlen]; omega, hsum⟩
  unfold readerData
  rw [if_pos hshape, List.cons_append, List.drop_one, List.tail_cons, List.dropLast_concat]

theorem readerData_none {p : Pedestal} {frame : List Byte}
    (h : byteAt frame 0 ≠ count8 p.val ∨ frame.length < 3 ∨ 66 < frame.length
      ∨ byteSum frame ≠ 0) : readerData p frame = none := by
  unfold readerData
  rw [if_neg]
  rintro ⟨haddress, hmin, hmax, hsum⟩
  obtain h | h | h | h := h
  · exact h haddress
  · omega
  · omega
  · exact h hsum

/-- The first frame after a READER-PASS: accepted, it is the answer; otherwise it has been heard. -/
theorem exec_readerPassAnswer {s : State} {h : Hold} {x : ReaderPass} (ha : s.bus.activity = .held h)
    (hx : h.pass = some x) (hfirst : x.heard = false) (frame : List Byte) :
    exec (.readerPassAnswer frame) s = .next (match readerData x.pedestal frame with
      | some bytes => placeReply 0xBA x.ref .ok (count8 bytes.length :: bytes)
          (s.setBus { s.bus with activity := .held { h with pass := none } })
      | none => s.setBus { s.bus with
          activity := .held { h with pass := some { x with heard := true } } }) := by
  change execReaderPassAnswer frame s = _
  simp only [execReaderPassAnswer, ha, hx, hfirst, Bool.false_eq_true, if_false]
  cases readerData x.pedestal frame <;> rfl

/-- Settles O20: the first frame, the timeout, and the end of the hold at its deadline. -/
theorem readerPassEndsAndHoldExpires : Obligations.ReaderPassEndsAndHoldExpires := by
  intro s h ha
  refine ⟨fun x data check hx hfirst h1 h64 hsum => ?_, fun x frame hx hfirst hbad => ?_,
    fun x hx hp => ?_, fun hp => ?_⟩
  · rw [exec_readerPassAnswer ha hx hfirst, readerData_some h1 h64 hsum]
  · rw [exec_readerPassAnswer ha hx hfirst, readerData_none hbad]
  · change execReaderPassTimeout s = _
    simp only [execReaderPassTimeout, ha, hx, hp, if_true, failReaderPass]
    rfl
  · have hexec : exec .holdDeadline s = .next (notice .holdExpired (endHold h s)) := by
      change execHoldDeadline s = _
      simp only [execHoldDeadline, ha]
      exact if_pos hp
    obtain ⟨hround, hlink⟩ := endHold_spec ha
    have hclock : (endHold h s).clock = s.clock := (endHold_only h s).clock (by decide)
    obtain ⟨hurgent, hroutine⟩ := createReport_lists (u := true) (b := .notice .holdExpired)
      (s := endHold h s) (t := s) (by rw [hlink]) (by rw [hlink]) (by rw [hlink]) hclock
    refine ⟨_, hexec, hround, ?_, hurgent, hroutine, ?_,
      (endHold_only h s).trans ((notice_only ..).mono (by decide))⟩
    · rw [notice_replies, hlink]
      rfl
    · rw [notice_nextReport, hlink]

end Sys2Proof.Machine
end


section
/-! PROOFS. Good frames, the transmitter, and silencing (R110, R147, R150 to R152, R157 to R162). -/

namespace Sys2Proof.Machine

/-! ## Good frames (R110, R158, R159) -/

/-- Settles O53: the three outcomes of a good frame, and the three states of the supervisor that counts
it. -/
theorem goodFramesAreCountedDiscardedOrRejected :
    Obligations.GoodFramesAreCountedDiscardedOrRejected := by
  refine ⟨fun s c f hf => ?_, fun s kind ref p hd hk => congrArg _ (goodFrame_unknown hd hk)⟩
  have hcounted : s.counted = countGoodFrame (s.setRx []) := rfl
  rw [exec_hostFrame hf]
  refine ⟨fun h => congrArg _ (goodFrame_discarded h), fun hd hk => congrArg _ (goodFrame_unknown hd hk),
    fun k hd hk hl => ?_, fun h => ?_, fun n d h => ?_, fun n h => ?_⟩
  · rw [← code_of_ofCode hk, goodFrame_badLength hd hl]
  · rw [hcounted, countGoodFrame, State.setRx, State.setLink_supervisor, h]
  · rw [hcounted, countGoodFrame, State.setRx, State.setLink_supervisor, h]
    rfl
  · rw [hcounted, countGoodFrame, State.setRx, State.setLink_supervisor, h]
    rfl

/-! ## The transmitter (R119, R162, R169) -/

theorem exec_transmitterTake {s : State} (hline : s.link.line = none)
    (hdue : s.link.restartDue = false) : exec .transmitterTake s = .next (arbitrate s) := by
  refine if_pos ?_
  rw [hline, hdue]
  rfl

/-- Marking the oldest unsent query. -/
theorem markSent_append {l m : List Query} {q : Query} (hq : q.sent = false)
    (hl : ∀ x ∈ l, x.sent = true) : markSent (l ++ q :: m) = l ++ { q with sent := true } :: m := by
  induction l with
  | nil => exact if_neg (ne_true_of_eq_false hq)
  | cons x l ih =>
    rw [List.cons_append, markSent, if_pos (hl x List.mem_cons_self),
      ih fun y hy => hl y (List.mem_cons_of_mem _ hy)]
    rfl

/-- With no reply, the oldest unsent query goes out. -/
theorem arbitrate_query {s : State} {l m : List Query} {q : Query} (hr : s.link.replies = [])
    (hlist : s.queries.list = l ++ q :: m) (hq : q.sent = false) (hl : ∀ x ∈ l, x.sent = true) :
    arbitrate s = (s.setQueryList (l ++ { q with sent := true } :: m)).send s.link q.frame false := by
  have hfind : s.queries.list.find? (fun q => !q.sent) = some q := by
    rw [List.find?_eq_some_iff_append]
    exact ⟨by rw [hq]; rfl, l, m, hlist, fun x hx => by rw [hl x hx]; rfl⟩
  unfold arbitrate
  rw [hr]
  dsimp only
  rw [hfind, hlist, markSent_append hq hl]

/-- With no reply and no unsent query, the reports are next. -/
theorem arbitrate_report {s : State} (hr : s.link.replies = [])
    (hq : ∀ q ∈ s.queries.list, q.sent = true) : arbitrate s = sendReport s := by
  have hfind : s.queries.list.find? (fun q => !q.sent) = none :=
    List.find?_eq_none.2 fun q hmem => by rw [hq q hmem]; decide
  unfold arbitrate
  rw [hr]
  dsimp only
  rw [hfind]

/-- Settles O55: the arbiter's order, and the line that becomes free. -/
theorem transmitterTakesInOrder : Obligations.TransmitterTakesInOrder := by
  intro s
  refine ⟨fun hline hdue => ?_, fun f hf => ?_⟩
  · rw [exec_transmitterTake hline hdue]
    refine ⟨fun r rest hr => ?_, fun l q m hr hlist hq hl => ?_, fun hr hq => ⟨fun r rest hu => ?_,
      fun r rest hu ho => ?_⟩⟩
    · simp only [arbitrate, hr]
      rfl
    · rw [arbitrate_query hr hlist hq hl]
      rfl
    · rw [arbitrate_report hr hq]
      simp only [sendReport, hu]
      rfl
    · rw [arbitrate_report hr hq]
      simp only [sendReport, hu, ho]
      rfl
  · change execLineFree s = _
    simp only [execLineFree, hf]
    rfl

/-! ## Silencing (R146, R147, R150 to R152) -/

theorem exec_silence {s : State} {ref : Byte} {p : List Byte} (hd : s.dispatches)
    (hl : p.length = 1) :
    exec (.silence ref p) s = .next (takeSilence ref (byteAt p 0) s.counted) :=
  exec_request (k := .silence) rfl hd (beq_iff_eq.2 hl)

/-- What silencing does to the annunciator of an aisle, in the words of R151. -/
theorem silenced_eq (x : Annunciator) :
    x.silenced = match x with
      | .sounding d _ _ _ => .showing d
      | x => x := by
  cases x <;> rfl

theorem mem_aislesInUse {n : Nat} {a : Aisle} : a ∈ aislesInUse n ↔ a.val < n := by
  simp [aislesInUse, mem_allAisles]

/-- A duration deadline that has passed makes its annunciator QUIET. -/
theorem durationExpires_quiet {s : State} {a : Aisle} {d : Time}
    (h : s.annunciators[a].deadline? = some d) (hp : passed s.clock.now d = true) :
    durationExpires a s = quietAisle a s := by
  unfold durationExpires
  rw [h]
  exact if_pos hp

/-- The tone of a SOUNDING annunciator in period `k` from its start, with the pitch and the next lower one
in Hz (R147). -/
def soundingTone (k hz lower : Nat) : TonePattern → Tone
  | .steady => .hertz hz
  | .twoTone => if k % 2 = 0 then .hertz hz else .hertz lower
  | .pulsed => if k % 2 = 0 then .hertz hz else .silent

theorem sounding_outputs {s : State} {a : Aisle} {d start : Time} {pattern : TonePattern}
    {pitch : TonePitch} (h : s.annunciators[a] = .sounding d pattern pitch start) :
    s.lamp a = decide ((s.clock.now - start).toNat / 250 % 2 = 0)
      ∧ s.tone a = soundingTone ((s.clock.now - start).toNat / 250) pitch.hertz pitch.lowerHertz
          pattern := by
  have hperiod : firstPeriod s.clock.now start
      = decide ((s.clock.now - start).toNat / 250 % 2 = 0) := rfl
  unfold State.lamp State.tone
  rw [h]
  refine ⟨hperiod, ?_⟩
  cases pattern with
  | steady => rfl
  | twoTone => simp only [hperiod, decide_eq_true_eq, soundingTone]
  | pulsed => simp only [hperiod, decide_eq_true_eq, soundingTone]

/-- Settles O51: silencing by request and by key, the duration deadline, and the outputs. -/
theorem silenceLowersAndDurationQuiets : Obligations.SilenceLowersAndDurationQuiets := by
  intro s ref p
  refine ⟨fun hd hl => ⟨fun hnone => ?_, fun as has => ?_⟩, fun h => ?_, fun h => ?_,
    fun a d h hp => ?_, fun a => ⟨fun h => ?_, fun d h => ?_, ?_⟩⟩
  · rw [exec_silence hd hl, takeSilence, counted_site, hnone]
    rfl
  · have hframe := (silenceAisles_only as s.counted)
    refine ⟨reply .silence ref .ok [] (silenceAisles as s.counted), ?_, fun a => ?_, ?_, ?_⟩
    · rw [exec_silence hd hl, takeSilence, counted_site, has]
    · have hget := silenceAisles_get as s.counted a
      simp only [silenced_eq, counted_annunciators] at hget
      exact hget
    · simp only [reply, placeReply, State.setLink_link, hframe.link (by decide)]
      rfl
    · exact ((hframe.mono (by decide)).trans ((reply_only ..).mono (by decide))).of_counted
        (by decide) (by decide)
  · obtain ⟨-, -, haccept⟩ := Filter.due_true h
    refine ⟨pressKey s, if_pos h, fun a => ?_, ?_, pressKey_only s⟩
    · have hget := silenceAisles_get (aislesInUse s.site.aisles) (acceptKey s) a
      simp only [silenced_eq, mem_aislesInUse] at hget
      exact hget
    · rw [pressKey_beams, acceptKey, haccept]
      rfl
  · obtain ⟨-, -, haccept⟩ := Filter.due_true h
    rw [← haccept]
    exact if_pos h
  · refine ⟨quietAisle a s, congrArg _ (durationExpires_quiet h hp), setAnnunciator_self s a .quiet,
      fun a' ha' => setAnnunciator_ne s .quiet ha', quietAisle_only a s⟩
  · unfold State.lamp State.tone
    rw [h]
    exact ⟨rfl, rfl⟩
  · unfold State.lamp State.tone
    rw [h]
    exact ⟨rfl, rfl⟩
  · rintro d pattern pitch start k hz lower h rfl hpitch
    obtain ⟨hlamp, htone⟩ := sounding_outputs h
    refine ⟨hlamp, htone.trans ?_⟩
    obtain ⟨rfl, rfl, rfl⟩ | ⟨rfl, rfl, rfl⟩ | ⟨rfl, rfl, rfl⟩ := hpitch
    all_goals cases pattern <;> rfl

end Sys2Proof.Machine
end


section
/-! PROOFS. The item table: LOOKUP, the update requests with the settling they cause, and aging. -/

namespace Sys2Proof.Machine

/-! ## The fields of the requests (R83, R84, R176) -/

theorem update_good {id : Ident} {b : Byte} (hid : id ≠ 0) (hb : b = 0xFF ∨ b.toNat ≤ 31)
    (u : Update) : (if badFields id (deskField b) then .refused .range else u) = u := by
  refine if_neg fun h => ?_
  rcases (badFields_desk id b).1 h with h | ⟨h1, h2⟩
  · exact hid h
  · exact hb.elim h1 fun h => by omega

theorem update_bad {id : Ident} {b : Byte} (h : id = 0 ∨ (b ≠ 0xFF ∧ 31 < b.toNat)) (u : Update) :
    (if badFields id (deskField b) then .refused .range else u) = .refused .range :=
  if_pos ((badFields_desk id b).2 h)

theorem removal_good {id : Ident} (hid : id ≠ 0) (u : Update) :
    (if badFields id none then .refused .range else u) = u :=
  if_neg fun h => hid ((badFields_none id).1 h)

theorem removal_bad {id : Ident} (hid : id = 0) (u : Update) :
    (if badFields id none then .refused .range else u) = .refused .range :=
  if_pos ((badFields_none id).2 hid)

theorem expiryField_getD (w : Word16) (d : Nat) :
    (expiryField w).getD d = if w = 0xFFFF then d else w.toNat := by
  unfold expiryField
  split <;> rfl

theorem expiryClamped_field (w : Word16) :
    expiryClamped (expiryField w) = decide (w ≠ 0xFFFF ∧ 1440 < w.toNat) := by
  unfold expiryField
  by_cases h : w = 0xFFFF
  · rw [if_pos h, decide_eq_false fun hw => hw.1 h]
    rfl
  · rw [if_neg h]
    exact decide_eq_decide.2 (and_iff_right h).symm

theorem ite_min (c : Prop) [Decidable c] (a b m : Nat) :
    min (if c then a else b) m = if c then min a m else min b m := by
  split <;> rfl

/-- The desk number of a field that may be absent, in the place of one that is kept. -/
theorem deskField_kept (b : Byte) (kept : Option Nat) :
    (if decide (b ≠ 0xFF) = true then deskField b else kept)
      = if b ≠ 0xFF then some b.toNat else kept := by
  by_cases h : b = 0xFF
  · rw [if_neg (by simpa using h), if_neg (by simpa using h)]
  · rw [if_pos (by simpa using h), if_pos h, deskField, if_neg h]

theorem deskField_isSome (b : Byte) : (deskField b).isSome = decide (b ≠ 0xFF) := by
  unfold deskField
  by_cases h : b = 0xFF
  · rw [if_pos h, h]; rfl
  · rw [if_neg h, decide_eq_true h]; rfl

theorem markClass_barred : markClass 0x03 = some .barred := rfl

theorem markClass_lost : markClass 0x04 = some .lost := rfl

theorem markClass_none {b : Byte} (h3 : b ≠ 0x03) (h4 : b ≠ 0x04) : markClass b = none := by
  unfold markClass EntryClass.ofCode
  rw [if_neg h3, if_neg h4]
  by_cases h1 : b = 0x01
  · rw [if_pos h1]
  · by_cases h2 : b = 0x02
    · rw [if_neg h1, if_pos h2]
    · rw [if_neg h1, if_neg h2]

/-! ## The rules of the writers (R84, R85, R88) -/

/-- The desk number an entry of class ISSUED or PENDING keeps. -/
theorem keptDesk_eq (s : State) (id : Ident) :
    s.keptDesk id = match s.entry? id with
      | some e => if e.cls = .issued ∨ e.cls = .pending then e.desk else none
      | none => none := by
  unfold State.keptDesk
  cases s.entry? id with
  | none => rfl
  | some e =>
    rcases e with ⟨i, c, n, d⟩
    cases c <;> rfl

theorem counted_keptDesk (s : State) (id : Ident) : s.counted.keptDesk id = s.keptDesk id := by
  rw [keptDesk_eq, keptDesk_eq, counted_entry?]

section
variable {s : State} {id : Ident}

theorem issueRule_room (ex desk : Option Nat)
    (h : (s.entry? id).isSome = true ∨ s.segments[segmentOf id].entries.length < 1024) :
    issueRule s.counted id ex desk = .store
      { ident := id, cls := .issued, expiry := min (ex.getD s.site.expiry) 1440
        desk := if desk.isSome then desk else s.keptDesk id } (expiryClamped ex) := by
  rw [issueRule, counted_keptDesk, counted_site, storeOrFull_room ex h]
  rfl

theorem beginIssueRule_room (desk : Option Nat)
    (h : (s.entry? id).isSome = true ∨ s.segments[segmentOf id].entries.length < 1024)
    (hp : ∀ e, s.entry? id = some e → e.cls = .pending) :
    beginIssueRule s.counted id desk = .store
      { ident := id, cls := .pending, expiry := 10, desk := desk } false := by
  unfold beginIssueRule
  rw [counted_entry?]
  cases he : s.entry? id with
  | none => exact storeOrFull_room none h
  | some e => exact if_pos (hp e he)

theorem issueRule_full (ex desk : Option Nat) (he : s.entry? id = none)
    (hf : 1024 ≤ s.segments[segmentOf id].entries.length) :
    issueRule s.counted id ex desk = .refused .full :=
  storeOrFull_full _ he hf

theorem markRule_full (cls : EntryClass) (ex : Option Nat) (he : s.entry? id = none)
    (hf : 1024 ≤ s.segments[segmentOf id].entries.length) :
    markRule s.counted id cls ex = .refused .full :=
  storeOrFull_full _ he hf

theorem beginIssueRule_mismatch {e : Entry} (desk : Option Nat) (he : s.entry? id = some e)
    (hc : e.cls ≠ .pending) : beginIssueRule s.counted id desk = .refused .mismatch := by
  unfold beginIssueRule
  rw [counted_entry?, he]
  exact if_neg hc

theorem beginIssueRule_full (desk : Option Nat) (he : s.entry? id = none)
    (hf : 1024 ≤ s.segments[segmentOf id].entries.length) :
    beginIssueRule s.counted id desk = .refused .full := by
  unfold beginIssueRule
  rw [counted_entry?, he]
  exact storeOrFull_full none he hf

theorem markRule_room {cls : EntryClass} (ex : Option Nat) (hc : cls = .barred ∨ cls = .lost)
    (h : (s.entry? id).isSome = true ∨ s.segments[segmentOf id].entries.length < 1024) :
    markRule s.counted id cls ex = .store
      { ident := id, cls := cls, expiry := min (ex.getD 0) 1440, desk := none }
      (expiryClamped ex) := by
  rw [markRule, storeOrFull_room ex h]
  rcases hc with rfl | rfl <;> rfl

end

/-! ## The requests as updates (R83 to R89) -/

section
variable {s : State} {ref : Byte} {p : List Byte} (hd : s.dispatches)
include hd

theorem exec_issue (hl : p.length = 11) : exec (.issue ref p) s = .next
    (runUpdate .issue .issue ref (field64 p 0)
      (if badFields (field64 p 0) (deskField (byteAt p 10)) then .refused .range
       else issueRule s.counted (field64 p 0) (expiryField (field16 p 8)) (deskField (byteAt p 10)))
      s.counted) :=
  exec_request (k := .issue) rfl hd (beq_iff_eq.2 hl)

theorem exec_beginIssue (hl : p.length = 9) : exec (.beginIssue ref p) s = .next
    (runUpdate .beginIssue .beginIssue ref (field64 p 0)
      (if badFields (field64 p 0) (deskField (byteAt p 8)) then .refused .range
       else beginIssueRule s.counted (field64 p 0) (deskField (byteAt p 8))) s.counted) :=
  exec_request (k := .beginIssue) rfl hd (beq_iff_eq.2 hl)

theorem exec_mark (hl : p.length = 12) : exec (.mark ref p) s = .next
    (runUpdate .mark .mark ref (field64 p 0)
      (if badFields (field64 p 0) (deskField (byteAt p 11)) then .refused .range
       else match markClass (byteAt p 8) with
         | some c => markRule s.counted (field64 p 0) c (expiryField (field16 p 9))
         | none => .refused .range) s.counted) :=
  exec_request (k := .mark) rfl hd (beq_iff_eq.2 hl)

theorem exec_cancelIssue (hl : p.length = 8) : exec (.cancelIssue ref p) s = .next
    (runUpdate .cancelIssue .cancelIssue ref (field64 p 0)
      (if badFields (field64 p 0) none then .refused .range
       else removeRule (· == .pending) s.counted (field64 p 0)) s.counted) :=
  exec_request (k := .cancelIssue) rfl hd (beq_iff_eq.2 hl)

theorem exec_returnItem (hl : p.length = 8) : exec (.returnItem ref p) s = .next
    (runUpdate .returnItem .returnItem ref (field64 p 0)
      (if badFields (field64 p 0) none then .refused .range
       else removeRule (fun c => c == .issued || c == .pending) s.counted (field64 p 0)) s.counted) :=
  exec_request (k := .returnItem) rfl hd (beq_iff_eq.2 hl)

theorem exec_unmark (hl : p.length = 8) : exec (.unmark ref p) s = .next
    (runUpdate .unmark .unmark ref (field64 p 0)
      (if badFields (field64 p 0) none then .refused .range
       else removeRule (fun c => c == .barred || c == .lost) s.counted (field64 p 0)) s.counted) :=
  exec_request (k := .unmark) rfl hd (beq_iff_eq.2 hl)

theorem exec_lookup (hl : p.length = 8) : exec (.lookup ref p) s = .next
    (if badFields (field64 p 0) none then reply .lookup ref .range [0, 0, 0, 0, 0] s.counted
     else reply .lookup ref .ok (lookupBody (s.counted.lookup (field64 p 0))
       (s.counted.segment (field64 p 0)).state (s.counted.entry? (field64 p 0))) s.counted) :=
  exec_request (k := .lookup) rfl hd (beq_iff_eq.2 hl)

end

/-! ## Requests that change no entry -/

/-- Settles O31: LOOKUP's body, by whether there is an entry. -/
theorem lookupAnswersFromTheTable : Obligations.LookupAnswersFromTheTable := by
  intro s ref p hd hl hid
  rw [exec_lookup hd hl, if_neg fun h => hid ((badFields_none _).1 h), counted_lookup, seg_counted,
    counted_entry?]
  refine ⟨fun e he => ?_, fun he => ?_⟩
  · simp only [State.lookup, he]
    rfl
  · simp only [State.lookup, he]
    by_cases hf : s.segments[segmentOf (field64 p 0)].state = .fresh
    · rw [if_pos hf, if_pos (show (s.segment (field64 p 0)).state = .fresh from hf)]
      rfl
    · rw [if_neg hf, if_neg (show ¬ (s.segment (field64 p 0)).state = .fresh from hf)]
      rfl

/-- Settles O34: the checks of the fields come first, then room and class. -/
theorem refusedUpdatesChangeNoEntry : Obligations.RefusedUpdatesChangeNoEntry := by
  intro s ref p hd
  refine ⟨fun hl h => ?_, fun hl h => ?_, fun hl h => ?_, fun hl h => ⟨?_, ?_, ?_, ?_⟩,
    fun hid he hf => ⟨fun hl hb => ?_, fun hl hb => ?_, fun hl hb hc => ?_⟩,
    fun e hl hid hb he hc => ?_⟩
  · rw [exec_issue hd hl, update_bad h]
    rfl
  · rw [exec_beginIssue hd hl, update_bad h]
    rfl
  · rw [exec_mark hd hl]
    rcases h with h | h | ⟨h3, h4⟩
    · rw [update_bad (.inl h)]
      rfl
    · rw [update_bad (.inr h)]
      rfl
    · simp only [markClass_none h3 h4, ite_self]
      rfl
  · rw [exec_cancelIssue hd hl, removal_bad h]
    rfl
  · rw [exec_returnItem hd hl, removal_bad h]
    rfl
  · rw [exec_unmark hd hl, removal_bad h]
    rfl
  · rw [exec_lookup hd hl, if_pos ((badFields_none _).2 h)]
    rfl
  · rw [exec_issue hd hl, update_good hid hb, issueRule_full _ _ he hf]
    rfl
  · rw [exec_beginIssue hd hl, update_good hid hb, beginIssueRule_full _ he hf]
    rfl
  · rw [exec_mark hd hl, update_good hid hb]
    rcases hc with hc | hc
    · rw [hc]
      simp only [markClass_barred, markRule_full _ _ he hf]
      rfl
    · rw [hc]
      simp only [markClass_lost, markRule_full _ _ he hf]
      rfl
  · rw [exec_beginIssue hd hl, update_good hid hb, beginIssueRule_mismatch _ he hc]
    rfl

/-! ## What a change settles (R91, R134, R142) -/

/-- A change decides an item but for PENDING before the grace deadline. -/
theorem reevaluate_undecided (s : State) (e : Option Entry) (j : Judging) (r : ItemRecord) :
    (reevaluate s e j r).undecided = false
      ↔ ∀ x, e = some x → x.cls = .pending → j.gracePassed = true := by
  cases e with
  | none =>
    refine ⟨fun _ x hx => (nomatch hx), fun _ => ?_⟩
    by_cases hf : (s.segment r.ident).state = .fresh
    · simp only [reevaluate, hf, if_true]; rfl
    · simp only [reevaluate, hf, if_false]; rfl
  | some x =>
    rw [show (∀ y, some x = some y → y.cls = .pending → j.gracePassed = true)
      ↔ (x.cls = .pending → j.gracePassed = true) from
      ⟨fun h => h x rfl, fun h y hy => Option.some.inj hy ▸ h⟩]
    by_cases hp : x.cls = .pending
    · have hforall : (x.cls = .pending → j.gracePassed = true) ↔ j.gracePassed = true :=
        ⟨fun h => h hp, fun h _ => h⟩
      rw [hforall]
      simp only [reevaluate, hp, if_true, Judging.pendingStatus]
      cases hg : j.gracePassed with
      | false => exact ⟨fun h => (nomatch h), fun h => (nomatch h)⟩
      | true => cases hs : (s.segment r.ident).state <;> exact ⟨fun _ => rfl, fun _ => rfl⟩
    · refine ⟨fun _ h => absurd h hp, fun _ => ?_⟩
      simp only [reevaluate, hp, if_false]
      cases hc : x.cls with
      | pending => exact absurd hc hp
      | issued => rfl
      | barred => rfl
      | lost => rfl

theorem changeDecides_iff {s u : State} (id : Ident) (e : Option Entry)
    (hj : u.judging = s.judging) : changeDecides u id e = true ↔ DecidesItem s id e := by
  unfold changeDecides DecidesItem
  rw [List.any_eq_true, hj]
  refine exists_congr fun j => and_congr_right fun _ => ?_
  rw [List.any_eq_true]
  refine exists_congr fun r => and_congr_right fun _ => ?_
  rw [Bool.and_eq_true, Bool.and_eq_true, beq_iff_eq, Bool.not_eq_true', reevaluate_undecided,
    and_assoc]

theorem stoppedTrack_iff (s : State) (id : Ident) :
    s.stoppedTrack id = true ↔ StoppedTrack s id := by
  unfold State.stoppedTrack StoppedTrack
  cases ht : s.track? id with
  | none => exact ⟨fun h => (nomatch h), fun ⟨x, _, _, _, _, hx, _⟩ => (nomatch hx)⟩
  | some t =>
    constructor
    · intro h
      dsimp only at h
      cases hs : t.state with
      | spent a n w =>
        rw [hs] at h
        cases w with
        | none => cases h
        | some w =>
          obtain ⟨v, b⟩ := w
          exact ⟨t, a, n, v, b, rfl, hs, by simpa using h⟩
      | forming => rw [hs] at h; cases h
      | attributed b m => rw [hs] at h; cases h
      | bound b n => rw [hs] at h; cases h
    · rintro ⟨x, a, n, v, b, hx, hs, hv⟩
      obtain rfl := Option.some.inj hx
      simp only [hs]
      rcases hv with rfl | rfl <;> rfl

/-- The state in which a change is forwarded gives verdicts as `lateBase` does. -/
theorem recordLate_sameJudges (c : ChangeKind) (id : Ident) (e : Option Entry) (s : State) :
    SameJudges (recordLate c id e (writeEntry id e s)) (lateBase id s) := by
  have hw := writeEntry_only id e s
  have hl : (recordLate c id e (writeEntry id e s)).link = (lateBase id s).link := by
    have hr : (writeEntry id e s).refresh = s.refresh := hw.refresh (by decide)
    have hk : (writeEntry id e s).link = s.link := hw.link (by decide)
    have hc : (writeEntry id e s).clock = s.clock := hw.clock (by decide)
    unfold recordLate lateBase
    rw [hr]
    cases s.refresh with
    | none => exact hk
    | some r =>
      dsimp only
      by_cases hseg : r.segment = segmentOf id
      · by_cases hlen : r.late.length < 64
        · rw [if_pos hseg, if_pos hlen, if_neg fun h => absurd h.2 (by omega)]
          exact hk
        · rw [if_pos hseg, if_neg hlen, if_pos ⟨hseg, by omega⟩]
          exact createReport_congr hk hc
      · rw [if_neg hseg, if_neg fun h => hseg h.1]
        exact hk
  have hu : Only [.refresh, .link, .segments] s (recordLate c id e (writeEntry id e s)) :=
    (hw.mono (by decide)).trans ((recordLate_only c id e _).mono (by decide))
  have hb : Only [.link] s (lateBase id s) := by
    unfold lateBase
    split
    · split
      · exact (notice_only _ _).mono (by decide)
      · exact Only.refl _ _
    · exact Only.refl _ _
  refine ⟨?_, ?_, hl.symm, ?_, ?_, ?_⟩
  · rw [hb.tracking (by decide), hu.tracking (by decide)]
  · rw [hb.annunciators (by decide), hu.annunciators (by decide)]
  · rw [hb.clock (by decide), hu.clock (by decide)]
  · rw [hb.site (by decide), hu.site (by decide)]
  · rw [hb.modes (by decide), hu.modes (by decide)]

theorem lateBase_judging (id : Ident) (s : State) : (lateBase id s).judging = s.judging := by
  unfold lateBase
  split
  · split
    · exact (notice_only _ _).judging (by decide)
    · rfl
  · rfl

theorem recordLate_judging (c : ChangeKind) (id : Ident) (e : Option Entry) (s : State) :
    (recordLate c id e (writeEntry id e s)).judging = s.judging := by
  rw [(recordLate_only c id e _).judging (by decide), (writeEntry_only id e s).judging (by decide)]

/-- An applied change re-evaluates the undecided items of its identifier (R134), also where a state
with the same tracks, annunciators and reports is told of. -/
theorem applyChange_judged (c : ChangeKind) (id : Ident) (e : Option Entry) {s t : State}
    (hj : t.judging = (applyChange c id e s).judging)
    (ht : t.tracking = (applyChange c id e s).tracking)
    (ha : t.annunciators = (applyChange c id e s).annunciators)
    (hu : t.link.urgent = (applyChange c id e s).link.urgent)
    (hr : t.link.routine = (applyChange c id e s).link.routine)
    (hn : t.link.nextReport = (applyChange c id e s).link.nextReport) :
    Judged (reevaluated id e (s.segments[segmentOf id].state == .fresh)) (lateBase id s) t := by
  have hf := forward_judged id e (recordLate c id e (writeEntry id e s))
  rw [(recordLate_only c id e _).segments (by decide), writeEntry_state] at hf
  exact hf.transfer (recordLate_sameJudges c id e s)
    ((lateBase_judging id s).trans (recordLate_judging c id e s).symm) hj ht ha hu hr hn

/-- A change of the table with its reply is the update of R91. -/
theorem applied_updated (k : RequestKind) (c : ChangeKind) (ref : Byte) {id : Ident}
    {e : Option Entry} (clamped : Bool) (s : State) (he : ∀ x, e = some x → x.ident = id) :
    Updated s (reply k ref (if clamped then .clamped else .ok)
      (updateBody (changeEffect c id e s.counted) clamped) (applyChange c id e s.counted))
      k c ref id e clamped := by
  obtain ⟨hentry, hstate, hrefresh, hreplies⟩ := applyChange_spec c id e s.counted he
  have hdec : changeDecides (recordLate c id e (writeEntry id e s.counted)) id e = true
      ↔ DecidesItem s id e :=
    changeDecides_iff id e ((recordLate_judging c id e s.counted).trans (counted_judging (s := s)))
  constructor
  case entry => exact (hentry id).trans (if_pos rfl)
  case others => exact fun i hi => (hentry i).trans ((if_neg hi).trans (counted_entry? (s := s) i))
  case states => exact fun i => (hstate i).trans (by rw [counted_segments])
  case refresh => exact hrefresh.trans (by rw [counted_refresh])
  case judged =>
    have h := applyChange_judged c id e (s := s.counted) (t := reply k ref
      (if clamped then .clamped else .ok) (updateBody (changeEffect c id e s.counted) clamped)
      (applyChange c id e s.counted)) rfl rfl rfl rfl rfl rfl
    rwa [counted_segments] at h
  case reply =>
    refine ⟨(changeEffect c id e s.counted).code, fun h => ?_, fun h hc hst => ?_, fun h hn => ?_, ?_⟩
    · rw [changeEffect, if_pos (hdec.2 h)]
      rfl
    · rw [changeEffect, if_neg fun hx => h (hdec.1 hx),
        if_pos ⟨hc, (stoppedTrack_iff _ _).2 hst⟩]
      rfl
    · rw [changeEffect, if_neg fun hx => h (hdec.1 hx), if_neg]
      · rfl
      · exact fun ⟨h1, h2⟩ => hn.elim (fun h => h h1) fun h => h ((stoppedTrack_iff _ _).1 h2)
    · rw [reply_replies, hreplies, counted_replies]
      rfl
  case frame =>
    exact Only.of_counted (((applyChange_only c id e s.counted).mono (by decide)).trans
      ((reply_only _ _ _ _ _).mono (by decide))) (by decide) (by decide)

/-- Settles O32: each writer's rule stores the entry its request names. -/
theorem issueBeginIssueAndMarkStoreTheirEntry :
    Obligations.IssueBeginIssueAndMarkStoreTheirEntry := by
  intro s ref p hd hid hroom
  refine ⟨fun hl hb => ?_, fun hl hb hp => ?_, fun cls hl hb hc => ?_⟩
  · rw [exec_issue hd hl, update_good hid hb, issueRule_room _ _ hroom, expiryField_getD,
      expiryClamped_field, deskField_isSome, keptDesk_eq, deskField_kept, ite_min]
    exact ⟨_, rfl, applied_updated _ _ _ _ _ fun x hx => Option.some.inj hx ▸ rfl⟩
  · rw [exec_beginIssue hd hl, update_good hid hb, beginIssueRule_room _ hroom hp]
    exact ⟨_, rfl, applied_updated _ _ _ _ _ fun x hx => Option.some.inj hx ▸ rfl⟩
  · have hclass : markClass (byteAt p 8) = some cls ∧ (cls = .barred ∨ cls = .lost) := by
      rcases hc with ⟨hb8, rfl⟩ | ⟨hb8, rfl⟩
      · exact ⟨hb8 ▸ markClass_barred, .inl rfl⟩
      · exact ⟨hb8 ▸ markClass_lost, .inr rfl⟩
    rw [exec_mark hd hl, update_good hid hb, hclass.1]
    dsimp only
    rw [markRule_room _ hclass.2 hroom, expiryField_getD, expiryClamped_field, ite_min, Nat.zero_min]
    exact ⟨_, rfl, applied_updated _ _ _ _ _ fun x hx => Option.some.inj hx ▸ rfl⟩

/-- Settles O33: a removal where the class is one of the request's. -/
theorem cancelReturnAndUnmarkRemoveTheirEntry :
    Obligations.CancelReturnAndUnmarkRemoveTheirEntry := by
  intro s ref p c k kind takes hd hl hid h
  have hexec : ∃ P : EntryClass → Bool, (∀ x, P x = true ↔ takes x) ∧ exec c s = .next
      (runUpdate k kind ref (field64 p 0) (removeRule P s.counted (field64 p 0)) s.counted) := by
    rcases h with ⟨rfl, rfl, rfl, rfl⟩ | ⟨rfl, rfl, rfl, rfl⟩ | ⟨rfl, rfl, rfl, rfl⟩
    · refine ⟨_, fun x => ?_, (exec_cancelIssue hd hl).trans (by rw [removal_good hid])⟩
      exact beq_iff_eq
    · refine ⟨_, fun x => ?_, (exec_returnItem hd hl).trans (by rw [removal_good hid])⟩
      rw [Bool.or_eq_true, beq_iff_eq, beq_iff_eq]
    · refine ⟨_, fun x => ?_, (exec_unmark hd hl).trans (by rw [removal_good hid])⟩
      rw [Bool.or_eq_true, beq_iff_eq, beq_iff_eq]
  obtain ⟨P, hP, hexec⟩ := hexec
  rw [hexec]
  refine ⟨fun e he ht => ?_, fun e he ht => ?_, fun he => ?_⟩
  · rw [removeRule_some he, if_pos ((hP _).2 ht)]
    exact ⟨_, rfl, applied_updated k kind ref false s fun x hx => nomatch hx⟩
  · rw [removeRule_some he, if_neg fun hx => ht ((hP _).1 hx)]
    rfl
  · rw [removeRule_none he]
    rfl

/-! ## Aging (R94) -/

/-- A minute less of an entry's life. -/
def Entry.minuteLess (e : Entry) : Entry := { e with expiry := e.expiry - 1 }

theorem Entry.minuteLess_zero {e : Entry} (h : e.expiry = 0) : e.minuteLess = e := by
  rcases e with ⟨i, c, n, d⟩
  obtain rfl : n = 0 := h
  rfl

theorem filterMap_aged (l : List Entry) :
    l.filterMap Entry.aged = (l.filter fun e => e.expiry != 1).map Entry.minuteLess := by
  induction l with
  | nil => rfl
  | cons e l ih =>
    by_cases h1 : e.expiry = 1
    · have ha : e.aged = none := (if_neg (by omega)).trans (if_pos h1)
      rw [List.filterMap_cons_none ha, List.filter_cons_of_neg (by simp [h1]), ih]
    · have ha : e.aged = some e.minuteLess := by
        unfold Entry.aged
        by_cases h0 : e.expiry = 0
        · rw [if_pos h0, Entry.minuteLess_zero h0]
        · rw [if_neg h0, if_neg h1]
          rfl
      rw [List.filterMap_cons_some ha, List.filter_cons_of_pos (by simpa using h1), List.map_cons, ih]

/-- The removals that aging forwards change no entry. -/
theorem ageTable_forwards (s : State) : Only verdictParts (s.setSegments
    (mapVector (fun g => { g with entries := g.entries.filterMap Entry.aged }) s.segments))
    (ageTable s) :=
  Only.foldl (fun s id => forward_only id none s) _ _

/-- The entry of an identifier after aging. -/
theorem ageTable_entry? {s : State}
    (hs : ∀ i : Fin 64, risingKeys Entry.key s.segments[i].entries = true) (i : Ident) :
    (ageTable s).entry? i
      = ((s.entry? i).filter fun e => e.expiry != 1).map Entry.minuteLess := by
  rw [(ageTable_forwards s).entry? (by decide)]
  unfold State.entry? State.segment
  rw [State.setSegments_segments, mapVector_get, filterMap_aged]
  rw [find_map_key (f := Entry.ident) (g := Entry.minuteLess) fun _ => rfl,
    find_filter_key (f := Entry.ident) Entry.key_iff (hs _)]

/-- Settles O35: what is left of each entry after a minute. -/
theorem minuteTickAgesEveryEntry : Obligations.MinuteTickAgesEveryEntry := by
  intro s hs hp
  let s1 := s.setClock { s.clock with phase := 0 }
  have hage := fun i => ageTable_entry? (s := s1) hs i
  have hframe := ageTable_only s1
  refine ⟨ageTable s1, if_pos hp, ?_, fun i hi => ?_, fun i e he => ⟨fun h0 => ?_, fun h1 => ?_,
    fun h2 => ?_⟩, fun i => ?_, ?_⟩
  · exact hframe.clock (by decide)
  · rw [hage, show s1.entry? i = none from hi]
    rfl
  · rw [hage, show s1.entry? i = some e from he]
    rw [Option.filter_some, if_pos (by simp [h0]), Option.map_some,
      Entry.minuteLess_zero h0]
  · rw [hage, show s1.entry? i = some e from he, Option.filter_some, if_neg (by simp [h1])]
    rfl
  · rw [hage, show s1.entry? i = some e from he, Option.filter_some,
      if_pos (by simpa using (by omega : e.expiry ≠ 1))]
    rfl
  · rw [(ageTable_forwards s1).segments (by decide), State.setSegments_segments, mapVector_get]
    rfl
  · exact ((only_setClock s _).mono (by decide)).trans (hframe.mono (by decide))

end Sys2Proof.Machine
end


section
/-! PROOFS. The refresh unit: a block's entries, the swap, the aborts, TRUST and SUPERVISE. -/

namespace Sys2Proof.Machine

/-! ## The entries of a block (R100) -/

theorem readEntries_length (p : List Byte) (n i : Nat) : (readEntries p n i).length = n := by
  induction n generalizing i with
  | zero => rfl
  | succ n ih => exact congrArg (· + 1) (ih _)

/-- An entry of a block that a refresh of segment `g` skips. -/
def BlockEntry.skips (g : Fin 64) (b : BlockEntry) : Bool :=
  b.ident == 0 || segmentOf b.ident != g || (EntryClass.ofCode b.cls).isNone

theorem BlockEntry.skips_iff (g : Fin 64) (b : BlockEntry) :
    b.skips g = true ↔ b.ident = 0 ∨ segmentOf b.ident ≠ g ∨ EntryClass.ofCode b.cls = none := by
  rw [BlockEntry.skips, Bool.or_eq_true, Bool.or_eq_true, beq_iff_eq, bne_iff_ne,
    Option.isNone_iff_eq_none, or_assoc]

theorem takeEntry_skipped {r : RefreshRecord} {b : BlockEntry} (h : b.skips r.segment = true) :
    r.takeEntry b = { r with skipped := r.skipped + 1 } := by
  unfold RefreshRecord.takeEntry
  cases hc : EntryClass.ofCode b.cls with
  | none => rfl
  | some c =>
    refine if_pos ?_
    rcases (b.skips_iff r.segment).1 h with h | h | h
    · exact .inl h
    · exact .inr h
    · exact absurd (hc.symm.trans h) nofun

theorem takeEntry_stored {r : RefreshRecord} {b : BlockEntry} {c : EntryClass} (h0 : b.ident ≠ 0)
    (hg : segmentOf b.ident = r.segment) (hc : EntryClass.ofCode b.cls = some c) :
    r.takeEntry b =
      { r with
        shadow := putKeyed Entry.key
          (Entry.constrained { ident := b.ident, cls := c, expiry := b.expiry, desk := none })
          r.shadow } := by
  unfold RefreshRecord.takeEntry
  rw [hc]
  exact if_neg fun h => h.elim h0 fun h => h hg

theorem not_skips {g : Fin 64} {b : BlockEntry} (h : ¬ b.skips g = true) :
    b.ident ≠ 0 ∧ segmentOf b.ident = g ∧ ∃ c, EntryClass.ofCode b.cls = some c := by
  rw [b.skips_iff, not_or, not_or, not_not] at h
  obtain ⟨h0, hg, hc⟩ := h
  exact ⟨h0, hg, Option.ne_none_iff_exists'.1 hc⟩

theorem foldl_takeEntry_skipped (es : List BlockEntry) (r : RefreshRecord) :
    (es.foldl RefreshRecord.takeEntry r).skipped
      = r.skipped + (es.filter (·.skips r.segment)).length := by
  induction es generalizing r with
  | nil => rfl
  | cons b es ih =>
    rw [List.foldl_cons, ih, (r.takeEntry_rest b).1]
    by_cases h : b.skips r.segment = true
    · rw [takeEntry_skipped h, List.filter_cons_of_pos h, List.length_cons]
      exact Nat.add_right_comm ..
    · obtain ⟨h0, hg, c, hc⟩ := not_skips h
      rw [takeEntry_stored h0 hg hc, List.filter_cons_of_neg h]

/-- What is stored stands under the keys of a constrained entry. -/
theorem find_takeEntry_stored {r : RefreshRecord} {b : BlockEntry} {c : EntryClass}
    (h0 : b.ident ≠ 0) (hg : segmentOf b.ident = r.segment)
    (hc : EntryClass.ofCode b.cls = some c) (i : Ident) :
    (r.takeEntry b).shadow.find? (fun e => e.ident == i)
      = if b.ident = i then
          some (Entry.constrained { ident := b.ident, cls := c, expiry := b.expiry, desk := none })
        else r.shadow.find? (fun e => e.ident == i) := by
  rw [takeEntry_stored h0 hg hc]
  exact find_putKeyed (f := Entry.ident) Entry.key_iff _ _ i

/-- An identifier of which a block has no entry to take keeps what the shadow held. -/
theorem foldl_takeEntry_keeps {es : List BlockEntry} {r : RefreshRecord} {i : Ident}
    (h : ∀ y ∈ es, y.ident = i → y.skips r.segment = true) :
    (es.foldl RefreshRecord.takeEntry r).shadow.find? (fun e => e.ident == i)
      = r.shadow.find? (fun e => e.ident == i) := by
  induction es generalizing r with
  | nil => rfl
  | cons b es ih =>
    rw [List.foldl_cons, ih fun y hy hi => by
      rw [(r.takeEntry_rest b).1]; exact h y (List.mem_cons_of_mem _ hy) hi]
    by_cases hs : b.skips r.segment = true
    · rw [takeEntry_skipped hs]
    · obtain ⟨h0, hg, c, hc⟩ := not_skips hs
      rw [find_takeEntry_stored h0 hg hc, if_neg fun hi => hs (h b List.mem_cons_self hi)]

/-- The last entry of an identifier that a block carries for the segment is the one that stands. -/
theorem foldl_takeEntry_last {l m : List BlockEntry} {x : BlockEntry} {r : RefreshRecord}
    {c : EntryClass} (h0 : x.ident ≠ 0) (hg : segmentOf x.ident = r.segment)
    (hc : EntryClass.ofCode x.cls = some c)
    (hm : ∀ y ∈ m, y.ident = x.ident → EntryClass.ofCode y.cls = none) :
    ((l ++ x :: m).foldl RefreshRecord.takeEntry r).shadow.find? (fun e => e.ident == x.ident)
      = some (Entry.constrained { ident := x.ident, cls := c, expiry := x.expiry, desk := none }) := by
  have hl := (foldl_takeEntry_rest l r).1
  rw [List.foldl_append, List.foldl_cons, foldl_takeEntry_keeps fun y hy hi =>
    (y.skips_iff _).2 (.inr (.inr (hm y hy hi))),
    find_takeEntry_stored h0 (hg.trans hl.symm) hc, if_pos rfl]

theorem constrained_block (i : Ident) (c : EntryClass) (n : Nat) :
    Entry.constrained { ident := i, cls := c, expiry := n, desk := none }
      = { ident := i, cls := c, desk := none
          expiry := if c = .pending ∧ n = 0 then 10 else min n 1440 } := by
  cases c <;> rfl

/-! ## SEG-BLOCK (R99, R101) -/

theorem exec_segBlock {s : State} {ref : Byte} {p : List Byte} (hd : s.dispatches)
    (h5 : 5 ≤ p.length) (h16 : (byteAt p 4).toNat ≤ 16)
    (hl : p.length = 5 + 11 * (byteAt p 4).toNat) :
    exec (.segBlock ref p) s = .next (takeSegBlock ref (byteAt p 0) (field16 p 1)
      (byteAt p 3 != 0) (readEntries p (byteAt p 4).toNat 5) s.counted) :=
  exec_request (k := .segBlock) rfl hd (by
    simp only [lengthAllowed, Bool.and_eq_true, decide_eq_true_eq, beq_iff_eq]
    exact ⟨⟨h5, h16⟩, hl⟩)

section
variable {s : State} {r : RefreshRecord} (hr : s.refresh = some r) {ref seg : Byte} {b : Word16}
  {last : Bool} {es : List BlockEntry}
include hr

theorem takeSegBlock_sequence (hseg : r.segment.val = seg.toNat) (hb : b ≠ r.expected) :
    takeSegBlock ref seg b last es s
      = reply .segBlock ref .sequence (countsBody r.declared r.received r.skipped 0)
        (s.setRefresh (some { r with idleAt := after s.clock.now 2000 })) := by
  simp only [takeSegBlock, hr]
  rw [if_neg (not_not.2 hseg.symm), if_pos hb]

theorem takeSegBlock_good (hseg : r.segment.val = seg.toNat) (hb : b = r.expected) :
    takeSegBlock ref seg b last es s = takeGoodBlock ref r last es s := by
  simp only [takeSegBlock, hr]
  rw [if_neg (not_not.2 hseg.symm), if_neg (not_not.2 hb)]

end

theorem takeSegBlock_noRefresh {s : State} {seg : Byte} (ref : Byte) (b : Word16) (last : Bool)
    (es : List BlockEntry) (h : ∀ r, s.refresh = some r → r.segment.val ≠ seg.toNat) :
    takeSegBlock ref seg b last es s = reply .segBlock ref .noRefresh (countsBody 0 0 0 0) s := by
  unfold takeSegBlock
  cases hr : s.refresh with
  | none => rfl
  | some r => exact if_pos fun he => h r hr he.symm

section
variable {r : RefreshRecord} {es : List BlockEntry} (ref : Byte) (last : Bool) (s : State)

theorem takeGoodBlock_over (h : r.declared < r.received + es.length) :
    takeGoodBlock ref r last es s = reply .segBlock ref .count
      (countsBody r.declared r.received 0 0) (s.setRefresh none) :=
  if_pos h

theorem takeGoodBlock_taken (h : r.received + es.length ≤ r.declared) :
    takeGoodBlock ref r false es s = reply .segBlock ref .ok
      (countsBody (r.takeBlock s.clock.now es).declared (r.takeBlock s.clock.now es).received
        (r.takeBlock s.clock.now es).skipped 0)
      (s.setRefresh (some (r.takeBlock s.clock.now es))) :=
  if_neg (Nat.not_lt.2 h)

theorem takeGoodBlock_unmet (h : r.received + es.length ≤ r.declared)
    (hne : r.received + es.length ≠ r.declared) :
    takeGoodBlock ref r true es s = reply .segBlock ref .count
      (countsBody r.declared (r.received + es.length) 0 0) (s.setRefresh none) := by
  obtain ⟨-, hdec, hrec, -⟩ := takeBlock_rest r s.clock.now es
  refine (if_neg (Nat.not_lt.2 h)).trans ?_
  dsimp only
  rw [hdec, hrec]
  exact if_pos hne

theorem takeGoodBlock_done (h : r.received + es.length = r.declared) :
    takeGoodBlock ref r true es s = reply .segBlock ref .done
      (countsBody r.declared r.declared (r.takeBlock s.clock.now es).skipped
        (r.takeBlock s.clock.now es).replayed.2) (swap (r.takeBlock s.clock.now es) s) := by
  obtain ⟨-, hdec, hrec, -⟩ := takeBlock_rest r s.clock.now es
  refine (if_neg (Nat.not_lt.2 h.le)).trans ?_
  dsimp only
  rw [hdec, hrec]
  exact (if_neg (not_not.2 h)).trans (by rw [h])

end

theorem countsBody_zeros (d n : Nat) :
    countsBody d n 0 0 = count16 d ++ count16 n ++ [0, 0, 0, 0] := by
  rw [countsBody, List.append_assoc (count16 d ++ count16 n)]
  rfl

/-- Settles O38: the checks in their order, and the block taken entry by entry. -/
theorem segBlockIsTakenInOrder : Obligations.SegBlockIsTakenInOrder := by
  intro s ref p hd h5 h16 hl
  have hlen := readEntries_length p (byteAt p 4).toNat 5
  rw [exec_segBlock hd h5 h16 hl]
  refine ⟨fun h => ?_, fun r hr hseg => ?_⟩
  · rw [takeSegBlock_noRefresh (s := s.counted) _ _ _ _ (by rwa [counted_refresh])]
    rfl
  have hc : s.counted.refresh = some r := (counted_refresh s).trans hr
  refine ⟨fun hb => ?_, fun hb => ⟨fun hover => ?_, fun hfit => ⟨fun hlast => ?_,
    fun hlast hne => ?_⟩⟩⟩
  · rw [takeSegBlock_sequence hc hseg hb, counted_clock]
    rfl
  · rw [takeSegBlock_good hc hseg hb, takeGoodBlock_over _ _ _ (by rwa [hlen]), countsBody_zeros]
    rfl
  · rw [takeSegBlock_good hc hseg hb, show (byteAt p 3 != 0) = false by rw [hlast]; rfl,
      takeGoodBlock_taken _ _ (by rwa [hlen])]
    obtain ⟨hsegment, hdeclared, hreceived, hlate, hexpected, hidle⟩ :=
      takeBlock_rest r s.counted.clock.now (readEntries p (byteAt p 4).toNat 5)
    refine ⟨_, _, rfl, rfl, by rw [hreceived, hlen], hexpected, by rw [hidle, counted_clock], hlate,
      hsegment, hdeclared, foldl_takeEntry_skipped _ _, fun l m x c hes h0 hg hcls hm => ?_,
      fun i hi => ?_, ?_, ?_⟩
    · rw [hes, ← constrained_block]
      exact foldl_takeEntry_last h0 hg hcls hm
    · exact foldl_takeEntry_keeps fun y hy hyi => (y.skips_iff _).2 (hyi ▸ hi y hy hyi)
    · rw [reply_replies, State.setRefresh_link, counted_replies]
      rfl
    · exact Only.of_counted (((only_setRefresh _ _).mono (by decide)).trans
        ((reply_only _ _ _ _ _).mono (by decide))) (by decide) (by decide)
  · rw [takeSegBlock_good hc hseg hb, show (byteAt p 3 != 0) = true from bne_iff_ne.2 hlast,
      takeGoodBlock_unmet _ _ (by rwa [hlen]) (by rwa [hlen]), countsBody_zeros, hlen]
    rfl

/-! ## The replay of the late changes (R102) -/

theorem replayChange_keeps {d : LateChange} {i : Ident} (hd : d.ident ≠ i)
    (he : ∀ e, d.entry = some e → e.ident ≠ i) (acc : List Entry × Nat) :
    (replayChange acc d).1.find? (fun x => x.ident == i) = acc.1.find? (fun x => x.ident == i) := by
  unfold replayChange
  cases hx : d.entry with
  | none =>
    exact (find_dropKeyed (key := Entry.key) (f := Entry.ident) (g := BitVec.toNat) (fun _ => rfl)
      (fun _ _ => BitVec.toNat_inj.1) d.ident i acc.1).trans (if_neg (Ne.symm hd))
  | some e =>
    dsimp only
    split
    · exact (find_putKeyed (f := Entry.ident) Entry.key_iff e acc.1 i).trans (if_neg (he e hx))
    · rfl

theorem foldl_replayChange_keeps {l : List LateChange} {i : Ident}
    (h : ∀ d ∈ l, d.ident ≠ i ∧ ∀ e, d.entry = some e → e.ident ≠ i) (acc : List Entry × Nat) :
    (l.foldl replayChange acc).1.find? (fun x => x.ident == i)
      = acc.1.find? (fun x => x.ident == i) := by
  induction l generalizing acc with
  | nil => rfl
  | cons d l ih =>
    obtain ⟨hd, he⟩ := h d List.mem_cons_self
    rw [List.foldl_cons, ih fun x hx => h x (List.mem_cons_of_mem _ hx), replayChange_keeps hd he]

/-- No replayed change takes back a drop. -/
theorem dropped_le (l : List LateChange) (acc : List Entry × Nat) :
    acc.2 ≤ (l.foldl replayChange acc).2 := by
  induction l generalizing acc with
  | nil => exact Nat.le_refl _
  | cons d l ih =>
    refine Nat.le_trans ?_ (ih _)
    unfold replayChange
    split
    · split
      · exact Nat.le_refl _
      · exact Nat.le_succ _
    · exact Nat.le_refl _

theorem replayChange_removes {c : LateChange} (hc : c.entry = none) (acc : List Entry × Nat) :
    (replayChange acc c).1.find? (fun x => x.ident == c.ident) = none := by
  simp only [replayChange, hc]
  exact (find_dropKeyed (key := Entry.key) (f := Entry.ident) (g := BitVec.toNat) (fun _ => rfl)
    (fun _ _ => BitVec.toNat_inj.1) c.ident c.ident acc.1).trans (if_pos rfl)

/-- A change that is not dropped stores its entry. -/
theorem replayChange_stores {c : LateChange} {e : Entry} (hc : c.entry = some e)
    (acc : List Entry × Nat) (h : (replayChange acc c).2 = 0) :
    (replayChange acc c).1.find? (fun x => x.ident == e.ident) = some e := by
  simp only [replayChange, hc] at h ⊢
  split
  · exact (find_putKeyed (f := Entry.ident) Entry.key_iff e acc.1 e.ident).trans (if_pos rfl)
  · next hn =>
    rw [if_neg hn] at h
    exact absurd h (Nat.succ_ne_zero _)

/-! ## The swap (R101, R103) -/

theorem swap_segments (r : RefreshRecord) (s : State) (i : Fin 64) :
    (swap r s).segments[i]
      = if r.segment = i then { state := .fresh, entries := r.replayed.1 } else s.segments[i] := by
  rw [swap, (swapLookup_only _ _).segments (by decide)]
  exact set_get ..

theorem swap_refresh (r : RefreshRecord) (s : State) : (swap r s).refresh = none :=
  (swapLookup_only _ _).refresh (by decide)

theorem swap_replies (r : RefreshRecord) (s : State) :
    (swap r s).link.replies = s.link.replies :=
  settle_replies _ _

/-- The lookups of a swap, also in a state with a reply to come (R103, R135). -/
theorem swap_judged (r : RefreshRecord) {s t : State} (hj : t.judging = (swap r s).judging)
    (ht : t.tracking = (swap r s).tracking) (ha : t.annunciators = (swap r s).annunciators)
    (hu : t.link.urgent = (swap r s).link.urgent) (hr : t.link.routine = (swap r s).link.routine)
    (hn : t.link.nextReport = (swap r s).link.nextReport) :
    Judged (relookedUp r.segment r.replayed.1) s t := by
  let m := (s.setSegments (s.segments.set r.segment
    { state := .fresh, entries := r.replayed.1 })).setRefresh none
  have hm : m.segments[r.segment] = { state := .fresh, entries := r.replayed.1 } :=
    (set_get _ _ _ _).trans (if_pos rfl)
  have h := swapLookup_judged r.segment m (by rw [hm])
  rw [hm] at h
  exact h.transfer (b' := s) ⟨rfl, rfl, rfl, rfl, rfl, rfl⟩ rfl hj ht ha hu hr hn

/-- Settles O39: the swap's table, the replay change by change, and the lookups of R135. -/
theorem lastBlockMakesTheSwap : Obligations.LastBlockMakesTheSwap := by
  intro s ref p r hd h5 h16 hl hlast hr hseg hb hsum
  have hlen := readEntries_length p (byteAt p 4).toNat 5
  rw [exec_segBlock hd h5 h16 hl, takeSegBlock_good ((counted_refresh s).trans hr) hseg hb,
    show (byteAt p 3 != 0) = true from bne_iff_ne.2 hlast,
    takeGoodBlock_done _ _ (by rwa [hlen]), counted_clock]
  obtain ⟨hsegment, -, -, hlate, -, -⟩ :=
    takeBlock_rest r s.clock.now (readEntries p (byteAt p 4).toNat 5)
  refine ⟨_, _, rfl, rfl, ?_⟩
  generalize r.takeBlock s.clock.now (readEntries p (byteAt p 4).toNat 5) = r' at *
  refine ⟨(swap_segments r' _ _).trans (if_pos hsegment), fun i hi => ?_, swap_refresh r' _,
    fun l c m hsplit hn hent => ?_, fun i hi => ?_, ?_, ?_, ?_⟩
  · refine (swap_segments r' _ i).trans ((if_neg fun h => hi (h.symm.trans hsegment)).trans ?_)
    rw [counted_segments]
  · have hkeep : ∀ d ∈ m, d.ident ≠ c.ident ∧ ∀ e, d.entry = some e → e.ident ≠ c.ident :=
      fun d hd => ⟨hn d hd, fun e he => by
        rw [hent d (hsplit ▸ List.mem_append_right _ (List.mem_cons_of_mem _ hd)) e he]
        exact hn d hd⟩
    have hrep : r'.replayed
        = m.foldl replayChange (replayChange (l.foldl replayChange (r'.shadow, 0)) c) := by
      rw [RefreshRecord.replayed, hlate, hsplit, List.foldl_append, List.foldl_cons]
    rw [hrep, foldl_replayChange_keeps hkeep]
    refine ⟨fun hc => replayChange_removes hc _, fun e hc h0 => ?_⟩
    have hstored := replayChange_stores hc (l.foldl replayChange (r'.shadow, 0))
      (Nat.le_zero.1 ((dropped_le m _).trans h0.le))
    rwa [hent c (hsplit ▸ List.mem_append_right _ List.mem_cons_self) e hc] at hstored
  · rw [RefreshRecord.replayed, hlate]
    exact foldl_replayChange_keeps hi _
  · rw [← hsegment]
    exact swap_judged r' rfl rfl rfl rfl rfl rfl
  · rw [reply_replies, swap_replies, counted_replies]
    rfl
  · exact Only.of_counted (((swap_only _ _).mono (by decide)).trans
        ((reply_only _ _ _ _ _).mono (by decide))) (by decide) (by decide)

/-! ## The aborts (R105, R111) -/

/-- The abort that an expiry makes of a refresh in flight (R111, step 2). -/
def silentAbort (s : State) : State :=
  match s.refresh with
  | some r => abortRefresh .silent r s
  | none => s

theorem supervisorExpires_eq (period : Nat) (s : State) : supervisorExpires period s
    = (notice .linkSilent (silentAbort
        (s.setSegments (mapVector Segment.distrusted s.segments)))).setSupervisor
      (.expired period) := rfl

theorem silentAbort_only (s : State) : Only [.refresh, .link] s (silentAbort s) := by
  unfold silentAbort
  split
  · exact abortRefresh_only _ _ _
  · exact Only.refl _ _

theorem silentAbort_refresh (s : State) : (silentAbort s).refresh = none := by
  unfold silentAbort
  split
  · exact (notice_only _ _).refresh (by decide)
  · assumption

/-- The abort's notice does not depend on the segments. -/
theorem silentAbort_setSegments (s : State) (v : Vector Segment 64) :
    (silentAbort (s.setSegments v)).link = (match s.refresh with
        | some r => notice (.refreshAborted .silent r.segment) s
        | none => s).link
      ∧ (silentAbort (s.setSegments v)).clock = (match s.refresh with
        | some r => notice (.refreshAborted .silent r.segment) s
        | none => s).clock := by
  unfold silentAbort
  rw [State.setSegments_refresh]
  cases s.refresh with
  | none => exact ⟨rfl, rfl⟩
  | some r =>
    have hnotice := notice_only (.refreshAborted .silent r.segment) s
    have habort := abortRefresh_only .silent r (s.setSegments v)
    exact ⟨createReport_congr rfl rfl,
      (habort.clock (by decide)).trans (hnotice.clock (by decide)).symm⟩

theorem distrusted_state (g : Segment) :
    g.distrusted.state = if g.state = .fresh then .suspect else g.state := by
  unfold Segment.distrusted
  cases g.state <;> rfl

/-- Settles O40: the idle abort, and the steps of the expiry. -/
theorem idleAndSilenceAbortTheRefresh : Obligations.IdleAndSilenceAbortTheRefresh := by
  intro s
  refine ⟨fun r hr hp => ?_, fun period d hs hp => ?_⟩
  · change execRefreshIdleDeadline s = _
    simp only [execRefreshIdleDeadline, hr]
    exact if_pos hp
  · refine ⟨supervisorExpires period s, ?_, fun i => ?_, ?_, rfl, ?_, ?_⟩
    · change execSupervisorExpiry s = _
      simp only [execSupervisorExpiry, hs]
      exact if_pos hp
    · have hi : (supervisorExpires period s).segments[i] = s.segments[i].distrusted := by
        rw [supervisorExpires_eq, State.setSupervisor_segments,
          (notice_only _ _).segments (by decide), (silentAbort_only _).segments (by decide)]
        exact mapVector_get ..
      rw [hi]
      exact ⟨rfl, distrusted_state _⟩
    · rw [supervisorExpires_eq, State.setSupervisor_refresh, (notice_only _ _).refresh (by decide)]
      exact silentAbort_refresh _
    · rw [supervisorExpires_eq, State.setSupervisor_link]
      exact createReport_congr (silentAbort_setSegments s _).1 (silentAbort_setSegments s _).2
    · exact (supervisorExpires_only period s).mono (by decide)

/-! ## TRUST and SUPERVISE (R108, R109) -/

theorem boolCode_decide (c : Prop) [Decidable c] :
    boolCode (decide c) = if c then 0x01 else 0x00 := by
  unfold boolCode
  by_cases h : c
  · rw [if_pos h, if_pos (decide_eq_true h)]
  · rw [if_neg h, if_neg (by simpa using h)]

theorem takeSupervise_set {n : Nat} (ref : Byte) (s : State) (h : n ≠ 0) :
    takeSupervise ref n s = reply .supervise ref (if 600 < n then .clamped else .ok)
      [if 600 < n then 0x01 else 0x00]
      (s.setSupervisor (.running (min n 600) (after s.clock.now (min n 600 * 1000)))) := by
  rw [takeSupervise, if_neg h, boolCode_decide]
  rfl

/-- The link after a reply depends only on the link before it. -/
theorem reply_link (k : RequestKind) (ref : Byte) (st : Status) (body : List Byte) {s t : State}
    (h : s.link = t.link) :
    (reply k ref st body s).link = (placeReply k.replyCode ref st body t).link := by
  rw [reply, placeReply, placeReply, State.setLink_link, State.setLink_link, h]

/-- Settles O41: the segments TRUST names, and the countdown SUPERVISE sets. -/
theorem trustAndSupervise : Obligations.TrustAndSupervise := by
  intro s ref p hd
  refine ⟨fun hl => ?_, fun hl => ?_⟩
  · have htrust : exec (.trust ref p) s = .next (takeTrust ref (field64 p 0) s.counted) :=
      exec_request (k := .trust) rfl hd (beq_iff_eq.2 hl)
    have hi (i : Fin 64) : (takeTrust ref (field64 p 0) s.counted).segments[i]
        = if (field64 p 0).getLsbD i.val then { s.segments[i] with state := .fresh }
          else s.segments[i] := by
      rw [takeTrust, (reply_only _ _ _ _ _).segments (by decide), State.setSegments_segments,
        counted_segments]
      exact Vector.getElem_ofFn i.isLt
    refine ⟨_, htrust, fun i => ?_, ?_,
      Only.of_counted ((takeTrust_only ref _ _).mono (by decide)) (by decide) (by decide)⟩
    · rw [hi]
      split <;> exact ⟨rfl, rfl⟩
    · exact reply_link .trust ref .ok [] (State.setSegments_link s.counted _)
  · have hsup : exec (.supervise ref p) s
        = .next (takeSupervise ref (field16 p 0).toNat s.counted) :=
      exec_request (k := .supervise) rfl hd (beq_iff_eq.2 hl)
    rw [hsup]
    refine ⟨fun h0 => ?_, fun h0 => ?_⟩
    · rw [h0]
      rfl
    · have hn : (field16 p 0).toNat ≠ 0 := fun h => h0 (BitVec.eq_of_toNat_eq h)
      refine ⟨_, rfl, ?_, ?_,
        Only.of_counted ((takeSupervise_only ref _ _).mono (by decide)) (by decide) (by decide)⟩
      · rw [takeSupervise_set ref _ hn, counted_clock]
        rfl
      · rw [takeSupervise_set ref _ hn]
        rfl

end Sys2Proof.Machine
end


section
/-! PROOFS. ANSWER: the query it closes, what it stores, and its reply. -/

namespace Sys2Proof.Machine

theorem exec_answer {s : State} {ref : Byte} {p : List Byte} (hd : s.dispatches)
    (hl : p.length = 12) : exec (.answer ref p) s = .next (takeAnswer ref (byteAt p 0)
      (field64 p 1) (byteAt p 9) (expiryField (field16 p 10)) s.counted) :=
  exec_request (k := .answer) rfl hd (beq_iff_eq.2 hl)

/-! ## Its fields (R120) -/

theorem answerCode_undefined {b : Byte} (h : 4 < b.toNat) : HostAnswer.ofCode b = none := by
  have hne : ∀ c : Byte, c.toNat ≤ 4 → b ≠ c := fun c hc he => by rw [he] at h; omega
  unfold HostAnswer.ofCode EntryClass.ofCode
  rw [if_neg (hne 0x00 (by decide)), if_neg (hne 0x01 (by decide)), if_neg (hne 0x02 (by decide)),
    if_neg (hne 0x03 (by decide)), if_neg (hne 0x04 (by decide))]
  rfl

theorem takeAnswer_range {n b : Byte} {id : Ident} (ref : Byte) (ex : Option Nat) (s : State)
    (h : id = 0 ∨ 4 < b.toNat) : takeAnswer ref n id b ex s = reply .answer ref .range [0] s := by
  unfold takeAnswer
  by_cases h0 : id = 0
  · exact if_pos h0
  · rw [if_neg h0, answerCode_undefined (h.resolve_left h0)]

theorem takeAnswer_settles {n b : Byte} {id : Ident} {a : HostAnswer} (ref : Byte)
    (ex : Option Nat) (s : State) (h0 : id ≠ 0) (ha : HostAnswer.ofCode b = some a) :
    takeAnswer ref n id b ex s = settleAnswer ref n id a ex s := by
  unfold takeAnswer
  rw [if_neg h0, ha]

theorem answerMatches_iff (s : State) (n : Byte) (id : Ident) : s.answerMatches n id = true
    ↔ n ≠ 0 ∧ ∃ q ∈ s.queries.list, q.number = n ∧ q.ident = id := by
  rw [State.answerMatches, Bool.and_eq_true, bne_iff_ne, List.any_eq_true]
  simp only [Bool.and_eq_true, beq_iff_eq]

/-! ## The entry it stores (R122) -/

/-- The entry that a class result of an ANSWER with expiry field `w` stores. -/
def State.answeredEntry (s : State) (id : Ident) (c : EntryClass) (w : Word16) : Entry where
  ident := id
  cls := c
  expiry :=
    if w = 0xFFFF then
      (if c = .issued then min s.site.expiry 1440 else if c = .pending then 10 else 0)
    else if c = .pending ∧ w = 0 then 10
    else min w.toNat 1440
  desk := if c = .issued ∨ c = .pending then
      (match s.entry? id with
       | some e => if e.cls = .issued ∨ e.cls = .pending then e.desk else none
       | none => none)
    else none

/-- The rule reads only the table and the site. -/
theorem answerRule_congr {s t : State} (hsegs : s.segments = t.segments) (hsite : s.site = t.site)
    (id : Ident) (c : EntryClass) (ex : Option Nat) :
    answerRule s id c ex = answerRule t id c ex := by
  have hentry : ∀ i, s.entry? i = t.entry? i := fun i => by
    rw [State.entry?, State.entry?, State.segment, State.segment, hsegs]
  have hroom : ∀ i, s.hasRoom i = t.hasRoom i := fun i => by
    rw [State.hasRoom, State.hasRoom, State.segment, State.segment, hsegs]
  have hkept : s.keptDesk id = t.keptDesk id := by rw [keptDesk_eq, keptDesk_eq, hentry]
  have hstore : ∀ e x, storeOrFull s e x = storeOrFull t e x := fun e x => by
    rw [storeOrFull, storeOrFull, hentry, hroom]
  cases c with
  | issued => rw [answerRule, answerRule, issueRule, issueRule, hstore, hkept, hsite]
  | pending => rw [answerRule, answerRule, hstore, hkept]
  | barred => exact hstore _ _
  | lost => exact hstore _ _

section
variable {s : State} {id : Ident}

/-- The expiry of a PENDING entry stored by an ANSWER. -/
theorem pending_expiry (w : Word16) :
    (if (expiryField w).getD 10 = 0 then 10 else min ((expiryField w).getD 10) 1440)
      = if w = 0xFFFF then 10 else if w = 0 then 10 else min w.toNat 1440 := by
  rw [expiryField_getD]
  by_cases h : w = 0xFFFF
  · simp only [if_pos h]
    rfl
  · simp only [if_neg h]
    exact if_congr ⟨fun h => BitVec.eq_of_toNat_eq h, fun h => h ▸ rfl⟩ rfl rfl

theorem answerRule_room (c : EntryClass) (w : Word16)
    (h : (s.entry? id).isSome = true ∨ s.segments[segmentOf id].entries.length < 1024) :
    answerRule s.counted id c (expiryField w)
      = .store (s.answeredEntry id c w) (expiryClamped (expiryField w)) := by
  cases c with
  | issued =>
    have hrule := issueRule_room (s := s) (id := id) (expiryField w) none h
    rw [expiryField_getD, ite_min, keptDesk_eq] at hrule
    exact hrule
  | pending =>
    have hrule := storeOrFull_room (s := s) (e :=
      { ident := id, cls := .pending, expiry := (expiryField w).getD 10, desk := s.keptDesk id })
      (expiryField w) h
    rw [answerRule, counted_keptDesk, hrule, keptDesk_eq]
    refine congrArg (Update.store · _) ?_
    have hexp := pending_expiry w
    simp only [Entry.constrained, State.answeredEntry, true_and, or_true, if_true, hexp,
      reduceCtorEq, if_false] <;> rfl
  | barred =>
    have hrule := markRule_room (s := s) (id := id) (expiryField w) (.inl rfl) h
    rw [expiryField_getD, ite_min, Nat.zero_min] at hrule
    simpa [answerRule, State.answeredEntry] using hrule
  | lost =>
    have hrule := markRule_room (s := s) (id := id) (expiryField w) (.inr rfl) h
    rw [expiryField_getD, ite_min, Nat.zero_min] at hrule
    simpa [answerRule, State.answeredEntry] using hrule

theorem answerRule_full (c : EntryClass) (ex : Option Nat) (he : s.entry? id = none)
    (hf : 1024 ≤ s.segments[segmentOf id].entries.length) :
    answerRule s.counted id c ex = .refused .full := by
  cases c with
  | issued => exact storeOrFull_full _ he hf
  | pending => exact storeOrFull_full _ he hf
  | barred => exact storeOrFull_full _ he hf
  | lost => exact storeOrFull_full _ he hf

end

/-! ## The two parts of an ANSWER (R121, R122) -/

/-- After the match: the query closed, the track told, and the waiting items decided. -/
def answerMatched (hit : Bool) (id : Ident) (a : HostAnswer) (s : State) : State :=
  if hit then matchAnswer id a s else s

/-- After the storage of the result. -/
def answerStored (id : Ident) (a : HostAnswer) (ex : Option Nat) (s : State) : State :=
  match a with
  | .entry c => storeAnswer id (answerRule s id c ex) s
  | .noException => s

/-- What the storage answers. -/
def answerUpdate (id : Ident) (a : HostAnswer) (ex : Option Nat) (s : State) : Option Update :=
  match a with
  | .entry c => some (answerRule s id c ex)
  | .noException => none

theorem settleAnswer_eq (ref n : Byte) (id : Ident) (a : HostAnswer) (ex : Option Nat) (s : State) :
    settleAnswer ref n id a ex s
      = reply .answer ref
          (answerStatusCode (s.answerMatches n id)
            (answerUpdate id a ex (answerMatched (s.answerMatches n id) id a s))).1
          [boolCode (answerStatusCode (s.answerMatches n id)
            (answerUpdate id a ex (answerMatched (s.answerMatches n id) id a s))).2]
          (answerStored id a ex (answerMatched (s.answerMatches n id) id a s)) := by
  cases a <;> rfl

theorem answerStored_only (id : Ident) (a : HostAnswer) (ex : Option Nat) (s : State) :
    Only tableParts s (answerStored id a ex s) := by
  cases a with
  | entry c => exact storeAnswer_only id _ s
  | noException => exact Only.refl _ _

theorem answerStored_rejudged (id : Ident) (a : HostAnswer) (ex : Option Nat) (s : State) :
    Rejudged s (answerStored id a ex s) := by
  cases a with
  | entry c => exact storeAnswer_rejudged id _ s
  | noException => exact Rejudged.refl s

theorem applyChange_answerFree {s : State} {i : Ident} (c : ChangeKind) (id : Ident)
    (e : Option Entry) (h : s.AnswerFree i) : (applyChange c id e s).AnswerFree i := by
  refine (applyChange_judged c id e rfl rfl rfl rfl rfl rfl).answerFree fun j hj => ?_
  rw [lateBase_judging] at hj
  exact (h j hj).reevaluated id e _

theorem answerStored_answerFree {s : State} {i : Ident} (id : Ident) (a : HostAnswer)
    (ex : Option Nat) (h : s.AnswerFree i) : (answerStored id a ex s).AnswerFree i := by
  cases a with
  | noException => exact h
  | entry c =>
    change (storeAnswer id (answerRule s id c ex) s).AnswerFree i
    cases answerRule s id c ex with
    | store e cl => exact applyChange_answerFree .answer id (some e) h
    | remove => exact h
    | refused st => exact h

theorem answerMatched_only (hit : Bool) (id : Ident) (a : HostAnswer) (s : State) :
    Only (.queries :: verdictParts) s (answerMatched hit id a s) := by
  cases hit with
  | false => exact Only.refl _ _
  | true => exact matchAnswer_only id a s

theorem answerMatched_replies (hit : Bool) (id : Ident) (a : HostAnswer) (s : State) :
    (answerMatched hit id a s).link.replies = s.link.replies := by
  cases hit with
  | false => rfl
  | true => exact settle_replies _ _

/-- The answer's reply for a class result that is stored. -/
theorem answerStatusCode_store (hit cl : Bool) (e : Entry) :
    answerStatusCode hit (some (.store e cl))
      = (if hit then (if cl then .clamped else .ok) else .unmatched, cl) := by
  cases hit <;> cases cl <;> rfl

theorem answerStatusCode_refused (hit : Bool) (st : Status) :
    answerStatusCode hit (some (.refused st)) = (if hit then st else .unmatched, false) := by
  cases hit <;> rfl

theorem answerStatusCode_none (hit : Bool) :
    answerStatusCode hit none = (if hit then .ok else .unmatched, false) := by
  cases hit <;> rfl

/-! ## The state in which the waiting items are decided (R121) -/

/-- The matched query closed, and the track told the answer. -/
def answerBase (id : Ident) (a : HostAnswer) (s : State) : State :=
  (s.setQueryList (withoutQuery id s.queries.list)).modifyTrack id
    fun t => { t with answer := some a }

theorem answerMatched_hit (id : Ident) (a : HostAnswer) (s : State) :
    answerMatched true id a s = handAnswer id a (answerBase id a s) := rfl

theorem answerBase_only (id : Ident) (a : HostAnswer) (s : State) :
    Only [.queries, .tracking] s (answerBase id a s) :=
  ((setQueryList_only s _).mono (by decide)).trans ((modifyTrack_only _ _ _).mono (by decide))

theorem answerBase_track? (id : Ident) (a : HostAnswer) (s : State) (i : Ident) :
    (answerBase id a s).track? i = (s.track? i).map fun x =>
      if i = id then { x with answer := some a } else x :=
  track?_modifyTrack_map (s.setQueryList (withoutQuery id s.queries.list)) id
    (fun t => { t with answer := some a }) (fun _ => rfl) i

theorem answerBase_queries (id : Ident) (a : HostAnswer) (s : State) :
    (answerBase id a s).queries = { s.queries with list := withoutQuery id s.queries.list } := rfl

theorem answerMatched_judged (id : Ident) (a : HostAnswer) (s : State) :
    Judged (answered id a (s.segments[segmentOf id].state == .fresh)) (answerBase id a s)
      (answerMatched true id a s) := by
  have h := handAnswer_judged id a (answerBase id a s)
  rwa [(answerBase_only id a s).segments (by decide)] at h

theorem answerMatched_answerFree (id : Ident) (a : HostAnswer) (s : State) :
    (answerMatched true id a s).AnswerFree id :=
  (answerMatched_judged id a s).answerFree fun j _ => answered_answerFree id a _ j

/-! ## The state after the reply -/

/-- The state after an ANSWER with good fields that has met its query or not. -/
def answerTaken (ref : Byte) (hit : Bool) (id : Ident) (a : HostAnswer) (ex : Option Nat)
    (s : State) : State :=
  reply .answer ref (answerStatusCode hit (answerUpdate id a ex (answerMatched hit id a s))).1
    [boolCode (answerStatusCode hit (answerUpdate id a ex (answerMatched hit id a s))).2]
    (answerStored id a ex (answerMatched hit id a s))

section
variable (ref : Byte) (hit : Bool) (id : Ident) (a : HostAnswer) (ex : Option Nat) (s : State)

theorem answerTaken_stored :
    Only [.link] (answerStored id a ex (answerMatched hit id a s)) (answerTaken ref hit id a ex s) :=
  (reply_only _ _ _ _ _).mono (by decide)

theorem answerTaken_matched :
    Only tableParts (answerMatched hit id a s) (answerTaken ref hit id a ex s) :=
  (answerStored_only id a ex _).trans ((answerTaken_stored ref hit id a ex s).mono (by decide))

theorem answerTaken_only : Only [.queries, .segments, .refresh, .supervisor, .tracking, .judging,
    .annunciators, .link] s (answerTaken ref hit id a ex s) :=
  ((answerMatched_only hit id a s).mono (by decide)).trans
    ((answerTaken_matched ref hit id a ex s).mono (by decide))

/-- No result but the answer of the match is written into a track, besides verdicts. -/
theorem answerTaken_track? {i : Ident} {x : Track}
    (hx : (answerMatched hit id a s).track? i = some x) :
    ∃ st, (answerTaken ref hit id a ex s).track? i = some { x with state := st } := by
  obtain ⟨st, hst, -⟩ := ((answerStored_rejudged id a ex _).track? i).2 x hx
  exact ⟨st, ((answerTaken_stored ref hit id a ex s).track? (by decide) i).trans hst⟩

theorem answerTaken_hit_track? {x : Track} (hx : s.track? id = some x) :
    ∃ y, (answerTaken ref true id a ex s).track? id = some y ∧ y.answer = some a ∧ y.mark = x.mark
      ∧ y.evidence = x.evidence := by
  have hb : (answerBase id a s).track? id = some { x with answer := some a } := by
    rw [answerBase_track?, hx, Option.map_some, if_pos rfl]
  obtain ⟨st, hst, -⟩ := ((settle_rejudged _ (answerBase id a s)).track? id).2 _ hb
  obtain ⟨st', hst'⟩ := answerTaken_track? ref true id a ex s hst
  exact ⟨_, hst', rfl, rfl, rfl⟩

theorem answerTaken_hit_queries : (answerTaken ref true id a ex s).queries
    = { s.queries with list := withoutQuery id s.queries.list } := by
  rw [(answerTaken_matched ref true id a ex s).queries (by decide), answerMatched_hit,
    (handAnswer_only id a _).queries (by decide), answerBase_queries]

theorem answerTaken_answerFree : (answerTaken ref true id a ex s).AnswerFree id := by
  have h := answerStored_answerFree id a ex (answerMatched_answerFree id a s)
  rw [State.AnswerFree, (answerTaken_stored ref true id a ex s).judging (by decide)]
  exact h

end

/-- An answer that stores nothing. -/
theorem answerTaken_nothing {hit : Bool} {id : Ident} {a : HostAnswer} {ex : Option Nat} {s : State}
    {st : Status} (ref : Byte) (hs : answerStored id a ex (answerMatched hit id a s)
      = answerMatched hit id a s)
    (hc : answerStatusCode hit (answerUpdate id a ex (answerMatched hit id a s)) = (st, false)) :
    answerTaken ref hit id a ex s
      = reply .answer ref st [0x00] (answerMatched hit id a s) := by
  rw [answerTaken, hs, hc]
  rfl

/-- An answer whose class result is stored. -/
theorem answerTaken_store {hit cl : Bool} {id : Ident} {c : EntryClass} {ex : Option Nat} {s : State}
    {e : Entry} (ref : Byte)
    (h : answerRule (answerMatched hit id (.entry c) s) id c ex = .store e cl) :
    answerTaken ref hit id (.entry c) ex s = reply .answer ref
      (if hit then (if cl then .clamped else .ok) else .unmatched) [if cl then 0x01 else 0x00]
      (applyChange .answer id (some e) (answerMatched hit id (.entry c) s)) := by
  rw [answerTaken, answerUpdate, answerStored, h, answerStatusCode_store]
  rfl

theorem answerRule_matched (hit : Bool) (id : Ident) (a : HostAnswer) (s : State) (c : EntryClass)
    (ex : Option Nat) : answerRule (answerMatched hit id a s) id c ex = answerRule s id c ex :=
  answerRule_congr ((answerMatched_only hit id a s).segments (by decide))
    ((answerMatched_only hit id a s).site (by decide)) id c ex

/-- A class result for which the segment has no room. -/
theorem answerTaken_full {s : State} {id : Ident} (ref : Byte) (hit : Bool) (c : EntryClass)
    (ex : Option Nat) (he : s.entry? id = none)
    (hf : 1024 ≤ s.segments[segmentOf id].entries.length) :
    answerTaken ref hit id (.entry c) ex s.counted
      = reply .answer ref (if hit then .full else .unmatched) [0x00]
        (answerMatched hit id (.entry c) s.counted) := by
  have hrule : answerRule (answerMatched hit id (.entry c) s.counted) id c ex = .refused .full :=
    (answerRule_matched _ _ _ _ _ _).trans (answerRule_full c ex he hf)
  refine answerTaken_nothing ref ?_ ?_
  · rw [answerStored, hrule]
    rfl
  · rw [answerUpdate, hrule, answerStatusCode_refused]

theorem answerTaken_noException (ref : Byte) (hit : Bool) (id : Ident) (ex : Option Nat) (s : State) :
    answerTaken ref hit id .noException ex s
      = reply .answer ref (if hit then .ok else .unmatched) [0x00]
        (answerMatched hit id .noException s) :=
  answerTaken_nothing ref rfl (answerStatusCode_none hit)

/-- A class result for which there is room. -/
theorem answerTaken_room {s : State} {id : Ident} {c : EntryClass} (ref : Byte) (hit : Bool)
    (w : Word16)
    (h : (s.entry? id).isSome = true ∨ s.segments[segmentOf id].entries.length < 1024) :
    answerTaken ref hit id (.entry c) (expiryField w) s.counted = reply .answer ref
      (if hit then (if expiryClamped (expiryField w) then .clamped else .ok) else .unmatched)
      [if expiryClamped (expiryField w) then 0x01 else 0x00]
      (applyChange .answer id (some (s.answeredEntry id c w))
        (answerMatched hit id (.entry c) s.counted)) :=
  answerTaken_store ref ((answerRule_matched _ _ _ _ _ _).trans (answerRule_room c w h))

/-- What a class result with room leaves in the table, the refresh and the reply queue. -/
theorem answerTaken_room_spec {s : State} {id : Ident} {c : EntryClass} (ref : Byte) (hit : Bool)
    (w : Word16)
    (h : (s.entry? id).isSome = true ∨ s.segments[segmentOf id].entries.length < 1024) :
    (∀ i, (answerTaken ref hit id (.entry c) (expiryField w) s.counted).entry? i
        = if i = id then some (s.answeredEntry id c w) else s.entry? i)
      ∧ (∀ i : Fin 64, (answerTaken ref hit id (.entry c) (expiryField w) s.counted).segments[i].state
          = s.segments[i].state)
      ∧ (answerTaken ref hit id (.entry c) (expiryField w) s.counted).refresh
          = lateRecord .answer id (some (s.answeredEntry id c w)) s.refresh
      ∧ (answerTaken ref hit id (.entry c) (expiryField w) s.counted).link.replies = s.link.replies
          ++ [{ kind := 0xB0, ref := ref
                status := if hit then (if expiryClamped (expiryField w) then .clamped else .ok)
                          else .unmatched
                body := [if expiryClamped (expiryField w) then 0x01 else 0x00] }] := by
  rw [answerTaken_room ref hit w h]
  have hm := answerMatched_only hit id (.entry c) s.counted
  have hmreplies : (answerMatched hit id (.entry c) s.counted).link.replies = s.link.replies :=
    (answerMatched_replies _ _ _ _).trans (counted_replies (s := s))
  generalize answerMatched hit id (.entry c) s.counted = m at *
  obtain ⟨hentry, hstate, hrefresh, hreplies⟩ := applyChange_spec .answer id
    (some (s.answeredEntry id c w)) m fun x hx => Option.some.inj hx ▸ rfl
  refine ⟨fun i => ?_, fun i => ?_, ?_, ?_⟩
  · rw [(reply_only _ _ _ _ _).entry? (by decide), hentry, hm.entry? (by decide), counted_entry?]
  · rw [(reply_only _ _ _ _ _).segments (by decide), hstate, hm.segments (by decide),
      counted_segments]
  · rw [(reply_only _ _ _ _ _).refresh (by decide), hrefresh, hm.refresh (by decide),
      counted_refresh]
  · rw [reply_replies, hreplies, hmreplies]
    rfl

/-- A class result with room is forwarded to the watch (R134). -/
theorem answerTaken_room_judged {s : State} {id : Ident} {c : EntryClass} (ref : Byte) (hit : Bool)
    (w : Word16)
    (h : (s.entry? id).isSome = true ∨ s.segments[segmentOf id].entries.length < 1024) :
    Judged (reevaluated id (some (s.answeredEntry id c w)) (s.segments[segmentOf id].state == .fresh))
      (lateBase id (answerMatched hit id (.entry c) s.counted))
      (answerTaken ref hit id (.entry c) (expiryField w) s.counted) := by
  rw [answerTaken_room ref hit w h]
  have hm := answerMatched_only hit id (.entry c) s.counted
  generalize answerMatched hit id (.entry c) s.counted = m at *
  have hjudged := applyChange_judged .answer id (some (s.answeredEntry id c w)) (s := m)
    (t := reply .answer ref
      (if hit then (if expiryClamped (expiryField w) then .clamped else .ok) else .unmatched)
      [if expiryClamped (expiryField w) then 0x01 else 0x00]
      (applyChange .answer id (some (s.answeredEntry id c w)) m)) rfl rfl rfl rfl rfl rfl
  rwa [hm.segments (by decide), counted_segments] at hjudged

/-- Settles O42: the match, then the storage in the state the match leaves. -/
theorem answerMatchesAndStores : Obligations.AnswerMatchesAndStores := by
  intro s ref p hd hl
  rw [exec_answer hd hl]
  refine ⟨fun h => congrArg _ (takeAnswer_range ref _ _ h), fun a hit clamp h0 ha hhit hclamp => ?_⟩
  have hmatch : s.counted.answerMatches (byteAt p 0) (field64 p 1) = hit :=
    Bool.eq_iff_iff.2 ((answerMatches_iff _ _ _).trans (by rw [counted_queries]; exact hhit.symm))
  have hcl : expiryClamped (expiryField (field16 p 10)) = clamp := by
    rw [expiryClamped_field]
    exact Bool.eq_iff_iff.2 (decide_eq_true_iff.trans hclamp.symm)
  have htaken : takeAnswer ref (byteAt p 0) (field64 p 1) (byteAt p 9) (expiryField (field16 p 10))
      s.counted = answerTaken ref hit (field64 p 1) a (expiryField (field16 p 10)) s.counted := by
    rw [takeAnswer_settles ref _ _ h0 ha, settleAnswer_eq, hmatch]
    rfl
  rw [htaken]
  have hmonly := answerMatched_only hit (field64 p 1) a s.counted
  have hmreplies : (answerMatched hit (field64 p 1) a s.counted).link.replies = s.link.replies :=
    (answerMatched_replies _ _ _ _).trans (counted_replies (s := s))
  refine ⟨answerBase (field64 p 1) a s.counted, answerMatched hit (field64 p 1) a s.counted, _, rfl,
    ?miss, ?hits, ?settles, ?settlesNone, ?closes, ?keeps, ?noException, ?stores, ?full, ?frame⟩
  case miss =>
    rintro rfl
    rfl
  case hits =>
    rintro rfl
    refine ⟨?_, (answerBase_only _ _ _).link (by decide), fun i => ?_, ?_, ?_⟩
    · exact Only.of_counted ((answerBase_only _ _ _).mono (by decide)) (by decide) (by decide)
    · rw [answerBase_track?, counted_track?]
    · have h := answerMatched_judged (field64 p 1) a s.counted
      rwa [counted_segments] at h
    · exact (handAnswer_only _ _ _).mono (by decide)
  case settles =>
    rintro c rfl hroom
    rw [(answerTaken_room_spec ref hit _ hroom).1, if_pos rfl]
    exact answerTaken_room_judged ref hit _ hroom
  case settlesNone =>
    rintro (rfl | ⟨he, hf⟩)
    · rw [answerTaken_noException]
      exact ⟨rfl, rfl, rfl, rfl, rfl, rfl⟩
    · cases a with
      | noException =>
        rw [answerTaken_noException]
        exact ⟨rfl, rfl, rfl, rfl, rfl, rfl⟩
      | entry c =>
        rw [answerTaken_full ref hit c _ he hf]
        exact ⟨rfl, rfl, rfl, rfl, rfl, rfl⟩
  case closes =>
    rintro rfl
    rw [answerTaken_hit_queries, counted_queries]
    exact ⟨rfl, rfl, fun x hx => answerTaken_hit_track? _ _ _ _ _ ((counted_track? s _).trans hx),
      answerTaken_answerFree _ _ _ _ _⟩
  case keeps =>
    rintro rfl
    refine ⟨((answerTaken_matched ref false _ a _ _).queries (by decide)).trans
      (counted_queries (s := s)), fun x hx => ?_⟩
    obtain ⟨st, hst⟩ := answerTaken_track? ref false (field64 p 1) a
      (expiryField (field16 p 10)) s.counted ((counted_track? s _).trans hx)
    exact ⟨_, hst, rfl⟩
  case noException =>
    rintro rfl
    rw [answerTaken_noException]
    refine ⟨?_, ?_, ?_⟩
    · exact (hmonly.segments (by decide)).trans (counted_segments (s := s))
    · exact (hmonly.refresh (by decide)).trans (counted_refresh (s := s))
    · rw [reply_replies, hmreplies]
      rfl
  case stores =>
    rintro c rfl hroom
    obtain ⟨hentry, hstate, hrefresh, hreplies⟩ := answerTaken_room_spec (c := c) ref hit
      (field16 p 10) hroom
    have hself := (hentry (field64 p 1)).trans (if_pos rfl)
    refine ⟨hself, fun i hi => (hentry i).trans (if_neg hi), hstate, ?_, ?_⟩
    · rw [hself]
      exact hrefresh
    · rw [← hcl]
      exact hreplies
  case full =>
    rintro c rfl he hf
    rw [answerTaken_full ref hit c _ he hf]
    refine ⟨?_, ?_, ?_⟩
    · exact (hmonly.segments (by decide)).trans (counted_segments (s := s))
    · exact (hmonly.refresh (by decide)).trans (counted_refresh (s := s))
    · rw [reply_replies, hmreplies]
      rfl
  case frame =>
    exact Only.of_counted (answerTaken_only _ _ _ _ _ _) (by decide) (by decide)

end Sys2Proof.Machine
end


section
/-! PROOFS. The decision tables of items, and the link unit's own requests: DESCRIBE, STATUS, RESTART. -/

namespace Sys2Proof.Machine

/-! ## Items at completion (R127 to R129) -/

/-- Settles O45: the tables row by row, and the record filled from the track and the table. -/
theorem exitItemIsDecidedByTheTable : Obligations.ExitItemIsDecidedByTheTable := by
  refine ⟨fun guard asked answer => ⟨?_, rfl, rfl, rfl, ?_, rfl, rfl, rfl, rfl, rfl, rfl, fun c hc => ?_,
    rfl, rfl, fun h hh => ?_, rfl⟩, fun s d x l asked hx hentry hnone hasked => ?_⟩
  · rintro c (rfl | rfl) <;> rfl
  · rintro c (rfl | rfl) <;> rfl
  · cases c with
    | lost => exact absurd rfl hc
    | issued => rfl
    | pending => rfl
    | barred => rfl
  · cases h with
    | noException => rfl
    | entry c =>
      cases c with
      | lost => exact absurd rfl hh
      | issued => rfl
      | pending => rfl
      | barred => rfl
  · have hlookup : s.lookup x.ident = l := by
      unfold State.lookup
      cases he : s.entry? x.ident with
      | none => exact (hnone he).symm
      | some e => exact (hentry e he).symm
    have hquery : (x.mark == .asked && s.queried x.ident) = asked := by
      rw [Bool.eq_iff_iff, Bool.and_eq_true, beq_iff_eq, State.queried, List.any_eq_true, hasked]
      simp only [beq_iff_eq]
    simp only [fillItem, hx, hlookup, hquery, Option.bind_some, State.lookupDesk]
    congr 1
    cases s.entry? x.ident <;> rfl

/-! ## DESCRIBE (R166) -/

theorem descriptor_length : Config.descriptor.length = 128 := by
  rw [Config.descriptor, List.length_append, List.length_replicate]
  rfl

theorem descriptorFrom_length {n : Nat} (h : n ≤ 127) : (descriptorFrom n).length = 32 := by
  rw [descriptorFrom, List.length_take, List.length_drop, List.length_append, descriptor_length]
  omega

theorem descriptorFrom_getD {n k : Nat} (h : n ≤ 127) (hk : k < 32) :
    (descriptorFrom n).getD k 0 = Config.descriptor.getD ((n + k) % 128) 0 := by
  rw [List.getD_eq_getElem?_getD, List.getD_eq_getElem?_getD, descriptorFrom,
    List.getElem?_take_of_lt hk, List.getElem?_drop]
  by_cases hn : n + k < 128
  · rw [List.getElem?_append_left (by rwa [descriptor_length]), Nat.mod_eq_of_lt hn]
  · rw [List.getElem?_append_right (by rw [descriptor_length]; omega), descriptor_length,
      show (n + k) % 128 = n + k - 128 by omega]

/-! ## The device view (R167, R180) -/

/-- The refresh fields of the device view. -/
def refreshView : Option RefreshRecord → List Byte
  | some r => count8 r.segment.val :: count16 r.received
  | none => [0xFF, 0, 0]

/-- The fields of the device view after the segment states. -/
def countsView (s : State) : List Byte :=
  count16 s.tracking.tracks.length
    ++ [count8 s.queries.list.length, count8 s.judging.length,
        count8 (s.link.urgent.length + s.link.routine.length)]
    ++ bytes16 s.link.nextReport
    ++ (if s.modes.evac.accepted then 0x01 else 0x00) :: bytes32 s.clock.now

/-- The bus fields of the device view. -/
def busView (b : BusController) : List Byte :=
  match b.activity with
  | .idle => [0x00, 0xFF]
  | .polling t _ => [if b.grant.isSome then 0x02 else 0x00, count8 t.pedestal.val]
  | .receiving t _ _ => [if b.grant.isSome then 0x02 else 0x00, count8 t.pedestal.val]
  | .delivering t _ _ => [if b.grant.isSome then 0x02 else 0x00, count8 t.pedestal.val]
  | .waiting t _ => [if b.grant.isSome then 0x02 else 0x01, count8 t.pedestal.val]
  | .ended q => [0x02, count8 q.val]
  | .held _ => [0x03, 0xFF]

theorem busView_length (b : BusController) : (busView b).length = 2 := by
  unfold busView
  cases b.activity <;> rfl

theorem report_busView (b : BusController) : [b.report.1.code, match b.report.2 with
    | some p => count8 p.val
    | none => 0xFF] = busView b := by
  unfold busView BusController.report
  cases b.activity with
  | idle => rfl
  | ended q => rfl
  | held h => rfl
  | polling t w => cases b.grant <;> rfl
  | receiving t bs w => cases b.grant <;> rfl
  | delivering t m rs => cases b.grant <;> rfl
  | waiting t w => cases b.grant <;> rfl

theorem deviceView_eq (s : State) : s.deviceView
    = busView s.bus ++ (s.bus.health.toList.map Health.code ++ (s.supervisor.view s.clock.now
      ++ (refreshView s.refresh ++ ((List.finRange 16).map (segmentByte s.segments)
        ++ countsView s)))) := by
  rw [← report_busView]
  unfold State.deviceView countsView refreshView
  simp only [List.append_assoc]
  cases s.refresh <;> rfl

theorem health_view_length (b : BusController) : (b.health.toList.map Health.code).length = 9 := by
  rw [List.length_map, Vector.length_toList]

theorem supervisor_view_length (x : Supervisor) (now : Time) : (x.view now).length = 7 := by
  cases x <;> rfl

theorem refreshView_length (r : Option RefreshRecord) : (refreshView r).length = 3 := by
  cases r <;> rfl

theorem segments_view_length (v : Vector Segment 64) :
    ((List.finRange 16).map (segmentByte v)).length = 16 := by
  rw [List.length_map, List.length_finRange]

/-- The part `b` of a list cut at known places. -/
theorem take_drop_part {α : Type} {a b : List α} {m n : Nat} (c : List α) (ha : a.length = m)
    (hb : b.length = n) : ((a ++ (b ++ c)).drop m).take n = b := by
  rw [← ha, ← hb, List.drop_left, List.take_left]

theorem getD_part {α : Type} {a b : List α} {m k : Nat} (c : List α) (d : α) (ha : a.length = m)
    (hk : k < b.length) : (a ++ (b ++ c)).getD (m + k) d = b.getD k d := by
  rw [← ha, List.getD_append_right _ _ _ _ (Nat.le_add_right _ _), Nat.add_sub_cancel_left,
    List.getD_append _ _ _ _ hk]

theorem SegmentState.code_toNat (x : SegmentState) : x.code.toNat = match x with
    | .stale => 0
    | .fresh => 1
    | .suspect => 2 := by
  cases x <;> rfl

/-- Four codes of two bits packed in a byte. -/
theorem packed_digit {a b c d : Byte} (ha : a.toNat < 4) (hb : b.toNat < 4) (hc : c.toNat < 4)
    (hd : d.toNat < 4) : (a + (b <<< 2) + (c <<< 4) + (d <<< 6)).toNat
      = a.toNat + 4 * b.toNat + 16 * c.toNat + 64 * d.toNat := by
  simp only [BitVec.toNat_add, BitVec.toNat_shiftLeft, Nat.shiftLeft_eq]
  omega

/-- The segment state at its place in the packed bytes. -/
theorem segmentByte_digit (v : Vector Segment 64) (i : Fin 64) :
    (segmentByte v ⟨i.val / 4, by omega⟩).toNat / 4 ^ (i.val % 4) % 4
      = v[i].state.code.toNat := by
  have hlt (x : SegmentState) : x.code.toNat < 4 := by cases x <;> decide
  have hat (k : Nat) (hk : i.val % 4 = k) (h : 4 * (i.val / 4) + k < 64) :
      v[4 * (i.val / 4) + k] = v[i] := by
    have hi : 4 * (i.val / 4) + k = i.val := by omega
    simp only [hi]
    rfl
  unfold segmentByte
  dsimp only
  rw [packed_digit (hlt _) (hlt _) (hlt _) (hlt _)]
  have hcases : i.val % 4 = 0 ∨ i.val % 4 = 1 ∨ i.val % 4 = 2 ∨ i.val % 4 = 3 := by omega
  have h0 := hlt (v[4 * (i.val / 4) + 0]'(by omega)).state
  have h1 := hlt (v[4 * (i.val / 4) + 1]'(by omega)).state
  have h2 := hlt (v[4 * (i.val / 4) + 2]'(by omega)).state
  have h3 := hlt (v[4 * (i.val / 4) + 3]'(by omega)).state
  rcases hcases with h | h | h | h
  · rw [h, ← hat 0 h (by omega)]; omega
  · rw [h, ← hat 1 h (by omega)]; omega
  · rw [h, ← hat 2 h (by omega)]; omega
  · rw [h, ← hat 3 h (by omega)]; omega

/-! ## The aisle view (R168, R180) -/

theorem aisleView_eq (s : State) (a : Aisle) : s.aisleView a
    = [aisleCode a,
        match s.modes.stored[a] with
        | .off => 0x00
        | .watch => 0x01
        | .guard => 0x02,
        match s.effective a with
        | .off => 0x00
        | .watch => 0x01
        | .guard => 0x02
        | .free => 0x03,
        if (s.beam a .inner).accepted then 0x01 else 0x00,
        if (s.beam a .outer).accepted then 0x01 else 0x00,
        (s.sight a).code,
        if s.passages.aisles[a].crowded then 0x01 else 0x00,
        count8 (s.opens a).length]
      ++ ((s.opens a).flatMap (fun q : Passage => bytes16 q.number
            ++ [if q.phase = Phase.opened then 0x00 else 0x01, count8 q.items.length])
          ++ List.replicate 12 0x00).take 12
      ++ (match s.annunciators[a] with
          | .quiet => [0, 0, 0, 0, 0]
          | .sounding d _ _ _ =>
            0x01 :: bytes32 (if passed s.clock.now d then 0 else d - s.clock.now)
          | .showing d =>
            0x02 :: bytes32 (if passed s.clock.now d then 0 else d - s.clock.now)) := by
  have hslot : Passage.slot = fun q : Passage => bytes16 q.number
      ++ [if q.phase = Phase.opened then 0x00 else 0x01, count8 q.items.length] := by
    funext q
    unfold Passage.slot
    cases q.phase <;> rfl
  rw [State.aisleView, hslot]
  cases s.modes.stored[a] <;> cases s.effective a <;> cases s.annunciators[a] <;> rfl

/-- Counting a frame changes nothing that an aisle's view shows. -/
theorem counted_aisleView (s : State) (a : Aisle) : s.counted.aisleView a = s.aisleView a := by
  rw [State.aisleView, State.aisleView, State.sight, State.sight, counted_modes, counted_effective,
    counted_beams, counted_bus, counted_passages, counted_opens, counted_annunciators, counted_clock]

/-! ## STATUS and RESTART (R167 to R169) -/

theorem exec_status {s : State} (ref x : Byte) (hd : s.dispatches) :
    exec (.statusAisle ref [x]) s = .next (takeStatus ref x s.counted) :=
  exec_request (k := .status) (p := [x]) rfl hd rfl

theorem takeStatus_aisle {x : Byte} {a : Aisle} (ref : Byte) (s : State)
    (h : x.toNat = a.val + 1) :
    takeStatus ref x s = reply .status ref .ok (s.aisleView a) s := by
  have h0 : x ≠ 0 := fun hx => by
    rw [hx] at h
    exact absurd h (Nat.succ_ne_zero _).symm
  have ha := a.isLt
  rw [takeStatus, if_neg h0, dif_pos ⟨by omega, by omega⟩]
  congr 2
  exact Fin.ext (by simp only [h]; omega)

theorem takeStatus_range {x : Byte} (ref : Byte) (s : State) (h : 8 < x.toNat) :
    takeStatus ref x s = reply .status ref .range [] s := by
  have h0 : x ≠ 0 := fun hx => by
    rw [hx] at h
    exact absurd h (by decide)
  rw [takeStatus, if_neg h0, dif_neg fun hx => by omega]

theorem exec_restart {s : State} (ref x : Byte) (hd : s.dispatches) :
    exec (.restartFull ref [x]) s = .next (takeRestart ref x s.counted) :=
  exec_request (k := .restart) (p := [x]) rfl hd rfl

theorem takeRestart_range {x : Byte} (ref : Byte) (s : State) (h1 : x ≠ 0x01) (h2 : x ≠ 0x02) :
    takeRestart ref x s = reply .restart ref .range [] s := by
  rw [takeRestart, RestartKind.ofCode, if_neg h1, if_neg h2]

/-- Settles O54: the views cut at the places of their fields. -/
theorem linkUnitRequests : Obligations.LinkUnitRequests := by
  intro s ref x hd
  have hdescribe : exec (.describe ref [x]) s = .next (takeDescribe ref x s.counted) :=
    exec_request (k := .describe) (p := [x]) rfl hd rfl
  have hdevice : exec (.statusDevice ref [0x00]) s = .next (takeStatus ref 0x00 s.counted) :=
    exec_request (k := .status) (p := [0x00]) rfl hd rfl
  have hdetection : exec (.restartDetection ref [0x02]) s
      = .next (takeRestart ref 0x02 s.counted) :=
    exec_request (k := .restart) (p := [0x02]) rfl hd rfl
  refine ⟨fun h => ?_, fun h => ?_, ?_, fun a ha => ?_, fun h => ?_, exec_restart ref 0x01 hd,
    hdetection, fun h1 h2 => ?_⟩
  · refine ⟨descriptorFrom x.toNat, descriptorFrom_length h, fun k hk => descriptorFrom_getD h hk, ?_⟩
    rw [hdescribe, takeDescribe, if_neg (by omega)]
    rfl
  · rw [hdescribe, takeDescribe, if_pos h]
    rfl
  · have hbus := busView_length s.bus
    have hhealth := health_view_length s.bus
    have hsup := supervisor_view_length s.counted.supervisor s.clock.now
    have hrefresh := refreshView_length s.refresh
    have hsegs := segments_view_length s.segments
    have hview := deviceView_eq s.counted
    rw [counted_bus, counted_clock, counted_refresh, counted_segments] at hview
    refine ⟨s.counted, s.counted.deviceView, rfl, ?_, hdevice, ?_, fun q => ?_, ?_, ?_, fun i => ?_,
      ?_⟩
    · rw [hview]
      simp only [List.length_append, hbus, hhealth, hsup, hrefresh, hsegs]
      rfl
    · rw [hview, List.take_left' hbus]
      rfl
    · have hq : q.val < (s.bus.health.toList.map Health.code).length := by
        rw [hhealth]; exact q.isLt
      rw [hview, getD_part _ _ hbus hq, List.getD_eq_getElem _ _ hq, List.getElem_map,
        Vector.getElem_toList]
      rfl
    · rw [hview, ← List.append_assoc, take_drop_part _ (by rw [List.length_append, hbus, hhealth]) hsup]
      cases s.counted.supervisor <;> rfl
    · rw [hview, ← List.append_assoc, ← List.append_assoc, take_drop_part _
        (by rw [List.length_append, List.length_append, hbus, hhealth, hsup]) hrefresh]
      cases s.refresh <;> rfl
    · have hi : i.val / 4 < ((List.finRange 16).map (segmentByte s.segments)).length := by
        rw [hsegs]; omega
      rw [hview, ← List.append_assoc, ← List.append_assoc, ← List.append_assoc, getD_part _ _
        (by simp only [List.length_append, hbus, hhealth, hsup, hrefresh]) hi,
        List.getD_eq_getElem _ _ hi, List.getElem_map, List.getElem_finRange]
      exact (segmentByte_digit s.segments i).trans (SegmentState.code_toNat _)
    · rw [hview, ← List.append_assoc, ← List.append_assoc, ← List.append_assoc, ← List.append_assoc,
        List.drop_left' (by simp only [List.length_append, hbus, hhealth, hsup, hrefresh, hsegs])]
      unfold countsView
      rw [counted_tracking, counted_queries, counted_judging, counted_modes, counted_clock]
  · have hx : aisleCode a = x := BitVec.eq_of_toNat_eq (by
      have := a.isLt
      rw [aisleCode, BitVec.toNat_ofNat, ha]
      omega)
    refine ⟨s.aisleView a, (s.sight a).code, ?_, fun h => ?_, fun h => ?_, fun hb hh => ?_, ?_⟩
    · rw [exec_status ref x hd, takeStatus_aisle ref _ ha, counted_aisleView]
      rfl
    · rw [(sight_blind_iff s a).2 h]
      rfl
    · rw [(sight_half_iff s a).2 h]
      rfl
    · rw [← sight_blind_iff] at hb
      rw [← sight_half_iff] at hh
      cases hs : s.sight a with
      | sighted => rfl
      | half => exact absurd hs hh
      | blind => exact absurd hs hb
    · rw [← hx]
      exact aisleView_eq s a
  · rw [exec_status ref x hd, takeStatus_range ref _ h]
    rfl
  · rw [exec_restart ref x hd, takeRestart_range ref _ h1 h2]
    rfl

end Sys2Proof.Machine
end


section
/-! PROOFS. The receiver's bytes: no operation but the receiver's own changes them. -/

namespace Sys2Proof.Machine

/-- The change from `s` to `t` leaves the bytes of the frame being collected. -/
def KeepsRx (s t : State) : Prop := t.link.rx = s.link.rx

theorem KeepsRx.refl (s : State) : KeepsRx s s := rfl

theorem KeepsRx.trans {s t u : State} (h : KeepsRx s t) (k : KeepsRx t u) : KeepsRx s u :=
  Eq.trans k h

theorem KeepsRx.ite {s t u : State} {p : Prop} [Decidable p] (h : p → KeepsRx s t)
    (k : ¬ p → KeepsRx s u) : KeepsRx s (if p then t else u) := by
  split
  · exact h ‹_›
  · exact k ‹_›

theorem KeepsRx.foldl {α : Type} {f : State → α → State} (h : ∀ s a, KeepsRx s (f s a))
    (l : List α) (s : State) : KeepsRx s (l.foldl f s) := by
  induction l generalizing s with
  | nil => exact .refl s
  | cons a l ih => exact (h s a).trans (ih _)

theorem keepsRx_of_only {cs : List Component} {s t : State} (h : Only cs s t)
    (hl : Component.link ∉ cs) : KeepsRx s t := congrArg LinkUnit.rx (h.link hl)

/-- A reply joins the reply queue alone. -/
theorem KeepsRx.reply {s t : State} (h : KeepsRx s t) (k : RequestKind) (ref : Byte) (st : Status)
    (body : List Byte) : KeepsRx s (reply k ref st body t) := h

theorem notice_keepsRx (n : Notice) (s : State) : KeepsRx s (notice n s) := notice_rx n s

/-! ## Verdicts and passages -/

theorem giveVerdict_keepsRx (s : State) (j : Judging) : KeepsRx s (giveVerdict s j) := by
  have hwrite : Only [.tracking] s (j.items.foldl (writeVerdict j.number) s) :=
    Only.foldl (writeVerdict_only j.number) j.items s
  refine KeepsRx.trans ((keepsRx_of_only hwrite (by decide)).trans ?_) (createReport_rx ..)
  exact .ite (fun _ => keepsRx_of_only (handVerdict_only ..) (by decide)) fun _ => .refl _

theorem settle_keepsRx (f : Judging → Judging) (s : State) : KeepsRx s (settle f s) :=
  KeepsRx.foldl giveVerdict_keepsRx _ (s.setJudging _)

theorem forceOldest_keepsRx (s : State) : KeepsRx s (forceOldest s) := by
  unfold forceOldest
  split
  · exact .refl s
  · exact giveVerdict_keepsRx (s.setJudging _) _

theorem judgePassage_keepsRx (j : Judging) (s : State) : KeepsRx s (judgePassage j s) := by
  refine .ite (fun _ => ?_) fun _ => giveVerdict_keepsRx s j
  exact KeepsRx.ite (fun _ => .refl s) fun _ => forceOldest_keepsRx s

theorem completePassage_keepsRx (a : Aisle) (s : State) (p : Passage) :
    KeepsRx s (completePassage a s p) :=
  (keepsRx_of_only (leave_only a p Track.spend s) (by decide)).trans (judgePassage_keepsRx ..)

theorem closePassage_keepsRx (a : Aisle) (o : PassageOutcome) (s : State) (p : Passage) :
    KeepsRx s (closePassage a o s p) :=
  (keepsRx_of_only (leave_only a p (Track.unbind s.clock.now) s) (by decide)).trans
    (createReport_rx ..)

theorem dismissAisle_keepsRx (a : Aisle) (s : State) : KeepsRx s (dismissAisle a s) :=
  KeepsRx.foldl (closePassage_keepsRx a .dismissed) (s.opens a) s

theorem sweepPassage_keepsRx (a : Aisle) (s : State) (p : Passage) :
    KeepsRx s (sweepPassage a s p) := by
  unfold sweepPassage
  split
  · exact completePassage_keepsRx a s p
  · exact closePassage_keepsRx a .turnedBack s p

theorem firstOfClear_keepsRx (a : Aisle) (b : Beam) (s : State) :
    KeepsRx s (firstOfClear a b s) := by
  unfold firstOfClear
  split
  · exact completePassage_keepsRx a s _
  · split
    · exact closePassage_keepsRx a .turnedBack s _
    · exact .refl s

theorem takeClear_keepsRx (a : Aisle) (b : Beam) (s : State) : KeepsRx s (takeClear a b s) := by
  rw [takeClear_eq]
  refine (firstOfClear_keepsRx a b s).trans (.ite (fun _ => ?_) fun _ => .refl _)
  exact KeepsRx.foldl (sweepPassage_keepsRx a) _ _

theorem acceptBeam_keepsRx (a : Aisle) (b : Beam) (s : State) : KeepsRx s (acceptBeam a b s) := by
  cases b <;> exact .refl s

theorem beamEvent_keepsRx (a : Aisle) (b : Beam) (level : Bool) (s : State) :
    KeepsRx s (beamEvent a b level s) := by
  refine (acceptBeam_keepsRx a b s).trans (.ite (fun _ => .ite (fun _ => ?_) fun _ => ?_) fun _ => .refl _)
  · exact keepsRx_of_only (takeBreak_only a b _) (by decide)
  · exact takeClear_keepsRx a b _

theorem settleBeam_keepsRx (a : Aisle) (b : Beam) (s : State) : KeepsRx s (settleBeam a b s) :=
  .ite (fun _ => beamEvent_keepsRx a b true s) fun _ =>
    .ite (fun _ => beamEvent_keepsRx a b false s) fun _ => .refl s

/-! ## Settings and modes -/

theorem settleInput_keepsRx (i : DebouncedInput) (s : State) : KeepsRx s (settleInput i s) := by
  cases i with
  | beam a b => exact settleBeam_keepsRx a b s
  | key => exact keepsRx_of_only (settleKey_only s) (by decide)

theorem settleInputs_keepsRx (n : Nat) (s : State) : KeepsRx s (settleInputs n s) := by
  induction n generalizing s with
  | zero => exact .refl s
  | succ n ih =>
    unfold settleInputs
    split
    · exact .refl s
    · next i others _ =>
      have hpick : KeepsRx s (s.afterPick others) := keepsRx_of_only (afterPick_only s others) (by decide)
      exact hpick.trans ((settleInput_keepsRx _ _).trans (ih _))

theorem takeSetSite_keepsRx (ref : Byte) (f : SiteFields) (s : State) :
    KeepsRx s (takeSetSite ref f s) := by
  unfold takeSetSite
  split
  · refine .ite (fun _ => ?_) fun _ => (KeepsRx.refl s).reply ..
    refine KeepsRx.reply ?_ ..
    exact (keepsRx_of_only (applyRecord_only _ s) (by decide)).trans (settleInputs_keepsRx 17 _)
  · exact (KeepsRx.refl s).reply ..

theorem changeMode_keepsRx (m : Mode) (s : State) (a : Aisle) : KeepsRx s (changeMode m s a) := by
  rw [changeMode_eq]
  have hmode : KeepsRx s (modeHandedOver m s a) :=
    keepsRx_of_only (modeHandedOver_only m s a) (by decide)
  exact .ite (fun _ => hmode.trans (dismissAisle_keepsRx a _)) fun _ => hmode

theorem takeSetMode_keepsRx (ref a m : Byte) (s : State) : KeepsRx s (takeSetMode ref a m s) := by
  unfold takeSetMode
  split
  · refine .ite (fun _ => (KeepsRx.refl s).reply ..) fun _ => KeepsRx.reply ?_ ..
    exact KeepsRx.foldl (changeMode_keepsRx _) _ s
  · exact (KeepsRx.refl s).reply ..

theorem takeSilence_keepsRx (ref a : Byte) (s : State) : KeepsRx s (takeSilence ref a s) := by
  unfold takeSilence
  split
  · exact (keepsRx_of_only (silenceAisles_only _ s) (by decide)).reply ..
  · exact (KeepsRx.refl s).reply ..

/-! ## The item table and the refresh -/

theorem abortRefresh_keepsRx (why : AbortReason) (r : RefreshRecord) (s : State) :
    KeepsRx s (abortRefresh why r s) := notice_keepsRx _ (s.setRefresh none)

theorem recordLate_keepsRx (k : ChangeKind) (id : Ident) (e : Option Entry) (s : State) :
    KeepsRx s (recordLate k id e s) := by
  unfold recordLate
  split
  · exact .refl s
  · refine .ite (fun _ => .ite (fun _ => .refl s) fun _ => ?_) fun _ => .refl s
    exact abortRefresh_keepsRx ..

theorem applyChange_keepsRx (k : ChangeKind) (id : Ident) (e : Option Entry) (s : State) :
    KeepsRx s (applyChange k id e s) :=
  ((keepsRx_of_only (writeEntry_only id e s) (by decide)).trans (recordLate_keepsRx k id e _)).trans
    (settle_keepsRx _ _)

theorem runUpdate_keepsRx (k : RequestKind) (c : ChangeKind) (ref : Byte) (id : Ident) (u : Update)
    (s : State) : KeepsRx s (runUpdate k c ref id u s) := by
  cases u with
  | refused st => exact (KeepsRx.refl s).reply ..
  | store e cl => exact (applyChange_keepsRx c id (some e) s).reply ..
  | remove => exact (applyChange_keepsRx c id none s).reply ..

theorem takeSegBegin_keepsRx (ref i : Byte) (n : Nat) (s : State) :
    KeepsRx s (takeSegBegin ref i n s) := by
  unfold takeSegBegin
  split
  · exact .refl s
  · split <;> exact .refl s

theorem takeSegBlock_keepsRx (ref i : Byte) (b : Word16) (last : Bool) (es : List BlockEntry)
    (s : State) : KeepsRx s (takeSegBlock ref i b last es s) := by
  unfold takeSegBlock
  split
  · exact .refl s
  · refine .ite (fun _ => .refl s) fun _ => .ite (fun _ => .refl s) fun _ => ?_
    refine .ite (fun _ => .refl s) fun _ => .ite (fun _ => .refl s) fun _ =>
      .ite (fun _ => .refl s) fun _ => ?_
    exact KeepsRx.reply (settle_keepsRx _ ((s.setSegments _).setRefresh none)) ..

theorem takeTrust_keepsRx (ref : Byte) (set : BitVec 64) (s : State) :
    KeepsRx s (takeTrust ref set s) :=
  (keepsRx_of_only (only_setSegments s _) (by decide)).reply ..

theorem takeSupervise_keepsRx (ref : Byte) (n : Nat) (s : State) :
    KeepsRx s (takeSupervise ref n s) := .ite (fun _ => .refl s) fun _ => .refl s

theorem countGoodFrame_keepsRx (s : State) : KeepsRx s (countGoodFrame s) := by
  unfold countGoodFrame
  split
  · exact .refl s
  · exact .refl s
  · exact notice_keepsRx _ (s.setSupervisor _)

theorem answerTaken_keepsRx (ref : Byte) (hit : Bool) (id : Ident) (a : HostAnswer)
    (ex : Option Nat) (s : State) : KeepsRx s (answerTaken ref hit id a ex s) := by
  refine KeepsRx.reply (KeepsRx.trans (t := answerMatched hit id a s) ?_ ?_) ..
  · cases hit with
    | false => exact .refl s
    | true => exact settle_keepsRx _ (answerBase id a s)
  · cases a with
    | noException => exact .refl _
    | entry c =>
      rw [answerStored]
      cases answerRule (answerMatched hit id (.entry c) s) id c ex with
      | store e cl => exact applyChange_keepsRx .answer id (some e) _
      | remove => exact .refl _
      | refused st => exact .refl _

theorem takeAnswer_keepsRx (ref n : Byte) (id : Ident) (b : Byte) (ex : Option Nat) (s : State) :
    KeepsRx s (takeAnswer ref n id b ex s) := by
  unfold takeAnswer
  refine .ite (fun _ => .refl s) fun _ => ?_
  split
  · rw [settleAnswer_eq]
    exact answerTaken_keepsRx ref _ id _ ex s
  · exact .refl s

/-! ## The bus -/

theorem takeBusTake_keepsRx (ref : Byte) (s : State) : KeepsRx s (takeBusTake ref s) := by
  refine .ite (fun _ => .refl s) fun _ => ?_
  cases s.bus.activity <;> exact .refl s

theorem endHold_keepsRx (h : Hold) (s : State) : KeepsRx s (endHold h s) := by
  unfold endHold failReaderPass
  cases h.pass <;> exact .refl s

theorem cancelGrant_keepsRx (ref : Byte) (s : State) : KeepsRx s (cancelGrant ref s) := by
  unfold cancelGrant
  dsimp only
  split <;> exact .refl s

theorem takeBusGive_keepsRx (ref : Byte) (s : State) : KeepsRx s (takeBusGive ref s) := by
  unfold takeBusGive
  split
  · exact (endHold_keepsRx _ s).reply ..
  · split
    · exact (cancelGrant_keepsRx _ s).reply ..
    · exact .refl s

theorem takeReaderPass_keepsRx (ref p : Byte) (bs : List Byte) (s : State) :
    KeepsRx s (takeReaderPass ref p bs s) := by
  unfold takeReaderPass
  split
  · split
    · exact .ite (fun _ => .refl s) fun _ => .refl s
    · exact .refl s
  · exact .refl s

/-! ## Dispatch -/

theorem takeStatus_keepsRx (ref v : Byte) (s : State) : KeepsRx s (takeStatus ref v s) := by
  refine .ite (fun _ => .refl s) fun _ => ?_
  split <;> exact .refl s

theorem takeRestart_keepsRx (ref k : Byte) (s : State) : KeepsRx s (takeRestart ref k s) := by
  unfold takeRestart
  split <;> exact .refl s

theorem takeRequest_keepsRx (ref : Byte) (r : Request) (s : State) :
    KeepsRx s (takeRequest ref r s) := by
  cases r with
  | describe o => exact .ite (fun _ => .refl s) fun _ => .refl s
  | status v => exact takeStatus_keepsRx ref v s
  | restart k => exact takeRestart_keepsRx ref k s
  | setSite f => exact takeSetSite_keepsRx ref f s
  | setMode a m => exact takeSetMode_keepsRx ref a m s
  | silence a => exact takeSilence_keepsRx ref a s
  | issue id e d => exact runUpdate_keepsRx ..
  | beginIssue id d => exact runUpdate_keepsRx ..
  | cancelIssue id => exact runUpdate_keepsRx ..
  | returnItem id => exact runUpdate_keepsRx ..
  | mark id c e d => exact runUpdate_keepsRx ..
  | unmark id => exact runUpdate_keepsRx ..
  | lookup id => exact .ite (fun _ => .refl s) fun _ => .refl s
  | segBegin i n => exact takeSegBegin_keepsRx ref i n s
  | segBlock i b l es => exact takeSegBlock_keepsRx ref i b l es s
  | trust set => exact takeTrust_keepsRx ref set s
  | supervise p => exact takeSupervise_keepsRx ref p s
  | answer n id x e => exact takeAnswer_keepsRx ref n id x e s
  | busTake => exact takeBusTake_keepsRx ref s
  | busGive => exact takeBusGive_keepsRx ref s
  | readerPass p bs => exact takeReaderPass_keepsRx ref p bs s

/-- Handing a good frame on leaves the receiver's bytes. -/
theorem handOn_keepsRx (s : State) (f : Frame) : KeepsRx s (handOn s f) := by
  have hcount := countGoodFrame_keepsRx s
  unfold handOn
  refine .ite (fun _ => hcount) fun _ => .ite (fun _ => hcount) fun _ => hcount.trans ?_
  unfold dispatch
  split
  · exact .refl _
  · exact .refl _
  · exact takeRequest_keepsRx _ _ _

end Sys2Proof.Machine
end


section
/-! PROOFS. The receiver over whole, bad and broken frames, and the request payloads read back. -/

namespace Sys2Proof.Machine

/-! ## The receiver (R157) -/

/-- Settles O58: the frame is found, and exactly its bytes are passed over. -/
theorem receiverFindsEveryFrame : Obligations.ReceiverFindsEveryFrame := by
  intro f now hl
  have hbytes : (f.bytes.map fun b => ({ time := now, byte := b } : RxByte))
      = { time := now, byte := 0xA5 } :: ((f.covered ++ bytes16 (crc16 f.covered)).map fun b =>
        { time := now, byte := b }) := rfl
  have htail : ((f.covered ++ bytes16 (crc16 f.covered)).map fun b =>
      ({ time := now, byte := b } : RxByte)).length ≤ f.tail := by
    rw [List.length_map, List.length_append, covered_length]
    exact le_rfl
  rw [hbytes, hunt, if_pos rfl, collect_frame f now _ hl, if_pos rfl]
  dsimp only
  rw [hunt_skip false _ _ htail]

theorem noGap_iff (l : List RxByte) : noGap l = true
    ↔ ∀ (i : Nat) b c, l[i]? = some b → l[i + 1]? = some c → age c.time b.time ≤ 20 := by
  induction l with
  | nil => exact ⟨fun _ i b c hb => (nomatch hb), fun _ => rfl⟩
  | cons x l ih =>
    cases l with
    | nil => exact ⟨fun _ i b c _ hc => by simp at hc, fun _ => rfl⟩
    | cons y l =>
      rw [noGap, Bool.and_eq_true, decide_eq_true_eq, ih]
      refine ⟨fun ⟨h0, h⟩ i b c hb hc => ?_, fun h => ⟨h 0 x y rfl rfl, fun i b c => h (i + 1) b c⟩⟩
      cases i with
      | zero =>
        obtain rfl := Option.some.inj hb
        obtain rfl := Option.some.inj hc
        exact h0
      | succ i => exact h i b c hb hc

theorem collect_badLength {len : RxByte} (start : RxByte) (body : List RxByte)
    (h : len.byte.toNat < 2 ∨ 249 < len.byte.toNat) : collect start (len :: body) = .discarded :=
  if_pos h

/-- A gap between two bytes of a frame discards it. -/
theorem collect_gap {start len b c : RxByte} {body : List RxByte} {i : Nat}
    (hi : i < len.byte.toNat + 3) (hb : (start :: len :: body)[i]? = some b)
    (hc : (start :: len :: body)[i + 1]? = some c) (hgap : 20 < age c.time b.time) :
    collect start (len :: body) = .discarded := by
  refine ite_eq_left_iff.2 fun _ => if_pos ?_
  have htake : start :: len :: body.take (len.byte.toNat + 2)
      = (start :: len :: body).take (len.byte.toNat + 4) := rfl
  rw [Bool.not_eq_true', Bool.eq_false_iff, htake]
  intro hno
  have := (noGap_iff _).1 hno i b c (by rw [List.getElem?_take_of_lt (by omega), hb])
    (by rw [List.getElem?_take_of_lt (by omega), hc])
  omega

/-- A frame whose LEN is in range, that has no gap and is not complete, is still collected. -/
theorem collect_partially {start : RxByte} {rest : List RxByte}
    (hlen : ∀ len body, rest = len :: body →
      2 ≤ len.byte.toNat ∧ len.byte.toNat ≤ 249 ∧ body.length < len.byte.toNat + 2)
    (hno : noGap (start :: rest) = true) : collect start rest = .partially := by
  cases rest with
  | nil => rfl
  | cons len body =>
    obtain ⟨h2, h249, hshort⟩ := hlen len body rfl
    refine (if_neg (by omega)).trans ((if_neg ?_).trans (if_pos hshort))
    rw [List.take_of_length_le hshort.le, hno]
    exact Bool.false_ne_true

/-- A frame whose CRC bytes do not match is discarded. -/
theorem collect_badCrc {f : Frame} {crc : Word16} {rest : List RxByte} (start : RxByte)
    (hl : f.payload.length ≤ 247) (hcrc : crc ≠ crc16 f.covered)
    (hrest : rest.map (·.byte) = f.covered ++ bytes16 crc) : collect start rest = .discarded := by
  have hn : (count8 (f.payload.length + 2)).toNat = f.payload.length + 2 := count8_toNat (by omega)
  cases rest with
  | nil => cases hrest
  | cons len body =>
    obtain ⟨hlen, hbody⟩ : len.byte = count8 (f.payload.length + 2) ∧ body.map (·.byte)
        = f.kind :: f.ref :: (f.payload ++ bytes16 crc) := List.cons.inj hrest
    have hlength : body.length = len.byte.toNat + 2 := by
      rw [hlen, hn, ← List.length_map (as := body) (·.byte), hbody]
      simp [bytes16]
    refine (if_neg (by rw [hlen, hn]; omega)).trans ?_
    by_cases hno : noGap (start :: len :: body.take (len.byte.toNat + 2)) = true
    · rw [if_neg (by rw [hno]; exact Bool.false_ne_true), if_neg (by omega),
        List.take_of_length_le hlength.le, hbody, hlen]
      exact (judge_frame f crc hn).trans (if_neg hcrc)
    · exact if_pos (by rw [Bool.not_eq_true', ← Bool.not_eq_true]; exact hno)

section
variable {start : RxByte} {rest : List RxByte} (h5 : start.byte = 0xA5)
  (hq : ∀ b ∈ rest, b.byte ≠ 0xA5)
include h5 hq

theorem hunt_discarded (silent : Bool) (h : collect start rest = .discarded) :
    hunt silent 0 (start :: rest) = ([], []) := by
  rw [hunt, if_pos h5, h]
  exact hunt_quiet silent rest hq

theorem hunt_partially (silent : Bool) (h : collect start rest = .partially) :
    hunt silent 0 (start :: rest) = ([], if silent then [] else start :: rest) := by
  rw [hunt, if_pos h5, h]
  cases silent with
  | false => rfl
  | true => exact hunt_quiet true rest hq

end

/-- With no byte for more than 20 ms, nothing is still being collected. -/
theorem hunt_silent (l : List RxByte) (n : Nat) : (hunt true n l).2 = [] := by
  induction l generalizing n with
  | nil => cases n <;> rfl
  | cons b l ih =>
    cases n with
    | succ n => exact ih n
    | zero =>
      rw [hunt]
      split
      · split
        · exact ih _
        · exact ih 0
        · exact ih 0
      · exact ih 0

theorem receive_of_hunt {s : State} {silent : Bool} {bytes : List Byte} {l rx : List RxByte}
    (hl : s.link.rx ++ bytes.map (fun b => { time := s.clock.now, byte := b }) = l)
    (h : hunt silent 0 l = ([], rx)) : receive silent bytes s = s.setRx rx := by
  rw [receive, hl, h]
  rfl

/-- Settles O60: each defect makes the frame discarded, and the other bytes are no start byte. -/
theorem badFramesAreDiscarded : Obligations.BadFramesAreDiscarded := by
  intro s bytes
  refine ⟨fun start rest hl h5 hq => ⟨fun hbad => ?_, fun hlen hno => ?_⟩, _, rfl, ?_⟩
  · have hdiscarded : collect start rest = .discarded := by
      rcases hbad with ⟨f, crc, hf, hcrc, hrest⟩ | ⟨len, body, rfl, h⟩
        | ⟨len, body, i, b, c, rfl, hi, hb, hc, hgap⟩
      · exact collect_badCrc start hf hcrc hrest
      · exact collect_badLength start body h
      · exact collect_gap hi hb hc hgap
    exact ⟨congrArg _ (receive_of_hunt hl (hunt_discarded h5 hq false hdiscarded)),
      congrArg _ (receive_of_hunt hl (hunt_discarded h5 hq true hdiscarded))⟩
  · have hpartially := collect_partially hlen ((noGap_iff _).2 hno)
    exact ⟨congrArg _ (receive_of_hunt hl (hunt_partially h5 hq false hpartially)),
      congrArg _ (receive_of_hunt hl (hunt_partially h5 hq true hpartially))⟩
  · exact Eq.trans (KeepsRx.foldl handOn_keepsRx _ _) (hunt_silent _ 0)

end Sys2Proof.Machine
end


section
/-! PROOFS. The request payloads read back (R176, R177). -/

namespace Sys2Proof.Machine

/-! ## Fields -/

theorem byteAt_append {a : List Byte} (l : List Byte) {n : Nat} (k : Nat) (h : a.length = n) :
    byteAt (a ++ l) (n + k) = byteAt l k := by
  rw [byteAt, byteAt, ← h, List.getD_append_right _ _ _ _ (Nat.le_add_right _ _),
    Nat.add_sub_cancel_left]

theorem field16_append {a : List Byte} (l : List Byte) {n : Nat} (k : Nat) (h : a.length = n) :
    field16 (a ++ l) (n + k) = field16 l k := by
  rw [field16, field16, Nat.add_assoc, byteAt_append l k h, byteAt_append l (k + 1) h]

theorem field64_append {a : List Byte} (l : List Byte) {n : Nat} (k : Nat) (h : a.length = n) :
    field64 (a ++ l) (n + k) = field64 l k := by
  simp only [field64, Nat.add_assoc, byteAt_append l _ h]

theorem field16_bytes16 (v : Word16) (l : List Byte) : field16 (bytes16 v ++ l) 0 = v := by
  change v.extractLsb' 8 8 ++ v.extractLsb' 0 8 = v
  rw [BitVec.extractLsb'_append_extractLsb'_eq_extractLsb' (show 8 = 0 + 8 from rfl)]
  exact BitVec.extractLsb'_eq_self

theorem field64_bytes64 (v : Ident) (l : List Byte) : field64 (bytes64 v ++ l) 0 = v := by
  change v.extractLsb' 56 8 ++ v.extractLsb' 48 8 ++ v.extractLsb' 40 8 ++ v.extractLsb' 32 8
    ++ v.extractLsb' 24 8 ++ v.extractLsb' 16 8 ++ v.extractLsb' 8 8 ++ v.extractLsb' 0 8 = v
  rw [BitVec.extractLsb'_append_extractLsb'_eq_extractLsb' (show 56 = 48 + 8 from rfl),
    BitVec.extractLsb'_append_extractLsb'_eq_extractLsb' (show 48 = 40 + 8 from rfl),
    BitVec.extractLsb'_append_extractLsb'_eq_extractLsb' (show 40 = 32 + 8 from rfl),
    BitVec.extractLsb'_append_extractLsb'_eq_extractLsb' (show 32 = 24 + 8 from rfl),
    BitVec.extractLsb'_append_extractLsb'_eq_extractLsb' (show 24 = 16 + 8 from rfl),
    BitVec.extractLsb'_append_extractLsb'_eq_extractLsb' (show 16 = 8 + 8 from rfl),
    BitVec.extractLsb'_append_extractLsb'_eq_extractLsb' (show 8 = 0 + 8 from rfl)]
  exact BitVec.extractLsb'_eq_self

/-- A 16-bit count reads back. -/
theorem field16_count16 {n : Nat} (h : n < 65536) (l : List Byte) :
    (field16 (count16 n ++ l) 0).toNat = n := by
  rw [count16, field16_bytes16, BitVec.toNat_ofNat, Nat.mod_eq_of_lt h]

/-- The word of an expiry field. -/
def expiryWord : Option Nat → Word16
  | none => 0xFFFF
  | some n => BitVec.ofNat 16 n

theorem expiryBytes_eq (e : Option Nat) : expiryBytes e = bytes16 (expiryWord e) := by
  cases e <;> rfl

theorem expiryField_word {e : Option Nat} (h : ∀ n, e = some n → n < 65535) :
    expiryField (expiryWord e) = e := by
  cases e with
  | none => rfl
  | some n =>
    have hn := h n rfl
    have hw : (expiryWord (some n)).toNat = n := Nat.mod_eq_of_lt (by omega)
    rw [expiryField, if_neg, hw]
    intro he
    rw [he] at hw
    exact absurd hw (by change ¬ 65535 = n; omega)

theorem deskField_byte {d : Option Nat} (h : ∀ n, d = some n → n < 255) :
    deskField (deskByte d) = d := by
  cases d with
  | none => rfl
  | some n =>
    have hn := h n rfl
    have hw : (deskByte (some n)).toNat = n := count8_toNat (by omega)
    rw [deskField, if_neg, hw]
    intro he
    rw [he] at hw
    exact absurd hw (by change ¬ 255 = n; omega)

theorem boolCode_ne_zero (l : Bool) : (boolCode l != 0) = l := by cases l <;> rfl

/-! ## The layouts -/

theorem readSite_payload {f : SiteFields} (h : f.aisles < 256 ∧ f.floor < 256 ∧ f.threshold < 65536
    ∧ f.margin < 256 ∧ f.decay < 65536 ∧ f.transit < 65536 ∧ f.grace < 65536 ∧ f.query < 65536
    ∧ f.alarm < 256 ∧ f.debounce < 256 ∧ f.expiry < 65536) : readSite f.payload = f := by
  obtain ⟨h1, h2, h3, h4, h5, h6, h7, h8, h9, h10, h11⟩ := h
  have hread : readSite f.payload =
      { aisles := (count8 f.aisles).toNat, floor := (count8 f.floor).toNat
        threshold := (field16 (count16 f.threshold ++ []) 0).toNat
        margin := (count8 f.margin).toNat
        decay := (field16 (count16 f.decay ++ []) 0).toNat
        transit := (field16 (count16 f.transit ++ []) 0).toNat
        grace := (field16 (count16 f.grace ++ []) 0).toNat
        query := (field16 (count16 f.query ++ []) 0).toNat
        alarm := (count8 f.alarm).toNat, debounce := (count8 f.debounce).toNat
        expiry := (field16 (count16 f.expiry ++ []) 0).toNat
        pattern := f.pattern, pitch := f.pitch } := rfl
  rw [hread, field16_count16 h3, field16_count16 h5, field16_count16 h6, field16_count16 h7,
    field16_count16 h8, field16_count16 h11, count8_toNat h1, count8_toNat h2, count8_toNat h4,
    count8_toNat h9, count8_toNat h10]

theorem BlockEntry.payload_length (e : BlockEntry) : e.payload.length = 11 := rfl

theorem entries_payload_length (es : List BlockEntry) :
    (es.flatMap BlockEntry.payload).length = 11 * es.length := by
  induction es with
  | nil => rfl
  | cons e es ih =>
    rw [List.flatMap_cons, List.length_append, ih, e.payload_length, List.length_cons]
    omega

/-- The entries of a block read back from behind any bytes. -/
theorem readEntries_payload (es : List BlockEntry) (a : List Byte)
    (h : ∀ x ∈ es, x.expiry < 65536) :
    readEntries (a ++ es.flatMap BlockEntry.payload) es.length a.length = es := by
  induction es generalizing a with
  | nil => rfl
  | cons e es ih =>
    have hrest := ih (a ++ e.payload) fun x hx => h x (List.mem_cons_of_mem _ hx)
    rw [List.length_append, e.payload_length, List.append_assoc] at hrest
    have hid : field64 (a ++ (e.payload ++ es.flatMap BlockEntry.payload)) a.length = e.ident :=
      (field64_append _ 0 rfl).trans (field64_bytes64 e.ident _)
    have hcls : byteAt (a ++ (e.payload ++ es.flatMap BlockEntry.payload)) (a.length + 8) = e.cls :=
      byteAt_append _ 8 rfl
    have hexp : (field16 (a ++ (e.payload ++ es.flatMap BlockEntry.payload)) (a.length + 9)).toNat
        = e.expiry :=
      (congrArg BitVec.toNat (field16_append _ 9 rfl)).trans
        (field16_count16 (h e List.mem_cons_self) (es.flatMap BlockEntry.payload))
    rw [List.flatMap_cons, List.length_cons, readEntries, hid, hcls, hexp, hrest]

/-! ## The requests -/

theorem parseFrame_payload {r : Request} (ref : Byte) (hl : lengthAllowed r.kind r.payload = true)
    (hr : readRequest r.kind r.payload = r) :
    parseFrame { kind := r.kind.code, ref := ref, payload := r.payload } = .request r.kind r := by
  rw [parseFrame, ofCode_code]
  dsimp only
  rw [if_pos hl, hr]

/-- Settles O59: each request's length, and its fields one by one. -/
theorem requestPayloadsReadBack : Obligations.RequestPayloadsReadBack := by
  intro r h ref
  have hid (id : Ident) : field64 (bytes64 id) 0 = id := field64_bytes64 id []
  cases r with
  | describe o => exact parseFrame_payload ref rfl rfl
  | status v => exact parseFrame_payload ref rfl rfl
  | restart k => exact parseFrame_payload ref rfl rfl
  | setSite f => exact parseFrame_payload ref rfl (congrArg Request.setSite (readSite_payload h))
  | setMode a m => exact parseFrame_payload ref rfl rfl
  | silence a => exact parseFrame_payload ref rfl rfl
  | issue id e d =>
    have hp : (Request.issue id e d).payload
        = bytes64 id ++ (bytes16 (expiryWord e) ++ [deskByte d]) := by
      rw [Request.payload, expiryBytes_eq, List.append_assoc]
    refine parseFrame_payload ref (by rw [hp]; rfl) ?_
    rw [hp]
    have hread : readRequest .issue (bytes64 id ++ (bytes16 (expiryWord e) ++ [deskByte d]))
        = .issue (field64 (bytes64 id ++ (bytes16 (expiryWord e) ++ [deskByte d])) 0)
          (expiryField (field16 (bytes16 (expiryWord e) ++ [deskByte d]) 0))
          (deskField (deskByte d)) := rfl
    exact hread.trans (by
      rw [field64_bytes64, field16_bytes16, expiryField_word h.1, deskField_byte h.2])
  | beginIssue id d =>
    have hread : readRequest .beginIssue (bytes64 id ++ [deskByte d])
        = .beginIssue (field64 (bytes64 id ++ [deskByte d]) 0) (deskField (deskByte d)) := rfl
    exact parseFrame_payload ref rfl (hread.trans (by rw [field64_bytes64, deskField_byte h]))
  | cancelIssue id => exact parseFrame_payload ref rfl (congrArg Request.cancelIssue (hid id))
  | returnItem id => exact parseFrame_payload ref rfl (congrArg Request.returnItem (hid id))
  | mark id c e d =>
    have hp : (Request.mark id c e d).payload
        = bytes64 id ++ (c :: (bytes16 (expiryWord e) ++ [deskByte d])) := by
      rw [Request.payload, expiryBytes_eq, List.append_assoc]
      rfl
    refine parseFrame_payload ref (by rw [hp]; rfl) ?_
    rw [hp]
    have hread : readRequest .mark (bytes64 id ++ (c :: (bytes16 (expiryWord e) ++ [deskByte d])))
        = .mark (field64 (bytes64 id ++ (c :: (bytes16 (expiryWord e) ++ [deskByte d]))) 0) c
          (expiryField (field16 (bytes16 (expiryWord e) ++ [deskByte d]) 0))
          (deskField (deskByte d)) := rfl
    exact hread.trans (by
      rw [field64_bytes64, field16_bytes16, expiryField_word h.1, deskField_byte h.2])
  | unmark id => exact parseFrame_payload ref rfl (congrArg Request.unmark (hid id))
  | lookup id => exact parseFrame_payload ref rfl (congrArg Request.lookup (hid id))
  | segBegin i n =>
    exact parseFrame_payload ref rfl (congrArg (Request.segBegin i) (field16_count16 h []))
  | segBlock i b l es =>
    obtain ⟨hn, hes⟩ := h
    have hcount : (count8 es.length).toNat = es.length := count8_toNat (by omega)
    have hlength : (Request.segBlock i b l es).payload.length = 5 + 11 * es.length := by
      rw [Request.payload, List.length_append, entries_payload_length]
      rfl
    have hread : readRequest .segBlock (Request.segBlock i b l es).payload
        = .segBlock i (field16 (bytes16 b ++ []) 0) (boolCode l != 0)
          (readEntries (Request.segBlock i b l es).payload (count8 es.length).toNat 5) := rfl
    have hentries : readEntries (Request.segBlock i b l es).payload es.length 5 = es :=
      readEntries_payload es (i :: bytes16 b ++ [boolCode l, count8 es.length]) hes
    refine parseFrame_payload ref ?_ (hread.trans ?_)
    · have hbyte : byteAt (Request.segBlock i b l es).payload 4 = count8 es.length := rfl
      have hallowed : 5 ≤ (Request.segBlock i b l es).payload.length
          ∧ (byteAt (Request.segBlock i b l es).payload 4).toNat ≤ 16
          ∧ (Request.segBlock i b l es).payload.length
            = 5 + 11 * (byteAt (Request.segBlock i b l es).payload 4).toNat := by
        rw [hlength, hbyte, hcount]
        omega
      simpa only [Request.kind, lengthAllowed, Bool.and_eq_true, decide_eq_true_eq, beq_iff_eq,
        and_assoc] using hallowed
    · rw [hcount, hentries, field16_bytes16, boolCode_ne_zero]
  | trust set => exact parseFrame_payload ref rfl (congrArg Request.trust (hid set))
  | supervise p =>
    exact parseFrame_payload ref rfl (congrArg Request.supervise (field16_count16 h []))
  | answer n id x e =>
    have hp : (Request.answer n id x e).payload
        = n :: (bytes64 id ++ (x :: bytes16 (expiryWord e))) := by
      rw [Request.payload, expiryBytes_eq]
      rfl
    refine parseFrame_payload ref (by rw [hp]; rfl) ?_
    rw [hp]
    have hread : readRequest .answer (n :: (bytes64 id ++ (x :: bytes16 (expiryWord e))))
        = .answer n (field64 (bytes64 id ++ (x :: bytes16 (expiryWord e))) 0) x
          (expiryField (field16 (bytes16 (expiryWord e) ++ []) 0)) := rfl
    exact hread.trans (by rw [field64_bytes64, field16_bytes16, expiryField_word h])
  | busTake => exact parseFrame_payload ref rfl rfl
  | busGive => exact parseFrame_payload ref rfl rfl
  | readerPass p bs =>
    obtain ⟨h1, h64⟩ := h
    have hcount : (count8 bs.length).toNat = bs.length := count8_toNat (by omega)
    refine parseFrame_payload ref ?_ rfl
    have hbyte : byteAt (Request.readerPass p bs).payload 1 = count8 bs.length := rfl
    have hlength : (Request.readerPass p bs).payload.length = bs.length + 2 := rfl
    simp only [Request.kind, lengthAllowed, Bool.and_eq_true, decide_eq_true_eq, beq_iff_eq,
      hbyte, hlength, hcount]
    omega

end Sys2Proof.Machine
end


section
/-! PROOFS. SET-SITE: the clamped record, its list of fields, and what a change of N does to the bus. -/

namespace Sys2Proof.Machine

/-! ## The record (R7) -/

theorem settings_eq (f : SiteFields) (pattern : TonePattern) (pitch : TonePitch) :
    f.settings pattern pitch =
      { aisles := max 1 (min 8 f.aisles), floor := min 200 f.floor
        threshold := max 64 (min 4095 f.threshold), margin := min 48 f.margin
        decay := max 20 (min 1000 f.decay), transit := max 2000 (min 30000 f.transit)
        grace := max 500 (min 10000 f.grace), query := max 100 (min 2000 f.query)
        alarm := max 1 (min 60 f.alarm), debounce := max 2 (min 50 f.debounce)
        expiry := min 1440 f.expiry, pattern := pattern, pitch := pitch } := by
  simp only [SiteFields.settings, clamp, Nat.zero_max]

theorem clampedFields_pairwise (f : SiteFields) : f.clampedFields.Pairwise (· < ·) := by
  have hall : (f.numeric.map (·.1)).Pairwise (· < ·) := by
    change [1, 2, 3, 4, 5, 6, 7, 8, 9, 10, 11].Pairwise (· < ·)
    decide
  exact hall.sublist (List.filter_sublist.map _)

theorem mem_clampedFields (f : SiteFields) (n : Nat) : n ∈ f.clampedFields ↔
    (n = 1 ∧ (f.aisles < 1 ∨ 8 < f.aisles)) ∨ (n = 2 ∧ 200 < f.floor)
      ∨ (n = 3 ∧ (f.threshold < 64 ∨ 4095 < f.threshold)) ∨ (n = 4 ∧ 48 < f.margin)
      ∨ (n = 5 ∧ (f.decay < 20 ∨ 1000 < f.decay)) ∨ (n = 6 ∧ (f.transit < 2000 ∨ 30000 < f.transit))
      ∨ (n = 7 ∧ (f.grace < 500 ∨ 10000 < f.grace)) ∨ (n = 8 ∧ (f.query < 100 ∨ 2000 < f.query))
      ∨ (n = 9 ∧ (f.alarm < 1 ∨ 60 < f.alarm)) ∨ (n = 10 ∧ (f.debounce < 2 ∨ 50 < f.debounce))
      ∨ (n = 11 ∧ 1440 < f.expiry) := by
  simp only [SiteFields.clampedFields, SiteFields.numeric, List.mem_map, List.mem_filter,
    List.mem_cons, List.not_mem_nil, or_false, Bool.or_eq_true, decide_eq_true_eq, or_and_right,
    exists_or, exists_eq_left, and_assoc, Nat.not_lt_zero, false_or, false_and]
  simp only [and_comm, eq_comm, and_or_left, or_assoc]

/-! ## A change of N (R9) -/

/-- The controller with clean records above N, and with the turn in progress marked. -/
def BusController.within (n : Nat) (b : BusController) : BusController :=
  { b with health := healthWithin n b.health, activity := b.activity.changeAisles n }

theorem applyRecord_bus {r : SiteSettings} {s : State} (h : r.aisles ≠ s.site.aisles) :
    (applyRecord r s).bus = if s.bus.activity = .idle then
      startRound s.clock.now r.aisles (s.bus.within r.aisles) else s.bus.within r.aisles := by
  rw [applyRecord, if_neg h]
  rfl

theorem within_idle {n : Nat} {b : BusController} (h : b.activity = .idle) :
    b.within n = { b with health := healthWithin n b.health } := by
  rw [BusController.within, h, Activity.changeAisles, ← h]

theorem healthWithin_get (n : Nat) (v : Vector Health 9) (q : Pedestal) :
    (healthWithin n v)[q] = if n < q.val then { faulted := false, count := 0 } else v[q] :=
  Vector.getElem_ofFn q.isLt

/-- What an accepted SET-SITE answers. -/
theorem takeSetSite_applies {ref : Byte} {f : SiteFields} {s : State} {pattern : TonePattern}
    {pitch : TonePitch} (hpattern : TonePattern.ofCode f.pattern = some pattern)
    (hpitch : TonePitch.ofCode f.pitch = some pitch) (h : s.aisleCountAllowed f = true) :
    takeSetSite ref f s = reply .setSite ref (if f.clampedFields = [] then .ok else .clamped)
      (clampedBody f.clampedFields) (applySite (f.settings pattern pitch) s) := by
  simp only [takeSetSite, hpattern, hpitch, if_pos h]

/-- Settles O8: the record is applied, and then the inputs held for its debounce are accepted. -/
theorem setSiteAppliesTheClampedRecord : Obligations.SetSiteAppliesTheClampedRecord := by
  intro s ref p pattern pitch hd hl hpattern hpitch haisles
  have hallowed : s.counted.aisleCountAllowed (readSite p) = true := by
    rw [State.aisleCountAllowed_iff, counted_site, counted_modes]
    exact haisles
  rw [exec_setSite hd hl, takeSetSite_applies hpattern hpitch hallowed]
  have hsettings := settings_eq (readSite p) pattern pitch
  generalize (readSite p).settings pattern pitch = r at *
  have honly := applyRecord_only r s.counted
  have hsite := applyRecord_site r s.counted
  refine ⟨applyRecord r s.counted, applySite r s.counted, (readSite p).clampedFields, rfl,
    clampedFields_pairwise _, mem_clampedFields _, hsite.trans hsettings, ?_, fun hn => ?_,
    fun hn => ?_, honly.link (by decide), honly.supervisor (by decide), ?_, applySite_accepted r _⟩
  · rw [applyRecord_tracking, hsite, counted_tracking, counted_clock]
  · rw [hsite] at hn
    rw [applyRecord_bus_same (hn.trans (by rw [counted_site])), counted_bus]
  · rw [hsite] at hn ⊢
    have hne : r.aisles ≠ s.counted.site.aisles := by rwa [counted_site]
    have hbus := applyRecord_bus hne
    have hhealth : (applyRecord r s.counted).bus.health = healthWithin r.aisles s.bus.health := by
      rw [(applyRecord_bus_changed hne).1, counted_bus]
    rw [counted_bus, counted_clock] at hbus
    refine ⟨fun q => by rw [hhealth, healthWithin_get], fun hidle => ?_, fun hbusy => ?_,
      fun tn tn' htn => ?_⟩
    · rw [hhealth, hbus, if_pos hidle, within_idle hidle]
      exact startRound_newRound _ _ _
    · rw [hbus, if_neg hbusy]
      rfl
    · have hact (x : Activity) (hx : s.bus.activity = x) (hi : x ≠ .idle) :
          (applyRecord r s.counted).bus.activity = x.changeAisles r.aisles := by
        rw [hbus, if_neg (hx ▸ hi), BusController.within, hx]
      subst htn
      exact ⟨fun w h => hact _ h nofun, fun bs w h => hact _ h nofun, fun b rs h => hact _ h nofun,
        fun w h => hact _ h nofun, fun q h => hact _ h nofun, fun x h => hact _ h nofun⟩
  · exact Only.of_counted (honly.mono (by decide)) (by decide) (by decide)

end Sys2Proof.Machine
end


section
/-! PROOFS. SET-MODE: the stored modes, the dismissals with their reports, and the handovers. -/

namespace Sys2Proof.Machine

/-! ## The table of transitions (R11) -/

theorem transition_refused_iff (x m : Mode) : transition x m = .refused
    ↔ (x = .off ∧ m = .guard) ∨ (x = .guard ∧ m = .off) := by
  cases x <;> cases m <;> decide

theorem transition_unchanged_iff (x m : Mode) : transition x m = .unchanged ↔ x = m := by
  cases x <;> cases m <;> decide

theorem transition_off_permitted {x : Mode} (h : x = .watch) : transition x .off = .permitted :=
  h ▸ rfl

theorem namedAisles_nodup {n : Nat} {b : Byte} {as : List Aisle} (h : namedAisles n b = some as) :
    as.Nodup := by
  unfold namedAisles at h
  split at h
  · exact Option.some.inj h ▸ allAisles_nodup.filter _
  · split at h
    · exact Option.some.inj h ▸ List.nodup_singleton _
    · cases h

/-! ## Closing the passages of an aisle (R65, R74) -/

/-- The report of a passage that closes reads the clock, the aisle's CROWDED flag and the bus. -/
theorem closingReport_congr {s t : State} {a : Aisle} (hclock : t.clock = s.clock)
    (haisle : t.passages.aisles[a].crowded = s.passages.aisles[a].crowded) (hbus : t.bus = s.bus)
    (p : Passage) (o : PassageOutcome) (mode : EffectiveMode) :
    closingReport a p o mode t = closingReport a p o mode s := by
  rw [closingReport, closingReport, State.leavingFlags, State.leavingFlags, State.sight, State.sight,
    hclock, haisle, hbus]

theorem unboundTrack_unboundTrack (now : Time) (x : Track) :
    unboundTrack now (unboundTrack now x) = unboundTrack now x := Track.unbind_unbind now x

section
variable (a : Aisle) (o : PassageOutcome)

theorem closePassage_crowded (s : State) (p : Passage) :
    (closePassage a o s p).passages.aisles[a].crowded = s.passages.aisles[a].crowded := by
  rw [closePassage_passages]
  exact setOpens_crowded ..

theorem closePassage_link {s t : State} (p : Passage) (hl : t.link = s.link)
    (hc : t.clock = s.clock) : (closePassage a o s p).link
      = (createReport false (.passage (closingReport a p o (s.effective a) s)) t).link :=
  createReport_congr ((leave_only a p (Track.unbind s.clock.now) s).link (by decide) |>.trans hl.symm)
    ((leave_only a p (Track.unbind s.clock.now) s).clock (by decide) |>.trans hc.symm)

/-- The reports of passages that close one after another. -/
theorem foldl_closePassage_link (ps : List Passage) {s t : State} (hl : t.link = s.link)
    (hc : t.clock = s.clock) : (ps.foldl (closePassage a o) s).link
      = ((ps.map fun q => closingReport a q o (s.effective a) s).foldl
          (fun u r => createReport false (.passage r) u) t).link := by
  induction ps generalizing s t with
  | nil => exact hl.symm
  | cons p ps ih =>
    have honly := closePassage_only a o s p
    have hsame (q : Passage) : closingReport a q o ((closePassage a o s p).effective a)
        (closePassage a o s p) = closingReport a q o (s.effective a) s := by
      rw [honly.effective (by decide)]
      exact closingReport_congr (honly.clock (by decide)) (closePassage_crowded a o s p)
        (honly.bus (by decide)) q o _
    rw [List.foldl_cons, ih (t := createReport false
      (.passage (closingReport a p o (s.effective a) s)) t) (closePassage_link a o p hl hc).symm
      (((createReport_only _ _ t).clock (by decide)).trans (hc.trans (honly.clock (by decide)).symm))]
    simp only [hsame]
    rfl

/-- The tracks after passages have closed one after another. -/
theorem foldl_closePassage_track? (ps : List Passage) (s : State) (i : Ident) :
    (ps.foldl (closePassage a o) s).track? i = (s.track? i).map fun x =>
      if ∃ q ∈ ps, i ∈ q.items then unboundTrack s.clock.now x else x := by
  induction ps generalizing s with
  | nil =>
    rw [List.foldl_nil]
    simp
  | cons p ps ih =>
    obtain ⟨m, hleft, hclose⟩ := closePassage_closes a o s p
    have htrack : (closePassage a o s p).track? i
        = (s.track? i).map fun x => if i ∈ p.items then unboundTrack s.clock.now x else x := by
      rw [hclose, (createReport_only _ _ m).track? (by decide)]
      exact hleft.tracks i
    rw [List.foldl_cons, ih, (closePassage_only a o s p).clock (by decide), htrack, Option.map_map]
    congr 1
    funext x
    simp only [Function.comp, List.exists_mem_cons_iff]
    by_cases hp : i ∈ p.items
    · by_cases hps : ∃ q ∈ ps, i ∈ q.items
      · rw [if_pos hps, if_pos hp, if_pos (.inl hp), unboundTrack_unboundTrack]
      · rw [if_neg hps, if_pos hp, if_pos (.inl hp)]
    · by_cases hps : ∃ q ∈ ps, i ∈ q.items
      · rw [if_pos hps, if_neg hp, if_pos (.inr hps)]
      · rw [if_neg hps, if_neg hp, if_neg (not_or.2 ⟨hp, hps⟩)]

end

/-! ## One change of mode -/

/-- The reports of the passages dismissed by a change of the aisles `l` to mode `m`. -/
def dismissals (m : Mode) (l : List Aisle) (s : State) : List PassageReport :=
  if m = .off then
    (l.filter fun a => s.modes.stored[a] == .watch).flatMap fun a =>
      (s.opens a).map fun q => closingReport a q .dismissed
        (if s.modes.evac.accepted then .free else .off) s
  else []

/-- Reports without a verdict, queued in order. -/
def reportAll (rs : List PassageReport) (s : State) : State :=
  rs.foldl (fun u r => createReport false (.passage r) u) s

/-- What SET-MODE's changes of the aisles `l` to mode `m` make of state `s`. -/
structure ChangedModes (m : Mode) (l : List Aisle) (s t : State) : Prop where
  stored : ∀ a : Aisle, t.modes.stored[a] = if a ∈ l then m else s.modes.stored[a]
  evac : t.modes.evac = s.modes.evac
  aisle : ∀ a : Aisle, t.passages.aisles[a]
    = if a ∈ l ∧ s.modes.stored[a] = .watch ∧ m = .off then { opens := [], crowded := false }
      else s.passages.aisles[a]
  next : t.passages.next = s.passages.next
  tracks : ∀ i, t.track? i = (s.track? i).map fun x =>
    if m = .off ∧ ∃ a ∈ l, s.modes.stored[a] = .watch ∧ ∃ q ∈ s.opens a, i ∈ q.items then
      unboundTrack s.clock.now x
    else x
  annunciators : ∀ a : Aisle, t.annunciators[a]
    = if s.effective a = .guard ∧ t.effective a ≠ .guard then .quiet else s.annunciators[a]
  reports : ∀ u, u.link = s.link → u.clock = s.clock →
    t.link = (reportAll (dismissals m l s) u).link
  frame : Only modeParts s t

theorem dismissals_congr {s t : State} {l : List Aisle} (m : Mode)
    (hstored : ∀ a ∈ l, t.modes.stored[a] = s.modes.stored[a]) (hevac : t.modes.evac = s.modes.evac)
    (haisle : ∀ a ∈ l, t.passages.aisles[a] = s.passages.aisles[a]) (hclock : t.clock = s.clock)
    (hbus : t.bus = s.bus) : dismissals m l t = dismissals m l s := by
  have hfilter : (l.filter fun a => t.modes.stored[a] == .watch)
      = l.filter fun a => s.modes.stored[a] == .watch :=
    List.filter_congr fun a ha => by rw [hstored a ha]
  unfold dismissals
  rw [hfilter]
  congr 1
  refine List.flatMap_congr fun a ha => ?_
  have ha := haisle a (List.mem_filter.1 ha).1
  rw [State.opens, State.opens, ha, hevac]
  exact List.map_congr_left fun q _ => closingReport_congr hclock (by rw [ha]) hbus q _ _

theorem changeMode_next (m : Mode) (s : State) (a : Aisle) :
    (changeMode m s a).passages.next = s.passages.next := by
  have hpassages := (modeHandedOver_only m s a).passages (by decide)
  rw [changeMode_eq]
  split
  · rw [(dismissAisle_spec a _).2.2, hpassages]
  · rw [hpassages]

/-- The effective mode by the accepted EVAC and the stored mode. -/
theorem effective_of_modes {s t : State} {a : Aisle} (hevac : t.modes.evac = s.modes.evac)
    (hstored : t.modes.stored[a] = s.modes.stored[a]) : t.effective a = s.effective a := by
  rw [State.effective, State.effective, hevac, hstored]

theorem modeHandedOver_effective_off (s : State) (a : Aisle) :
    (modeHandedOver .off s a).effective a = if s.modes.evac.accepted then .free else .off := by
  rw [modeHandedOver_effective, State.effective, modeSet, State.setModes_modes, set_get, if_pos rfl]
  rfl

theorem dismissAisle_link (a : Aisle) {s t : State} (hl : t.link = s.link) (hc : t.clock = s.clock) :
    (dismissAisle a s).link = (reportAll ((s.opens a).map fun q =>
      closingReport a q .dismissed (s.effective a) s) t).link :=
  foldl_closePassage_link a .dismissed (s.opens a) hl hc

theorem dismissAisle_track? (a : Aisle) (s : State) (i : Ident) :
    (dismissAisle a s).track? i = (s.track? i).map fun x =>
      if ∃ q ∈ s.opens a, i ∈ q.items then unboundTrack s.clock.now x else x :=
  foldl_closePassage_track? a .dismissed (s.opens a) s i

theorem changeMode_tracks (m : Mode) (s : State) (a : Aisle) (i : Ident) :
    (changeMode m s a).track? i = (s.track? i).map fun x =>
      if m = .off ∧ s.modes.stored[a] = .watch ∧ ∃ q ∈ s.opens a, i ∈ q.items then
        unboundTrack s.clock.now x
      else x := by
  have honly := modeHandedOver_only m s a
  rw [changeMode_eq]
  by_cases h : s.modes.stored[a] = .watch ∧ m = .off
  · rw [if_pos h, dismissAisle_track?, honly.track? (by decide), honly.clock (by decide),
      honly.opens (by decide)]
    simp only [h.1, h.2, true_and]
  · rw [if_neg h, honly.track? (by decide)]
    have hn : ¬ (m = .off ∧ s.modes.stored[a] = .watch ∧ ∃ q ∈ s.opens a, i ∈ q.items) :=
      fun hx => h ⟨hx.2.1, hx.1⟩
    simp only [if_neg hn, Option.map_id']

theorem changeMode_reports (m : Mode) {s u : State} (a : Aisle) (hl : u.link = s.link)
    (hc : u.clock = s.clock) : (changeMode m s a).link = (reportAll (dismissals m [a] s) u).link := by
  have honly := modeHandedOver_only m s a
  rw [changeMode_eq]
  by_cases h : s.modes.stored[a] = .watch ∧ m = .off
  · obtain ⟨hw, rfl⟩ := h
    have hreports : dismissals .off [a] s = ((modeHandedOver .off s a).opens a).map fun q =>
        closingReport a q .dismissed ((modeHandedOver .off s a).effective a)
          (modeHandedOver .off s a) := by
      rw [dismissals, if_pos rfl, List.filter_cons_of_pos (by rw [hw]; rfl), List.filter_nil,
        List.flatMap_singleton, modeHandedOver_effective_off, honly.opens (by decide)]
      exact List.map_congr_left fun q _ => (closingReport_congr (honly.clock (by decide))
        (by rw [honly.passages (by decide)]) (honly.bus (by decide)) q _ _).symm
    rw [if_pos ⟨hw, rfl⟩, hreports]
    exact dismissAisle_link a (hl.trans (honly.link (by decide)).symm)
      (hc.trans (honly.clock (by decide)).symm)
  · have hnone : dismissals m [a] s = [] := by
      unfold dismissals
      split
      · next hm =>
        have hf : ([a].filter fun a => s.modes.stored[a] == .watch) = [] :=
          List.filter_eq_nil_iff.2 fun b hb hw =>
            h ⟨beq_iff_eq.1 (List.mem_singleton.1 hb ▸ hw), hm⟩
        rw [hf]
        rfl
      · rfl
    rw [if_neg h, hnone]
    exact (honly.link (by decide)).trans hl.symm

theorem changeMode_changed (m : Mode) (s : State) (a : Aisle) :
    ChangedModes m [a] s (changeMode m s a) := by
  have hmodes := changeMode_stored m s a
  have hstored (b : Aisle) : (changeMode m s a).modes.stored[b]
      = if b ∈ [a] then m else s.modes.stored[b] := by
    rw [hmodes, set_get]
    exact if_congr (by rw [List.mem_singleton, eq_comm]) rfl rfl
  have hevac : (changeMode m s a).modes.evac = s.modes.evac := by rw [hmodes]
  refine ⟨hstored, hevac, fun b => ?_, changeMode_next m s a, fun i => ?_, fun b => ?_,
    fun u hl hc => changeMode_reports m a hl hc, changeMode_only m s a⟩
  · rw [changeMode_aisle]
    refine if_congr ?_ rfl rfl
    rw [List.mem_singleton]
    exact ⟨fun ⟨h, h1⟩ => ⟨h.symm, h ▸ h1⟩, fun ⟨h, h1⟩ => ⟨h.symm, h ▸ h1⟩⟩
  · rw [changeMode_tracks]
    simp only [List.mem_singleton, exists_eq_left]
  · rw [changeMode_annunciator]
    refine if_congr ⟨fun ⟨h, h1⟩ => h ▸ h1, fun h => ?_⟩ rfl rfl
    by_cases hab : a = b
    · exact ⟨hab, hab ▸ h⟩
    · refine absurd ?_ h.2
      rw [effective_of_modes hevac ((hstored b).trans (if_neg fun hb => hab
        (List.mem_singleton.1 hb).symm))]
      exact h.1

theorem dismissals_nil (m : Mode) (s : State) : dismissals m [] s = [] := by
  unfold dismissals
  split <;> rfl

theorem dismissals_cons (m : Mode) (a : Aisle) (l : List Aisle) (s : State) :
    dismissals m (a :: l) s = dismissals m [a] s ++ dismissals m l s := by
  unfold dismissals
  split
  · rw [← List.singleton_append, List.filter_append, List.flatMap_append]
  · rfl

theorem reportAll_only (rs : List PassageReport) (s : State) : Only [.link] s (reportAll rs s) :=
  Only.foldl (fun s r => createReport_only false (.passage r) s) rs s

/-- Tracks unbound by the first change of mode or by the others. -/
theorem unbound_twice (m : Prop) [Decidable m] (p q : Prop) [Decidable p] [Decidable q]
    (now : Time) (x : Track) :
    ((fun x => if m ∧ q then unboundTrack now x else x) ∘
      fun x => if m ∧ p then unboundTrack now x else x) x
      = if m ∧ (p ∨ q) then unboundTrack now x else x := by
  by_cases hm : m <;> by_cases hp : p <;> by_cases hq : q <;>
    simp only [Function.comp, hm, hp, hq, and_self, and_true, and_false, or_true, or_false,
      if_true, if_false, unboundTrack_unboundTrack]

/-- A change of one aisle and then of others. -/
theorem ChangedModes.cons {m : Mode} {a : Aisle} {l : List Aisle} {s v t : State} (ha : a ∉ l)
    (h : ChangedModes m [a] s v) (k : ChangedModes m l v t) : ChangedModes m (a :: l) s t := by
  have hne (b : Aisle) (hb : b ∈ l) : b ∉ [a] := fun h => ha (List.mem_singleton.1 h ▸ hb)
  have hstored (b : Aisle) (hb : b ∈ l) : v.modes.stored[b] = s.modes.stored[b] :=
    (h.stored b).trans (if_neg (hne b hb))
  have haisle (b : Aisle) (hb : b ∈ l) : v.passages.aisles[b] = s.passages.aisles[b] :=
    (h.aisle b).trans (if_neg fun hx => hne b hb hx.1)
  have hopens (b : Aisle) (hb : b ∈ l) : v.opens b = s.opens b :=
    congrArg AisleRecord.opens (haisle b hb)
  refine ⟨fun b => ?_, k.evac.trans h.evac, fun b => ?_, k.next.trans h.next, fun i => ?_,
    fun b => ?_, fun u hl hc => ?_, h.frame.trans k.frame⟩
  · rw [k.stored, h.stored]
    by_cases hl : b ∈ l
    · rw [if_pos hl, if_pos (List.mem_cons_of_mem a hl)]
    · rw [if_neg hl]
      exact if_congr (by rw [List.mem_singleton, List.mem_cons, or_iff_left hl]) rfl rfl
  · rw [k.aisle, h.aisle]
    by_cases hl : b ∈ l
    · rw [hstored b hl, if_neg fun hx : b ∈ [a] ∧ _ => hne b hl hx.1]
      exact if_congr (and_congr_left fun _ => iff_of_true hl (List.mem_cons_of_mem a hl)) rfl rfl
    · rw [if_neg fun hx => hl hx.1]
      exact if_congr (and_congr_left fun _ => by
        rw [List.mem_singleton, List.mem_cons, or_iff_left hl]) rfl rfl
  · rw [k.tracks, h.tracks, Option.map_map, h.frame.clock (by decide)]
    have hsame : (∃ c ∈ l, v.modes.stored[c] = .watch ∧ ∃ q ∈ v.opens c, i ∈ q.items)
        ↔ ∃ c ∈ l, s.modes.stored[c] = .watch ∧ ∃ q ∈ s.opens c, i ∈ q.items :=
      exists_congr fun c => and_congr_right fun hcl => by rw [hstored c hcl, hopens c hcl]
    simp only [hsame, List.exists_mem_cons_iff, List.mem_singleton, exists_eq_left]
    congr 1
    funext x
    exact unbound_twice _ _ _ _ _
  · have hann := h.annunciators b
    rw [k.annunciators, hann]
    by_cases hl : b ∈ l
    · have heff : v.effective b = s.effective b := effective_of_modes h.evac (hstored b hl)
      rw [heff, if_neg fun hx : s.effective b = .guard ∧ ¬ s.effective b = .guard => hx.2 hx.1]
    · have heff : t.effective b = v.effective b :=
        effective_of_modes k.evac ((k.stored b).trans (if_neg hl))
      rw [heff, if_neg fun hx : v.effective b = .guard ∧ ¬ v.effective b = .guard => hx.2 hx.1]
  · rw [k.reports (reportAll (dismissals m [a] s) u) (h.reports u hl hc).symm
      (((reportAll_only _ u).clock (by decide)).trans (hc.trans (h.frame.clock (by decide)).symm)),
      dismissals_congr m hstored h.evac haisle (h.frame.clock (by decide)) (h.frame.bus (by decide)),
      dismissals_cons m a l s, reportAll, reportAll, reportAll, List.foldl_append]

theorem foldl_changeMode_changed (m : Mode) {l : List Aisle} (hl : l.Nodup) (s : State) :
    ChangedModes m l s (l.foldl (changeMode m) s) := by
  induction l generalizing s with
  | nil =>
    refine ⟨fun a => ?_, rfl, fun a => ?_, rfl, fun i => ?_, fun a => ?_, fun u hu _ => ?_,
      Only.refl _ s⟩
    · exact (if_neg List.not_mem_nil).symm
    · exact (if_neg fun h => List.not_mem_nil h.1).symm
    · have hn : ¬ (m = .off ∧ ∃ a ∈ ([] : List Aisle), s.modes.stored[a] = .watch
          ∧ ∃ q ∈ s.opens a, i ∈ q.items) := fun ⟨_, a, ha, _⟩ => List.not_mem_nil ha
      simp only [if_neg hn, Option.map_id', List.foldl_nil]
    · exact (if_neg fun h => h.2 h.1).symm
    · rw [dismissals_nil]
      exact hu.symm
  | cons a l ih =>
    obtain ⟨ha, hl⟩ := List.nodup_cons.1 hl
    exact (changeMode_changed m s a).cons ha (ih hl _)

/-! ## SET-MODE (R11) -/

theorem exec_setMode {s : State} {ref : Byte} {p : List Byte} (hd : s.dispatches)
    (hl : p.length = 2) :
    exec (.setMode ref p) s = .next (takeSetMode ref (byteAt p 0) (byteAt p 1) s.counted) :=
  exec_request (k := .setMode) rfl hd (beq_iff_eq.2 hl)

theorem takeSetMode_range {a b : Byte} (ref : Byte) (s : State)
    (h : namedAisles s.site.aisles a = none ∨ Mode.ofCode b = none) :
    takeSetMode ref a b s = reply .setMode ref .range [] s := by
  unfold takeSetMode
  split
  · next as m has hm =>
    rcases h with h | h
    · exact absurd (has.symm.trans h) nofun
    · exact absurd (hm.symm.trans h) nofun
  · rfl

section
variable {a b : Byte} {s : State} {as : List Aisle} {m : Mode} (ref : Byte)
  (has : namedAisles s.site.aisles a = some as) (hm : Mode.ofCode b = some m)
include has hm

theorem takeSetMode_sequence (h : ∃ x ∈ as, transition s.modes.stored[x] m = .refused) :
    takeSetMode ref a b s = reply .setMode ref .sequence [] s := by
  obtain ⟨x, hx, ht⟩ := h
  simp only [takeSetMode, has, hm]
  exact if_pos (List.any_eq_true.2 ⟨x, hx, by rw [ht]; rfl⟩)

theorem takeSetMode_changes (h : ∀ x ∈ as, transition s.modes.stored[x] m ≠ .refused) :
    takeSetMode ref a b s
      = reply .setMode ref .ok [] ((changedAisles s m as).foldl (changeMode m) s) := by
  simp only [takeSetMode, has, hm]
  refine if_neg fun hany => ?_
  obtain ⟨x, hx, ht⟩ := List.any_eq_true.1 hany
  exact h x hx (beq_iff_eq.1 ht)

end

theorem mem_changedAisles {s : State} {m : Mode} {as : List Aisle} {a : Aisle} :
    a ∈ changedAisles s m as ↔ a ∈ as ∧ transition s.modes.stored[a] m = .permitted := by
  rw [changedAisles, List.mem_filter, beq_iff_eq]

/-- An aisle that is set to OFF from WATCH is one of those that change. -/
theorem mem_changedAisles_off {s : State} {m : Mode} {as : List Aisle} {a : Aisle}
    (hw : s.modes.stored[a] = .watch) (hm : m = .off) :
    a ∈ changedAisles s m as ↔ a ∈ as := by
  rw [mem_changedAisles]
  exact and_iff_left (hm ▸ transition_off_permitted hw)

/-- A named aisle that does not change has the mode already. -/
theorem stored_of_unchanged {s : State} {m : Mode} {as : List Aisle} {a : Aisle} (ha : a ∈ as)
    (hn : a ∉ changedAisles s m as) (hr : transition s.modes.stored[a] m ≠ .refused) :
    s.modes.stored[a] = m := by
  rw [← transition_unchanged_iff]
  cases ht : transition s.modes.stored[a] m with
  | unchanged => rfl
  | refused => exact absurd ht hr
  | permitted => exact absurd (mem_changedAisles.2 ⟨ha, ht⟩) hn

/-- The dismissals of the aisles that change are those of the named ones in WATCH. -/
theorem dismissals_changedAisles (m : Mode) (as : List Aisle) (s : State) :
    dismissals m (changedAisles s m as) s = dismissals m as s := by
  by_cases hm : m = .off
  · have hfilter : (changedAisles s m as).filter (fun a => s.modes.stored[a] == .watch)
        = as.filter fun a => s.modes.stored[a] == .watch := by
      rw [changedAisles, List.filter_filter]
      refine List.filter_congr fun a _ => ?_
      cases hw : s.modes.stored[a] == .watch with
      | false => rfl
      | true =>
        rw [hm, transition_off_permitted (beq_iff_eq.1 hw)]
        rfl
    rw [dismissals, dismissals, hfilter]
  · rw [dismissals, dismissals, if_neg hm, if_neg hm]

theorem changedAisles_counted (s : State) (m : Mode) (as : List Aisle) :
    changedAisles s.counted m as = changedAisles s m as := by
  rw [changedAisles, changedAisles, counted_modes]

theorem dismissals_counted (m : Mode) (l : List Aisle) (s : State) :
    dismissals m l s.counted = dismissals m l s :=
  dismissals_congr m (fun _ _ => by rw [counted_modes]) (by rw [counted_modes])
    (fun _ _ => by rw [counted_passages]) (counted_clock s) (counted_bus s)

/-- Settles O10: the aisles that change are changed one after another. -/
theorem setModeStepsEveryNamedAisleOrNone : Obligations.SetModeStepsEveryNamedAisleOrNone := by
  intro s ref p hd hl
  rw [exec_setMode hd hl]
  refine ⟨fun h => ?_, fun as m has hm => ?_⟩
  · rw [takeSetMode_range (s := s.counted) ref (by rwa [counted_site])]
    rfl
  have hnodup : (changedAisles s m as).Nodup := (namedAisles_nodup has).filter _
  have hasc : namedAisles s.counted.site.aisles (byteAt p 0) = some as := by rwa [counted_site]
  refine ⟨fun ⟨a, ha, h⟩ => ?_, fun h => ?_⟩
  · rw [takeSetMode_sequence ref hasc hm
      ⟨a, ha, by rw [counted_modes]; exact (transition_refused_iff _ _).2 h⟩]
    rfl
  have hpermitted (a : Aisle) (ha : a ∈ as) : transition s.modes.stored[a] m ≠ .refused :=
    fun hr => ((transition_refused_iff _ _).1 hr).elim (h a ha).1 (h a ha).2
  rw [takeSetMode_changes ref hasc hm (by rwa [counted_modes]), changedAisles_counted]
  have hc := foldl_changeMode_changed m hnodup s.counted
  generalize (changedAisles s m as).foldl (changeMode m) s.counted = v at *
  have hr := reply_only .setMode ref .ok [] v
  have hstored := hc.stored
  have haisle := hc.aisle
  have htracks := hc.tracks
  have hann := hc.annunciators
  simp only [counted_modes, counted_passages, counted_track?, counted_opens, counted_clock,
    counted_effective, counted_annunciators] at hstored haisle htracks hann
  refine ⟨_, rfl, fun a => ?_, ?_, fun a ha hw hoff => ?_, fun a hn => ?_, ?_, fun i => ?_,
    fun a => ?_, ?_, ?_⟩
  · refine (hstored a).trans ?_
    by_cases ha : a ∈ as
    · rw [if_pos ha]
      by_cases hch : a ∈ changedAisles s m as
      · exact if_pos hch
      · rw [if_neg hch]
        exact stored_of_unchanged ha hch (hpermitted a ha)
    · rw [if_neg ha]
      exact if_neg fun hch => ha (mem_changedAisles.1 hch).1
  · exact hc.evac.trans (by rw [counted_modes])
  · have hempty := (haisle a).trans
      (if_pos ⟨(mem_changedAisles_off hw hoff).2 ha, hw, hoff⟩)
    exact ⟨congrArg AisleRecord.opens hempty, congrArg AisleRecord.crowded hempty⟩
  · exact (haisle a).trans (if_neg fun hx =>
      hn ⟨(mem_changedAisles.1 hx.1).1, hx.2.1, hx.2.2⟩)
  · exact hc.next.trans (by rw [counted_passages])
  · refine (hr.track? (by decide) i).trans ((htracks i).trans ?_)
    have hsame : (m = .off ∧ ∃ a ∈ changedAisles s m as, s.modes.stored[a] = .watch
          ∧ ∃ q ∈ s.opens a, i ∈ q.items)
        ↔ m = .off ∧ ∃ a ∈ as, s.modes.stored[a] = .watch ∧ ∃ q ∈ s.opens a, i ∈ q.items :=
      and_congr_right fun hoff => exists_congr fun a =>
        ⟨fun ⟨ha, hw, hx⟩ => ⟨(mem_changedAisles_off hw hoff).1 ha, hw, hx⟩,
          fun ⟨ha, hw, hx⟩ => ⟨(mem_changedAisles_off hw hoff).2 ha, hw, hx⟩⟩
    simp only [hsame]
  · rw [hr.effective (by decide)]
    exact hann a
  · refine reply_link .setMode ref .ok [] ?_
    rw [hc.reports s.counted rfl rfl, dismissals_counted, dismissals_changedAisles]
    rfl
  · exact Only.of_counted ((hc.frame.mono (by decide)).trans (hr.mono (by decide))) (by decide)
      (by decide)

end Sys2Proof.Machine
end
